-- ==== Sys2Proof/Word.lean ====
section
/-! DEFINITION. The byte and the plain numbers of the FG-208 (chapter "Conventions" of 00_scope.md). -/

namespace Sys2Proof

/-- One character of a serial link, or one byte of image memory. -/
abbrev Byte := BitVec 8

/-- A yard time: milliseconds since power-on reset (R156). -/
abbrev Time := Nat

/-- The largest 64-bit count, which DEPART_SET refuses (R157). -/
def allOnes64 : Nat := 18446744073709551615

/-- The largest 32-bit count, at which the terms of R115 saturate. -/
def max32 : Nat := 4294967295

end Sys2Proof
end

