-- ==== Sys2Proof/Machine/Bytes.lean ====
section
/-! DEFINITION. Byte order of multi-byte fields (most significant byte first: section 4.2 and section 11.2) and
the two check functions: the CRC-16 of R62 and the CRC-32 of R51. -/

namespace Sys2Proof.Machine

/-- The number that a run of bytes stands for, most significant byte first. -/
def beNat (bs : List Byte) : Nat :=
  bs.foldl (fun acc b => acc * 256 + b.toNat) 0

/-- The `len` bytes of a body at offset `off`, as a number. -/
def field (body : List Byte) (off len : Nat) : Nat :=
  beNat ((body.drop off).take len)

/-- A number as `len` bytes, most significant byte first. -/
def toBytes : Nat → Nat → List Byte
  | 0, _ => []
  | len + 1, n => toBytes len (n / 256) ++ [BitVec.ofNat 8 n]

/-- One bit of the CRC-16: polynomial 0x1021, most significant bit first (R62). -/
def crc16Bit (r : BitVec 16) : BitVec 16 :=
  if r.msb then (r <<< 1) ^^^ 0x1021#16 else r <<< 1

/-- One byte of the CRC-16. -/
def crc16Byte (r : BitVec 16) (b : Byte) : BitVec 16 :=
  Nat.repeat crc16Bit 8 (r ^^^ (b.setWidth 16 <<< 8))

/-- The frame check of both serial links: start 0xFFFF, no reflection, no final XOR (R62). -/
def crc16 (bs : List Byte) : BitVec 16 :=
  bs.foldl crc16Byte 0xFFFF#16

/-- One bit of the CRC-32: polynomial 0x04C11DB7 reflected, least significant bit first (R51). -/
def crc32Bit (r : BitVec 32) : BitVec 32 :=
  if r.getLsbD 0 then (r >>> 1) ^^^ 0xEDB88320#32 else r >>> 1

/-- One byte of the CRC-32. -/
def crc32Byte (r : BitVec 32) (b : Byte) : BitVec 32 :=
  Nat.repeat crc32Bit 8 (r ^^^ b.setWidth 32)

/-- The register of the CRC-32 before the first byte (R51). -/
def crc32Start : BitVec 32 := 0xFFFFFFFF#32

/-- Folds a run of bytes into the CRC-32 register. -/
def crc32Fold (r : BitVec 32) (bs : List Byte) : BitVec 32 :=
  bs.foldl crc32Byte r

/-- The digest that a register value stands for: the final XOR of R51. -/
def crc32Digest (r : BitVec 32) : BitVec 32 := r ^^^ 0xFFFFFFFF#32

/-- The image digest of R51. -/
def crc32 (bs : List Byte) : BitVec 32 := crc32Digest (crc32Fold crc32Start bs)

end Sys2Proof.Machine
end

