-- ==== Sys2Proof/Config.lean ====
section
/-! DEFINITION. The values that the manual leaves open. -/

namespace Sys2Proof

/-- A free value: which order of the eight bays the n-th event takes in which several bays act together. R183
states that postings of different blocks reach the event block in either order and fixes no order among bays.
`Machine.bayOrder` turns the number into an order. Nothing constrains it (notes/assumptions/7.md). -/
opaque Config.freeBayOrder : Nat → Nat

end Sys2Proof
end

