-- ==== Sys2Proof/Syntax.lean ====
section
/-! DEFINITION. The commands of the FG-208: one constructor for each row of spec/opcode_table.json.
The table gives the rows no operands. Each constructor carries what the event or request brings from outside
the part: the bay or port it happens at, the levels of pins, the characters of a frame. -/

namespace Sys2Proof

/-- A bay, 0 to 7 ("Numbering", 00_scope.md). -/
abbrev BayId := Fin 8

/-- A supervisor port, SP0 to SP2. -/
abbrev PortId := Fin 3

/-- A port's permission class, sampled from its strap pins (R177). -/
inductive Role where
  | image | dispatch | service | unassigned
  deriving DecidableEq, Repr

/-- The strapped size of image memory (R40). -/
inductive MemSize where
  | mib64 | mib128 | mib256
  deriving DecidableEq, Repr

/-- One command of the block: an event that reaches it or a request frame that a port has received whole.
A request carries its body as received, so that the checks of R177 and R178 belong to its meaning. -/
inductive Instr where
  -- the whole part
  | powerOnReset (role0 role1 role2 : Role) (size : MemSize)
  | yardTimeTick (presentPins ignitionPins : BitVec 8)
  -- bay events
  | presentRise (bay : BayId)
  | detach (bay : BayId)
  | ignitionRise (bay : BayId)
  | ignitionFall (bay : BayId)
  | deadlineReached (bay : BayId)
  -- bay line events
  | frameSent (bay : BayId)
  | replyReceived (bay : BayId) (frame : List Byte)
  | replyTimeout (bay : BayId)
  | replyCharacterTimeout (bay : BayId)
  | pollIntervalEnd (bay : BayId)
  | confirmPollDue (bay : BayId)
  | confirmationDeadline (bay : BayId) (addr : Nat)
  | activationNotice (bay : BayId)
  -- image memory completions
  | blockReadDone (bay : BayId)
  | uploadWriteDone (port : PortId)
  | verifyReadDone
  -- port frames and pins
  | frameCrcError (port : PortId) (code : Byte) (body : List Byte) (crc : BitVec 16)
  | frameLengthError (port : PortId) (code : Byte) (length : BitVec 16)
  | frameCharacterTimeout (port : PortId)
  | discardQuiet (port : PortId)
  | busyFrame (port : PortId) (code : Byte) (body : List Byte)
  | unknownRequest (port : PortId) (code : Byte) (body : List Byte)
  | responseSent (port : PortId)
  | portReset (port : PortId)
  | portResetRelease (port : PortId)
  -- requests
  | nop (port : PortId) (body : List Byte)
  | timeRead (port : PortId) (body : List Byte)
  | evtRead (port : PortId) (body : List Byte)
  | evtAck (port : PortId) (body : List Byte)
  | evtMask (port : PortId) (body : List Byte)
  | imgBegin (port : PortId) (body : List Byte)
  | imgData (port : PortId) (body : List Byte)
  | imgFinish (port : PortId) (body : List Byte)
  | imgAbandon (port : PortId) (body : List Byte)
  | imgRetire (port : PortId) (body : List Byte)
  | imgPurge (port : PortId) (body : List Byte)
  | imgPin (port : PortId) (body : List Byte)
  | imgQuery (port : PortId) (body : List Byte)
  | planClear (port : PortId) (body : List Byte)
  | planPutRule (port : PortId) (body : List Byte)
  | planActivate (port : PortId) (body : List Byte)
  | planQuery (port : PortId) (body : List Byte)
  | fleetQuery (port : PortId) (body : List Byte)
  | fitQuery (port : PortId) (body : List Byte)
  | fleetForget (port : PortId) (body : List Byte)
  | bayStatus (port : PortId) (body : List Byte)
  | bayConfig (port : PortId) (body : List Byte)
  | bayEnableOff (port : PortId) (body : List Byte)
  | bayEnableOn (port : PortId) (body : List Byte)
  | bayReset (port : PortId) (body : List Byte)
  | departSet (port : PortId) (body : List Byte)
  | departClear (port : PortId) (body : List Byte)
  | departNow (port : PortId) (body : List Byte)
  | hold (port : PortId) (body : List Byte)
  | unholdOwn (port : PortId) (body : List Byte)
  | unholdRule (port : PortId) (body : List Byte)
  | cutoffClear (port : PortId) (body : List Byte)
  | jobQuery (port : PortId) (body : List Byte)
  | yardReset (port : PortId) (body : List Byte)
  -- the end of a YARD_RESET's OK
  | controllerReset (port : PortId)
  deriving DecidableEq, Repr

end Sys2Proof
end

