-- ==== Sys2Proof/Machine/State.lean ====
section
/-! DEFINITION. The state of the FG-208: every record, register, queue, indication and pin that spec/ gives the
part, as plain data. INVENTORY.md lists each piece with its rule and its reset value. Values that the manual
defines as equal to others (use counts, the segment map, the binding of a bay, the stop reason) are computed from
their one home (notes/assumptions/13.md). -/

namespace Sys2Proof.Machine

/-- Who raises it: an upload write, a block read or a verification read whose byte maps to no byte of image
memory (R40, R42). Safe: the machine stops where the manual gives no such access. -/
inductive Fault where
  /-- Raised by UPLOAD_WRITE_DONE, BLOCK_READ_DONE, VERIFY_READ_DONE and by the resets that complete a granted
  write, when an image byte lies outside image memory. Safe: no state that keeps R40 reaches it. -/
  | imageAddressAbsent
  deriving DecidableEq, Repr

/-- Why a command has no meaning. -/
inductive Refusal where
  /-- A command without a meaning in the model: raised by its arm of `exec` alone. Safe. No arm raises it now. -/
  | notModelled (mnemonic : String)
  deriving DecidableEq, Repr

/-! ### Versions, identities and the fleet table (chapter 1) -/

/-- A version triple (R2). -/
structure Version where
  major : Nat
  minor : Nat
  build : Nat
  deriving DecidableEq, Repr

/-- Version 0.0.0: no firmware or unknown (R2). -/
def Version.zero : Version := ⟨0, 0, 0⟩

/-- Condition of a unit's standby bank (section 1.3). -/
inductive StandbyState where
  | blank | partlyReceived | complete | verified
  deriving DecidableEq, Repr

/-- A unit identity record (section 1.3). -/
structure Identity where
  cls : Nat
  revision : BitVec 16
  serial : Nat
  fleet : Nat
  active : Version
  standbyImage : Nat
  standbyVersion : Version
  standbyState : StandbyState
  capacity : Nat
  deriving DecidableEq, Repr

/-- A plan decision (R23 to R27). `noRule` is the manual's NONE. -/
inductive Decision where
  | noRule | current | census | flash | downgradeBlocked | bankTooSmall | prereqWait
  deriving DecidableEq, Repr

/-- A unit's reason in a REJECT reply (section 4.2.1). -/
inductive RejectReason where
  | tooLarge | wrongClass | mismatch | notComplete | notVerified | bankLocked
  deriving DecidableEq, Repr

/-- The reason of a FAULTED progress value (section 6.2). -/
inductive FaultReason where
  | noReply | notReadyLimit | rejected (reason : RejectReason) | digest | gapsLimit | switchFailed
  deriving DecidableEq, Repr

/-- The progress values of a job unit (section 6.2). -/
inductive Progress where
  | pending | opening | receiving | repairing | checking | verified | switching | confirming | switched
  | deferredNoTime | deferredFault | faulted (reason : FaultReason) | cut
  deriving DecidableEq, Repr

/-- A bay line command (section 4.2.1). -/
inductive LineCommand where
  | identify | openBank | block | gaps | check | switch
  deriving DecidableEq, Repr

/-- A slot record of a bus (section 1.4.2). -/
structure Slot where
  addr : Nat
  cls : Nat
  revision : BitVec 16
  serial : Nat
  active : Version
  standbyImage : Nat
  standbyVersion : Version
  standbyState : StandbyState
  lastDecision : Option Decision
  lastProgress : Option Progress
  censusRule : Option Nat
  deriving DecidableEq, Repr

/-- An unconfirmed member of a split entry: a line address with the version planned for it (R8). -/
structure Unconfirmed where
  addr : Nat
  version : Version
  deriving DecidableEq, Repr

/-- A split entry (section 1.4.3). -/
structure Split where
  group : Nat
  images : List Nat
  members : List Unconfirmed
  deriving DecidableEq, Repr

/-- A bus record (section 1.4.1). -/
structure BusRecord where
  fleet : Nat
  atBay : Option BayId
  lastVisit : Time
  evaluated : Option Nat
  stale : Nat
  slots : List Slot
  splits : List Split
  deriving DecidableEq, Repr

/-! ### Plans (chapter 2) -/

/-- What a rule does to a unit it decides (section 2.2). -/
inductive RuleAction where
  | census | flash | flashHold
  deriving DecidableEq, Repr

/-- The kind of a rule's serial condition (section 2.2). Low and high are kept for every kind (R178). -/
inductive SerialKind where
  | any | equal | inside | outside
  deriving DecidableEq, Repr

/-- A prerequisite: another class at a minimum version (section 2.2). -/
structure Prereq where
  cls : Nat
  minimum : Version
  deriving DecidableEq, Repr

/-- A target rule (section 2.2). -/
structure Rule where
  action : RuleAction
  cls : Nat
  revision : BitVec 16
  careMask : BitVec 16
  serialKind : SerialKind
  low : Nat
  high : Nat
  image : Option Nat
  allowDowngrade : Bool
  group : Nat
  prereq : Option Prereq
  deriving DecidableEq, Repr

/-- The two plans, the match counters and the generation (R20). -/
structure PlanStore where
  standby : Vector (Option Rule) 64
  active : Vector (Option Rule) 64
  counters : Vector Nat 64
  generation : Nat
  deriving DecidableEq, Repr

/-! ### The image store (chapter 3) -/

/-- The state of a catalogue entry (section 3.4). -/
inductive ImageState where
  | loading | verifying | ready | broken
  deriving DecidableEq, Repr

/-- A catalogue entry (section 3.2). Its block count, segment count and use count are computed. -/
structure Entry where
  id : Nat
  version : Version
  cls : Nat
  length : Nat
  crc : BitVec 32
  state : ImageState
  pinned : Bool
  segments : List Nat
  uploadPort : Option PortId
  deriving DecidableEq, Repr

/-- The access that the arbiter is carrying out (R58). `live` is clear once the bay or the engine that asked for
it has stopped, so that what it reads is discarded (R58, section 3.9). -/
inductive Grant where
  | bayRead (bay : BayId) (image block : Nat) (live : Bool)
  | portWrite (port : PortId) (chunk : List Byte)
  | verifyRead (live : Bool)
  deriving DecidableEq, Repr

/-- The verification engine (R50): its queue, the bytes of the head image folded so far and the CRC-32 register. -/
structure Verifier where
  queue : List Nat
  offset : Nat
  crc : BitVec 32
  deriving DecidableEq, Repr

/-- Image memory: (byte address, byte) cells in rising address order, none of them 0. A byte not listed reads as 0
(notes/assumptions/3.md). -/
abbrev Memory := List Host.Cell

/-- The image store. -/
structure ImageStore where
  segmentCount : Nat
  catalogue : Vector (Option Entry) 32
  pointer : Nat
  mem : Memory
  verifier : Verifier
  granted : Option Grant
  searchFrom : Nat
  deriving DecidableEq, Repr

/-! ### Events (chapter 12) -/

/-- The fifteen event kinds (section 12.1), in the order of their numbers. -/
inductive EventKind where
  | bayAttached | bayDetached | bayAnomaly | bayDone | bayCutoff | deadlineWarn | ignitionChange | unitFault
  | unitChanged | groupSwitched | groupSplit | imageReady | imageBroken | planActivated | busEvicted
  deriving DecidableEq, Repr

/-- An event's subject (section 12.1). -/
inductive Subject where
  | bay (bay : BayId)
  | bayUnit (bay : BayId) (addr : Nat)
  | fleetUnit (fleet addr : Nat)
  | bayGroup (bay : BayId) (group : Nat)
  | image (id : Nat)
  | generation (n : Nat)
  | bus (fleet : Nat)
  deriving DecidableEq, Repr

/-- One entry of a pending set (R183). -/
structure EventEntry where
  count : Nat
  subject : Option Subject
  deriving DecidableEq, Repr

/-! ### Bay records (chapters 4 to 10) -/

/-- The ten bay states (R78). -/
inductive BayState where
  | disabled | empty | enumerating | planning | anonymous | duplicate | transferring | switching | done | cutoff
  deriving DecidableEq, Repr

/-- The deadline mode of a bay (section 5.2). -/
inductive DeadlineMode where
  | stop | warn
  deriving DecidableEq, Repr

/-- A bay's configuration record (section 5.2). -/
structure BayConfig where
  speed : Nat
  guardTime : Nat
  tOpen : Nat
  tCheck : Nat
  tSwitch : Nat
  replyTimeout : Nat
  retries : Nat
  pollInterval : Nat
  notReadyLimit : Nat
  filterLength : Nat
  ignitionCutoff : Bool
  mode : DeadlineMode
  deriving DecidableEq, Repr

/-- A sense filter (R84): filtered value, run count, and whether a change has been accepted that the bay has not yet
taken (notes/assumptions/8.md). -/
structure Filter where
  value : Bool
  run : Nat
  accepted : Bool
  deriving DecidableEq, Repr

/-- A hold set: a subset of SP0, SP1, SP2 and RULE (R168). -/
structure HoldSet where
  sp0 : Bool
  sp1 : Bool
  sp2 : Bool
  rule : Bool
  deriving DecidableEq, Repr

/-- The cause of a cutoff (R163). -/
inductive CutoffCause where
  | ignition | deadline | departNow
  deriving DecidableEq, Repr

/-- A member kind (R101). -/
inductive MemberKind where
  | fresh | resume | checkOnly
  deriving DecidableEq, Repr

/-- A range of block numbers in a GAPS reply (section 4.2.1). -/
structure Range where
  first : Nat
  count : Nat
  deriving DecidableEq, Repr

/-- What a unit's standby bank is known to hold (R98). -/
structure Standby where
  image : Nat
  version : Version
  state : StandbyState
  deriving DecidableEq, Repr

/-- A unit's planned image and version (R25). -/
structure Planned where
  image : Nat
  version : Version
  deriving DecidableEq, Repr

/-- A unit's fault record (section 6.2, R139). -/
structure FaultRecord where
  reason : FaultReason
  command : LineCommand
  block : Option Nat
  deriving DecidableEq, Repr

/-- A job unit record (section 6.2). `claim` is the image on which the unit holds a claim (R53); `openedBlocks` is the
block count of the last OPEN sent to the unit since the current planning started (R63, item 6). -/
structure JobUnit where
  addr : Nat
  identity : Identity
  knownActive : Version
  knownStandby : Standby
  decision : Option Decision
  rule : Option Nat
  planned : Option Planned
  group : Nat
  holdAfter : Bool
  kind : Option MemberKind
  missing : Option Nat
  progress : Option Progress
  gaps : List Range
  more : Bool
  repairSent : Nat
  refetchUsed : Bool
  fault : Option FaultRecord
  claim : Option Nat
  openedBlocks : Option Nat
  deriving DecidableEq, Repr

/-- The phase of a pass (section 8.1). -/
inductive Phase where
  | waiting | opening | streaming | repairing | checking | ended
  deriving DecidableEq, Repr

/-- The choice of blocks to stream, recorded at admission (R116). -/
inductive StreamChoice where
  | checkOnly | fromMissing | fromB
  deriving DecidableEq, Repr

/-- A pass record (R105, section 8.1). The last seven fields are what the rules imply: the join flag of the pass's
OPENs (R127), the members the phase has yet to serve, the blocks still to send to the repair member (R132), and the
bookkeeping of the gap ratio sample (R123) and of refetch passes (R137). -/
structure Pass where
  image : Nat
  members : List Nat
  group : Nat
  lowestRule : Nat
  phase : Phase
  nextBlock : Nat
  activeTime : Nat
  streamed : Nat
  choice : Option StreamChoice
  streamAddr : Option Nat
  repairMember : Option Nat
  phaseComplete : Bool
  join : Bool
  todo : List Nat
  toSend : List Range
  firstGaps : Bool
  answered : Nat
  missingSum : Nat
  sampleDue : Bool
  refetched : Nat
  deriving DecidableEq, Repr

/-- A switch-group record (section 9.1). -/
structure GroupRecord where
  group : Nat
  members : List Nat
  images : List Nat
  faulted : Bool
  ended : Bool
  sent : List Nat
  deriving DecidableEq, Repr

/-- A member in the confirmation round: its deadline and its poll due time (R146, R147). -/
structure Poll where
  addr : Nat
  deadline : Time
  due : Time
  deriving DecidableEq, Repr

/-- The switch in flight (R145). `soloSent` is the sent list of a group 0 unit's own switch (R142); a group from 1 to
7 keeps its sent list in its switch-group record. -/
structure Switch where
  group : Nat
  members : List Nat
  todo : List Nat
  polls : List Poll
  soloSent : List Nat
  deriving DecidableEq, Repr

/-- A planning under way: its generation and the units whose GAPS is still to be offered (R99, R102). -/
structure Planning where
  generation : Nat
  gapsList : List Nat
  deriving DecidableEq, Repr

/-- A request frame's content (section 4.2.1). -/
inductive LineRequest where
  | identify (addr : Nat)
  | openBank (addr image : Nat) (version : Version) (length blocks : Nat) (join resume : Bool)
  | block (addr number : Nat) (data : List Byte)
  | gaps (addr : Nat)
  | check (addr : Nat)
  | switch (addr : Nat)
  deriving DecidableEq, Repr

/-- The activity of the bay that offered a request (section 4.4). -/
inductive Activity where
  | sweep | planning | pass | switch | confirm
  deriving DecidableEq, Repr

/-- The states of the transaction engine (section 4.4). -/
inductive EngineState where
  | idle | sending | awaiting | pollWait
  deriving DecidableEq, Repr

/-- A transaction (R70 to R72). `speed` is the line speed code of the frame in progress or the reply awaited (R60).
`started` says that the first character of its frame has started on the line (R142, notes/assumptions/32.md).
`drained` marks an attempt whose result is discarded, by a stop (R75) or an abandonment (R76). -/
structure Transaction where
  request : LineRequest
  activity : Activity
  retries : Nat
  polls : Nat
  speed : Nat
  started : Bool
  drained : Bool
  deriving DecidableEq, Repr

/-- A bay's transaction engine (section 4.4). `timerEnd` is the yard time at which the reply timeout or the poll
interval ends; `pollEnded` says that a poll interval has ended while the pass was paused (R72); `pollHeld` says that the
hold set became non-empty while the engine was in the POLL_WAIT that it is in, so that the pass is paused there (R131). -/
structure Engine where
  state : EngineState
  transaction : Option Transaction
  offered : Option (LineRequest × Activity)
  timerEnd : Time
  pollEnded : Bool
  pollHeld : Bool
  deriving DecidableEq, Repr

/-- A block that the stream reader waits for: image and block number (R42). -/
structure BlockRead where
  image : Nat
  block : Nat
  deriving DecidableEq, Repr

/-- A bay's stream reader (R74): the read waiting at the arbiter, and the block read and not yet sent. -/
structure Reader where
  waiting : Option BlockRead
  buffer : Option (Nat × List Byte)
  deriving DecidableEq, Repr

/-- One bay engine ("Block overview", 00_scope.md; chapters 4 to 10). -/
structure Bay where
  state : BayState
  config : BayConfig
  presentFilter : Filter
  ignitionFilter : Filter
  holds : HoldSet
  cutoff : Option CutoffCause
  pendingCutoff : Option CutoffCause
  departure : Option Time
  cutoffTime : Option Time
  warned : Bool
  rate : Nat
  gapRatio : Nat
  units : List JobUnit
  passes : List Pass
  groups : List GroupRecord
  switching : Option Switch
  sweepAt : Option Nat
  planning : Option Planning
  replanPending : Bool
  notices : Nat
  engine : Engine
  reader : Reader
  deriving DecidableEq, Repr

/-! ### Responses (chapter 11) -/

/-- The status codes (section 11.4). -/
inductive Status where
  | ok | accepted | busy | frameError | unknownRequest | role | badArg
  | noUpload | uploadOpen | overrun | short | noSpace | noEntry | dupId | notFound | inUse | inPlan
  | pinned | imageState | classMismatch | bayActive | disabled | noBus | notStopped | ignitionOn | atBay
  deriving DecidableEq, Repr

/-- The fitness of a bus (R18). -/
inductive Fitness where
  | split | unknown | stale | current
  deriving DecidableEq, Repr

/-- The stop reason of a bay (R171). -/
inductive StopReason where
  | disabled | cutoff (cause : CutoffCause) | hold | noTime | unstopped
  deriving DecidableEq, Repr

/-- One entry of EVT_READ's and EVT_ACK's responses: kind number, count, last subject (R185). -/
structure EventReport where
  kind : Nat
  count : Nat
  subject : Option Subject
  deriving DecidableEq, Repr

/-- What IMG_QUERY reports of an entry (R57). -/
structure ImageReport where
  position : Nat
  entry : Entry
  blocks : Nat
  useCount : Nat
  cursor : Option Nat
  deriving DecidableEq, Repr

/-- The current pass as BAY_STATUS reports it (R91). -/
structure PassReport where
  image : Nat
  phase : Phase
  nextBlock : Nat
  streamed : Nat
  activeTime : Nat
  members : List Nat
  deriving DecidableEq, Repr

/-- The number of job units in each progress value, DEFERRED and FAULTED each counted together (R91). -/
structure ProgressCounts where
  pending : Nat
  opening : Nat
  receiving : Nat
  repairing : Nat
  checking : Nat
  verified : Nat
  switching : Nat
  confirming : Nat
  switched : Nat
  deferred : Nat
  faulted : Nat
  cut : Nat
  unset : Nat
  deriving DecidableEq, Repr

/-- The response of BAY_STATUS (R91). -/
structure BayReport where
  state : BayState
  stopReason : StopReason
  cutoffFlag : Bool
  cutoffCause : Option CutoffCause
  holds : HoldSet
  departure : Option Time
  cutoffTime : Option Time
  rate : Nat
  gapRatio : Nat
  present : Bool
  ignition : Bool
  boundFleet : Option Nat
  pass : Option PassReport
  switchGroup : Option Nat
  counts : ProgressCounts
  lineBusy : Bool
  config : BayConfig
  deriving DecidableEq, Repr

/-- A response body, as named fields (section 11.2; notes/assumptions/11.md). -/
inductive Body where
  | none
  | code (code : Byte)
  | time (t : Time)
  | events (enable : BitVec 16) (entries : List EventReport)
  | enableSet (enable : BitVec 16)
  | reserved (position free : Nat)
  | cursor (n : Nat)
  | removed (n : Nat)
  | pin (flag : Bool)
  | free (n : Nat)
  | emptyPosition (free : Nat)
  | image (report : ImageReport) (free : Nat)
  | slot (n : Nat)
  | generation (n : Nat)
  | rule (generation : Nat) (rule : Option Rule) (counter : Option Nat)
  | bus (record : BusRecord)
  | fitness (value : Fitness) (atBay : Option BayId) (stale : Nat)
  | bay (report : BayReport)
  | config (record : BayConfig)
  | departure (departure cutoffTime : Time)
  | unit (record : JobUnit)
  deriving DecidableEq, Repr

/-- What a response answers: the request in progress, a YARD_RESET (whose end starts a controller reset, R181), or a
refused frame (R176). -/
inductive ResponseKind where
  | answer | resetAnswer | refusal
  deriving DecidableEq, Repr

/-- A response frame's content (section 11.2). -/
structure Response where
  kind : ResponseKind
  status : Status
  body : Body
  deriving DecidableEq, Repr

/-- The states of a receive framer (R173). -/
inductive Framer where
  | hunt | header | body | discard
  deriving DecidableEq, Repr

/-- An upload context (R45). -/
structure Upload where
  image : Nat
  cursor : Nat
  deriving DecidableEq, Repr

/-- One supervisor port with its event state (chapters 11 and 12). -/
structure Port where
  role : Role
  framer : Framer
  inReset : Bool
  inProgress : Bool
  sending : Option Response
  waiting : List Response
  upload : Option Upload
  write : Option (List Byte)
  events : Vector EventEntry 15
  enable : BitVec 16
  attention : Bool
  deriving DecidableEq, Repr

/-! ### The whole part -/

/-- The state of the part. `pending` is this row's queue of commands; `freeDraws` counts the free orders taken from
`Config.freeBayOrder` (notes/assumptions/7.md). -/
structure State where
  pending : List Instr
  freeDraws : Nat
  yardTime : Time
  ports : Vector Port 3
  store : ImageStore
  plans : PlanStore
  fleet : List BusRecord
  bays : Vector Bay 8
  deriving DecidableEq, Repr

/-! ### Power-on values -/

/-- The segments of a strapped memory size (R40). -/
def segmentsOf : MemSize → Nat
  | .mib64 => 1024
  | .mib128 => 2048
  | .mib256 => 4096

/-- The default configuration record (section 5.2, R79). -/
def BayConfig.default : BayConfig :=
  { speed := 1, guardTime := 300000, tOpen := 2000, tCheck := 40, tSwitch := 15000, replyTimeout := 50, retries := 3,
    pollInterval := 100, notReadyLimit := 600, filterLength := 5, ignitionCutoff := true, mode := .stop }

/-- A filter at its start: absent or off, run count 0 (R84). -/
def Filter.start : Filter := { value := false, run := 0, accepted := false }

/-- The empty hold set. -/
def HoldSet.none : HoldSet := { sp0 := false, sp1 := false, sp2 := false, rule := false }

/-- The transaction engine with no transaction (R77). -/
def Engine.start : Engine :=
  { state := .idle, transaction := none, offered := none, timerEnd := 0, pollEnded := false, pollHeld := false }

/-- A bay engine after power-on (R93). -/
def Bay.powerOn : Bay :=
  { state := .empty, config := BayConfig.default, presentFilter := Filter.start, ignitionFilter := Filter.start,
    holds := HoldSet.none, cutoff := none, pendingCutoff := none, departure := none, cutoffTime := none,
    warned := false, rate := 9600, gapRatio := 0, units := [], passes := [], groups := [], switching := none,
    sweepAt := none, planning := none, replanPending := false, notices := 0, engine := Engine.start,
    reader := { waiting := none, buffer := none } }

/-- An event entry with nothing pending (R183). -/
def EventEntry.clear : EventEntry := { count := 0, subject := none }

/-- A port after power-on with the role its straps give (R182, R186). -/
def Port.powerOn (role : Role) : Port :=
  { role := role, framer := .hunt, inReset := false, inProgress := false, sending := none, waiting := [],
    upload := none, write := none, events := Vector.replicate 15 EventEntry.clear, enable := 0, attention := false }

/-- The verification engine at rest (R50). -/
def Verifier.start : Verifier := { queue := [], offset := 0, crc := 0xFFFFFFFF#32 }

/-- The image store after power-on (R59). -/
def ImageStore.powerOn (size : MemSize) : ImageStore :=
  { segmentCount := segmentsOf size, catalogue := Vector.replicate 32 none, pointer := 0, mem := [],
    verifier := Verifier.start, granted := none, searchFrom := 0 }

/-- The plan store after power-on (R39). -/
def PlanStore.powerOn : PlanStore :=
  { standby := Vector.replicate 64 none, active := Vector.replicate 64 none, counters := Vector.replicate 64 0,
    generation := 0 }

/-- The part after power-on reset with the straps given (R93, R19, R39, R59, R77, R156, R182, R186). -/
def State.powerOn (role0 role1 role2 : Role) (size : MemSize) : State :=
  { pending := [], freeDraws := 0, yardTime := 0,
    ports := #v[Port.powerOn role0, Port.powerOn role1, Port.powerOn role2],
    store := ImageStore.powerOn size, plans := PlanStore.powerOn, fleet := [],
    bays := Vector.replicate 8 Bay.powerOn }

/-- The part right after power-on in a usual cabinet: SP0 IMAGE, SP1 DISPATCH, SP2 SERVICE and 64 MiB of image
memory. DESIGN CHOICE for the straps, unsafe (notes/assumptions/2.md). -/
def State.reset : State := State.powerOn .image .dispatch .service .mib64

end Sys2Proof.Machine
end

