-- ==== Sys2Proof/Machine/Flags.lean ====
section
/-! DEFINITION. The indications that the manual derives from other state: version order, the attention line, the held
and paused conditions, the line-busy indication, the deadline condition, the stop reason. -/

namespace Sys2Proof.Machine

/-- The version order of R2: majors first, then minors, then builds. -/
def Version.lt (a b : Version) : Bool :=
  a.major < b.major || (a.major == b.major && (a.minor < b.minor || (a.minor == b.minor && a.build < b.build)))

/-- `a` is lower than or equal to `b` (R2). -/
def Version.le (a b : Version) : Bool := !(b.lt a)

/-! ### Events -/

/-- The number of an event kind (section 12.1). -/
def EventKind.number : EventKind → Fin 15
  | .bayAttached => 0 | .bayDetached => 1 | .bayAnomaly => 2 | .bayDone => 3 | .bayCutoff => 4
  | .deadlineWarn => 5 | .ignitionChange => 6 | .unitFault => 7 | .unitChanged => 8 | .groupSwitched => 9
  | .groupSplit => 10 | .imageReady => 11 | .imageBroken => 12 | .planActivated => 13 | .busEvicted => 14

/-- The kind numbers in ascending order. -/
def kindNumbers : List (Fin 15) := [0, 1, 2, 3, 4, 5, 6, 7, 8, 9, 10, 11, 12, 13, 14]

/-- Whether the attention line is asserted: some kind is both enabled and pending with a count above 0 (R184). -/
def attentionOf (events : Vector EventEntry 15) (enable : BitVec 16) : Bool :=
  kindNumbers.any fun k => enable.getLsbD k.val && decide (0 < events[k].count)

/-! ### Bays -/

/-- The hold set is empty (R168). -/
def HoldSet.isEmpty (h : HoldSet) : Bool := !(h.sp0 || h.sp1 || h.sp2 || h.rule)

/-- Whether a port is in the hold set. -/
def HoldSet.has (h : HoldSet) (p : PortId) : Bool :=
  match p with
  | 0 => h.sp0
  | 1 => h.sp1
  | 2 => h.sp2

/-- The hold set with a port's membership set to `v`. -/
def HoldSet.put (h : HoldSet) (p : PortId) (v : Bool) : HoldSet :=
  match p with
  | 0 => { h with sp0 := v }
  | 1 => { h with sp1 := v }
  | 2 => { h with sp2 := v }

/-- The bay is held while its hold set is not empty (R170). -/
def Bay.held (y : Bay) : Bool := !y.holds.isEmpty

/-- A pass is in flight while its phase is OPEN, STREAM, REPAIR or CHECK (R125). -/
def Pass.inFlight (p : Pass) : Bool :=
  match p.phase with
  | .opening | .streaming | .repairing | .checking => true
  | .waiting | .ended => false

/-- The pass in flight, if any (R125). -/
def Bay.currentPass (y : Bay) : Option Pass := y.passes.find? Pass.inFlight

/-- The line is busy while the engine sends or awaits (section 4.4; R75, R77). -/
def Bay.lineBusy (y : Bay) : Bool :=
  match y.engine.state with
  | .sending | .awaiting => true
  | .idle | .pollWait => false

/-- A held pass is paused while no frame of it is being sent and no reply is awaited, and in a POLL_WAIT in which the hold
came. A transaction that was being sent or awaited when the hold came is taken to its outcome, its polls included: NOT-READY
is no outcome (R131, R127, R170; notes/assumptions/36.md). -/
def Bay.paused (y : Bay) : Bool :=
  y.held && y.currentPass.isSome && match y.engine.state with
    | .idle => true
    | .pollWait => y.engine.pollHeld
    | .sending | .awaiting => false

/-- The deadline condition: D present and yard time at or past C (R159). -/
def Bay.deadlineCondition (y : Bay) (now : Time) : Bool :=
  y.departure.isSome && match y.cutoffTime with
    | some c => decide (c ≤ now)
    | none => false

/-- The cutoff time for a departure under a guard: D less G, or 0 (R112). -/
def cutoffFor (departure guardTime : Nat) : Nat := departure - guardTime

/-- Some job unit shows DEFERRED(NO_TIME). -/
def Bay.hasNoTime (y : Bay) : Bool := y.units.any fun u => u.progress == some .deferredNoTime

/-- The stop reason, by rank (R171). -/
def Bay.stopReason (y : Bay) : StopReason :=
  if y.state = .disabled then .disabled
  else match y.cutoff with
    | some cause => .cutoff cause
    | none =>
      if y.held then .hold
      else if y.state = .done && y.hasNoTime then .noTime
      else .unstopped

/-- A switch in flight is reported by its group (R142). -/
def Bay.currentGroup (y : Bay) : Option Nat := y.switching.map (·.group)

/-- The line speed of a code in bit/s (section 5.2). -/
def lineSpeed : Nat → Nat
  | 0 => 57600
  | 1 => 115200
  | 2 => 230400
  | _ => 460800

/-- The nominal rate of a line speed code: the speed divided by 12, rounded down (R114). -/
def nominalRate (code : Nat) : Nat := lineSpeed code / 12

/-! ### Images -/

/-- A quotient rounded up. -/
def ceilDiv (a b : Nat) : Nat := (a + b - 1) / b

/-- The block count of an image (R41). -/
def Entry.blocks (e : Entry) : Nat := ceilDiv e.length 256

/-- The segment count of an image (R40). -/
def Entry.segmentNeed (e : Entry) : Nat := ceilDiv e.length 65536

/-- A progress value that ends a unit's part in the job: SWITCHED, FAULTED, CUT or DEFERRED(FAULT_IN_GROUP)
(R53, R88). -/
def Progress.final : Progress → Bool
  | .switched | .faulted _ | .cut | .deferredFault => true
  | _ => false

/-- A FAULTED progress value, whatever its reason. -/
def Progress.isFaulted : Progress → Bool
  | .faulted _ => true
  | _ => false

/-- The unit shows a FAULTED value. -/
def JobUnit.isFaulted (u : JobUnit) : Bool :=
  match u.progress with
  | some p => p.isFaulted
  | none => false

/-- The unit is decided FLASH. -/
def JobUnit.isFlash (u : JobUnit) : Bool := u.decision == some .flash

end Sys2Proof.Machine
end

