-- ==== Sys2Proof/Machine/Ops.lean ====
section
/-! DEFINITION. The named operations over the records of the part: reading and writing a bay, a port, a job unit, an
image byte, the catalogue and the fleet table, posting an event and producing a response. -/

namespace Sys2Proof.Machine

/-- What a command's meaning answers. -/
abbrev Result := Host.Outcome State Fault Refusal

/-! ### Bays and ports -/

/-- Bay `b` of the part. -/
def State.bay (s : State) (b : BayId) : Bay := s.bays[b]

/-- The part with bay `b` replaced. -/
def State.setBay (s : State) (b : BayId) (y : Bay) : State :=
  { s with bays := s.bays.set b.val y b.isLt }

/-- The part with bay `b` changed by `f`. -/
def State.modBay (s : State) (b : BayId) (f : Bay → Bay) : State := s.setBay b (f (s.bay b))

/-- Port `p` of the part. -/
def State.port (s : State) (p : PortId) : Port := s.ports[p]

/-- The part with port `p` replaced. -/
def State.setPort (s : State) (p : PortId) (t : Port) : State :=
  { s with ports := s.ports.set p.val t p.isLt }

/-- The part with port `p` changed by `f`. -/
def State.modPort (s : State) (p : PortId) (f : Port → Port) : State := s.setPort p (f (s.port p))

/-- The bays in ascending order. -/
def allBays : List BayId := [0, 1, 2, 3, 4, 5, 6, 7]

/-- The ports in ascending order. -/
def allPorts : List PortId := [0, 1, 2]

/-- Takes the members of a list in an order that a number chooses: the next one is at the remainder of the number by
the length, and the quotient chooses on. Every order of the list is the choice of some number. -/
def orderOf : Nat → List BayId → Nat → List BayId
  | 0, _, _ => []
  | fuel + 1, bays, n =>
    match bays[n % bays.length]? with
    | some b => b :: orderOf fuel (bays.eraseIdx (n % bays.length)) (n / bays.length)
    | none => []

/-- The order in which the bays act inside an event that several bays take part in: a free value
(notes/assumptions/7.md). -/
def State.bayOrder (s : State) : List BayId := orderOf 8 allBays (Config.freeBayOrder s.freeDraws)

/-- The part with one more free order drawn. -/
def State.drawOrder (s : State) : State := { s with freeDraws := s.freeDraws + 1 }

/-! ### Job units and passes -/

/-- The job unit record at a line address (R92). -/
def Bay.unit (y : Bay) (addr : Nat) : Option JobUnit := y.units.find? fun u => u.addr == addr

/-- Changes the job unit record at a line address. -/
def Bay.modUnit (y : Bay) (addr : Nat) (f : JobUnit → JobUnit) : Bay :=
  { y with units := y.units.map fun u => if u.addr == addr then f u else u }

/-- Changes the job unit records at the line addresses of a list. -/
def Bay.modUnits (y : Bay) (addrs : List Nat) (f : JobUnit → JobUnit) : Bay :=
  { y with units := y.units.map fun u => if addrs.contains u.addr then f u else u }

/-- Changes the pass in flight. -/
def Bay.modPass (y : Bay) (f : Pass → Pass) : Bay :=
  { y with passes := y.passes.map fun p => if p.inFlight then f p else p }

/-- The switch-group record of a group. -/
def Bay.groupRecord (y : Bay) (g : Nat) : Option GroupRecord := y.groups.find? fun r => r.group == g

/-- Changes the switch-group record of a group. -/
def Bay.modGroup (y : Bay) (g : Nat) (f : GroupRecord → GroupRecord) : Bay :=
  { y with groups := y.groups.map fun r => if r.group == g then f r else r }

/-- The unit gives up its claim (R53). -/
def JobUnit.release (u : JobUnit) : JobUnit := { u with claim := none }

/-- Inserts a number into an ascending list without duplicates. -/
def insertAsc (n : Nat) : List Nat → List Nat
  | [] => [n]
  | m :: rest => if n < m then n :: m :: rest else if n == m then m :: rest else m :: insertAsc n rest

/-- The numbers of a list in ascending order without duplicates. -/
def ascending (ns : List Nat) : List Nat := ns.foldr insertAsc []

/-! ### Events (R183, R184) -/

/-- One more occurrence of a kind: the count stays at 255, the subject is replaced (R183). -/
def EventEntry.add (e : EventEntry) (subject : Subject) : EventEntry :=
  { count := min 255 (e.count + 1), subject := some subject }

/-- Sets a port's attention line from its pending and enable sets (R184). -/
def Port.withAttention (t : Port) : Port := { t with attention := attentionOf t.events t.enable }

/-- A posting reaches a port's pending set, unless the port is held in reset (R183). -/
def Port.post (kind : EventKind) (subject : Subject) (t : Port) : Port :=
  if t.inReset then t
  else Port.withAttention
    { t with events := t.events.set kind.number.val (t.events[kind.number].add subject) kind.number.isLt }

/-- A block posts an event to the three ports (R183). -/
def State.post (s : State) (kind : EventKind) (subject : Subject) : State :=
  ((s.modPort 0 (Port.post kind subject)).modPort 1 (Port.post kind subject)).modPort 2 (Port.post kind subject)

/-! ### Responses (R175, R176) -/

/-- A response is produced: it is sent at once when nothing is being sent, and waits otherwise (R176). -/
def Port.produce (r : Response) (t : Port) : Port :=
  match t.sending with
  | none => { t with sending := some r }
  | some _ => { t with waiting := t.waiting ++ [r] }

/-- Answers the port's request in progress. -/
def State.respond (s : State) (p : PortId) (status : Status) (body : Body) : State :=
  s.modPort p (Port.produce { kind := .answer, status := status, body := body })

/-- Refuses a frame with BUSY or FRAME_ERROR. A refusal produced while another still waits is not sent (R176). One whose
frame is being sent no longer waits: DESIGN CHOICE, unsafe (notes/assumptions/42.md). -/
def State.refuse (s : State) (p : PortId) (status : Status) (body : Body) : State :=
  s.modPort p fun t =>
    if t.waiting.any fun r => r.kind == .refusal then t
    else t.produce { kind := .refusal, status := status, body := body }

/-! ### Image memory (R40, R42) -/

/-- The byte at an address; an address that is not listed reads as 0 (notes/assumptions/3.md). -/
def Memory.read (m : Memory) (a : Nat) : Byte :=
  match m.find? fun c => c.1 == a with
  | some c => c.2
  | none => 0#8

/-- Writes a byte, keeping the addresses rising and listing no 0. -/
def Memory.write (a : Nat) (v : Byte) : Memory → Memory
  | [] => if v = 0#8 then [] else [(a, v)]
  | c :: rest =>
    if a < c.1 then (if v = 0#8 then c :: rest else (a, v) :: c :: rest)
    else if a = c.1 then (if v = 0#8 then rest else (a, v) :: rest)
    else c :: Memory.write a v rest

/-- The canonical form: rising addresses and no byte 0. -/
def Memory.wf : Memory → Bool
  | [] => true
  | [c] => c.2 != 0#8
  | c :: d :: rest => c.2 != 0#8 && decide (c.1 < d.1) && Memory.wf (d :: rest)

/-- The memory address of byte offset `o` of an image (R42), if it is a byte of image memory. -/
def Entry.address (e : Entry) (segmentCount o : Nat) : Option Nat :=
  match e.segments[o / 65536]? with
  | some seg => if seg < segmentCount then some (seg * 65536 + o % 65536) else none
  | none => none

/-- The bytes of an image at offsets `o` to `o + n - 1`, if each is in image memory. -/
def ImageStore.readBytes (st : ImageStore) (e : Entry) (o : Nat) : Nat → Option (List Byte)
  | 0 => some []
  | n + 1 =>
    match e.address st.segmentCount o, st.readBytes e (o + 1) n with
    | some a, some rest => some (Memory.read st.mem a :: rest)
    | _, _ => none

/-- Image memory with a chunk written at offset `o` of an image, if each byte is in image memory (R47). -/
def ImageStore.writeBytes (st : ImageStore) (e : Entry) (o : Nat) : List Byte → Option Memory
  | [] => some st.mem
  | v :: rest =>
    match e.address st.segmentCount o, st.writeBytes e (o + 1) rest with
    | some a, some m => some (Memory.write a v m)
    | _, _ => none

/-- Block `k` of an image: 256 bytes, those at or beyond the length given as 0xFF (R42). -/
def ImageStore.readBlock (st : ImageStore) (e : Entry) (k : Nat) : Option (List Byte) :=
  match st.readBytes e (256 * k) (min 256 (e.length - 256 * k)) with
  | some bytes => some (bytes ++ List.replicate (256 - bytes.length) 0xFF#8)
  | none => none

/-! ### The catalogue (R41, R43) -/

/-- The entries of the catalogue in the order of their positions. -/
def ImageStore.entries (st : ImageStore) : List Entry := st.catalogue.toList.filterMap id

/-- The entry with an image id. -/
def ImageStore.find (st : ImageStore) (id : Nat) : Option Entry := st.entries.find? fun e => e.id == id

/-- The position of the entry with an image id. -/
def ImageStore.positionOf (st : ImageStore) (id : Nat) : Option Nat :=
  st.catalogue.toList.findIdx? fun x => match x with
    | some e => e.id == id
    | none => false

/-- Changes every position of the catalogue. -/
def ImageStore.mapPositions (st : ImageStore) (f : Option Entry → Option Entry) : ImageStore :=
  { st with catalogue := Vector.ofFn fun i => f st.catalogue[i] }

/-- Changes the entry with an image id. -/
def ImageStore.modEntry (st : ImageStore) (id : Nat) (f : Entry → Entry) : ImageStore :=
  st.mapPositions fun x => match x with
    | some e => if e.id == id then some (f e) else some e
    | none => none

/-- Deletes the entries that a test picks, which frees their segments (R40, R41). -/
def ImageStore.deleteWhere (st : ImageStore) (test : Entry → Bool) : ImageStore :=
  st.mapPositions fun x => match x with
    | some e => if test e then none else some e
    | none => none

/-- The segments that catalogue entries own (R40). -/
def ImageStore.owned (st : ImageStore) : List Nat := st.entries.flatMap (·.segments)

/-- The image that owns a segment; none for a free segment (R40). -/
def ImageStore.owner (st : ImageStore) (seg : Nat) : Option Nat :=
  (st.entries.find? fun e => e.segments.contains seg).map (·.id)

/-- The free-segment count (R40). -/
def ImageStore.freeCount (st : ImageStore) : Nat := st.segmentCount - st.owned.length

/-- Scans upward from `seg`, wrapping, and takes free segments until `need` are taken; `fuel` is one turn of the map
(R43). -/
def takeFree (owned : List Nat) (count : Nat) : Nat → Nat → Nat → List Nat
  | 0, _, _ => []
  | _ + 1, _, 0 => []
  | fuel + 1, seg, need + 1 =>
    if owned.contains seg then takeFree owned count fuel ((seg + 1) % count) (need + 1)
    else seg :: takeFree owned count fuel ((seg + 1) % count) need

/-- The lowest-numbered empty catalogue position (R41). -/
def ImageStore.emptyPosition (st : ImageStore) : Option Nat :=
  st.catalogue.toList.findIdx? fun x => x.isNone

/-- The use count of an image: the job units of all bays that hold a claim on it (R53). -/
def State.useCount (s : State) (id : Nat) : Nat :=
  (allBays.map fun b => (s.bay b).units.countP fun u => u.claim == some id).sum

/-- A rule references an image when its action is FLASH or FLASH_HOLD and it names it (R29). -/
def Rule.references (r : Rule) (id : Nat) : Bool := r.action != .census && r.image == some id

/-- The active plan references an image (R29). -/
def PlanStore.references (pl : PlanStore) (id : Nat) : Bool :=
  pl.active.toList.any fun x => match x with
    | some r => r.references id
    | none => false

/-- The context of the port that uploads an image. -/
def State.uploadOf (s : State) (id : Nat) : Option Upload :=
  (allPorts.filterMap fun p => (s.port p).upload).find? fun c => c.image == id

/-! ### The fleet table (R5, R9, R12) -/

/-- The record of a fleet number. -/
def State.bus (s : State) (fleet : Nat) : Option BusRecord := s.fleet.find? fun r => r.fleet == fleet

/-- The record bound to a bay (R6). -/
def State.bound (s : State) (b : BayId) : Option BusRecord := s.fleet.find? fun r => r.atBay == some b

/-- Changes the record bound to a bay. -/
def State.modBound (s : State) (b : BayId) (f : BusRecord → BusRecord) : State :=
  { s with fleet := s.fleet.map fun r => if r.atBay == some b then f r else r }

/-- Releases a bay's binding: the record loses its at-bay (R12). -/
def State.unbind (s : State) (b : BayId) : State :=
  s.modBound b fun r => { r with atBay := none }

/-- Inserts a bus record in ascending fleet number. -/
def insertBus (r : BusRecord) : List BusRecord → List BusRecord
  | [] => [r]
  | q :: rest => if r.fleet < q.fleet then r :: q :: rest else q :: insertBus r rest

/-! ### The arbiter (R58) -/

/-- Whether a requester of the ring has an access waiting: bays 0 to 7, ports 8 to 10, the verification engine 11. -/
def State.accessAt (s : State) (place : Nat) : Option Grant :=
  if h : place < 8 then
    match (s.bay ⟨place, h⟩).reader.waiting with
    | some r => some (.bayRead ⟨place, h⟩ r.image r.block true)
    | none => none
  else if h : place - 8 < 3 then
    match (s.port ⟨place - 8, h⟩).write with
    | some chunk => some (.portWrite ⟨place - 8, h⟩ chunk)
    | none => none
  else if s.store.verifier.queue.isEmpty then none else some (.verifyRead true)

/-- The waiting access is no longer waiting once it is granted. -/
def State.clearAccess (s : State) : Grant → State
  | .bayRead b _ _ _ => s.modBay b fun y => { y with reader := { y.reader with waiting := none } }
  | .portWrite p _ => s.modPort p fun t => { t with write := none }
  | .verifyRead _ => s

/-- The places of the ring in the order in which a search from `start` meets them. -/
def ringFrom (start : Nat) : List Nat := (List.range 12).map fun i => (start + i) % 12

/-- With image memory free, grants the first waiting access found round the ring from the requester after the one last
granted (R58). -/
def State.arbitrate (s : State) : State :=
  match s.store.granted with
  | some _ => s
  | none =>
    match (ringFrom s.store.searchFrom).find? fun i => (s.accessAt i).isSome with
    | none => s
    | some i =>
      match s.accessAt i with
      | none => s
      | some g =>
        let s1 := s.clearAccess g
        { s1 with store := { s1.store with granted := some g, searchFrom := (i + 1) % 12 } }

/-- The granted access has been carried out. -/
def State.endGrant (s : State) : State := { s with store := { s.store with granted := none } }

/-- Ends a command with the arbiter's grant: the next state. -/
def finish (s : State) : Result := .next s.arbitrate

end Sys2Proof.Machine
end

