-- ==== Sys2Proof/Machine/Operands.lean ====
section
/-! DEFINITION. The operands of the commands: request bodies read as R178 lays them out, with the range of every field
(a body that is not admitted gives none, which the port answers BAD_ARG), and the request codes of section 11.4. -/

namespace Sys2Proof.Machine

/-! ### Fields -/

/-- A bay number as a field. -/
def bayOf (n : Nat) : Option BayId := if h : n < 8 then some ⟨n, h⟩ else none

/-- A flag field: 0 clear, 1 set (R178). -/
def flagOf : Nat → Option Bool
  | 0 => some false
  | 1 => some true
  | _ => none

/-- A version field of four bytes (section 11.2). -/
def versionAt (body : List Byte) (off : Nat) : Version :=
  ⟨field body off 1, field body (off + 1) 1, field body (off + 2) 2⟩

/-- An empty body (R178). -/
def parseEmpty (body : List Byte) : Option Unit := if body.isEmpty then some () else none

/-- A kind set without the bit 0x8000 (R178, R184, R185). -/
def parseKinds (body : List Byte) : Option (BitVec 16) :=
  if body.length = 2 then
    let kinds := BitVec.ofNat 16 (field body 0 2)
    if kinds.msb then none else some kinds
  else none

/-- A bay number alone (R178). -/
def parseBay (body : List Byte) : Option BayId :=
  if body.length = 1 then bayOf (field body 0 1) else none

/-- A bay number and a second byte that must be `code` (R178): BAY_ENABLE and UNHOLD. -/
def parseBayWith (code : Nat) (body : List Byte) : Option BayId :=
  if body.length = 2 && field body 1 1 = code then bayOf (field body 0 1) else none

/-- A fleet number, 1 to 65,535 (section 1.9). -/
def parseFleet (body : List Byte) : Option Nat :=
  if body.length = 2 && 1 ≤ field body 0 2 then some (field body 0 2) else none

/-- An image id, 1 to 65,535 (R54). -/
def parseImageId (body : List Byte) : Option Nat :=
  if body.length = 2 && 1 ≤ field body 0 2 then some (field body 0 2) else none

/-- Bay and line address of JOB_QUERY (R92). -/
def parseJobQuery (body : List Byte) : Option (BayId × Nat) :=
  if body.length = 2 && 1 ≤ field body 1 1 && field body 1 1 ≤ 16 then
    (bayOf (field body 0 1)).map fun b => (b, field body 1 1)
  else none

/-- Bay and departure of DEPART_SET (R157). -/
def parseDepartSet (body : List Byte) : Option (BayId × Time) :=
  if body.length = 9 && field body 1 8 ≠ allOnes64 then
    (bayOf (field body 0 1)).map fun b => (b, field body 1 8)
  else none

/-! ### Image requests -/

/-- The arguments of IMG_BEGIN (R46). -/
structure BeginArgs where
  id : Nat
  version : Version
  cls : Nat
  length : Nat
  crc : BitVec 32
  pinned : Bool
  deriving DecidableEq, Repr

/-- IMG_BEGIN's body: id, version, class, length, crc, pinned (R46, R178). -/
def parseBegin (body : List Byte) : Option BeginArgs :=
  if body.length = 16 && 1 ≤ field body 0 2 && 1 ≤ field body 6 1 && field body 6 1 ≤ 31 &&
      1 ≤ field body 7 4 && field body 7 4 ≤ 16777216 then
    (flagOf (field body 15 1)).map fun pinned =>
      { id := field body 0 2, version := versionAt body 2, cls := field body 6 1, length := field body 7 4,
        crc := BitVec.ofNat 32 (field body 11 4), pinned := pinned }
  else none

/-- IMG_DATA's chunk of 1 to 1,024 bytes (R47). -/
def parseChunk (body : List Byte) : Option (List Byte) :=
  if 1 ≤ body.length && body.length ≤ 1024 then some body else none

/-- IMG_PIN's id and flag (R56). -/
def parsePin (body : List Byte) : Option (Nat × Bool) :=
  if body.length = 3 && 1 ≤ field body 0 2 then
    (flagOf (field body 2 1)).map fun f => (field body 0 2, f)
  else none

/-- What IMG_QUERY selects by (R57). -/
inductive ImageSelector where
  | byId (id : Nat)
  | byPosition (position : Fin 32)
  deriving DecidableEq, Repr

/-- IMG_QUERY's selector and value (R57, R178). -/
def parseImageQuery (body : List Byte) : Option ImageSelector :=
  if body.length = 3 then
    match field body 0 1 with
    | 0 => if 1 ≤ field body 1 2 then some (.byId (field body 1 2)) else none
    | 1 => if h : field body 1 2 < 32 then some (.byPosition ⟨field body 1 2, h⟩) else none
    | _ => none
  else none

/-! ### Plan requests -/

/-- A rule's fields agree with its action and lie in their ranges (R21). -/
def Rule.wellFormed (r : Rule) : Bool :=
  decide (1 ≤ r.cls ∧ r.cls ≤ 31 ∧ r.low ≤ max32 ∧ r.high ≤ max32 ∧ r.group ≤ 7) &&
    (match r.prereq with
      | some q => decide (1 ≤ q.cls ∧ q.cls ≤ 31 ∧ q.minimum.major ≤ 255 ∧ q.minimum.minor ≤ 255 ∧
          q.minimum.build ≤ 65535)
      | none => true) &&
    (match r.action with
      | .census => r.image.isNone && !r.allowDowngrade && r.group == 0 && r.prereq.isNone
      | .flash | .flashHold => match r.image with
          | some i => decide (1 ≤ i ∧ i ≤ 65535)
          | none => false)

/-- The action codes of PLAN_PUT_RULE (R178). -/
def actionOf : Nat → Option RuleAction
  | 0 => some .census
  | 1 => some .flash
  | 2 => some .flashHold
  | _ => none

/-- The serial condition codes of PLAN_PUT_RULE (R178). -/
def serialKindOf : Nat → Option SerialKind
  | 0 => some .any
  | 1 => some .equal
  | 2 => some .inside
  | 3 => some .outside
  | _ => none

/-- The prerequisite fields of a rule: with flag 0 the class and version must be 0 (R178). -/
def prereqOf (flag cls : Nat) (minimum : Version) : Option (Option Prereq) :=
  match flag with
  | 0 => if cls = 0 && minimum = Version.zero then some none else none
  | 1 => some (some { cls := cls, minimum := minimum })
  | _ => none

/-- The rule that a PLAN_PUT_RULE body of 27 bytes carries (R178), if it is well formed (R21). -/
def parseRule (body : List Byte) : Option Rule :=
  match actionOf (field body 2 1), serialKindOf (field body 8 1), flagOf (field body 19 1),
      prereqOf (field body 21 1) (field body 22 1) (versionAt body 23) with
  | some action, some kind, some downgrade, some prereq =>
    let r : Rule :=
      { action := action, cls := field body 3 1, revision := BitVec.ofNat 16 (field body 4 2),
        careMask := BitVec.ofNat 16 (field body 6 2), serialKind := kind, low := field body 9 4,
        high := field body 13 4, image := if field body 17 2 = 0 then none else some (field body 17 2),
        allowDowngrade := downgrade, group := field body 20 1, prereq := prereq }
    if r.wellFormed then some r else none
  | _, _, _, _ => none

/-- PLAN_PUT_RULE's slot and its rule or empty marker (R30, R178). -/
def parsePutRule (body : List Byte) : Option (Fin 64 × Option Rule) :=
  if h : field body 0 1 < 64 then
    if body.length = 2 && field body 1 1 = 0 then some (⟨field body 0 1, h⟩, none)
    else if body.length = 27 && field body 1 1 = 1 then
      (parseRule body).map fun r => (⟨field body 0 1, h⟩, some r)
    else none
  else none

/-- PLAN_QUERY's plan (true for ACTIVE) and slot (R38). -/
def parsePlanQuery (body : List Byte) : Option (Bool × Fin 64) :=
  if body.length = 2 then
    if h : field body 1 1 < 64 then (flagOf (field body 0 1)).map fun active => (active, ⟨field body 1 1, h⟩)
    else none
  else none

/-! ### BAY_CONFIG -/

/-- A numeric field outside its range goes to the nearer end of it (R79). -/
def clamp (low high n : Nat) : Nat := max low (min high n)

/-- BAY_CONFIG's bay and record, each numeric field clamped; a line speed code above 3 is not admitted (R79, R80,
R178). -/
def parseConfig (body : List Byte) : Option (BayId × BayConfig) :=
  if body.length = 24 && field body 1 1 ≤ 3 then
    (bayOf (field body 0 1)).map fun b =>
      (b, { speed := field body 1 1
            guardTime := clamp 0 3600000 (field body 2 4)
            tOpen := clamp 0 60000 (field body 6 2)
            tCheck := clamp 1 1000 (field body 8 2)
            tSwitch := clamp 1000 120000 (field body 10 4)
            replyTimeout := clamp 10 1000 (field body 14 2)
            retries := clamp 0 7 (field body 16 1)
            pollInterval := clamp 10 1000 (field body 17 2)
            notReadyLimit := clamp 1 65535 (field body 19 2)
            filterLength := clamp 1 15 (field body 21 1)
            ignitionCutoff := field body 22 1 != 0
            mode := if field body 23 1 = 0 then .stop else .warn })
  else none

end Sys2Proof.Machine
end

