-- ==== Sys2Proof/Machine/Line.lean ====
section
/-! DEFINITION. The frames of a bay line (sections 4.2 and 4.3): the frame of each request, the reading of a reply
frame, and the judgement of a reply against the outstanding request (R61 to R63, R3, R4). -/

namespace Sys2Proof.Machine

/-! ### Requests -/

/-- The line address that a request frame carries. -/
def LineRequest.addr : LineRequest → Nat
  | .identify a | .openBank a _ _ _ _ _ _ | .block a _ _ | .gaps a | .check a | .switch a => a

/-- The command of a request. -/
def LineRequest.command : LineRequest → LineCommand
  | .identify _ => .identify
  | .openBank .. => .openBank
  | .block .. => .block
  | .gaps _ => .gaps
  | .check _ => .check
  | .switch _ => .switch

/-- The command codes of section 4.2.1. -/
def LineCommand.code : LineCommand → Byte
  | .identify => 0x10#8 | .openBank => 0x11#8 | .block => 0x12#8
  | .gaps => 0x13#8 | .check => 0x14#8 | .switch => 0x15#8

/-- A version as four bytes (section 4.2). -/
def versionBytes (v : Version) : List Byte := toBytes 1 v.major ++ toBytes 1 v.minor ++ toBytes 2 v.build

/-- The body of a request frame (section 4.2.1). -/
def LineRequest.body : LineRequest → List Byte
  | .openBank _ image version length blocks join resume =>
    toBytes 2 image ++ versionBytes version ++ toBytes 4 length ++ toBytes 4 blocks ++
      [(if join then 0x01#8 else 0#8) ||| (if resume then 0x02#8 else 0#8)]
  | .block _ number data => toBytes 2 number ++ data
  | .identify _ | .gaps _ | .check _ | .switch _ => []

/-- A frame of a bay line: sync, then address, code, body length and body, then the CRC-16 of all but the sync
(section 4.2.1, R62). -/
def lineFrame (sync : Byte) (addr : Nat) (code : Byte) (body : List Byte) : List Byte :=
  let inner := toBytes 1 addr ++ [code] ++ toBytes 2 body.length ++ body
  [sync] ++ inner ++ toBytes 2 (crc16 inner).toNat

/-- The request frame that the part sends (R61). -/
def LineRequest.frame (r : LineRequest) : List Byte := lineFrame 0xC3#8 r.addr r.command.code r.body

/-! ### Replies -/

/-- An accepted reply (R63). -/
inductive Reply where
  | identity (record : Identity)
  | ok
  | gaps (ranges : List Range) (more : Bool)
  | digest (crc : BitVec 32)
  | notReady
  | reject (reason : RejectReason)
  deriving DecidableEq, Repr

/-- A well-formed frame's address, code and body (R61). -/
structure ReplyFrame where
  addr : Nat
  code : Nat
  body : List Byte
  deriving DecidableEq, Repr

/-- Reads a reply frame from its characters: sync 0x3C, a body length of 0 to 272 with exactly that many body bytes,
and a correct CRC-16 (R61, R62). -/
def readReply (bytes : List Byte) : Option ReplyFrame :=
  match bytes with
  | sync :: rest =>
    let n := field rest 2 2
    if sync = 0x3C#8 && n ≤ 272 && rest.length = n + 6 &&
        crc16 (rest.take (n + 4)) = BitVec.ofNat 16 (field rest (n + 4) 2) then
      some { addr := field rest 0 1, code := field rest 1 1, body := (rest.drop 4).take n }
    else none
  | [] => none

/-- The REJECT reasons by code (section 4.2.1). -/
def rejectOf : Nat → Option RejectReason
  | 1 => some .tooLarge
  | 2 => some .wrongClass
  | 3 => some .mismatch
  | 4 => some .notComplete
  | 5 => some .notVerified
  | 6 => some .bankLocked
  | _ => none

/-- The standby states by code (section 4.2.1). -/
def standbyStateOf : Nat → Option StandbyState
  | 0 => some .blank
  | 1 => some .partlyReceived
  | 2 => some .complete
  | 3 => some .verified
  | _ => none

/-- The identity record as every use takes it: a standby image id of 0 means BLANK and version 0.0.0, and only a
GATEWAY unit has a fleet number (R3). -/
def Identity.normalise (i : Identity) : Identity :=
  let j := if i.standbyImage = 0 then { i with standbyVersion := Version.zero, standbyState := .blank } else i
  if i.cls = 1 then j else { j with fleet := 0 }

/-- The identity record of a DATA reply of 22 bytes, normalised; none for a malformed record (R3, R4). R4's tests are made
on the record as it is carried, before R3 normalises it: a standby state code above 3 is malformed even where the standby
image id is 0. The spec gives no order; DESIGN CHOICE, unsafe (notes/assumptions/33.md). -/
def readIdentity (body : List Byte) : Option Identity :=
  if body.length = 22 && field body 0 1 ≠ 0 && field body 3 4 ≠ 0 && field body 20 2 ≠ 0 &&
      field body 20 2 ≤ 256 then
    (standbyStateOf (field body 19 1)).map fun st => Identity.normalise
      { cls := field body 0 1, revision := BitVec.ofNat 16 (field body 1 2), serial := field body 3 4,
        fleet := field body 7 2, active := versionAt body 9, standbyImage := field body 13 2,
        standbyVersion := versionAt body 15, standbyState := st, capacity := field body 20 2 }
  else none

/-- The `k` ranges that follow the two flag bytes of a GAPS reply. -/
def rangesAt (body : List Byte) : Nat → Nat → List Range
  | 0, _ => []
  | k + 1, off => { first := field body off 2, count := field body (off + 2) 4 } :: rangesAt body k (off + 6)

/-- The ranges of a GAPS reply hold at least one block each, ascend without overlap and end within the block count
(R63, item 6). -/
def rangesFit (blocks : Nat) : List Range → Bool
  | [] => true
  | [r] => decide (1 ≤ r.count ∧ r.first + r.count ≤ blocks)
  | r :: q :: rest => decide (1 ≤ r.count ∧ r.first + r.count ≤ q.first) && rangesFit blocks (q :: rest)

/-- A DATA reply to GAPS (R63, item 6). -/
def readGaps (blocks : Nat) (body : List Byte) : Option Reply :=
  let k := field body 0 1
  let ranges := rangesAt body k 2
  if k ≤ 8 && body.length = 2 + 6 * k && rangesFit blocks ranges then
    match flagOf (field body 1 1) with
    | some more => if more && k < 8 then none else some (.gaps ranges more)
    | none => none
  else none

/-- The reply to an outstanding request, when R63 accepts the frame; none counts as no reply. `blocks` is the block
count that item 6 judges GAPS ranges by. -/
def judgeReply (request : LineRequest) (blocks : Nat) (bytes : List Byte) : Option Reply :=
  match readReply bytes with
  | none => none
  | some f =>
    if f.addr ≠ request.addr then none
    else match request.command, f.code with
      | .identify, 0x21 => (readIdentity f.body).map .identity
      | .openBank, 0x20 | .switch, 0x20 => if f.body.isEmpty then some .ok else none
      | .gaps, 0x21 => readGaps blocks f.body
      | .check, 0x22 => if f.body.length = 4 then some (.digest (BitVec.ofNat 32 (field f.body 0 4))) else none
      | .openBank, 0x23 | .check, 0x23 => if f.body.isEmpty then some .notReady else none
      | .openBank, 0x24 | .gaps, 0x24 | .check, 0x24 | .switch, 0x24 =>
        if f.body.length = 1 then (rejectOf (field f.body 0 1)).map .reject else none
      | _, _ => none

end Sys2Proof.Machine
end

