-- ==== Sys2Proof/Machine/Fleet.lean ====
section
/-! DEFINITION. The fleet table (chapter 1): binding and eviction, the refresh at enumeration, the writes of planning,
of a confirmed switch and of a job's end, split entries, fitness. -/

namespace Sys2Proof.Machine

/-! ### Binding (R9, R10) -/

/-- How the table takes an offer of a fleet number (R9). -/
inductive Offer where
  | refused | bound
  deriving DecidableEq, Repr

/-- The older of two unbound records: the earlier last visit, then the lower fleet number (R10). -/
def olderRecord (r q : BusRecord) : BusRecord :=
  if q.lastVisit < r.lastVisit || (q.lastVisit == r.lastVisit && q.fleet < r.fleet) then q else r

/-- The record that eviction takes: among those whose at-bay is absent, the one with the oldest last visit (R10). -/
def evictionVictim (records : List BusRecord) : Option BusRecord :=
  match records.filter fun r => r.atBay.isNone with
  | [] => none
  | r :: rest => some (rest.foldl olderRecord r)

/-- A table that holds 256 records evicts one first, posting BUS_EVICTED (R10). -/
def State.evictIfFull (s : State) : State :=
  if s.fleet.length < 256 then s
  else match evictionVictim s.fleet with
    | some v => ({ s with fleet := s.fleet.filter fun r => r.fleet != v.fleet } : State).post .busEvicted (.bus v.fleet)
    | none => s

/-- A new bus record bound to a bay (R9). -/
def BusRecord.create (fleet : Nat) (b : BayId) (now : Time) : BusRecord :=
  { fleet := fleet, atBay := some b, lastVisit := now, evaluated := none, stale := 0, slots := [], splits := [] }

/-- The table takes a bay's offer of a fleet number as one event (R9). -/
def State.offerFleet (s : State) (b : BayId) (fleet : Nat) : Offer × State :=
  match s.bus fleet with
  | some r =>
    if r.atBay.isSome && r.atBay != some b then (.refused, s)
    else
      let t := s.unbind b
      (.bound, { t with fleet := t.fleet.map fun q =>
        if q.fleet == fleet then { q with atBay := some b, lastVisit := s.yardTime } else q })
  | none =>
    let t := (s.unbind b).evictIfFull
    (.bound, { t with fleet := insertBus (BusRecord.create fleet b s.yardTime) t.fleet })

/-! ### The refresh at enumeration (R13, R14) -/

/-- A slot newly made from an identity record (R7). -/
def Slot.ofUnit (u : JobUnit) : Slot :=
  { addr := u.addr, cls := u.identity.cls, revision := u.identity.revision, serial := u.identity.serial,
    active := u.identity.active, standbyImage := u.identity.standbyImage,
    standbyVersion := u.identity.standbyVersion, standbyState := u.identity.standbyState,
    lastDecision := none, lastProgress := none, censusRule := none }

/-- The slot of a unit that answered: the history is kept when the serial is the slot's (R13). -/
def refreshSlot (old : List Slot) (u : JobUnit) : Slot :=
  match old.find? fun o => o.addr == u.addr with
  | some o =>
    if o.serial = u.identity.serial then
      { Slot.ofUnit u with lastDecision := o.lastDecision, lastProgress := o.lastProgress, censusRule := o.censusRule }
    else Slot.ofUnit u
  | none => Slot.ofUnit u

/-- The unit at the address has been replaced: it answered with another serial than its slot's (R13). -/
def replacedUnit (old : List Slot) (u : JobUnit) : Bool :=
  old.any fun o => o.addr == u.addr && o.serial != u.identity.serial

/-- Whether an unconfirmed member stays in its split entry after the refresh: it leaves when its unit was replaced or
removed (R13) or now reports its planned version (R14). -/
def memberStays (old : List Slot) (units : List JobUnit) (m : Unconfirmed) : Bool :=
  match units.find? fun u => u.addr == m.addr with
  | some u => !(replacedUnit old u) && u.identity.active != m.version
  | none => !(old.any fun o => o.addr == m.addr)

/-- Keeps of a split list the members that a test keeps, and deletes the entries left empty (R8, R14). -/
def keepMembers (test : Split → Unconfirmed → Bool) (splits : List Split) : List Split :=
  (splits.map fun e => { e with members := e.members.filter (test e) }).filter fun e => !e.members.isEmpty

/-- The record after the refresh (R13, R14). -/
def BusRecord.refresh (r : BusRecord) (units : List JobUnit) : BusRecord :=
  { r with slots := units.map (refreshSlot r.slots)
           splits := keepMembers (fun _ m => memberStays r.slots units m) r.splits }

/-- The refresh of the record bound to a bay with its sweep's units, posting UNIT_CHANGED in ascending address order
(R13, R14). -/
def State.refreshBound (s : State) (b : BayId) : State :=
  match s.bound b with
  | none => s
  | some r =>
    let units := (s.bay b).units
    (units.filter (replacedUnit r.slots)).foldl
      (fun t u => t.post .unitChanged (.fleetUnit r.fleet u.addr)) (s.modBound b fun q => q.refresh units)

/-! ### Writes of planning, switching and job end -/

/-- The number of job units decided FLASH and not SWITCHED (R15). -/
def staleCount (units : List JobUnit) : Nat :=
  units.countP fun u => u.isFlash && u.progress != some .switched

/-- The census rule number that planning writes for a unit (R7, R25). -/
def censusOf (u : JobUnit) : Option Nat := if u.decision = some .census then u.rule else none

/-- The writes of a completed planning: evaluated generation unless it is 0, the count of FLASH units, and each slot's
census rule number (R15, R25). -/
def BusRecord.planned (generation : Nat) (units : List JobUnit) (r : BusRecord) : BusRecord :=
  { r with evaluated := if generation = 0 then r.evaluated else some generation
           stale := units.countP JobUnit.isFlash
           slots := r.slots.map fun sl =>
             match units.find? fun u => u.addr == sl.addr with
             | some u => { sl with censusRule := censusOf u }
             | none => sl }

/-- The writes of a job's end: stale count, last decisions and last progress outcomes (R15, R154). -/
def BusRecord.jobEnded (units : List JobUnit) (r : BusRecord) : BusRecord :=
  { r with stale := staleCount units
           slots := r.slots.map fun sl =>
             match units.find? fun u => u.addr == sl.addr with
             | some u => { sl with lastDecision := u.decision, lastProgress := u.progress }
             | none => sl }

/-- A confirmed switch writes the planned version as its slot's active version (R7, R148). -/
def BusRecord.confirmed (addr : Nat) (version : Version) (r : BusRecord) : BusRecord :=
  { r with slots := r.slots.map fun sl => if sl.addr == addr then { sl with active := version } else sl }

/-! ### Split entries (R8, R149, R150) -/

/-- The addresses leave the split entry of a group; an entry left empty is deleted (R8). -/
def dropFromSplit (g : Nat) (addrs : List Nat) (splits : List Split) : List Split :=
  keepMembers (fun e m => !(e.group == g && addrs.contains m.addr)) splits

/-- Inserts an unconfirmed member in ascending address order. -/
def insertMember (m : Unconfirmed) : List Unconfirmed → List Unconfirmed
  | [] => [m]
  | q :: rest => if m.addr < q.addr then m :: q :: rest else q :: insertMember m rest

/-- Inserts a split entry in ascending group order. -/
def insertSplit (e : Split) : List Split → List Split
  | [] => [e]
  | q :: rest => if e.group < q.group then e :: q :: rest else q :: insertSplit e rest

/-- A written entry replaces any entry of its group and keeps from it the unconfirmed members that are not members of
the switch that wrote it (R8, R150). -/
def writeSplit (e : Split) (switchMembers : List Nat) (splits : List Split) : List Split :=
  let kept := (splits.filter fun q => q.group == e.group).flatMap fun q =>
    q.members.filter fun m => !(switchMembers.contains m.addr)
  insertSplit { e with members := kept.foldr insertMember e.members } (splits.filter fun q => q.group != e.group)

/-- The unconfirmed members of a switch: the addresses of its sent list whose unit is not SWITCHED, each with its
planned version (R150). -/
def unconfirmedOf (units : List JobUnit) (sent : List Nat) : List Unconfirmed :=
  sent.filterMap fun a =>
    match units.find? fun u => u.addr == a with
    | some u =>
      if u.progress = some .switched then none
      else u.planned.map fun pl => { addr := a, version := pl.version }
    | none => none

/-- The addresses of a member list whose unit is SWITCHED. -/
def switchedOf (units : List JobUnit) (members : List Nat) : List Nat :=
  members.filter fun a => units.any fun u => u.addr == a && u.progress == some .switched

/-! ### Fitness (R18) -/

/-- The fitness of a record against the active generation (R18). -/
def BusRecord.fitness (generation : Nat) (r : BusRecord) : Fitness :=
  if !r.splits.isEmpty then .split
  else if r.evaluated ≠ some generation then .unknown
  else if 0 < r.stale then .stale
  else .current

end Sys2Proof.Machine
end

