-- ==== Sys2Proof/Machine/Deciding.lean ====
section
/-! DEFINITION. Deciding the units of a bus against a plan: matching (R22, R23), the image test (R24, R25),
prerequisites (R26, R27), member kinds (R101), missing totals (R103), and the forming of passes and switch-group
records (R105, R106). These are functions of the plan, the catalogue and the job unit records alone. -/

namespace Sys2Proof.Machine

/-! ### Matching (R22, R23) -/

/-- A serial satisfies a rule's serial condition (R22). -/
def Rule.serialOk (r : Rule) (serial : Nat) : Bool :=
  match r.serialKind with
  | .any => true
  | .equal => serial == r.low
  | .inside => decide (r.low ≤ serial ∧ serial ≤ r.high)
  | .outside => decide (serial < r.low ∨ r.high < serial)

/-- A rule matches an identity: class, revision under the care mask, serial (R22). -/
def Rule.matchesUnit (r : Rule) (i : Identity) : Bool :=
  i.cls == r.cls && (i.revision &&& r.careMask) == (r.revision &&& r.careMask) && r.serialOk i.serial

/-- The slot number of the first rule that matches, counting from `n` (R23). -/
def firstMatch (i : Identity) : Nat → List (Option Rule) → Option (Nat × Rule)
  | _, [] => none
  | n, some r :: rest => if r.matchesUnit i then some (n, r) else firstMatch i (n + 1) rest
  | n, none :: rest => firstMatch i (n + 1) rest

/-! ### First decisions (R24, R25) -/

/-- The decision of a FLASH or FLASH_HOLD rule from its image (R24). -/
def imageDecision (r : Rule) (e : Entry) (active : Version) (capacity : Nat) : Decision :=
  if e.version = active then .current
  else if e.version.lt active && !r.allowDowngrade then .downgradeBlocked
  else if capacity < e.segmentNeed then .bankTooSmall
  else .flash

/-- Writes a unit's first decision into its record (R23 to R25). A rule's image is always in the catalogue (R29); were
it not, the unit would be left undecided by it (notes/assumptions/23.md). -/
def decideUnit (plan : List (Option Rule)) (find : Nat → Option Entry) (u : JobUnit) : JobUnit :=
  let clean := { u with planned := none, holdAfter := false, group := 0 }
  match firstMatch u.identity 0 plan with
  | none => { clean with decision := some .noRule, rule := none }
  | some (n, r) =>
    match r.action with
    | .census => { clean with decision := some .census, rule := some n }
    | .flash | .flashHold =>
      match r.image.bind find with
      | none => { clean with decision := some .noRule, rule := none }
      | some e =>
        let d := imageDecision r e u.knownActive u.identity.capacity
        if d = .flash then
          { clean with decision := some d, rule := some n, group := r.group,
                       planned := some { image := e.id, version := e.version }, holdAfter := r.action == .flashHold }
        else { clean with decision := some d, rule := some n, group := r.group }

/-! ### Prerequisites (R26, R27) -/

/-- The prerequisite of the rule that decided a unit. -/
def prereqOfUnit (plan : List (Option Rule)) (u : JobUnit) : Option Prereq :=
  match u.rule.bind fun n => plan[n]? with
  | some (some r) => r.prereq
  | _ => none

/-- A unit of the prerequisite's class meets it for the deciding unit: by its active version, or by its planned version
in the deciding unit's group from 1 to 7 (R26). -/
def meetsPrereq (q : Prereq) (deciding other : JobUnit) : Bool :=
  q.minimum.le other.knownActive ||
    (other.isFlash && other.group == deciding.group && decide (1 ≤ deciding.group) &&
      match other.planned with
      | some pl => q.minimum.le pl.version
      | none => false)

/-- A FLASH unit passes its prerequisite over the records of its bus (R26). -/
def passesPrereq (plan : List (Option Rule)) (units : List JobUnit) (u : JobUnit) : Bool :=
  match prereqOfUnit plan u with
  | none => true
  | some q =>
    let others := units.filter fun v => v.identity.cls == q.cls
    !others.isEmpty && others.all (meetsPrereq q u)

/-- The unit becomes PREREQ_WAIT: it keeps its deciding rule and group and loses the rest (R27). -/
def JobUnit.toPrereqWait (u : JobUnit) : JobUnit :=
  { u with decision := some .prereqWait, planned := none, holdAfter := false }

/-- One prerequisite sweep: every test reads the decisions at its start (R27). -/
def prereqSweep (plan : List (Option Rule)) (units : List JobUnit) : List JobUnit :=
  units.map fun u => if u.isFlash && !(passesPrereq plan units u) then u.toPrereqWait else u

/-- Sweeps until one changes no decision or no FLASH unit with a prerequisite remains; at most 16 run (R27). -/
def prereqSweeps (plan : List (Option Rule)) : Nat → List JobUnit → List JobUnit
  | 0, units => units
  | fuel + 1, units =>
    if units.any fun u => u.isFlash && (prereqOfUnit plan u).isSome then
      let after := prereqSweep plan units
      if after = units then units else prereqSweeps plan fuel after
    else units

/-- Every unit's final decision (R23 to R27). -/
def decideUnits (plan : List (Option Rule)) (find : Nat → Option Entry) (units : List JobUnit) : List JobUnit :=
  prereqSweeps plan 16 (units.map (decideUnit plan find))

/-! ### Member kinds and claims (R99, R101, R103) -/

/-- The member kind of a unit from its known standby and its planned image (R101). -/
def memberKind (known : Standby) (pl : Planned) : MemberKind :=
  if known.image = pl.image && known.version = pl.version then
    match known.state with
    | .complete | .verified => .checkOnly
    | .partlyReceived => .resume
    | .blank => .fresh
  else .fresh

/-- Steps 4 and 5 of R99 for one unit: a FLASH unit takes progress PENDING, its member kind and its claim. -/
def JobUnit.startServing (u : JobUnit) : JobUnit :=
  match u.decision, u.planned with
  | some .flash, some pl =>
    { u with progress := some .pending, kind := some (memberKind u.knownStandby pl), missing := none,
             claim := some pl.image }
  | _, _ => { u with progress := none, kind := none, missing := none, claim := none }

/-- The re-planning resets of a job unit record, with its claim given up (R108, R99 step 2). -/
def JobUnit.replanReset (u : JobUnit) : JobUnit :=
  { u with decision := none, rule := none, planned := none, group := 0, holdAfter := false, kind := none,
           missing := none, progress := none, gaps := [], more := false, repairSent := 0, refetchUsed := false,
           fault := none, claim := none, openedBlocks := none }

/-- The identity of a unit that answered at an address: the fleet number of a unit at an address other than 1 is taken as
0 (R95, R3). -/
def Identity.atAddress (i : Identity) (addr : Nat) : Identity := if addr = 1 then i else { i with fleet := 0 }

/-- A job unit record at the sweep (R97). -/
def JobUnit.create (addr : Nat) (i : Identity) : JobUnit :=
  { addr := addr, identity := i, knownActive := i.active,
    knownStandby := { image := i.standbyImage, version := i.standbyVersion, state := i.standbyState },
    decision := none, rule := none, planned := none, group := 0, holdAfter := false, kind := none, missing := none,
    progress := none, gaps := [], more := false, repairSent := 0, refetchUsed := false, fault := none, claim := none,
    openedBlocks := none }

/-- The sum of the counts of a list of ranges. -/
def rangesTotal (ranges : List Range) : Nat := (ranges.map (·.count)).sum

/-- A RESUME member's missing total from its GAPS reply in planning (R103). -/
def missingTotal (ranges : List Range) (more : Bool) : Option Nat :=
  if more then none else some (rangesTotal ranges)

/-! ### Passes and switch groups (R105, R106) -/

/-- A unit that is placed in a pass: decided FLASH and not FAULTED (R105). -/
def JobUnit.inPass (u : JobUnit) : Bool := u.isFlash && !u.isFaulted

/-- A waiting pass over some members (R105). -/
def Pass.form (image group lowestRule : Nat) (members : List Nat) : Pass :=
  { image := image, members := members, group := group, lowestRule := lowestRule, phase := .waiting, nextBlock := 0,
    activeTime := 0, streamed := 0, choice := none, streamAddr := none, repairMember := none, phaseComplete := false,
    join := false, todo := [], toSend := [], firstGaps := false, answered := 0, missingSum := 0, sampleDue := false,
    refetched := 0 }

/-- The planned image id of a unit. -/
def JobUnit.plannedImage (u : JobUnit) : Nat := match u.planned with
  | some pl => pl.image
  | none => 0

/-- The units of one set of R105: same switch group and planned image. -/
def passUnits (units : List JobUnit) (group image : Nat) : List JobUnit :=
  units.filter fun u => u.inPass && u.group == group && u.plannedImage == image

/-- The lowest deciding rule number of some units (R105). -/
def lowestRule (units : List JobUnit) : Nat :=
  (units.filterMap (·.rule)).foldr min 64

/-- Inserts a pass in order of its lowest rule number (R106). -/
def insertPass (p : Pass) : List Pass → List Pass
  | [] => [p]
  | q :: rest => if p.lowestRule < q.lowestRule then p :: q :: rest else q :: insertPass p rest

/-- The passes of one switch group in order of lowest rule number (R105, R106). -/
def groupPasses (units : List JobUnit) (g : Nat) : List Pass :=
  let images := ascending ((units.filter fun u => u.inPass && u.group == g).map JobUnit.plannedImage)
  (images.map fun i =>
    let us := passUnits units g i
    Pass.form i g (lowestRule us) (us.map (·.addr))).foldr insertPass []

/-- The pass list: groups ascending, and within one group lowest rule number ascending (R105, R106). -/
def formPasses (units : List JobUnit) : List Pass := (List.range 8).flatMap (groupPasses units)

/-- The switch-group record of a group, if a unit of it is decided FLASH (R105). -/
def formGroup (units : List JobUnit) (g : Nat) : Option GroupRecord :=
  let us := units.filter fun u => u.isFlash && u.group == g
  if us.isEmpty then none
  else some { group := g, members := us.map (·.addr), images := ascending (us.map JobUnit.plannedImage),
              faulted := us.any JobUnit.isFaulted, ended := false, sent := [] }

/-- The switch-group records, for groups 1 to 7 (R105). -/
def formGroups (units : List JobUnit) : List GroupRecord :=
  ((List.range 8).drop 1).filterMap (formGroup units)

/-- The counters after the additions of one completed planning: each deciding rule's counter rises by 1 and stays at
65,535 (R28). -/
def countMatches (units : List JobUnit) (counters : Vector Nat 64) : Vector Nat 64 :=
  Vector.ofFn fun i => min 65535 (counters[i] + units.countP fun u => u.rule == some i.val)

end Sys2Proof.Machine
end

