-- ==== Sys2Proof/Machine/Engine.lean ====
section
/-! DEFINITION. A bay's transaction engine and stream reader (section 4.4, section 4.5): taking a request, re-sending,
draining and abandoning, and asking the arbiter for a block. -/

namespace Sys2Proof.Machine

/-- A SWITCH frame's first character starts: its member joins the sent list (R142). -/
def Bay.addSent (y : Bay) (addr : Nat) : Bay :=
  match y.switching with
  | none => y
  | some sw =>
    if sw.group = 0 then { y with switching := some { sw with soloSent := insertAsc addr sw.soloSent } }
    else y.modGroup sw.group fun r => { r with sent := insertAsc addr r.sent }

/-- The engine takes a request and sends its frame at the line speed then configured (R60, R70). A BLOCK frame starts
in this event (R74). The first character of any other frame starts at the next millisecond, or with FRAME_SENT
(notes/assumptions/32.md). -/
def Bay.startFrame (y : Bay) (r : LineRequest) (act : Activity) : Bay :=
  { y with engine := { y.engine with
    state := .sending, pollEnded := false
    transaction := some { request := r, activity := act, retries := 0, polls := 0, speed := y.config.speed,
                          started := r.command == .block, drained := false } } }

/-- The first character of the frame that the engine sends starts on the line, if it has not; that of a SWITCH adds its
member to the sent list (R142). -/
def Bay.startLine (y : Bay) : Bay :=
  match y.engine.state, y.engine.transaction with
  | .sending, some tr =>
    if tr.started then y
    else
      let z := { y with engine := { y.engine with transaction := some { tr with started := true } } }
      match tr.request with
      | .switch a => z.addSent a
      | _ => z
  | _, _ => y

/-- The bay's activity offers a request: taken in IDLE, and waiting otherwise (R70). -/
def Bay.offer (y : Bay) (r : LineRequest) (act : Activity) : Bay :=
  if y.engine.state = .idle && y.engine.offered.isNone then y.startFrame r act
  else { y with engine := { y.engine with offered := some (r, act) } }

/-- Back in IDLE, the engine takes the request that waits; one of a held pass waits on (R70, R131). -/
def Bay.takeOffered (y : Bay) : Bay :=
  match y.engine.state, y.engine.offered with
  | .idle, some (r, act) =>
    if act = .pass && y.held then y
    else Bay.startFrame { y with engine := { y.engine with offered := none } } r act
  | _, _ => y

/-- The transaction ends and the engine is IDLE (R70). -/
def Bay.endTransaction (y : Bay) : Bay :=
  { y with engine := { y.engine with state := .idle, transaction := none, pollEnded := false } }

/-- The engine sends the transaction's frame again, with its counts changed by `f` (R71, R72). -/
def Bay.resend (y : Bay) (f : Transaction → Transaction) : Bay :=
  { y with engine := { y.engine with
    state := .sending, pollEnded := false
    transaction := y.engine.transaction.map fun t => { f t with speed := y.config.speed } } }

/-- The engine is IDLE and drops what it held (R75). -/
def Engine.drop (e : Engine) : Engine :=
  { e with state := .idle, transaction := none, offered := none, pollEnded := false }

/-- The outstanding transaction runs out with its result discarded and no re-send; in POLL_WAIT it ends at once. A
frame that has not started is not sent. A request that waits is dropped with its activity (R75, R76). -/
def Bay.drainEngine (y : Bay) : Bay :=
  match y.engine.state with
  | .idle => { y with engine := { y.engine with offered := none } }
  | .pollWait => { y with engine := y.engine.drop }
  | .sending | .awaiting =>
    match y.engine.transaction with
    | some tr =>
      if tr.started then
        { y with engine := { y.engine with offered := none, transaction := some { tr with drained := true } } }
      else { y with engine := y.engine.drop }
    | none => { y with engine := y.engine.drop }

/-- The access being carried out is a read for bay `b` whose block the bay still wants. -/
def Grant.isLiveReadOf (g : Grant) (b : BayId) : Bool :=
  match g with
  | .bayRead c _ _ live => c == b && live
  | _ => false

/-- A granted read of a bay that has stopped completes and is discarded (section 3.9). -/
def Grant.forget (b : BayId) : Grant → Grant
  | .bayRead c image block live => .bayRead c image block (live && c != b)
  | g => g

/-- A stop drains the bay's line and withdraws its stream reader's access (R75, section 3.9). -/
def State.drainLine (s : State) (b : BayId) : State :=
  let t := s.modBay b fun y => { y.drainEngine with reader := { waiting := none, buffer := none } }
  { t with store := { t.store with granted := t.store.granted.map (Grant.forget b) } }

/-- The bay's stream reader has a read waiting or being carried out. -/
def State.readOutstanding (s : State) (b : BayId) : Bool :=
  (s.bay b).reader.waiting.isSome ||
    match s.store.granted with
    | some g => g.isLiveReadOf b
    | none => false

/-- The stream reader asks for a block (R74). -/
def Bay.askBlock (y : Bay) (image block : Nat) : Bay :=
  { y with reader := { waiting := some { image := image, block := block }, buffer := none } }

end Sys2Proof.Machine
end

