-- ==== Sys2Proof/Machine/Job.lean ====
section
/-! DEFINITION. Faults of units (R139, R140), the end of a job (R88), the split of a switch (R149 to R151), and taking a
cutoff (R160 to R165). -/

namespace Sys2Proof.Machine

/-- A standby bank that the part treats as holding nothing (R98). -/
def Standby.unknown : Standby := { image := 0, version := Version.zero, state := .blank }

/-! ### Unit faults -/

/-- The record of a unit that faults (R139 steps 1, 2 and 4; R98 for SWITCH_FAILED). -/
def JobUnit.faultWith (reason : FaultReason) (command : LineCommand) (block : Option Nat) (u : JobUnit) : JobUnit :=
  { u with progress := some (.faulted reason)
           fault := some { reason := reason, command := command, block := block }
           claim := none
           knownStandby := if reason = .switchFailed then Standby.unknown else u.knownStandby }

/-- Steps 1 to 4 of R139: the unit's record, UNIT_FAULT, and its claim. -/
def State.faultUnit (s : State) (b : BayId) (addr : Nat) (reason : FaultReason) (command : LineCommand)
    (block : Option Nat) : State :=
  (s.modBay b fun y => y.modUnit addr (JobUnit.faultWith reason command block)).post .unitFault (.bayUnit b addr)

/-- A VERIFIED member of a group with a faulted member becomes DEFERRED(FAULT_IN_GROUP), and its claim is released
(R140). -/
def JobUnit.deferForFault (u : JobUnit) : JobUnit :=
  if u.progress = some .verified then { u with progress := some .deferredFault, claim := none } else u

/-- Step 5 of R139 and R140: the switch-group record of the unit's group is marked and its VERIFIED members are
deferred. -/
def Bay.flagGroupOf (y : Bay) (addr : Nat) : Bay :=
  match y.unit addr with
  | none => y
  | some u =>
    match y.groupRecord u.group with
    | none => y
    | some r => (y.modGroup u.group fun q => { q with faulted := true }).modUnits r.members JobUnit.deferForFault

/-- A member faults in a pass (R139, R140). -/
def State.faultMember (s : State) (b : BayId) (addr : Nat) (reason : FaultReason) (command : LineCommand)
    (block : Option Nat) : State :=
  (s.faultUnit b addr reason command block).modBay b fun y => y.flagGroupOf addr

/-! ### Split entries of a switch (R149 to R151) -/

/-- Writes the split entry of a group's switch from its switch-group record and sent list, and posts GROUP_SPLIT; with
no unconfirmed member, the confirmed addresses leave any entry and nothing is posted (R150). -/
def State.splitGroup (s : State) (b : BayId) (g : Nat) : State :=
  let y := s.bay b
  match y.groupRecord g with
  | none => s
  | some r =>
    match unconfirmedOf y.units r.sent with
    | [] => s.modBound b fun q => { q with splits := dropFromSplit g (switchedOf y.units r.members) q.splits }
    | m :: rest =>
      (s.modBound b fun q =>
        { q with splits := writeSplit { group := g, images := r.images, members := m :: rest } r.members q.splits }).post
        .groupSplit (.bayGroup b g)

/-- The switch in flight is broken off: the switch ended flag is set and the split entry written; a group 0 unit
writes nothing (R151). -/
def State.breakOffSwitch (s : State) (b : BayId) : State :=
  match (s.bay b).switching with
  | none => s
  | some sw =>
    if sw.group = 0 then s
    else (s.modBay b fun y => y.modGroup sw.group fun r => { r with ended := true }).splitGroup b sw.group

/-! ### The end of a job (R88) -/

/-- Step 2 of R88: an unfinished FLASH unit takes CUT. -/
def JobUnit.cutOff (u : JobUnit) : JobUnit :=
  match u.decision, u.progress with
  | some .flash, some p => if p.final then u else { u with progress := some .cut }
  | _, _ => u

/-- The activity under way and its lists are dropped (R88 steps 1 and 6); the job unit records stay. -/
def Bay.dropWork (y : Bay) : Bay :=
  { y with passes := [], groups := [], switching := none, sweepAt := none, planning := none, replanPending := false,
           pendingCutoff := none }

/-- Ending the job of a bay, in the order of R88. The stop itself has begun to drain the line. -/
def State.endJob (s : State) (b : BayId) : State :=
  let s2 := s.modBay b fun y => { y with units := y.units.map JobUnit.cutOff }
  let s3 := s2.breakOffSwitch b
  let s4 := s3.modBay b fun y => { y with units := y.units.map JobUnit.release }
  let s5 := s4.modBound b (BusRecord.jobEnded (s4.bay b).units)
  s5.modBay b Bay.dropWork

/-- Ends the job unless it has already ended: a bay in CUTOFF has no job to end (R88). -/
def State.endJobOnce (s : State) (b : BayId) : State :=
  if (s.bay b).state = .cutoff then s else s.endJob b

/-! ### Cutoff (R160 to R165) -/

/-- A cutoff that acts, in the order of R164; a bay whose flag is set keeps its first cause (R163). -/
def State.cutOffBay (s : State) (b : BayId) (cause : CutoffCause) : State :=
  if (s.bay b).cutoff.isSome then s
  else
    let s1 := s.modBay b fun y => { y with cutoff := some cause }
    let s3 := (s1.drainLine b).endJob b
    (s3.modBay b fun y => { y with state := .cutoff }).post .bayCutoff (.bay b)

/-- A cutoff in SWITCHING becomes pending; the first cause stays recorded (R165). -/
def Bay.pendCutoff (y : Bay) (cause : CutoffCause) : Bay :=
  { y with pendingCutoff := match y.pendingCutoff with
      | some c => some c
      | none => some cause }

/-- A DEADLINE or DEPART_NOW cutoff is taken according to the bay's state (R160, R162). -/
def State.takeCutoff (s : State) (b : BayId) (cause : CutoffCause) : State :=
  match (s.bay b).state with
  | .enumerating | .planning | .anonymous | .duplicate | .transferring | .done => s.cutOffBay b cause
  | .switching => s.modBay b fun y => y.pendCutoff cause
  | .disabled | .empty | .cutoff => s

/-- The deadline compare of a bay (R159 to R161). -/
def State.deadlineCompare (s : State) (b : BayId) : State :=
  let y := s.bay b
  if y.deadlineCondition s.yardTime then
    match y.config.mode with
    | .stop => s.takeCutoff b .deadline
    | .warn =>
      if y.warned || y.state = .disabled || y.state = .empty then s
      else (s.modBay b fun z => { z with warned := true }).post .deadlineWarn (.bay b)
  else s

/-! ### Leaving the bus (R81, R89, R90, R93) -/

/-- Departure, cutoff time, cutoff flag and cause, warned indication and job unit records are gone (R81, R89, R161). -/
def Bay.clearBus (y : Bay) : Bay :=
  { y with departure := none, cutoffTime := none, cutoff := none, warned := false, units := [] }

/-- The steps that detach, BAY_ENABLE off, BAY_RESET and controller reset share: the line drains, the job ends, the
binding is released, and the bay's bus is forgotten (R81, R89, R90, R93). -/
def State.leaveBus (s : State) (b : BayId) : State :=
  (((s.drainLine b).endJobOnce b).unbind b).modBay b Bay.clearBus

end Sys2Proof.Machine
end

