-- ==== Sys2Proof/Machine/Pass.lean ====
section
/-! DEFINITION. The phases of a pass up to the offering of each request (chapter 8): entering OPEN, STREAM, REPAIR and
CHECK, choosing the next phase, sending blocks, pausing and resuming under a hold, and the samples of R122 and R123. -/

namespace Sys2Proof.Machine

/-! ### Members -/

/-- The units of some addresses. -/
def Bay.unitsAt (y : Bay) (addrs : List Nat) : List JobUnit := y.units.filter fun u => addrs.contains u.addr

/-- The addresses of a pass whose unit satisfies a test, in the order of the member list. -/
def Bay.membersWhere (y : Bay) (members : List Nat) (test : JobUnit → Bool) : List Nat :=
  members.filter fun a => match y.unit a with
    | some u => test u
    | none => false

/-- The member takes part in STREAM and REPAIR: neither CHECK_ONLY nor FAULTED (R130, R132). -/
def JobUnit.streams (u : JobUnit) : Bool := u.kind != some .checkOnly && !u.isFaulted

/-- The member is sent an OPEN: FRESH or RESUME (R127). -/
def JobUnit.opens (u : JobUnit) : Bool := u.kind == some .fresh || u.kind == some .resume

/-- Every member of the pass is FAULTED (R129 row 1, R135). -/
def Bay.allFaulted (y : Bay) (p : Pass) : Bool := (y.unitsAt p.members).all JobUnit.isFaulted

/-- The block count of an image. -/
def ImageStore.blocksOf (st : ImageStore) (image : Nat) : Nat :=
  match st.find image with
  | some e => e.blocks
  | none => 0

/-! ### CHECK (R136) -/

/-- Offers the next member's CHECK; the member takes CHECKING (R136). -/
def Bay.offerCheck (y : Bay) : Bay :=
  match y.currentPass with
  | none => y
  | some p =>
    match p.todo with
    | [] => y
    | a :: rest =>
      ((y.modPass fun q => { q with todo := rest }).modUnit a fun u => { u with progress := some .checking }).offer
        (.check a) .pass

/-- Enters the CHECK phase with every member that is not FAULTED (R136). -/
def Bay.enterCheck (y : Bay) : Bay :=
  (y.modPass fun p =>
    { p with phase := .checking, phaseComplete := false, refetched := 0
             todo := y.membersWhere p.members fun u => !u.isFaulted }).offerCheck

/-! ### Sending blocks (R74, R130 to R132) -/

/-- A list of ranges without its first block. -/
def dropBlock : List Range → List Range
  | [] => []
  | r :: rest => if r.count ≤ 1 then rest else { first := r.first + 1, count := r.count - 1 } :: rest

/-- The address and number of the block that the pass sends next (R130, R132). -/
def Pass.wanted (p : Pass) (blocks : Nat) : Option (Nat × Nat) :=
  match p.phase with
  | .streaming => match p.streamAddr with
      | some a => if p.nextBlock < blocks then some (a, p.nextBlock) else none
      | none => none
  | .repairing => match p.repairMember, p.toSend with
      | some a, r :: _ => some (a, r.first)
      | _, _ => none
  | _ => none

/-- The repair blocks sent to a member so far. -/
def Bay.repairSentTo (y : Bay) (addr : Nat) : Nat := match y.unit addr with
  | some u => u.repairSent
  | none => 0

/-- The block that the stream reader asks for while the frame of the wanted block is on the line (R74). In REPAIR it asks
only for a block that R134 lets the pass send; R74 states no limit for the reader: DEDUCED, unsafe
(notes/assumptions/16.md). -/
def Bay.following (y : Bay) (p : Pass) (blocks : Nat) : Option Nat :=
  match p.phase with
  | .streaming => if p.nextBlock + 1 < blocks then some (p.nextBlock + 1) else none
  | .repairing => match p.repairMember, dropBlock p.toSend with
      | some a, r :: _ => if y.repairSentTo a + 2 ≤ 2 * blocks then some r.first else none
      | _, _ => none
  | _ => none

/-- Starts the wanted BLOCK frame when its data has been read, and asks for the following block; otherwise asks for the
wanted block unless a read is outstanding (R74). -/
def State.sendBlock (s : State) (b : BayId) : State :=
  let y := s.bay b
  match y.currentPass with
  | none => s
  | some p =>
    let blocks := s.store.blocksOf p.image
    match p.wanted blocks, y.engine.state with
    | some (a, n), .idle =>
      match y.reader.buffer with
      | some (k, data) =>
        if k = n then
          s.modBay b fun z =>
            let z1 := Bay.startFrame { z with reader := { waiting := none, buffer := none } } (.block a n data) .pass
            match z.following p blocks with
            | some m => z1.askBlock p.image m
            | none => z1
        else s.modBay b fun z => z.askBlock p.image n
      | none => if s.readOutstanding b then s else s.modBay b fun z => z.askBlock p.image n
    | _, _ => s

/-! ### REPAIR (R132 to R135) -/

/-- Offers GAPS to the repair member (R132). -/
def Bay.offerGaps (y : Bay) : Bay :=
  match y.currentPass with
  | none => y
  | some p =>
    match p.repairMember with
    | some a => y.offer (.gaps a) .pass
    | none => y

/-- Takes the next member concerned as the repair member and offers its first GAPS (R132 step 1). -/
def Bay.nextRepairMember (y : Bay) : Bay :=
  match y.currentPass with
  | none => y
  | some p =>
    match p.todo with
    | [] => y
    | a :: rest =>
      ((y.modPass fun q => { q with todo := rest, repairMember := some a, toSend := [], firstGaps := true }).modUnit a
        fun u => { u with progress := some .repairing }).offerGaps

/-- Enters the REPAIR phase with the members concerned in ascending order (R132). -/
def Bay.enterRepair (y : Bay) : Bay :=
  (y.modPass fun p =>
    { p with phase := .repairing, phaseComplete := false, repairMember := none, toSend := [], answered := 0
             missingSum := 0, todo := y.membersWhere p.members JobUnit.streams }).nextRepairMember

/-! ### STREAM (R130) -/

/-- The stream address: 31 for more than one member streamed to, and otherwise that member's own (R130). -/
def streamAddress (members : List Nat) : Option Nat :=
  match members with
  | [] => none
  | [a] => some a
  | _ :: _ :: _ => some 31

/-- Enters the STREAM phase and asks for block 0 (R130). -/
def State.enterStream (s : State) (b : BayId) : State :=
  (s.modBay b fun y => y.modPass fun p =>
    { p with phase := .streaming, phaseComplete := false, nextBlock := 0, streamed := 0, activeTime := 0
             streamAddr := streamAddress (y.membersWhere p.members JobUnit.streams) }).sendBlock b

/-! ### OPEN (R127, R129) -/

/-- Offers the next member's OPEN; the member takes OPENING (R127). -/
def State.offerOpen (s : State) (b : BayId) : State :=
  let y := s.bay b
  match y.currentPass with
  | none => s
  | some p =>
    match p.todo with
    | [] => s
    | a :: rest =>
      match y.unit a, s.store.find p.image with
      | some u, some e =>
        let version := match u.planned with
          | some pl => pl.version
          | none => e.version
        s.modBay b fun z =>
          ((z.modPass fun q => { q with todo := rest }).modUnit a fun v =>
            { v with progress := some .opening, openedBlocks := some e.blocks }).offer
            (.openBank a p.image version e.length e.blocks p.join (u.kind == some .resume)) .pass
      | _, _ => s

/-- The next phase after OPEN, by rows 2 to 4 of R129. -/
def State.afterOpen (s : State) (b : BayId) : State :=
  let y := s.bay b
  match y.currentPass with
  | none => s
  | some p =>
    let live := y.unitsAt (y.membersWhere p.members fun u => !u.isFaulted)
    if live.all fun u => u.kind == some .checkOnly then s.modBay b Bay.enterCheck
    else if p.choice = some .fromMissing && !(live.any fun u => u.kind == some .fresh) then
      s.modBay b fun z => (z.modPass fun q => { q with sampleDue := false }).enterRepair
    else
      (s.modBay b fun z => z.modPass fun q =>
        { q with choice := if q.choice = some .fromMissing then some .fromB else q.choice }).enterStream b

/-- Enters the OPEN phase: an OPEN is offered to the first FRESH or RESUME member; with none the phase finishes in the
same event (R126, R127, R129). -/
def State.enterOpen (s : State) (b : BayId) : State :=
  let y := s.bay b
  match y.currentPass with
  | none => s
  | some p =>
    match y.membersWhere p.members JobUnit.opens with
    | [] => s.afterOpen b
    | a :: rest => (s.modBay b fun z => z.modPass fun q => { q with todo := a :: rest }).offerOpen b

/-! ### Samples (R122, R123) -/

/-- A smoothed value moved a quarter of the way to a sample, truncated toward zero (R122, R123). -/
def smooth (old sample : Nat) : Nat :=
  if old ≤ sample then old + (sample - old) / 4 else old - (old - sample) / 4

/-- The rate sample (R122). -/
def rateSample (streamed activeTime : Nat) : Nat :=
  if activeTime = 0 then 60000 else clamp 1 60000 (streamed * 256 * 1000 / activeTime)

/-- The rate update at the completion of a STREAM phase (R122). -/
def Bay.takeRateSample (y : Bay) (p : Pass) : Bay :=
  if 64 ≤ p.streamed then { y with rate := smooth y.rate (rateSample p.streamed p.activeTime) } else y

/-- The gap ratio sample (R123). -/
def gapSample (missing blocks answered : Nat) : Nat := min 255 (missing * 256 / (blocks * answered))

/-- The gap ratio update, unless no member answered (R123). -/
def Bay.takeGapSample (y : Bay) (p : Pass) (blocks : Nat) : Bay :=
  if p.answered = 0 then y
  else { y with gapRatio := smooth y.gapRatio (gapSample p.missingSum blocks p.answered) }

end Sys2Proof.Machine
end

