-- ==== Sys2Proof/Machine/Admission.lean ====
section
/-! DEFINITION. Admission (chapter 7): the pass estimate, the admission tests, the admission run, and the start of the
switch or pass that it admits. Planning (chapter 6), whose completion takes an admission run, stands here too. -/

namespace Sys2Proof.Machine

/-! ### The pass estimate (R115, R116) -/

/-- A term saturates at 4,294,967,295 (R115). -/
def saturate (n : Nat) : Nat := min max32 n

/-- The sum of the RESUME members' missing totals, if each is present (R116 row 2). -/
def missingSum (units : List JobUnit) : Option Nat :=
  units.foldr (fun u acc =>
    if u.kind = some .resume then
      match u.missing, acc with
      | some m, some n => some (m + n)
      | _, _ => none
    else acc) (some 0)

/-- The stream choice of a pass over its members (R116). -/
def streamChoice (units : List JobUnit) : StreamChoice :=
  if units.all fun u => u.kind == some .checkOnly then .checkOnly
  else if (units.all fun u => u.kind == some .checkOnly || u.kind == some .resume) && (missingSum units).isSome then
    .fromMissing
  else .fromB

/-- The blocks to stream S (R116). -/
def blocksToStream (units : List JobUnit) (blocks : Nat) : Nat :=
  match streamChoice units with
  | .checkOnly => 0
  | .fromMissing => match missingSum units with
      | some n => n
      | none => 0
  | .fromB => blocks

/-- The open term of R115. -/
def openTerm (fresh tOpen : Nat) : Nat := saturate (fresh * tOpen)

/-- The stream term of R115. -/
def streamTerm (toStream rate : Nat) : Nat := saturate (ceilDiv (toStream * 256000) rate)

/-- The repair term of R115. -/
def repairTerm (stream gapRatio : Nat) : Nat := saturate (ceilDiv (stream * gapRatio) 256)

/-- The check term of R115. -/
def checkTerm (members blocks tCheck : Nat) : Nat := saturate (members * ceilDiv blocks 256 * tCheck)

/-- The pass estimate E_pass (R115). -/
def passEstimate (y : Bay) (units : List JobUnit) (members blocks : Nat) : Nat :=
  let stream := streamTerm (blocksToStream units blocks) y.rate
  saturate (openTerm (units.countP fun u => u.kind == some .fresh) y.config.tOpen + stream +
    repairTerm stream y.gapRatio + checkTerm members blocks y.config.tCheck)

/-- A pass's need: its estimate and its switch need (R117). -/
def passNeed (y : Bay) (p : Pass) (blocks : Nat) : Nat :=
  saturate (passEstimate y (y.unitsAt p.members) p.members.length blocks + p.members.length * y.config.tSwitch)

/-- Work of a length fits before the cutoff time, or always when there is none (R117, R118). -/
def Bay.fits (y : Bay) (now need : Nat) : Bool :=
  match y.cutoffTime with
  | none => true
  | some c => decide (now + need ≤ c)

/-! ### Candidates (R120, R143, R144) -/

/-- The unit stands in a waiting pass. -/
def Bay.inWaitingPass (y : Bay) (addr : Nat) : Bool :=
  y.passes.any fun p => p.phase == .waiting && p.members.contains addr

/-- The unit stands in a pass that has not ended. -/
def Bay.inOpenPass (y : Bay) (addr : Nat) : Bool :=
  y.passes.any fun p => p.phase != .ended && p.members.contains addr

/-- The unit counts as VERIFIED in an admission run: VERIFIED, or DEFERRED(NO_TIME) from a switch (R120 step 1). -/
def Bay.countsVerified (y : Bay) (u : JobUnit) : Bool :=
  u.progress == some .verified || (u.progress == some .deferredNoTime && !(y.inWaitingPass u.addr))

/-- A switch that an admission run may try: its group and members. -/
structure SwitchTry where
  group : Nat
  members : List Nat
  deriving DecidableEq, Repr

/-- The group 0 units that are candidates for a single switch, in ascending address order (R144). -/
def Bay.soloTries (y : Bay) : List SwitchTry :=
  (y.units.filter fun u => u.isFlash && u.group == 0 && y.countsVerified u && !(y.inOpenPass u.addr)).map fun u =>
    { group := 0, members := [u.addr] }

/-- A switch group is ready (R143). -/
def Bay.groupReady (y : Bay) (r : GroupRecord) : Bool :=
  !r.ended && !r.faulted &&
    (r.members.all fun a => match y.unit a with
      | some u => y.countsVerified u
      | none => false) &&
    !(r.members.any y.inOpenPass)

/-- The switches that an admission run tries, in order (R120 step 2). -/
def Bay.switchTries (y : Bay) : List SwitchTry :=
  y.soloTries ++ (y.groups.filter y.groupReady).map fun r => { group := r.group, members := r.members }

/-! ### Starting work (R145, R126) -/

/-- The units show DEFERRED(NO_TIME) (R120). -/
def Bay.defer (y : Bay) (addrs : List Nat) : Bay :=
  y.modUnits addrs fun u => { u with progress := some .deferredNoTime }

/-- Starts a switch: SWITCHING, an empty sent list, every member SWITCHING, and the first SWITCH offered (R145). -/
def Bay.startSwitch (y : Bay) (t : SwitchTry) : Bay :=
  let z := (y.modUnits t.members fun u => { u with progress := some .switching }).modGroup t.group fun r =>
    { r with sent := [] }
  let sw : Switch := { group := t.group, members := t.members, todo := t.members.tail, polls := [], soloSent := [] }
  let w := { z with state := .switching, switching := some sw }
  match t.members with
  | [] => w
  | a :: _ => w.offer (.switch a) .switch

/-- Changes the first pass of a list that waits and satisfies a test. -/
def changeFirst (test : Pass → Bool) (f : Pass → Pass) : List Pass → List Pass
  | [] => []
  | p :: rest => if p.phase == .waiting && test p then f p :: rest else p :: changeFirst test f rest

/-- Starts the first waiting pass that satisfies a test: its stream choice is recorded, its units take PENDING and its
OPEN phase begins (R120 step 3, R125, R127). -/
def State.startPass (s : State) (b : BayId) (test : Pass → Bool) (p : Pass) : State :=
  (s.modBay b fun y =>
    { (y.modUnits p.members fun u => { u with progress := some .pending }) with
      state := .transferring
      passes := changeFirst test (fun q =>
        { q with phase := .opening, phaseComplete := false, nextBlock := 0
                 choice := some (streamChoice (y.unitsAt q.members)), join := decide (1 < q.members.length) })
        y.passes }).enterOpen b

/-- A bay with nothing started rests in DONE, and posts BAY_DONE on entering it (R121). -/
def State.restInDone (s : State) (b : BayId) : State :=
  if (s.bay b).state = .done then s
  else (s.modBay b fun y => { y with state := .done }).post .bayDone (.bay b)

/-- The conditions of an admission run: TRANSFERRING or DONE, nothing in flight, no re-plan pending (R119). -/
def Bay.mayRun (y : Bay) : Bool :=
  (y.state == .transferring || y.state == .done) && y.currentPass.isNone && y.switching.isNone && !y.replanPending

/-- An admission run (R119, R120). The units of every piece of work tried and refused show DEFERRED(NO_TIME)
(notes/assumptions/15.md). -/
def State.admissionRun (s : State) (b : BayId) : State :=
  let y := s.bay b
  if !y.mayRun || y.held then s
  else
    let tries := y.switchTries
    let switchFits := fun t : SwitchTry => y.fits s.yardTime (t.members.length * y.config.tSwitch)
    match tries.find? switchFits with
    | some t =>
      let refused := (tries.takeWhile fun r => !(switchFits r)).flatMap (·.members)
      s.modBay b fun z => (z.defer refused).startSwitch t
    | none =>
      let waiting := y.passes.filter fun p => p.phase == .waiting
      let passFits := fun p : Pass => y.fits s.yardTime (passNeed y p (s.store.blocksOf p.image))
      let refused := tries.flatMap (·.members) ++
        (waiting.takeWhile fun p => !(passFits p)).flatMap (·.members)
      let t := s.modBay b fun z => z.defer refused
      match waiting.find? passFits with
      | some p => t.startPass b passFits p
      | none => t.restInDone b

/-! ### Planning (R99, R107) -/

/-- A planning completes: passes and switch groups are formed, the counters and the bus record written, and the bay
enters TRANSFERRING with an admission run, or DONE (R107). -/
def State.completePlanning (s : State) (b : BayId) (generation : Nat) : State :=
  let units := (s.bay b).units
  let s1 := s.modBay b fun y =>
    { y with passes := formPasses units, groups := formGroups units, planning := none }
  let s2 : State := { s1 with plans := { s1.plans with counters := countMatches units s1.plans.counters } }
  let s3 := s2.modBound b (BusRecord.planned generation units)
  if (formPasses units).isEmpty then
    (s3.modBay b fun y => { y with state := .done }).post .bayDone (.bay b)
  else (s3.modBay b fun y => { y with state := .transferring }).admissionRun b

/-- The addresses of the RESUME units, ascending: the planning's GAPS list (R99 step 6). -/
def gapsListOf (units : List JobUnit) : List Nat :=
  (units.filter fun u => u.isFlash && u.kind == some .resume).map (·.addr)

/-- The starting event of a planning, first or repeated (R99, R108). -/
def State.startPlanning (s : State) (b : BayId) : State :=
  let units := (decideUnits s.plans.active.toList s.store.find ((s.bay b).units.map JobUnit.replanReset)).map
    JobUnit.startServing
  let s1 := s.modBay b fun y =>
    { y with state := .planning, units := units, passes := [], groups := [], replanPending := false }
  match gapsListOf units with
  | [] => s1.completePlanning b s.plans.generation
  | a :: rest =>
    s1.modBay b fun y =>
      Bay.offer { y with planning := some { generation := s.plans.generation, gapsList := rest } } (.gaps a) .planning

end Sys2Proof.Machine
end

