-- ==== Sys2Proof/Machine/Outcomes.lean ====
section
/-! DEFINITION. What each activity of a bay does with the outcome of its transaction: the sweep (R95, R96), planning's
GAPS (R102), the pass (R128, R130, R133, R136 to R138), the switch and its confirmation round (R146 to R149); pausing
and resuming (R126, R131). -/

namespace Sys2Proof.Machine

/-- The outcome of a transaction other than SENT (R70 to R72). -/
inductive LineOutcome where
  | reply (reply : Reply)
  | noReply
  | notReadyLimit
  deriving DecidableEq, Repr

/-- The fault that an outcome stands for: the unit's REJECT reason, NOT_READY_LIMIT, or NO_REPLY (R73). -/
def LineOutcome.fault : LineOutcome → FaultReason
  | .reply (.reject r) => .rejected r
  | .notReadyLimit => .notReadyLimit
  | _ => .noReply

/-! ### End of a pass (R138) -/

/-- The pass in flight ends (R138). -/
def State.endPass (s : State) (b : BayId) : State :=
  let t := s.modBay b fun y => y.modPass fun p =>
    { p with phase := .ended, phaseComplete := false, streamAddr := none, repairMember := none, todo := [], toSend := [] }
  if (t.bay b).replanPending then t.startPlanning b else t.admissionRun b

/-- The phase has finished its work: the next one is entered, or, on a held bay, when the hold set empties (R126). -/
def State.finishPhase (s : State) (b : BayId) (next : State → State) : State :=
  if (s.bay b).held then s.modBay b fun y => y.modPass fun p => { p with phaseComplete := true }
  else next s

/-! ### OPEN (R128, R129) -/

/-- The OPEN phase finishes (R129). -/
def State.finishOpen (s : State) (b : BayId) (p : Pass) : State :=
  if (s.bay b).allFaulted p then s.endPass b else s.finishPhase b fun t => t.afterOpen b

/-- Goes on with the OPEN phase after an outcome: the next OPEN, or the phase's end (R127, R129, R131). -/
def State.continueOpen (s : State) (b : BayId) : State :=
  match (s.bay b).currentPass with
  | none => s
  | some p =>
    match p.todo with
    | [] => s.finishOpen b p
    | _ :: _ => if (s.bay b).held then s else s.offerOpen b

/-- An OPEN answered OK (R128, R98). -/
def JobUnit.opened (resume : Bool) (u : JobUnit) : JobUnit :=
  { u with progress := some .receiving
           knownStandby := if resume then u.knownStandby
             else match u.planned with
               | some pl => { image := pl.image, version := pl.version, state := .partlyReceived }
               | none => u.knownStandby }

/-- The outcome of an OPEN (R128). -/
def State.takeOpen (s : State) (b : BayId) (a : Nat) (resume : Bool) (out : LineOutcome) : State :=
  let t := match out with
    | .reply .ok => s.modBay b fun y => y.modUnit a (JobUnit.opened resume)
    | .reply (.reject .mismatch) =>
      if resume then
        s.modBay b fun y => (y.modUnit a fun u => { u with kind := some .fresh, missing := none }).modPass fun p =>
          { p with todo := a :: p.todo }
      else s.faultMember b a (.rejected .mismatch) .openBank none
    | out => s.faultMember b a out.fault .openBank none
  t.continueOpen b

/-! ### REPAIR (R132 to R135) -/

/-- The REPAIR phase finishes (R135). -/
def State.finishRepair (s : State) (b : BayId) (p : Pass) : State :=
  if (s.bay b).allFaulted p then s.endPass b
  else s.finishPhase b fun t => t.modBay b Bay.enterCheck

/-- The repair member is finished or faulted: the next one, or the phase's end (R132, R135, R131). -/
def State.leaveRepairMember (s : State) (b : BayId) : State :=
  let t := s.modBay b fun y => y.modPass fun p => { p with repairMember := none, toSend := [] }
  match (t.bay b).currentPass with
  | none => t
  | some p =>
    match p.todo with
    | [] => t.finishRepair b p
    | _ :: _ => if (t.bay b).held then t else t.modBay b Bay.nextRepairMember

/-- Sends the next listed block to the repair member, unless it would pass the limit of twice the block count: then the
member is FAULTED(GAPS_LIMIT) (R132, R134). That a held bay faults it at once, and not when the hold set empties, is a
DESIGN CHOICE, unsafe (notes/assumptions/41.md). With no block listed GAPS is offered and next block is left as it is
(notes/assumptions/34.md). -/
def State.repairStep (s : State) (b : BayId) : State :=
  let y := s.bay b
  match y.currentPass with
  | none => s
  | some p =>
    match p.repairMember, p.toSend with
    | some a, r :: _ =>
      if 2 * s.store.blocksOf p.image < y.repairSentTo a + 1 then
        (s.faultMember b a .gapsLimit .block (some r.first)).leaveRepairMember b
      else
        let t := s.modBay b fun z => z.modPass fun q => { q with nextBlock := r.first }
        if y.held then t else t.sendBlock b
    | some _, [] => if y.held then s else s.modBay b Bay.offerGaps
    | none, _ => s

/-- The first GAPS outcome of a member enters the gap ratio bookkeeping, and that of the last member concerned takes the
sample (R123). -/
def State.countFirstGaps (s : State) (b : BayId) (p : Pass) (out : LineOutcome) : State :=
  if p.firstGaps then
    let counted : Pass := match out with
      | .reply (.gaps ranges _) =>
        { p with answered := p.answered + 1, missingSum := p.missingSum + rangesTotal ranges, firstGaps := false }
      | _ => { p with firstGaps := false }
    let sampled := counted.sampleDue && counted.todo.isEmpty
    s.modBay b fun y =>
      let z := y.modPass fun q =>
        { q with answered := counted.answered, missingSum := counted.missingSum, firstGaps := false
                 sampleDue := q.sampleDue && !sampled }
      if sampled then z.takeGapSample counted (s.store.blocksOf p.image) else z
  else s

/-- The outcome of a GAPS of the REPAIR phase (R132, R133). -/
def State.takeRepairGaps (s : State) (b : BayId) (a : Nat) (out : LineOutcome) : State :=
  match (s.bay b).currentPass with
  | none => s
  | some p =>
    let t := s.countFirstGaps b p out
    match out with
    | .reply (.gaps [] more) =>
      (t.modBay b fun y => y.modUnit a fun u => { u with gaps := [], more := more }).leaveRepairMember b
    | .reply (.gaps (r :: rest) more) =>
      (t.modBay b fun y => (y.modUnit a fun u => { u with gaps := r :: rest, more := more }).modPass fun q =>
        { q with toSend := r :: rest }).repairStep b
    | out => (t.faultMember b a out.fault .gaps none).leaveRepairMember b

/-! ### A BLOCK frame is out (R130, R132) -/

/-- The STREAM phase finishes: the rate sample, then REPAIR (R130, R122). -/
def State.finishStream (s : State) (b : BayId) (p : Pass) : State :=
  (s.modBay b fun y => (y.takeRateSample p).modPass fun q => { q with sampleDue := true }).finishPhase b fun t =>
    t.modBay b Bay.enterRepair

/-- A repair block is out: it leaves the ranges still to send, and next block has advanced past it (R131, R132). Where a
further block is listed, `repairStep` sets next block to that block; where none is, it stays one past the block sent, which
R125 and R132 leave open: DESIGN CHOICE, unsafe (notes/assumptions/34.md). -/
def Pass.repairBlockSent (p : Pass) : Pass :=
  match p.toSend with
  | [] => p
  | r :: _ => { p with toSend := dropBlock p.toSend, nextBlock := r.first + 1 }

/-- The last stop bit of a BLOCK frame is out (R130, R132, R74). -/
def State.takeBlockSent (s : State) (b : BayId) : State :=
  match (s.bay b).currentPass with
  | none => s
  | some p =>
    match p.phase with
    | .streaming =>
      let next : Pass := { p with nextBlock := p.nextBlock + 1, streamed := p.streamed + 1 }
      let t := s.modBay b fun y => y.modPass fun _ => next
      if next.nextBlock < s.store.blocksOf p.image then
        (if (t.bay b).held then t else t.sendBlock b)
      else t.finishStream b next
    | .repairing =>
      match p.repairMember with
      | some a =>
        (s.modBay b fun y => (y.modPass Pass.repairBlockSent).modUnit a fun u =>
          { u with repairSent := u.repairSent + 1 }).repairStep b
      | none => s
    | _ => s

/-! ### CHECK (R136, R137) -/

/-- Goes on with the CHECK phase after an outcome (R136, R138, R131). -/
def State.continueCheck (s : State) (b : BayId) : State :=
  match (s.bay b).currentPass with
  | none => s
  | some p =>
    match p.todo with
    | [] => s.endPass b
    | _ :: _ => if (s.bay b).held then s else s.modBay b Bay.offerCheck

/-- Inserts a pass after the pass in flight and after `n` passes behind it (R137 step 4). -/
def insertBehind (n : Nat) (q : Pass) : List Pass → List Pass
  | [] => []
  | p :: rest => if p.inFlight then p :: (rest.take n ++ q :: rest.drop n) else p :: insertBehind n q rest

/-- A member is moved into a refetch pass (R137). -/
def Bay.refetch (y : Bay) (a : Nat) : Bay :=
  match y.unit a, y.currentPass with
  | some u, some p =>
    let rule := match u.rule with
      | some n => n
      | none => p.lowestRule
    let z := y.modUnit a fun v =>
      { v with refetchUsed := true, kind := some .fresh, missing := none, gaps := [], more := false, repairSent := 0,
               progress := some .pending }
    let w := { z with passes := insertBehind p.refetched (Pass.form p.image p.group rule [a]) z.passes }
    w.modPass fun q => { q with members := q.members.filter fun m => m != a, refetched := q.refetched + 1 }
  | _, _ => y

/-- A matching digest: VERIFIED, or DEFERRED(FAULT_IN_GROUP) in a group with a faulted member (R136, R140). -/
def Bay.verifyMember (y : Bay) (a : Nat) : Bay :=
  let flagged := match y.unit a with
    | some u => match y.groupRecord u.group with
        | some r => r.faulted
        | none => false
    | none => false
  y.modUnit a fun u =>
    let v := { u with knownStandby := match u.planned with
      | some pl => { image := pl.image, version := pl.version, state := .verified }
      | none => u.knownStandby }
    if flagged then { v with progress := some .deferredFault, claim := none }
    else { v with progress := some .verified }

/-- The expected digest of the pass's image (R136). -/
def ImageStore.expected (st : ImageStore) (image : Nat) : BitVec 32 :=
  match st.find image with
  | some e => e.crc
  | none => 0

/-- Whether the unit has been refetched (R136). -/
def Bay.refetchUsed (y : Bay) (a : Nat) : Bool := match y.unit a with
  | some u => u.refetchUsed
  | none => false

/-- The member is refetched, or, once refetched, faults with a reason (R136, R137). -/
def State.refetchOrFault (s : State) (b : BayId) (a : Nat) (reason : FaultReason) : State :=
  if (s.bay b).refetchUsed a then s.faultMember b a reason .check none else s.modBay b fun y => y.refetch a

/-- What a CHECK's outcome does to its member (R136, R98). -/
def State.checkMember (s : State) (b : BayId) (a image : Nat) (out : LineOutcome) : State :=
  match out with
  | .reply (.digest crc) =>
    if crc = s.store.expected image then s.modBay b fun y => y.verifyMember a
    else (s.modBay b fun y => y.modUnit a fun u => { u with knownStandby := Standby.unknown }).refetchOrFault b a .digest
  | .reply (.reject .notComplete) =>
    (s.modBay b fun y => y.modUnit a fun u =>
      { u with knownStandby := match u.planned with
          | some pl => { image := pl.image, version := pl.version, state := .partlyReceived }
          | none => u.knownStandby }).refetchOrFault b a (.rejected .notComplete)
  | out => s.faultMember b a out.fault .check none

/-- The outcome of a CHECK (R136): the member's, then the next CHECK or the pass's end. -/
def State.takeCheck (s : State) (b : BayId) (a : Nat) (out : LineOutcome) : State :=
  match (s.bay b).currentPass with
  | none => s
  | some p => (s.checkMember b a p.image out).continueCheck b

/-! ### Resuming (R126, R131, R169) -/

/-- Enters the phase that follows a complete phase (R126). -/
def State.enterNext (s : State) (b : BayId) (p : Pass) : State :=
  match p.phase with
  | .opening => s.afterOpen b
  | .streaming => s.modBay b Bay.enterRepair
  | .repairing => s.modBay b Bay.enterCheck
  | _ => s

/-- With the engine free, the pass offers the request it would have offered next (R131). -/
def State.offerNext (s : State) (b : BayId) (p : Pass) : State :=
  match p.phase with
  | .opening => s.offerOpen b
  | .streaming => s.sendBlock b
  | .repairing => match p.repairMember with
      | some _ => s.repairStep b
      | none => s.modBay b Bay.nextRepairMember
  | .checking => s.modBay b Bay.offerCheck
  | _ => s

/-- The pause of a pass ends (R126, R131; R72 for a poll interval that has ended meanwhile). -/
def State.resumePass (s : State) (b : BayId) (p : Pass) : State :=
  let y := s.bay b
  if p.phaseComplete then s.enterNext b p
  else match y.engine.state with
    | .pollWait => if y.engine.pollEnded then s.modBay b fun z => z.resend id else s
    | .idle => if y.engine.offered.isSome then s.modBay b Bay.takeOffered else s.offerNext b p
    | .sending | .awaiting => s

/-- A bay's hold set has become empty: a pass in flight resumes, and otherwise an admission run is taken where R119
allows it (R169). -/
def State.holdEmptied (s : State) (b : BayId) : State :=
  match (s.bay b).currentPass with
  | some p => s.resumePass b p
  | none => s.admissionRun b

/-! ### The switch (R146 to R149) -/

/-- The poll entry that comes first: the earlier due time, then the lower address (R147). -/
def earlierPoll (p q : Poll) : Poll :=
  if q.due < p.due || (q.due == p.due && q.addr < p.addr) then q else p

/-- The member to poll: of those whose due time has been reached, the one that comes first (R147). -/
def duePoll (now : Time) (polls : List Poll) : Option Poll :=
  match polls.filter fun p => decide (p.due ≤ now) with
  | [] => none
  | p :: rest => some (rest.foldl earlierPoll p)

/-- In the confirmation round, with the engine free, offers IDENTIFY to the member whose due time has been reached
(R147). -/
def Bay.pollDue (y : Bay) (now : Time) : Bay :=
  match y.switching with
  | none => y
  | some sw =>
    if sw.todo.isEmpty && y.engine.state = .idle && y.engine.offered.isNone then
      match duePoll now sw.polls with
      | some p => y.offer (.identify p.addr) .confirm
      | none => y
    else y

/-- A member that is SWITCHED carries the hold-after flag (R152). -/
def Bay.holdAfterSwitch (y : Bay) (members : List Nat) : Bool :=
  (y.unitsAt members).any fun u => u.progress == some .switched && u.holdAfter

/-- Every member of a switch is SWITCHED. -/
def Bay.allSwitched (y : Bay) (members : List Nat) : Bool :=
  members.all fun a => match y.unit a with
    | some u => u.progress == some .switched
    | none => false

/-- Steps 1 and 2 of R149: the switch ended flag, the split list, GROUP_SWITCHED or GROUP_SPLIT. -/
def State.recordSwitch (s : State) (b : BayId) (sw : Switch) : State :=
  let all := (s.bay b).allSwitched sw.members
  if sw.group = 0 then (if all then s.post .groupSwitched (.bayGroup b 0) else s)
  else
    let t := s.modBay b fun y => y.modGroup sw.group fun r => { r with ended := true }
    if all then
      (t.modBound b fun q => { q with splits := dropFromSplit sw.group sw.members q.splits }).post .groupSwitched
        (.bayGroup b sw.group)
    else t.splitGroup b sw.group

/-- A switch ends, in the order of R149. A deadline condition that holds in STOP mode cuts the bay off as it leaves
SWITCHING (R160, notes/assumptions/9.md). -/
def State.endSwitch (s : State) (b : BayId) (sw : Switch) : State :=
  let t := (s.recordSwitch b sw).modBay b fun y =>
    { y with holds := if y.holdAfterSwitch sw.members then { y.holds with rule := true } else y.holds
             switching := none, state := .transferring }
  let y := t.bay b
  match y.pendingCutoff with
  | some cause => t.cutOffBay b cause
  | none =>
    if y.config.mode = .stop && y.deadlineCondition t.yardTime then t.cutOffBay b .deadline
    else if y.replanPending then t.startPlanning b
    else t.admissionRun b

/-- Goes on with a switch: the next SWITCH, the next poll, or the end (R146, R147, R149). -/
def State.continueSwitch (s : State) (b : BayId) : State :=
  match (s.bay b).switching with
  | none => s
  | some sw =>
    match sw.todo with
    | a :: rest =>
      s.modBay b fun y => Bay.offer { y with switching := some { sw with todo := rest } } (.switch a) .switch
    | [] =>
      if sw.polls.isEmpty then s.endSwitch b sw
      else s.modBay b fun y => y.pollDue s.yardTime

/-- Changes the poll entries of the switch in flight. -/
def Bay.modPolls (y : Bay) (f : List Poll → List Poll) : Bay :=
  { y with switching := y.switching.map fun sw : Switch => { sw with polls := f sw.polls } }

/-- The first stage of a switch has not ended: a SWITCH is still to be offered, waits or is outstanding (R146). -/
def Bay.inFirstStage (y : Bay) (sw : Switch) : Bool :=
  !sw.todo.isEmpty ||
    (match y.engine.transaction with
      | some tr => tr.activity == .switch && !tr.drained
      | none => false) ||
    (match y.engine.offered with
      | some (_, act) => act == .switch
      | none => false)

/-- After a member's confirmation deadline: the round ends when no member remains in it, and goes on otherwise (R147,
R148). -/
def State.settleRound (s : State) (b : BayId) : State :=
  match (s.bay b).switching with
  | none => s
  | some sw =>
    if (s.bay b).inFirstStage sw then s
    else if sw.polls.isEmpty then s.endSwitch b sw
    else s.modBay b fun y => y.pollDue s.yardTime

/-- A member fails its switch: FAULTED(SWITCH_FAILED), by steps 1 to 4 of R139 (R146, R148). -/
def State.failSwitch (s : State) (b : BayId) (a : Nat) (command : LineCommand) : State :=
  (s.faultUnit b a .switchFailed command none).modBay b fun y => y.modPolls fun ps => ps.filter fun p => p.addr != a

/-- The outcome of a SWITCH (R146). -/
def State.takeSwitch (s : State) (b : BayId) (a : Nat) (out : LineOutcome) : State :=
  let t := match out with
    | .reply .ok =>
      s.modBay b fun y => (y.modUnit a fun u => { u with progress := some .confirming }).modPolls fun ps =>
        ps ++ [Poll.mk a (s.yardTime + y.config.tSwitch) (s.yardTime + y.config.pollInterval)]
    | _ => s.failSwitch b a .switch
  t.continueSwitch b

/-- A member seen at its planned version: SWITCHED, its claim released, its known fields and its slot updated (R148,
R98, R7). -/
def State.confirmMember (s : State) (b : BayId) (a : Nat) (version : Version) : State :=
  (s.modBay b fun y =>
    (y.modUnit a fun u =>
      { u with progress := some .switched, claim := none, knownActive := version, knownStandby := Standby.unknown }).modPolls
      fun ps => ps.filter fun p => p.addr != a).modBound b (BusRecord.confirmed a version)

/-- The confirmation deadline of a member, if it is in the round. -/
def Bay.deadlineOf (y : Bay) (a : Nat) : Option Time :=
  (y.switching.bind fun sw => sw.polls.find? fun p => p.addr == a).map (·.deadline)

/-- The outcome of a confirmation IDENTIFY (R148). -/
def State.takeConfirm (s : State) (b : BayId) (a : Nat) (out : LineOutcome) : State :=
  let y := s.bay b
  match y.unit a, y.deadlineOf a with
  | some u, some deadline =>
    let t := match out with
      | .reply (.identity i) =>
        match u.planned with
        | some pl =>
          if i.serial = u.identity.serial && i.active = pl.version then s.confirmMember b a pl.version
          else s.failSwitch b a .identify
        | none => s.failSwitch b a .identify
      | _ =>
        if deadline ≤ s.yardTime then s.failSwitch b a .identify
        else s.modBay b fun z => z.modPolls fun ps => ps.map fun p : Poll =>
          if p.addr == a then { p with due := s.yardTime + z.config.pollInterval } else p
    t.continueSwitch b
  | _, _ => s.continueSwitch b

/-! ### The sweep (R94 to R96) and planning's GAPS (R102) -/

/-- Offers the sweep's IDENTIFY to an address (R94). -/
def Bay.sweepTo (y : Bay) (a : Nat) : Bay := Bay.offer { y with sweepAt := some a } (.identify a) .sweep

/-- Enters ENUMERATING with a fresh job; the first IDENTIFY is still to be offered (R85, R97). -/
def Bay.enterSweep (y : Bay) : Bay :=
  { y with state := .enumerating, units := [], passes := [], groups := [], switching := none, planning := none,
           replanPending := false, sweepAt := some 1 }

/-- The bay enters ANONYMOUS or DUPLICATE and posts BAY_ANOMALY (R86). -/
def State.enterAnomaly (s : State) (b : BayId) (state : BayState) : State :=
  (s.modBay b fun y => { y with state := state, sweepAt := none }).post .bayAnomaly (.bay b)

/-- The fleet number that a bay offers after its sweep: that of the GATEWAY unit at address 1 (R9, R96). -/
def Bay.offeredFleet (y : Bay) : Option Nat :=
  match y.unit 1 with
  | some u => if u.identity.cls = 1 && u.identity.fleet ≠ 0 then some u.identity.fleet else none
  | none => none

/-- The end of the sweep (R96). -/
def State.endSweep (s : State) (b : BayId) : State :=
  match (s.bay b).offeredFleet with
  | none => s.enterAnomaly b .anonymous
  | some fleet =>
    match s.offerFleet b fleet with
    | (.refused, t) => t.enterAnomaly b .duplicate
    | (.bound, t) => ((t.modBay b fun y => { y with sweepAt := none }).refreshBound b).startPlanning b

/-- The outcome of a sweep IDENTIFY (R94, R95). -/
def State.takeSweep (s : State) (b : BayId) (a : Nat) (out : LineOutcome) : State :=
  let t := match out with
    | .reply (.identity i) => s.modBay b fun y => { y with units := y.units ++ [JobUnit.create a (i.atAddress a)] }
    | _ => s
  if a < 16 then t.modBay b fun y => y.sweepTo (a + 1) else t.endSweep b

/-- The plan that the bay's planning reads is no longer the active one: its generation has passed (R99, R107). -/
def State.planningStale (s : State) (b : BayId) : Bool :=
  (s.bay b).planning.any fun pl => pl.generation != s.plans.generation

/-- The planning is restarted from the first decisions against the new plan, and takes with it the notices that wait at
the bay (R36, R28, notes/assumptions/26.md). -/
def State.restartPlanning (s : State) (b : BayId) : State :=
  (s.modBay b fun y => { y with notices := 0 }).startPlanning b

/-- A planning goes on with an outcome of GAPS: the unit's record, then the next GAPS or the planning's completion (R102,
R103, R107). -/
def State.goOnPlanning (s : State) (b : BayId) (a : Nat) (out : LineOutcome) : State :=
  let t := match out with
    | .reply (.gaps ranges more) => s.modBay b fun y => y.modUnit a fun u =>
        { u with gaps := ranges, more := more, missing := missingTotal ranges more }
    | .reply (.reject .mismatch) => s.modBay b fun y => y.modUnit a fun u =>
        { u with kind := some .fresh, missing := none, gaps := [], more := false }
    | out => s.faultUnit b a out.fault .gaps none
  match (t.bay b).planning with
  | none => t
  | some pl =>
    match pl.gapsList with
    | [] => t.completePlanning b pl.generation
    | c :: rest =>
      t.modBay b fun y => Bay.offer { y with planning := some { pl with gapsList := rest } } (.gaps c) .planning

/-- The outcome of a planning GAPS (R102, R103). When the active plan has changed since the planning started, the outcome
is discarded and the planning restarted (R28, R36, R107). -/
def State.takePlanningGaps (s : State) (b : BayId) (a : Nat) (out : LineOutcome) : State :=
  if s.planningStale b then s.restartPlanning b else s.goOnPlanning b a out

/-! ### Handing an outcome back (R73) -/

/-- The engine is IDLE and its transaction's outcome goes to the activity that offered the request (R70 to R73). -/
def State.handBack (s : State) (b : BayId) (tr : Transaction) (out : LineOutcome) : State :=
  let t := s.modBay b Bay.endTransaction
  match tr.activity, tr.request with
  | .sweep, .identify a => t.takeSweep b a out
  | .planning, .gaps a => t.takePlanningGaps b a out
  | .pass, .openBank a _ _ _ _ _ resume => t.takeOpen b a resume out
  | .pass, .gaps a => t.takeRepairGaps b a out
  | .pass, .check a => t.takeCheck b a out
  | .switch, .switch a => t.takeSwitch b a out
  | .confirm, .identify a => t.takeConfirm b a out
  | _, _ => t

end Sys2Proof.Machine
end

