-- ==== Sys2Proof/Machine/Clock.lean ====
section
/-! DEFINITION. The commands of the whole part's clock and power: YARD_TIME_TICK (R156, R84) and POWER_ON_RESET (R93). -/

namespace Sys2Proof.Machine

/-- One sample of a sense filter of length `n` (R84). A change accepted and not yet taken by the bay stands until the
bay takes it (notes/assumptions/8.md). -/
def Filter.sample (n : Nat) (level : Bool) (f : Filter) : Filter :=
  if f.accepted then f
  else if level = f.value then { f with run := 0 }
  else if f.run + 1 < n then { f with run := f.run + 1 }
  else { f with run := 0, accepted := true }

/-- A filter whose accepted change has been taken by the bay (R84). -/
def Filter.taken (value : Bool) : Filter := { value := value, run := 0, accepted := false }

/-- One millisecond of a bay's STREAM phase that is not paused (R122, R131). -/
def Bay.countStreaming (y : Bay) : Bay :=
  if y.paused then y
  else y.modPass fun p => if p.phase = .streaming then { p with activeTime := p.activeTime + 1 } else p

/-- One millisecond at a bay: both filters sample unless the bay is DISABLED, the active stream time counts, and a frame
that the engine has taken has started (R83, R84, R122, notes/assumptions/32.md). -/
def Bay.tick (present ignition : Bool) (y : Bay) : Bay :=
  let z := y.countStreaming.startLine
  if z.state = .disabled then z
  else { z with presentFilter := z.presentFilter.sample z.config.filterLength present
                ignitionFilter := z.ignitionFilter.sample z.config.filterLength ignition }

/-- Yard time after one more millisecond: it has 64 bits and never decreases (R156, notes/assumptions/6.md). -/
def nextMillisecond (t : Time) : Time := if t < allOnes64 then t + 1 else t

/-- YARD_TIME_TICK: yard time increases by 1 and every bay's filters take a sample (R156, R84). -/
def execYardTimeTick (presentPins ignitionPins : BitVec 8) (s : State) : Result :=
  .next { s with
    yardTime := nextMillisecond s.yardTime
    bays := Vector.ofFn fun i => s.bays[i].tick (presentPins.getLsbD i.val) (ignitionPins.getLsbD i.val) }

/-- POWER_ON_RESET: yard time restarts, roles and memory size are sampled, and every block takes its power-on values
(R93, R19, R39, R59, R77, R156, R182, R186). The queue is not the part's. -/
def execPowerOnReset (role0 role1 role2 : Role) (size : MemSize) (s : State) : Result :=
  .next { State.powerOn role0 role1 role2 size with pending := s.pending }

end Sys2Proof.Machine
end

