-- ==== Sys2Proof/Machine/BayEvents.lean ====
section
/-! DEFINITION. The commands of a bay's sense lines, deadline and activation notices: PRESENT_RISE, DETACH,
IGNITION_RISE, IGNITION_FALL, DEADLINE_REACHED, ACTIVATION_NOTICE (chapters 2, 5 and 10). -/

namespace Sys2Proof.Machine

/-- Enters ENUMERATING and begins the IDENTIFY sweep (R85, R94). -/
def Bay.beginSweep (y : Bay) : Bay := y.enterSweep.sweepTo 1

/-- PRESENT_RISE: an accepted PRESENT rise, taken in EMPTY (R85). In every other state the filtered value is not absent
or the bay does not sample, and the command changes nothing (notes/assumptions/5.md). -/
def execPresentRise (b : BayId) (s : State) : Result :=
  if (s.bay b).state = .empty then
    let t := (s.modBay b fun y => { y with presentFilter := Filter.taken true }).post .bayAttached (.bay b)
    if (t.bay b).ignitionFilter.value && (t.bay b).config.ignitionCutoff then finish (t.cutOffBay b .ignition)
    else finish (t.modBay b Bay.beginSweep)
  else .next s

/-- DETACH: an accepted PRESENT fall (R89). -/
def execDetach (b : BayId) (s : State) : Result :=
  if (s.bay b).state = .disabled || (s.bay b).state = .empty then .next s
  else
    finish (((s.leaveBus b).modBay b fun y =>
      { y with presentFilter := Filter.taken false, holds := { y.holds with rule := false }, state := .empty }).post
      .bayDetached (.bay b))

/-- IGNITION_RISE: an accepted IGNITION rise (R87). -/
def execIgnitionRise (b : BayId) (s : State) : Result :=
  let y := s.bay b
  if y.state = .disabled || y.ignitionFilter.value then .next s
  else
    let t := s.modBay b fun z => { z with ignitionFilter := Filter.taken true }
    if y.presentFilter.value then
      let u := t.post .ignitionChange (.bay b)
      if y.config.ignitionCutoff then finish (u.cutOffBay b .ignition) else finish u
    else finish t

/-- IGNITION_FALL: an accepted IGNITION fall; it clears no cutoff (R87). -/
def execIgnitionFall (b : BayId) (s : State) : Result :=
  let y := s.bay b
  if y.state = .disabled || !y.ignitionFilter.value then .next s
  else
    let t := s.modBay b fun z => { z with ignitionFilter := Filter.taken false }
    if y.presentFilter.value then finish (t.post .ignitionChange (.bay b)) else finish t

/-- DEADLINE_REACHED: yard time reaches the bay's cutoff time (R159 to R161). -/
def execDeadlineReached (b : BayId) (s : State) : Result := finish (s.deadlineCompare b)

/-- The waiting passes of a bay are discarded: their units show PENDING and give up their claims (R35). The refetch passes
that a CHECK phase has inserted are among them, so the next one stands right after the current pass (R137 step 4). -/
def Bay.discardWaiting (y : Bay) : Bay :=
  let gone := (y.passes.filter fun p => p.phase == .waiting).flatMap (·.members)
  { (y.modUnits gone fun u => { u with progress := some .pending, claim := none }) with
    passes := (y.passes.filter fun p => p.phase != .waiting).map fun p => { p with refetched := 0 } }

/-- A re-plan is marked pending once; further notices change nothing more (R35). -/
def Bay.markReplan (y : Bay) : Bay :=
  if y.replanPending then y else { y.discardWaiting with replanPending := true }

/-- A bay takes a plan activation notice according to its state (R34 to R37). -/
def State.takeNotice (s : State) (b : BayId) : State :=
  match (s.bay b).state with
  | .done => s.startPlanning b
  | .transferring => match (s.bay b).currentPass with
      | some _ => s.modBay b Bay.markReplan
      | none => s.startPlanning b
  | .switching => s.modBay b Bay.markReplan
  | .planning => (s.modBay b Bay.drainEngine).startPlanning b
  | .disabled | .empty | .enumerating | .anonymous | .duplicate | .cutoff => s

/-- ACTIVATION_NOTICE: the bay takes one of the notices that PLAN_ACTIVATE sent it (R33 to R37). -/
def execActivationNotice (b : BayId) (s : State) : Result :=
  if (s.bay b).notices = 0 then .next s
  else finish ((s.modBay b fun y => { y with notices := y.notices - 1 }).takeNotice b)

end Sys2Proof.Machine
end

