-- ==== Sys2Proof/Machine/LineEvents.lean ====
section
/-! DEFINITION. The commands of a bay line: FRAME_SENT, REPLY_RECEIVED, REPLY_TIMEOUT, REPLY_CHARACTER_TIMEOUT,
POLL_INTERVAL_END (section 4.4), CONFIRM_POLL_DUE and CONFIRMATION_DEADLINE (section 9.3). -/

namespace Sys2Proof.Machine

/-- A drained attempt ends with its result discarded, and a request that waits is taken (R75, R76, R70). -/
def Bay.endDrain (y : Bay) : Bay := y.endTransaction.takeOffered

/-- The last stop bit of a request frame is out (R70). -/
def State.frameSent (s : State) (b : BayId) : Result :=
  let y := s.bay b
  match y.engine.state, y.engine.transaction with
  | .sending, some tr =>
    if tr.request.command = .block then
      if tr.drained then finish (s.modBay b Bay.endDrain)
      else finish ((s.modBay b Bay.endTransaction).takeBlockSent b)
    else
      finish (s.modBay b fun z =>
        { z with engine := { z.engine with state := .awaiting, timerEnd := s.yardTime + z.config.replyTimeout } })
  | _, _ => .next s

/-- FRAME_SENT: the last stop bit of a request frame is out, so its first character has started (R70, R142). -/
def execFrameSent (b : BayId) (s : State) : Result := (s.modBay b Bay.startLine).frameSent b

/-- An attempt ends with no reply: a re-send within the configured retries, and NO_REPLY beyond (R71). A drained attempt
makes no retry (R75). -/
def State.noReplyAttempt (s : State) (b : BayId) (tr : Transaction) : State :=
  if tr.drained then s.modBay b Bay.endDrain
  else if tr.retries + 1 ≤ (s.bay b).config.retries then
    s.modBay b fun y => y.resend fun t => { t with retries := t.retries + 1 }
  else s.handBack b tr .noReply

/-- A NOT-READY reply: the retry count returns to 0 and the poll count rises; POLL_WAIT, or NOT_READY_LIMIT (R71, R72). It is
no outcome (R127), so a hold that came before it does not pause the pass in this POLL_WAIT (R131). -/
def State.notReady (s : State) (b : BayId) (tr : Transaction) : State :=
  if tr.polls + 1 ≤ (s.bay b).config.notReadyLimit then
    s.modBay b fun y =>
      { y with engine := { y.engine with
        state := .pollWait, pollEnded := false, pollHeld := false, timerEnd := s.yardTime + y.config.pollInterval
        transaction := some { tr with retries := 0, polls := tr.polls + 1 } } }
  else s.handBack b tr .notReadyLimit

/-- The block count that GAPS ranges from a unit are judged by: that of the last OPEN sent to it since the planning
started, or of its planned image (R63, item 6). -/
def State.gapsBound (s : State) (b : BayId) (addr : Nat) : Nat :=
  match (s.bay b).unit addr with
  | some u => match u.openedBlocks with
      | some n => n
      | none => s.store.blocksOf u.plannedImage
  | none => 0

/-- REPLY_RECEIVED: a complete reply frame is judged against the outstanding request (R63, R70 to R72). -/
def execReplyReceived (b : BayId) (frame : List Byte) (s : State) : Result :=
  let y := s.bay b
  match y.engine.state, y.engine.transaction with
  | .awaiting, some tr =>
    if tr.drained then finish (s.modBay b Bay.endDrain)
    else match judgeReply tr.request (s.gapsBound b tr.request.addr) frame with
      | none => finish (s.noReplyAttempt b tr)
      | some .notReady => finish (s.notReady b tr)
      | some r => finish (s.handBack b tr (.reply r))
  | _, _ => .next s

/-- The reply awaited does not come (R70, R71). -/
def State.replyAbsent (s : State) (b : BayId) : Result :=
  match (s.bay b).engine.state, (s.bay b).engine.transaction with
  | .awaiting, some tr => finish (s.noReplyAttempt b tr)
  | _, _ => .next s

/-- REPLY_TIMEOUT: the reply timeout runs out before a reply sync arrives (R70). -/
def execReplyTimeout (b : BayId) (s : State) : Result := s.replyAbsent b

/-- REPLY_CHARACTER_TIMEOUT: a reply has started and no character of it comes within one reply timeout (R70). -/
def execReplyCharacterTimeout (b : BayId) (s : State) : Result := s.replyAbsent b

/-- POLL_INTERVAL_END: the same OPEN or CHECK is sent again, unless a hold that came in this POLL_WAIT pauses the pass. One
that was outstanding when the hold came polls on to its outcome (R72, R131, R170; notes/assumptions/36.md). -/
def execPollIntervalEnd (b : BayId) (s : State) : Result :=
  let y := s.bay b
  match y.engine.state, y.engine.transaction with
  | .pollWait, some tr =>
    if tr.activity = .pass && y.held && y.engine.pollHeld then
      finish (s.modBay b fun z => { z with engine := { z.engine with pollEnded := true } })
    else finish (s.modBay b fun z => z.resend id)
  | _, _ => .next s

/-- CONFIRM_POLL_DUE: with the engine free, IDENTIFY is offered to the member whose due time has been reached (R147). -/
def execConfirmPollDue (b : BayId) (s : State) : Result := finish (s.modBay b fun y => y.pollDue s.yardTime)

/-- A confirmation IDENTIFY to the member is outstanding (R148): the engine has taken it, be its first character on the
line or not. That a frame taken and not yet started counts is DEDUCED, unsafe (notes/assumptions/32.md). -/
def Bay.identifyOutstanding (y : Bay) (a : Nat) : Bool :=
  y.engine.state != .idle && match y.engine.transaction with
    | some tr => tr.activity == .confirm && tr.request == .identify a
    | none => false

/-- CONFIRMATION_DEADLINE: yard time reaches a member's deadline; with no IDENTIFY to it outstanding it becomes
FAULTED(SWITCH_FAILED) (R148). -/
def execConfirmationDeadline (b : BayId) (addr : Nat) (s : State) : Result :=
  match (s.bay b).deadlineOf addr with
  | none => .next s
  | some d =>
    if d ≤ s.yardTime && !((s.bay b).identifyOutstanding addr) then
      finish ((s.failSwitch b addr .identify).settleRound b)
    else .next s

end Sys2Proof.Machine
end

