-- ==== Sys2Proof/Machine/MemoryEvents.lean ====
section
/-! DEFINITION. The completions of granted image memory accesses: BLOCK_READ_DONE (R42, R58), UPLOAD_WRITE_DONE (R47)
and VERIFY_READ_DONE (R50 to R52). -/

namespace Sys2Proof.Machine

/-- BLOCK_READ_DONE: a bay's read completes; a block read for a bay that has stopped or is paused is discarded, and any
other is sent when the line is free (R42, R58, R74, R131). So is one of an image that is no longer in the catalogue,
which no run reads (notes/assumptions/25.md). -/
def execBlockReadDone (b : BayId) (s : State) : Result :=
  match s.store.granted with
  | some (.bayRead c image block live) =>
    if c ≠ b then .next s
    else if !live || (s.bay b).paused then finish s.endGrant
    else match s.store.find image with
      | none => finish s.endGrant
      | some e =>
        match s.store.readBlock e block with
        | none => .fault .imageAddressAbsent
        | some data =>
          finish ((s.endGrant.modBay b fun y =>
            { y with reader := { y.reader with buffer := some (block, data) } }).sendBlock b)
  | _ => .next s

/-- A port's chunk is written at the cursor of its context, which advances (R47); none when a byte has no place in image
memory. -/
def State.writeChunk (s : State) (p : PortId) (chunk : List Byte) : Option State :=
  match (s.port p).upload with
  | none => none
  | some c =>
    match (s.store.find c.image).bind fun e => s.store.writeBytes e c.cursor chunk with
    | none => none
    | some m =>
      some (({ s with store := { s.store with mem := m } } : State).modPort p fun t =>
        { t with upload := some { c with cursor := c.cursor + chunk.length } })

/-- The cursor of a port's upload context. -/
def State.cursorOf (s : State) (p : PortId) : Nat := match (s.port p).upload with
  | some c => c.cursor
  | none => 0

/-- UPLOAD_WRITE_DONE: the chunk is in image memory and the IMG_DATA is answered OK with the new cursor (R47). -/
def execUploadWriteDone (p : PortId) (s : State) : Result :=
  match s.store.granted with
  | some (.portWrite q chunk) =>
    if q ≠ p then .next s
    else match s.endGrant.writeChunk p chunk with
      | none => .fault .imageAddressAbsent
      | some t => finish (t.respond p .ok (.cursor (t.cursorOf p)))
  | _ => .next s

/-- Verification of the head image completes: READY or BROKEN with its event, and the next image is started (R50, R52). -/
def State.verificationDone (s : State) (e : Entry) (digest : BitVec 32) : State :=
  let good := digest = e.crc
  let st := s.store.modEntry e.id fun x => { x with state := if good then .ready else .broken }
  ({ s with store := { st with verifier := { Verifier.start with queue := st.verifier.queue.tail } } } : State).post
    (if good then .imageReady else .imageBroken) (.image e.id)

/-- VERIFY_READ_DONE: up to 1,024 bytes are folded into the CRC-32 (R50, R51). -/
def execVerifyReadDone (s : State) : Result :=
  match s.store.granted with
  | some (.verifyRead live) =>
    if !live then finish s.endGrant
    else match s.store.verifier.queue.head?.bind s.store.find with
      | none => .fault .imageAddressAbsent
      | some e =>
        let v := s.store.verifier
        let n := min 1024 (e.length - v.offset)
        match s.store.readBytes e v.offset n with
        | none => .fault .imageAddressAbsent
        | some bytes =>
          let crc := crc32Fold v.crc bytes
          if v.offset + n < e.length then
            finish { s.endGrant with store := { s.endGrant.store with
              verifier := { v with offset := v.offset + n, crc := crc } } }
          else finish (s.endGrant.verificationDone e (crc32Digest crc))
  | _ => .next s

end Sys2Proof.Machine
end

