-- ==== Sys2Proof/Machine/Ports.lean ====
section
/-! DEFINITION. The supervisor ports (chapter 11): the intake of a request frame with its checks, refused frames, the
end of a response, port reset, and the controller reset that ends a YARD_RESET. -/

namespace Sys2Proof.Machine

/-! ### The intake of a request (R173, R175, R177) -/

/-- The framer takes frames: the port is not held in reset (R180) and is not discarding (R173). -/
def Port.hears (t : Port) : Bool := !t.inReset && t.framer != .discard

/-- A well-formed frame is taken as a request: the request-in-progress flag is set and the framer is in HUNT (R173,
R175). -/
def State.intake (s : State) (p : PortId) : State :=
  s.modPort p fun t => { t with inProgress := true, framer := .hunt }

/-- A well-formed request frame of a code: BUSY with a request in progress, then the role check, the argument check and
the request itself (R175, R177). -/
def State.serve {α : Type} (s : State) (p : PortId) (code : Byte) (roles : List Role) (args : Option α)
    (act : α → State → Result) : Result :=
  if !(s.port p).hears then .next s
  else if (s.port p).inProgress then .next (s.refuse p .busy (.code code))
  else if !(roles.contains (s.port p).role) then .next ((s.intake p).respond p .role .none)
  else match args with
    | none => .next ((s.intake p).respond p .badArg .none)
    | some a => act a (s.intake p)

/-- Every role (the request table of R177). -/
def anyRole : List Role := [.image, .dispatch, .service, .unassigned]

/-- Every role but NONE (the request table of R177). -/
def namedRoles : List Role := [.image, .dispatch, .service]

/-! ### Refused frames (R173 to R176) -/

/-- The bytes that a port frame's CRC-16 covers: the code, the body length and the body (section 11.2). -/
def frameInner (code : Byte) (body : List Byte) : List Byte := [code] ++ toBytes 2 body.length ++ body

/-- FRAME_CRC_ERROR: a complete frame whose CRC-16 is wrong is answered FRAME_ERROR; the framer is in HUNT (R173, R174).
A frame whose CRC-16 is right is not this event and changes nothing. -/
def execFrameCrcError (p : PortId) (code : Byte) (body : List Byte) (crc : BitVec 16) (s : State) : Result :=
  if !(s.port p).hears || crc16 (frameInner code body) = crc then .next s
  else .next ((s.modPort p fun t => { t with framer := .hunt }).refuse p .frameError .none)

/-- FRAME_LENGTH_ERROR: a body length above 1,100 is answered FRAME_ERROR and the framer enters DISCARD (R173, R174). -/
def execFrameLengthError (p : PortId) (_code : Byte) (length : BitVec 16) (s : State) : Result :=
  if !(s.port p).hears || length.toNat ≤ 1100 then .next s
  else .next ((s.modPort p fun t => { t with framer := .discard }).refuse p .frameError .none)

/-- FRAME_CHARACTER_TIMEOUT: 20 ms without a character inside a frame are answered FRAME_ERROR; the framer is in HUNT
(R174). -/
def execFrameCharacterTimeout (p : PortId) (s : State) : Result :=
  if !(s.port p).hears then .next s
  else .next ((s.modPort p fun t => { t with framer := .hunt }).refuse p .frameError .none)

/-- DISCARD_QUIET: 20 ms without a character end DISCARD (R173). -/
def execDiscardQuiet (p : PortId) (s : State) : Result :=
  if (s.port p).framer = .discard then .next (s.modPort p fun t => { t with framer := .hunt }) else .next s

/-- BUSY_FRAME: a well-formed frame while a request is in progress is answered BUSY with its code (R175). -/
def execBusyFrame (p : PortId) (code : Byte) (_body : List Byte) (s : State) : Result :=
  if (s.port p).hears && (s.port p).inProgress then .next (s.refuse p .busy (.code code)) else .next s

/-- The request codes of the request table (section 11.4). -/
def requestCodes : List Byte :=
  [0x00#8, 0x01#8, 0x02#8, 0x03#8, 0x04#8, 0x10#8, 0x11#8, 0x12#8, 0x13#8, 0x14#8, 0x15#8, 0x16#8, 0x17#8,
   0x20#8, 0x21#8, 0x22#8, 0x23#8, 0x30#8, 0x31#8, 0x32#8, 0x40#8, 0x41#8, 0x42#8, 0x43#8, 0x44#8, 0x45#8,
   0x46#8, 0x47#8, 0x48#8, 0x49#8, 0x4A#8, 0x50#8]

/-- UNKNOWN_REQUEST: a well-formed frame whose code is not in the request table is taken as a request and answered
UNKNOWN_REQUEST with the code (R177). A known code is not this event and changes nothing. -/
def execUnknownRequest (p : PortId) (code : Byte) (_body : List Byte) (s : State) : Result :=
  if requestCodes.contains code || !(s.port p).hears then .next s
  else if (s.port p).inProgress then .next (s.refuse p .busy (.code code))
  else .next ((s.intake p).respond p .unknownRequest (.code code))

/-! ### Uploads that a reset ends (R49, R59, R180, R181) -/

/-- A write of the port that the arbiter has granted completes (R49); none when a byte has no place in image memory. -/
def State.completeWrite (s : State) (p : PortId) : Option State :=
  match s.store.granted with
  | some (.portWrite q chunk) => if q = p then s.endGrant.writeChunk p chunk else some s
  | _ => some s

/-- The port whose write the arbiter is carrying out. -/
def State.writer (s : State) : Option PortId :=
  match s.store.granted with
  | some (.portWrite q _) => some q
  | _ => none

/-- The port's upload context closes and its LOADING image is deleted (R49). -/
def State.dropUpload (s : State) (p : PortId) : State :=
  match (s.port p).upload with
  | none => s
  | some c =>
    ({ s with store := s.store.deleteWhere fun e => e.id == c.image } : State).modPort p fun t => { t with upload := none }

/-! ### Controller reset (R181, R19, R39, R59, R77, R93, R186) -/

/-- The pending set of a port is cleared and its line falls (R186). -/
def Port.clearEvents (t : Port) : Port :=
  { t with events := Vector.replicate 15 EventEntry.clear, attention := false }

/-- At a controller reset an IMG_DATA whose write was not granted is answered NO_UPLOAD, and the context closes
(R181). -/
def Port.resetUpload (t : Port) : Port :=
  let u := match t.write with
    | some _ => t.produce { kind := .answer, status := .noUpload, body := .none }
    | none => t
  { u with write := none, upload := none }

/-- A granted read of the verification engine completes and is discarded once the engine has stopped. -/
def Grant.forgetVerify : Grant → Grant
  | .verifyRead _ => .verifyRead false
  | g => g

/-- The image store at a controller reset (R59). -/
def ImageStore.controllerReset (st : ImageStore) : ImageStore :=
  { st.deleteWhere (fun e => e.state == .loading || e.state == .verifying) with
    pointer := 0, verifier := Verifier.start, searchFrom := 0, granted := st.granted.map Grant.forgetVerify }

/-- A bay at a controller reset (R93): its job ends, its binding is released and it is EMPTY with its hold set empty; a
DISABLED bay stays DISABLED. -/
def State.resetBay (s : State) (b : BayId) : State :=
  if (s.bay b).state = .disabled then s.modBay b fun y => { y with holds := HoldSet.none }
  else (s.leaveBus b).modBay b fun y =>
    { y with holds := HoldSet.none, presentFilter := Filter.start, ignitionFilter := Filter.start, state := .empty }

/-- The controller reset of every block, once a granted write has completed. The pending sets are cleared first
(R186). The bays take part in a free order (notes/assumptions/7.md). -/
def State.resetBlocks (s : State) : State :=
  let s1 := allPorts.foldl (fun t p => t.modPort p Port.clearEvents) s
  let s2 := allPorts.foldl (fun t p => t.modPort p Port.resetUpload) s1
  let s3 := s2.bayOrder.foldl State.resetBay s2.drawOrder
  { s3 with store := s3.store.controllerReset }

/-- A controller reset (R181); a granted write completes first and its IMG_DATA is answered OK with the new cursor. None
when a byte of it has no place in image memory. -/
def State.controllerReset (s : State) : Option State :=
  match s.writer with
  | none => some s.resetBlocks
  | some q =>
    match s.completeWrite q with
    | none => none
    | some t => some (t.respond q .ok (.cursor (t.cursorOf q))).resetBlocks

/-- Answers with the state after a controller reset. -/
def State.withReset (s : State) : Result :=
  match s.controllerReset with
  | none => .fault .imageAddressAbsent
  | some t => finish t

/-! ### Response frames (section 11.2) -/

/-- The status codes (section 11.4). -/
def Status.code : Status → Byte
  | .ok => 0x00#8
  | .accepted => 0x01#8
  | .busy => 0x02#8
  | .frameError => 0x03#8
  | .unknownRequest => 0x04#8
  | .role => 0x05#8
  | .badArg => 0x06#8
  | .noUpload => 0x10#8
  | .uploadOpen => 0x11#8
  | .overrun => 0x12#8
  | .short => 0x13#8
  | .noSpace => 0x14#8
  | .noEntry => 0x15#8
  | .dupId => 0x16#8
  | .notFound => 0x17#8
  | .inUse => 0x18#8
  | .inPlan => 0x19#8
  | .pinned => 0x1A#8
  | .imageState => 0x1B#8
  | .classMismatch => 0x1C#8
  | .bayActive => 0x20#8
  | .disabled => 0x21#8
  | .noBus => 0x22#8
  | .notStopped => 0x23#8
  | .ignitionOn => 0x24#8
  | .atBay => 0x25#8

/-- The characters of a response frame with a body of given octets. -/
def responseFrame (status : Status) (body : List Byte) : List Byte :=
  [0x5A#8] ++ frameInner status.code body ++ toBytes 2 (crc16 (frameInner status.code body)).toNat

/-- The octets of a response body whose field widths the spec states (section 11.2, R156, R175, R183); none for the
bodies that it gives as named fields without widths (notes/assumptions/11.md). -/
def Body.octets : Body → Option (List Byte)
  | .none => some []
  | .code c => some [c]
  | .time t => some (toBytes 8 t)
  | .enableSet kinds => some (toBytes 2 kinds.toNat)
  | .departure d c => some (toBytes 8 d ++ toBytes 8 c)
  | .events _ _ | .reserved _ _ | .cursor _ | .removed _ | .pin _ | .free _ | .emptyPosition _ | .image _ _ | .slot _
  | .generation _ | .rule _ _ _ | .bus _ | .fitness _ _ _ | .bay _ | .config _ | .unit _ => Option.none

/-- The characters that a port sends for a response whose body has its octets stated. -/
def Response.frame (r : Response) : Option (List Byte) := r.body.octets.map (responseFrame r.status)

/-! ### The end of a response (R175, R176, R181) -/

/-- The response on the wire has left the port and the next one is sent (R176). -/
def Port.sent (t : Port) : Port := { t with sending := t.waiting.head?, waiting := t.waiting.tail }

/-- The last stop bit of a response to the request in progress clears the flag (R175). -/
def Port.answered (t : Port) : Port := { t.sent with inProgress := false }

/-- RESPONSE_SENT: the last stop bit of a response is out (R175, R176); that of a YARD_RESET's OK starts the controller
reset (R181). -/
def execResponseSent (p : PortId) (s : State) : Result :=
  match (s.port p).sending with
  | none => .next s
  | some r =>
    match r.kind with
    | .refusal => .next (s.modPort p Port.sent)
    | .answer => .next (s.modPort p Port.answered)
    | .resetAnswer => (s.modPort p Port.answered).withReset

/-- The port is sending the OK of a YARD_RESET. -/
def Port.sendsReset (t : Port) : Bool :=
  match t.sending with
  | some r => r.kind == .resetAnswer
  | none => false

/-- CONTROLLER_RESET: the last stop bit of a YARD_RESET's OK leaves the port, and every block takes its controller reset
(R181, notes/assumptions/18.md). -/
def execControllerReset (p : PortId) (s : State) : Result :=
  (if (s.port p).sendsReset then s.modPort p Port.answered else s).withReset

/-! ### Port reset (R180, R182, R186) -/

/-- A response to a YARD_RESET is being sent or waits. -/
def Port.resetDue (t : Port) : Bool :=
  t.sendsReset || t.waiting.any fun r => r.kind == .resetAnswer

/-- The port's own steps of R180: framer, responses, flag, waiting write, events, enable set and attention line. -/
def Port.reset (t : Port) : Port :=
  { t with inReset := true, framer := .hunt, sending := none, waiting := [], inProgress := false, write := none,
           events := Vector.replicate 15 EventEntry.clear, enable := 0, attention := false }

/-- A port's hold is removed from a bay; a hold set left empty by it acts as R169 states (R180 step 4). -/
def State.dropHold (p : PortId) (s : State) (b : BayId) : State :=
  if (s.bay b).holds.has p then
    let t := s.modBay b fun y => { y with holds := y.holds.put p false }
    if (t.bay b).held then t else t.holdEmptied b
  else s

/-- The steps of R180 once a granted write of the port has completed. The bays take part in a free order
(notes/assumptions/7.md). -/
def State.portReset (s : State) (p : PortId) : State :=
  let s1 := (s.dropUpload p).modPort p Port.reset
  s1.bayOrder.foldl (State.dropHold p) s1.drawOrder

/-- PORT_RESET: the reset input becomes asserted (R180); a YARD_RESET whose OK is discarded acts after the port's own
steps (R181). An input already asserted changes nothing. -/
def execPortReset (p : PortId) (s : State) : Result :=
  if (s.port p).inReset then .next s
  else match s.completeWrite p with
    | none => .fault .imageAddressAbsent
    | some t => if (s.port p).resetDue then (t.portReset p).withReset else finish (t.portReset p)

/-- PORT_RESET_RELEASE: the input is released with the framer in HUNT, and the port works again (R180). -/
def execPortResetRelease (p : PortId) (s : State) : Result :=
  if (s.port p).inReset then .next (s.modPort p fun t => { t with inReset := false, framer := .hunt }) else .next s

end Sys2Proof.Machine
end

