-- ==== Sys2Proof/WellFormed.lean ====
section
/-! DEFINITION. The checks on a command as syntax: what its sender must respect for the command to be the event that
its row names. -/

namespace Sys2Proof

open Machine

/-- A request body as a frame can carry it: 0 to 1,100 bytes (section 11.2). -/
def bodyFits (body : List Byte) : Bool := decide (body.length ≤ 1100)

/-- The well-formed commands. A request frame whose body length exceeds 1,100 is FRAME_LENGTH_ERROR; one whose CRC-16 is
right is no FRAME_CRC_ERROR; the two settings of BAY_ENABLE and the two forms of UNHOLD are told apart by their second
body byte (R177, notes/assumptions/27.md). -/
def Instr.wellFormed : Instr → Bool
  | .powerOnReset _ _ _ _ | .yardTimeTick _ _ => true
  | .presentRise _ | .detach _ | .ignitionRise _ | .ignitionFall _ | .deadlineReached _ => true
  | .frameSent _ | .replyTimeout _ | .replyCharacterTimeout _ | .pollIntervalEnd _ | .confirmPollDue _ => true
  | .replyReceived _ frame => decide (7 ≤ frame.length ∧ frame.length ≤ 279)
  | .confirmationDeadline _ addr => decide (1 ≤ addr ∧ addr ≤ 16)
  | .activationNotice _ | .blockReadDone _ | .uploadWriteDone _ | .verifyReadDone => true
  | .frameCrcError _ code body crc => bodyFits body && crc16 (frameInner code body) != crc
  | .frameLengthError _ _ length => decide (1100 < length.toNat)
  | .frameCharacterTimeout _ | .discardQuiet _ => true
  | .busyFrame _ _ body => bodyFits body
  | .unknownRequest _ code body => !(requestCodes.contains code) && bodyFits body
  | .responseSent _ | .portReset _ | .portResetRelease _ | .controllerReset _ => true
  | .nop _ body | .timeRead _ body | .evtRead _ body | .evtAck _ body | .evtMask _ body => bodyFits body
  | .imgBegin _ body | .imgData _ body | .imgFinish _ body | .imgAbandon _ body | .imgRetire _ body
  | .imgPurge _ body | .imgPin _ body | .imgQuery _ body => bodyFits body
  | .planClear _ body | .planPutRule _ body | .planActivate _ body | .planQuery _ body => bodyFits body
  | .fleetQuery _ body | .fitQuery _ body | .fleetForget _ body => bodyFits body
  | .bayStatus _ body | .bayConfig _ body | .bayReset _ body | .departSet _ body | .departClear _ body
  | .departNow _ body | .hold _ body | .cutoffClear _ body | .jobQuery _ body | .yardReset _ body => bodyFits body
  | .bayEnableOff _ body | .unholdOwn _ body => bodyFits body && body[1]? != some 0x01#8
  | .bayEnableOn _ body | .unholdRule _ body => bodyFits body && body[1]? == some 0x01#8

end Sys2Proof
end

