-- ==== Sys2Proof/Decode.lean ====
section
/-! DEFINITION. Reading commands from words. No row of spec/opcode_table.json gives bits, so `decodeTableWord` reads
none; the request frames of a supervisor port (section 11.2, R173 to R178) are read by `decodeFrame` and written by
`encodeFrame`, and the bodies with many fields are written below. -/

namespace Sys2Proof

open Machine

/-- The command that a word spells by the table's bits: the table gives bits for no row (notes/assumptions/24.md). -/
def decodeTableWord (_nbits _w : Nat) : Option Instr := none

/-- The second body byte is 1: BAY_ENABLE's setting on, UNHOLD's which RULE (R178). -/
def secondIsOne (body : List Byte) : Bool := body[1]? == some 0x01#8

/-- The command of a well-formed request frame by its request code (section 11.4). -/
def requestOf (p : PortId) (code : Byte) (body : List Byte) : Instr :=
  match code.toNat with
  | 0x00 => .nop p body
  | 0x01 => .timeRead p body
  | 0x02 => .evtRead p body
  | 0x03 => .evtAck p body
  | 0x04 => .evtMask p body
  | 0x10 => .imgBegin p body
  | 0x11 => .imgData p body
  | 0x12 => .imgFinish p body
  | 0x13 => .imgAbandon p body
  | 0x14 => .imgRetire p body
  | 0x15 => .imgPurge p body
  | 0x16 => .imgPin p body
  | 0x17 => .imgQuery p body
  | 0x20 => .planClear p body
  | 0x21 => .planPutRule p body
  | 0x22 => .planActivate p body
  | 0x23 => .planQuery p body
  | 0x30 => .fleetQuery p body
  | 0x31 => .fitQuery p body
  | 0x32 => .fleetForget p body
  | 0x40 => .bayStatus p body
  | 0x41 => .bayConfig p body
  | 0x42 => if secondIsOne body then .bayEnableOn p body else .bayEnableOff p body
  | 0x43 => .bayReset p body
  | 0x44 => .departSet p body
  | 0x45 => .departClear p body
  | 0x46 => .departNow p body
  | 0x47 => .hold p body
  | 0x48 => if secondIsOne body then .unholdRule p body else .unholdOwn p body
  | 0x49 => .cutoffClear p body
  | 0x4A => .jobQuery p body
  | 0x50 => .yardReset p body
  | _ => .unknownRequest p code body

/-- The command that the characters of a frame on a port are, from the sync character to the last CRC byte, or to the
second length byte when the length exceeds 1,100 (R173, R174). None for characters that are no whole frame. -/
def decodeFrame (p : PortId) (bytes : List Byte) : Option Instr :=
  match bytes with
  | sync :: code :: rest =>
    let n := field rest 0 2
    if sync ≠ 0xA5#8 || rest.length < 2 then none
    else if 1100 < n then
      if rest.length = 2 then some (.frameLengthError p code (BitVec.ofNat 16 n)) else none
    else if rest.length ≠ n + 4 then none
    else
      let body := (rest.drop 2).take n
      let crc := BitVec.ofNat 16 (field rest (n + 2) 2)
      if crc16 (frameInner code body) = crc then some (requestOf p code body)
      else some (.frameCrcError p code body crc)
  | _ => none

/-- The characters of a request frame (section 11.2). -/
def encodeFrame (code : Byte) (body : List Byte) : List Byte :=
  [0xA5#8] ++ frameInner code body ++ toBytes 2 (crc16 (frameInner code body)).toNat

/-! ### The bodies with many fields (R178) -/

/-- A flag field (R178). -/
def flagByte (f : Bool) : Byte := if f then 0x01#8 else 0x00#8

/-- The action codes of PLAN_PUT_RULE (R178). -/
def actionByte : RuleAction → Byte
  | .census => 0x00#8
  | .flash => 0x01#8
  | .flashHold => 0x02#8

/-- The serial condition codes of PLAN_PUT_RULE (R178). -/
def serialKindByte : SerialKind → Byte
  | .any => 0x00#8
  | .equal => 0x01#8
  | .inside => 0x02#8
  | .outside => 0x03#8

/-- The prerequisite fields of a rule (R178). -/
def prereqBytes : Option Prereq → List Byte
  | none => 0x00#8 :: 0x00#8 :: versionBytes Version.zero
  | some q => [0x01#8] ++ toBytes 1 q.cls ++ versionBytes q.minimum

/-- The fields of a rule in a PLAN_PUT_RULE body (R178). -/
def Machine.Rule.bytes (r : Rule) : List Byte :=
  [actionByte r.action] ++ toBytes 1 r.cls ++ toBytes 2 r.revision.toNat ++ toBytes 2 r.careMask.toNat ++
    [serialKindByte r.serialKind] ++ toBytes 4 r.low ++ toBytes 4 r.high ++
    toBytes 2 (match r.image with | some i => i | none => 0) ++
    [flagByte r.allowDowngrade] ++ toBytes 1 r.group ++ prereqBytes r.prereq

/-- The body of PLAN_PUT_RULE (R30, R178). -/
def putRuleBody (slot : Fin 64) : Option Rule → List Byte
  | none => toBytes 1 slot.val ++ [0x00#8]
  | some r => toBytes 1 slot.val ++ [0x01#8] ++ r.bytes

/-- The body of IMG_BEGIN (R46, R178). -/
def Machine.BeginArgs.body (a : BeginArgs) : List Byte :=
  toBytes 2 a.id ++ versionBytes a.version ++ toBytes 1 a.cls ++ toBytes 4 a.length ++ toBytes 4 a.crc.toNat ++
    [flagByte a.pinned]

/-- The body of BAY_CONFIG (R80, R178). -/
def configBody (b : BayId) (c : BayConfig) : List Byte :=
  toBytes 1 b.val ++ toBytes 1 c.speed ++ toBytes 4 c.guardTime ++ toBytes 2 c.tOpen ++ toBytes 2 c.tCheck ++
    toBytes 4 c.tSwitch ++ toBytes 2 c.replyTimeout ++ toBytes 1 c.retries ++ toBytes 2 c.pollInterval ++
    toBytes 2 c.notReadyLimit ++ toBytes 1 c.filterLength ++ [flagByte c.ignitionCutoff] ++
    [if c.mode = .stop then 0x00#8 else 0x01#8]

/-- The body of DEPART_SET (R157, R178). -/
def departSetBody (b : BayId) (d : Time) : List Byte := toBytes 1 b.val ++ toBytes 8 d

/-- The ranges of section 5.2. -/
def Machine.BayConfig.inRange (c : BayConfig) : Bool :=
  decide (c.speed ≤ 3 ∧ c.guardTime ≤ 3600000 ∧ c.tOpen ≤ 60000 ∧ 1 ≤ c.tCheck ∧ c.tCheck ≤ 1000 ∧
    1000 ≤ c.tSwitch ∧ c.tSwitch ≤ 120000 ∧ 10 ≤ c.replyTimeout ∧ c.replyTimeout ≤ 1000 ∧ c.retries ≤ 7 ∧
    10 ≤ c.pollInterval ∧ c.pollInterval ≤ 1000 ∧ 1 ≤ c.notReadyLimit ∧ c.notReadyLimit ≤ 65535 ∧
    1 ≤ c.filterLength ∧ c.filterLength ≤ 15)

/-- The port, request code and body of the commands that are well-formed request frames (section 11.4). -/
def Instr.request : Instr → Option (PortId × Byte × List Byte)
  | .nop p body => some (p, 0x00#8, body)
  | .timeRead p body => some (p, 0x01#8, body)
  | .evtRead p body => some (p, 0x02#8, body)
  | .evtAck p body => some (p, 0x03#8, body)
  | .evtMask p body => some (p, 0x04#8, body)
  | .imgBegin p body => some (p, 0x10#8, body)
  | .imgData p body => some (p, 0x11#8, body)
  | .imgFinish p body => some (p, 0x12#8, body)
  | .imgAbandon p body => some (p, 0x13#8, body)
  | .imgRetire p body => some (p, 0x14#8, body)
  | .imgPurge p body => some (p, 0x15#8, body)
  | .imgPin p body => some (p, 0x16#8, body)
  | .imgQuery p body => some (p, 0x17#8, body)
  | .planClear p body => some (p, 0x20#8, body)
  | .planPutRule p body => some (p, 0x21#8, body)
  | .planActivate p body => some (p, 0x22#8, body)
  | .planQuery p body => some (p, 0x23#8, body)
  | .fleetQuery p body => some (p, 0x30#8, body)
  | .fitQuery p body => some (p, 0x31#8, body)
  | .fleetForget p body => some (p, 0x32#8, body)
  | .bayStatus p body => some (p, 0x40#8, body)
  | .bayConfig p body => some (p, 0x41#8, body)
  | .bayEnableOff p body => some (p, 0x42#8, body)
  | .bayEnableOn p body => some (p, 0x42#8, body)
  | .bayReset p body => some (p, 0x43#8, body)
  | .departSet p body => some (p, 0x44#8, body)
  | .departClear p body => some (p, 0x45#8, body)
  | .departNow p body => some (p, 0x46#8, body)
  | .hold p body => some (p, 0x47#8, body)
  | .unholdOwn p body => some (p, 0x48#8, body)
  | .unholdRule p body => some (p, 0x48#8, body)
  | .cutoffClear p body => some (p, 0x49#8, body)
  | .jobQuery p body => some (p, 0x4A#8, body)
  | .yardReset p body => some (p, 0x50#8, body)
  | .unknownRequest p code body => some (p, code, body)
  | .powerOnReset _ _ _ _ | .yardTimeTick _ _ | .presentRise _ | .detach _ | .ignitionRise _ | .ignitionFall _
  | .deadlineReached _ | .frameSent _ | .replyReceived _ _ | .replyTimeout _ | .replyCharacterTimeout _
  | .pollIntervalEnd _ | .confirmPollDue _ | .confirmationDeadline _ _ | .activationNotice _ | .blockReadDone _
  | .uploadWriteDone _ | .verifyReadDone | .frameCrcError _ _ _ _ | .frameLengthError _ _ _
  | .frameCharacterTimeout _ | .discardQuiet _ | .busyFrame _ _ _ | .responseSent _ | .portReset _
  | .portResetRelease _ | .controllerReset _ => none

end Sys2Proof
end

