-- ==== Sys2Proof/Machine/BayRequests.lean ====
section
/-! DEFINITION. The requests of the bay engines (chapters 5 and 10): BAY_STATUS, BAY_CONFIG, BAY_ENABLE in its two
settings, BAY_RESET, DEPART_SET, DEPART_CLEAR, DEPART_NOW, HOLD, UNHOLD in its two forms, CUTOFF_CLEAR, JOB_QUERY. -/

namespace Sys2Proof.Machine

/-! ### BAY_STATUS and JOB_QUERY (R91, R92) -/

/-- How many job units show a progress value of a test. -/
def Bay.countProgress (y : Bay) (test : Progress → Bool) : Nat :=
  y.units.countP fun u => match u.progress with
    | some p => test p
    | none => false

/-- The number of job units in each progress value (R91). -/
def Bay.progressCounts (y : Bay) : ProgressCounts :=
  { pending := y.countProgress (· == .pending)
    opening := y.countProgress (· == .opening)
    receiving := y.countProgress (· == .receiving)
    repairing := y.countProgress (· == .repairing)
    checking := y.countProgress (· == .checking)
    verified := y.countProgress (· == .verified)
    switching := y.countProgress (· == .switching)
    confirming := y.countProgress (· == .confirming)
    switched := y.countProgress (· == .switched)
    deferred := y.countProgress fun p => p == .deferredNoTime || p == .deferredFault
    faulted := y.countProgress Progress.isFaulted
    cut := y.countProgress (· == .cut)
    unset := y.units.countP fun u => u.progress.isNone }

/-- The current pass as BAY_STATUS reports it (R91). -/
def Pass.report (p : Pass) : PassReport :=
  { image := p.image, phase := p.phase, nextBlock := p.nextBlock, streamed := p.streamed, activeTime := p.activeTime,
    members := p.members }

/-- What BAY_STATUS reports (R91). -/
def State.bayReport (s : State) (b : BayId) : BayReport :=
  let y := s.bay b
  { state := y.state, stopReason := y.stopReason, cutoffFlag := y.cutoff.isSome, cutoffCause := y.cutoff,
    holds := y.holds, departure := y.departure, cutoffTime := y.cutoffTime, rate := y.rate, gapRatio := y.gapRatio,
    present := y.presentFilter.value, ignition := y.ignitionFilter.value,
    boundFleet := (s.bound b).map (·.fleet), pass := y.currentPass.map Pass.report, switchGroup := y.currentGroup,
    counts := y.progressCounts, lineBusy := y.lineBusy, config := y.config }

/-- BAY_STATUS answers OK with the bay's condition (R91). -/
def execBayStatus (p : PortId) (body : List Byte) (s : State) : Result :=
  s.serve p 0x40#8 namedRoles (parseBay body) fun b t => .next (t.respond p .ok (.bay (t.bayReport b)))

/-- JOB_QUERY answers OK with the job unit record at a line address (R92). -/
def execJobQuery (p : PortId) (body : List Byte) (s : State) : Result :=
  s.serve p 0x4A#8 namedRoles (parseJobQuery body) fun a t =>
    match (t.bay a.1).unit a.2 with
    | some u => .next (t.respond p .ok (.unit u))
    | none => .next (t.respond p .notFound .none)

/-! ### Configuration, enable and reset (R80 to R82, R90) -/

/-- A filter whose length changes restarts its run (R84). -/
def Filter.restartRun (f : Filter) : Filter := { f with run := 0 }

/-- A bay with a new configuration record (R80). -/
def Bay.configure (c : BayConfig) (y : Bay) : Bay :=
  let changed := c.filterLength != y.config.filterLength
  { y with config := c
           rate := if c.speed = y.config.speed then y.rate else nominalRate c.speed
           cutoffTime := match y.departure with
             | some d => some (cutoffFor d c.guardTime)
             | none => y.cutoffTime
           presentFilter := if changed then y.presentFilter.restartRun else y.presentFilter
           ignitionFilter := if changed then y.ignitionFilter.restartRun else y.ignitionFilter }

/-- BAY_CONFIG writes the whole configuration record (R79, R80); the deadline compare takes the recomputed cutoff time
(R159 to R161). -/
def execBayConfig (p : PortId) (body : List Byte) (s : State) : Result :=
  s.serve p 0x41#8 [.service] (parseConfig body) fun a t =>
    match (t.bay a.1).state with
    | .disabled => .next (t.respond p .disabled .none)
    | .enumerating | .planning | .transferring | .switching => .next (t.respond p .bayActive .none)
    | .empty | .anonymous | .duplicate | .done | .cutoff =>
      finish (((t.modBay a.1 (Bay.configure a.2)).deadlineCompare a.1).respond p .ok (.config a.2))

/-- Taking a bay out of service (R81). -/
def State.disableBay (s : State) (b : BayId) : State :=
  if (s.bay b).state = .disabled then s
  else (s.leaveBus b).modBay b fun y =>
    { y with holds := { y.holds with rule := false }, presentFilter := Filter.start, ignitionFilter := Filter.start
             state := .disabled }

/-- BAY_ENABLE with setting off (R81). -/
def execBayEnableOff (p : PortId) (body : List Byte) (s : State) : Result :=
  s.serve p 0x42#8 [.service] (parseBayWith 0 body) fun b t => finish ((t.disableBay b).respond p .ok .none)

/-- BAY_ENABLE with setting on (R82). -/
def execBayEnableOn (p : PortId) (body : List Byte) (s : State) : Result :=
  s.serve p 0x42#8 [.service] (parseBayWith 1 body) fun b t =>
    if (t.bay b).state = .disabled then
      .next ((t.modBay b fun y =>
        { y with state := .empty, presentFilter := Filter.start, ignitionFilter := Filter.start }).respond p .ok .none)
    else .next (t.respond p .ok .none)

/-- The smoothed values at their start for the configured line speed (R113, R114). -/
def Bay.nominalValues (y : Bay) : Bay := { y with rate := nominalRate y.config.speed, gapRatio := 0 }

/-- BAY_RESET's effect (R90): the controller reset's steps at this bay, with R and L set to nominal. -/
def State.bayReset (s : State) (b : BayId) : State := (s.resetBay b).modBay b Bay.nominalValues

/-- BAY_RESET returns a bay to its starting condition (R90). -/
def execBayReset (p : PortId) (body : List Byte) (s : State) : Result :=
  s.serve p 0x43#8 [.service] (parseBay body) fun b t => finish ((t.bayReset b).respond p .ok .none)

/-! ### Departures (R157, R158, R162) -/

/-- The refusals of the departure requests: DISABLED, then NO_BUS (R157, R158, R162). -/
def State.withBus (s : State) (p : PortId) (b : BayId) (act : State → Result) : Result :=
  match (s.bay b).state with
  | .disabled => .next (s.respond p .disabled .none)
  | .empty => .next (s.respond p .noBus .none)
  | .enumerating | .planning | .anonymous | .duplicate | .transferring | .switching | .done | .cutoff => act s

/-- A bay with a departure stored (R157 steps 1 and 2). -/
def Bay.setDeparture (d : Time) (y : Bay) : Bay :=
  { y with departure := some d, cutoffTime := some (cutoffFor d y.config.guardTime)
           warned := if y.departure = some d then y.warned else false }

/-- DEPART_SET stores a departure, takes the deadline compare and an admission run, and answers OK with D and C (R157). -/
def execDepartSet (p : PortId) (body : List Byte) (s : State) : Result :=
  s.serve p 0x44#8 [.dispatch, .service] (parseDepartSet body) fun a t =>
    t.withBus p a.1 fun u =>
      let v := ((u.modBay a.1 (Bay.setDeparture a.2)).deadlineCompare a.1).admissionRun a.1
      finish (v.respond p .ok (.departure a.2 (cutoffFor a.2 (u.bay a.1).config.guardTime)))

/-- DEPART_CLEAR removes the departure and takes an admission run (R158). -/
def execDepartClear (p : PortId) (body : List Byte) (s : State) : Result :=
  s.serve p 0x45#8 [.dispatch, .service] (parseBay body) fun b t =>
    t.withBus p b fun u =>
      if (u.bay b).departure.isNone then .next (u.respond p .ok .none)
      else
        let v := (u.modBay b fun y => { y with departure := none, cutoffTime := none, warned := false }).admissionRun b
        finish (v.respond p .ok .none)

/-- DEPART_NOW cuts the bay off, at once or at the end of its switch (R162). -/
def execDepartNow (p : PortId) (body : List Byte) (s : State) : Result :=
  s.serve p 0x46#8 [.dispatch, .service] (parseBay body) fun b t =>
    t.withBus p b fun u => finish ((u.takeCutoff b .departNow).respond p .ok .none)

/-! ### Holds (R168, R169) -/

/-- A port joins the hold set (R168). If that makes the set non-empty in POLL_WAIT, the pass is paused at once (R131). -/
def Bay.addHold (p : PortId) (y : Bay) : Bay :=
  { y with
    holds := y.holds.put p true
    engine := { y.engine with pollHeld := if y.held then y.engine.pollHeld else y.engine.state == .pollWait } }

/-- HOLD adds the requesting port to the bay's hold set (R168). -/
def execHold (p : PortId) (body : List Byte) (s : State) : Result :=
  s.serve p 0x47#8 namedRoles (parseBay body) fun b t =>
    if (t.bay b).state = .disabled then .next (t.respond p .disabled .none)
    else .next ((t.modBay b (Bay.addHold p)).respond p .ok .none)

/-- UNHOLD with OWN removes the requesting port's hold; a set left empty by it acts (R169). -/
def execUnholdOwn (p : PortId) (body : List Byte) (s : State) : Result :=
  s.serve p 0x48#8 namedRoles (parseBayWith 0 body) fun b t => finish ((State.dropHold p t b).respond p .ok .none)

/-- The RULE hold is removed; a set left empty by it acts (R169). -/
def State.dropRule (s : State) (b : BayId) : State :=
  if (s.bay b).holds.rule then
    let t := s.modBay b fun y => { y with holds := { y.holds with rule := false } }
    if (t.bay b).held then t else t.holdEmptied b
  else s

/-- UNHOLD with RULE removes the rule's hold; it is permitted to SERVICE alone (R169, R177). -/
def execUnholdRule (p : PortId) (body : List Byte) (s : State) : Result :=
  s.serve p 0x48#8 [.service] (parseBayWith 1 body) fun b t => finish ((t.dropRule b).respond p .ok .none)

/-! ### CUTOFF_CLEAR (R167) -/

/-- The cutoff cannot be cleared yet: cause IGNITION, filtered IGNITION on and ignition cutoff enabled (R167). -/
def Bay.ignitionBars (y : Bay) : Bool :=
  y.cutoff == some .ignition && y.ignitionFilter.value && y.config.ignitionCutoff

/-- Steps 1 to 3 of R167. A deadline condition that still holds in STOP mode cuts the fresh job off before its first
IDENTIFY (R160). -/
def State.clearCutoff (s : State) (b : BayId) : State :=
  let t := (s.unbind b).modBay b fun y => { y with cutoff := none, units := [] }
  if (t.bay b).presentFilter.value then
    let u := (t.modBay b Bay.enterSweep).deadlineCompare b
    if (u.bay b).state = .enumerating then u.modBay b fun y => y.sweepTo 1 else u
  else t.modBay b fun y => { y with departure := none, cutoffTime := none, state := .empty }

/-- CUTOFF_CLEAR lets a cut-off bay start again on the same bus (R167). -/
def execCutoffClear (p : PortId) (body : List Byte) (s : State) : Result :=
  s.serve p 0x49#8 [.dispatch, .service] (parseBay body) fun b t =>
    if (t.bay b).state = .disabled then .next (t.respond p .disabled .none)
    else if (t.bay b).cutoff.isNone then .next (t.respond p .ok .none)
    else if (t.bay b).lineBusy then .next (t.respond p .notStopped .none)
    else if (t.bay b).ignitionBars then .next (t.respond p .ignitionOn .none)
    else finish ((t.clearCutoff b).respond p .ok .none)

end Sys2Proof.Machine
end

