-- ==== Sys2Proof/Machine/EventRequests.lean ====
section
/-! DEFINITION. The requests of the port interface, the yard time base and the event block: NOP (R179), TIME_READ (R156),
EVT_READ, EVT_ACK (R185), EVT_MASK (R184), and YARD_RESET (R181). -/

namespace Sys2Proof.Machine

/-- NOP answers OK on a port of any role (R179). -/
def execNop (p : PortId) (body : List Byte) (s : State) : Result :=
  s.serve p 0x00#8 anyRole (parseEmpty body) fun _ t => .next (t.respond p .ok .none)

/-- TIME_READ answers OK with the current yard time (R156). -/
def execTimeRead (p : PortId) (body : List Byte) (s : State) : Result :=
  s.serve p 0x01#8 namedRoles (parseEmpty body) fun _ t => .next (t.respond p .ok (.time t.yardTime))

/-- The entries with a count above 0 among the kinds of a test, in ascending kind number (R185). -/
def reports (events : Vector EventEntry 15) (test : Fin 15 → Bool) : List EventReport :=
  (kindNumbers.filter fun k => test k && decide (0 < events[k].count)).map fun k =>
    { kind := k.val, count := events[k].count, subject := events[k].subject }

/-- EVT_READ answers OK with the port's enable set and pending entries, and changes neither (R185). -/
def execEvtRead (p : PortId) (body : List Byte) (s : State) : Result :=
  s.serve p 0x02#8 namedRoles (parseEmpty body) fun _ t =>
    .next (t.respond p .ok (.events (t.port p).enable (reports (t.port p).events fun _ => true)))

/-- The pending set with the entries of a kind set emptied (R185). -/
def acknowledge (kinds : BitVec 16) (events : Vector EventEntry 15) : Vector EventEntry 15 :=
  Vector.ofFn fun k => if kinds.getLsbD k.val then EventEntry.clear else events[k]

/-- EVT_ACK answers OK with the pending entries of the given kinds and empties them; the line is set anew (R184,
R185). -/
def execEvtAck (p : PortId) (body : List Byte) (s : State) : Result :=
  s.serve p 0x03#8 namedRoles (parseKinds body) fun kinds t =>
    let before := t.port p
    let u := t.modPort p fun q => Port.withAttention { q with events := acknowledge kinds q.events }
    .next (u.respond p .ok (.events before.enable (reports before.events fun k => kinds.getLsbD k.val)))

/-- EVT_MASK replaces the port's enable set and answers OK with it as stored; the line is set anew (R184). -/
def execEvtMask (p : PortId) (body : List Byte) (s : State) : Result :=
  s.serve p 0x04#8 namedRoles (parseKinds body) fun kinds t =>
    let u := t.modPort p fun q => Port.withAttention { q with enable := kinds }
    .next (u.respond p .ok (.enableSet kinds))

/-- YARD_RESET is answered OK; its controller reset is taken at the end of that OK (R181). -/
def execYardReset (p : PortId) (body : List Byte) (s : State) : Result :=
  s.serve p 0x50#8 [.service] (parseEmpty body) fun _ t =>
    .next (t.modPort p (Port.produce { kind := .resetAnswer, status := .ok, body := .none }))

end Sys2Proof.Machine
end

