-- ==== Sys2Proof/Machine/ImageRequests.lean ====
section
/-! DEFINITION. The requests of the image store (chapter 3): IMG_BEGIN, IMG_DATA, IMG_FINISH, IMG_ABANDON, IMG_RETIRE,
IMG_PURGE, IMG_PIN, IMG_QUERY. -/

namespace Sys2Proof.Machine

/-! ### Upload (R43 to R49) -/

/-- The entry that an accepted IMG_BEGIN creates, with its segments (R41, R46). -/
def BeginArgs.entry (a : BeginArgs) (p : PortId) (segments : List Nat) : Entry :=
  { id := a.id, version := a.version, cls := a.cls, length := a.length, crc := a.crc, state := .loading,
    pinned := a.pinned, segments := segments, uploadPort := some p }

/-- The segments that a length needs (R40). -/
def BeginArgs.need (a : BeginArgs) : Nat := ceilDiv a.length 65536

/-- The pointer after an allocation: one past the last segment taken, modulo the segment count (R43). -/
def pointerAfter (count pointer : Nat) (segments : List Nat) : Nat :=
  match segments.getLast? with
  | some last => (last + 1) % count
  | none => pointer

/-- The segments that the store reserves next (R43). -/
def ImageStore.reserve (st : ImageStore) (need : Nat) : List Nat :=
  takeFree st.owned st.segmentCount st.segmentCount st.pointer need

/-- The store with an entry placed in a catalogue position and the pointer moved (R43, R46). -/
def ImageStore.place (st : ImageStore) (pos : Fin 32) (e : Entry) : ImageStore :=
  { st with catalogue := st.catalogue.set pos.val (some e) pos.isLt
            pointer := pointerAfter st.segmentCount st.pointer e.segments }

/-- IMG_BEGIN's state conditions and effect (R46). -/
def State.imgBegin (s : State) (p : PortId) (a : BeginArgs) : State :=
  if (s.port p).upload.isSome then s.respond p .uploadOpen .none
  else if (s.store.find a.id).isSome then s.respond p .dupId .none
  else match s.store.emptyPosition with
    | none => s.respond p .noEntry .none
    | some pos =>
      if h : pos < 32 then
        if s.store.freeCount < a.need then s.respond p .noSpace .none
        else
          let st := s.store.place ⟨pos, h⟩ (a.entry p (s.store.reserve a.need))
          (({ s with store := st } : State).modPort p fun t => { t with upload := some { image := a.id, cursor := 0 } }).respond
            p .ok (.reserved pos st.freeCount)
      else s.respond p .noEntry .none

/-- IMG_BEGIN creates a catalogue entry and opens the port's upload context (R46). -/
def execImgBegin (p : PortId) (body : List Byte) (s : State) : Result :=
  s.serve p 0x10#8 [.image] (parseBegin body) fun a t => .next (t.imgBegin p a)

/-- The length of an image; 0 for one not in the catalogue. -/
def ImageStore.lengthOf (st : ImageStore) (id : Nat) : Nat :=
  match st.find id with
  | some e => e.length
  | none => 0

/-- IMG_DATA's state conditions; a chunk that passes waits at the arbiter (R47). -/
def State.imgData (s : State) (p : PortId) (chunk : List Byte) : State :=
  match (s.port p).upload with
  | none => s.respond p .noUpload .none
  | some c =>
    if s.store.lengthOf c.image < c.cursor + chunk.length then s.respond p .overrun (.cursor c.cursor)
    else s.modPort p fun t => { t with write := some chunk }

/-- IMG_DATA writes a chunk at the cursor of the port's upload context (R47). -/
def execImgData (p : PortId) (body : List Byte) (s : State) : Result :=
  s.serve p 0x11#8 [.image] (parseChunk body) fun chunk t => finish (t.imgData p chunk)

/-- IMG_FINISH's state conditions and effect (R48). -/
def State.imgFinish (s : State) (p : PortId) : State :=
  match (s.port p).upload with
  | none => s.respond p .noUpload .none
  | some c =>
    if c.cursor < s.store.lengthOf c.image then s.respond p .short (.cursor c.cursor)
    else
      let st := s.store.modEntry c.image fun e => { e with state := .verifying, uploadPort := none }
      let v := { st.verifier with queue := st.verifier.queue ++ [c.image] }
      (({ s with store := { st with verifier := v } } : State).modPort p fun t => { t with upload := none }).respond p
        .accepted .none

/-- IMG_FINISH closes the upload and queues the image for verification (R48, R50). -/
def execImgFinish (p : PortId) (body : List Byte) (s : State) : Result :=
  s.serve p 0x12#8 [.image] (parseEmpty body) fun _ t => finish (t.imgFinish p)

/-- IMG_ABANDON gives up the port's upload (R49). -/
def execImgAbandon (p : PortId) (body : List Byte) (s : State) : Result :=
  s.serve p 0x13#8 [.image] (parseEmpty body) fun _ t =>
    match (t.port p).upload with
    | none => .next (t.respond p .noUpload .none)
    | some _ => .next ((t.dropUpload p).respond p .ok .none)

/-! ### The catalogue (R54 to R57) -/

/-- The image is in use: LOADING or VERIFYING, or with a use count above 0 (R54). -/
def State.inUse (s : State) (e : Entry) : Bool :=
  e.state == .loading || e.state == .verifying || decide (0 < s.useCount e.id)

/-- IMG_RETIRE's state conditions and effect (R54). -/
def State.imgRetire (s : State) (p : PortId) (id : Nat) : State :=
  match s.store.find id with
  | none => s.respond p .notFound .none
  | some e =>
    if s.inUse e then s.respond p .inUse .none
    else if s.plans.references id then s.respond p .inPlan .none
    else if e.pinned then s.respond p .pinned .none
    else ({ s with store := s.store.deleteWhere fun x => x.id == id } : State).respond p .ok .none

/-- IMG_RETIRE deletes a READY or BROKEN entry (R54). -/
def execImgRetire (p : PortId) (body : List Byte) (s : State) : Result :=
  s.serve p 0x14#8 [.image, .service] (parseImageId body) fun id t => .next (t.imgRetire p id)

/-- An IMG_RETIRE taken now would remove the entry (R55). -/
def State.purgeable (s : State) (e : Entry) : Bool :=
  !s.inUse e && !s.plans.references e.id && !e.pinned

/-- IMG_PURGE removes every entry that an IMG_RETIRE would remove, and answers OK with their number (R55). -/
def execImgPurge (p : PortId) (body : List Byte) (s : State) : Result :=
  s.serve p 0x15#8 [.image, .service] (parseEmpty body) fun _ t =>
    .next (({ t with store := t.store.deleteWhere t.purgeable } : State).respond p .ok
      (.removed (t.store.entries.countP t.purgeable)))

/-- IMG_PIN sets or clears the pinned flag (R56). -/
def execImgPin (p : PortId) (body : List Byte) (s : State) : Result :=
  s.serve p 0x16#8 [.image, .service] (parsePin body) fun a t =>
    match t.store.find a.1 with
    | none => .next (t.respond p .notFound .none)
    | some _ =>
      .next (({ t with store := t.store.modEntry a.1 fun e => { e with pinned := a.2 } } : State).respond p .ok (.pin a.2))

/-- What IMG_QUERY reports of an entry (R57). -/
def State.imageReport (s : State) (position : Nat) (e : Entry) : ImageReport :=
  { position := position, entry := e, blocks := e.blocks, useCount := s.useCount e.id,
    cursor := if e.state = .loading then (s.uploadOf e.id).map (·.cursor) else none }

/-- IMG_QUERY's answer (R57). -/
def State.imgQuery (s : State) (p : PortId) (sel : ImageSelector) : State :=
  match sel with
  | .byId id =>
    match s.store.find id, s.store.positionOf id with
    | some e, some pos => s.respond p .ok (.image (s.imageReport pos e) s.store.freeCount)
    | _, _ => s.respond p .notFound (.free s.store.freeCount)
  | .byPosition pos =>
    match s.store.catalogue[pos] with
    | some e => s.respond p .ok (.image (s.imageReport pos.val e) s.store.freeCount)
    | none => s.respond p .ok (.emptyPosition s.store.freeCount)

/-- IMG_QUERY reports an entry by image id or by catalogue position (R57). -/
def execImgQuery (p : PortId) (body : List Byte) (s : State) : Result :=
  s.serve p 0x17#8 namedRoles (parseImageQuery body) fun sel t => .next (t.imgQuery p sel)

end Sys2Proof.Machine
end

