-- ==== Sys2Proof/Machine/PlanRequests.lean ====
section
/-! DEFINITION. The requests of the plan store (chapter 2) and of the fleet table (chapter 1): PLAN_CLEAR, PLAN_PUT_RULE,
PLAN_ACTIVATE, PLAN_QUERY, FLEET_QUERY, FIT_QUERY, FLEET_FORGET. -/

namespace Sys2Proof.Machine

/-! ### Plans (R30 to R33, R38) -/

/-- PLAN_CLEAR empties the standby plan (R31). -/
def execPlanClear (p : PortId) (body : List Byte) (s : State) : Result :=
  s.serve p 0x20#8 [.image] (parseEmpty body) fun _ t =>
    .next (({ t with plans := { t.plans with standby := Vector.replicate 64 none } } : State).respond p .ok .none)

/-- PLAN_PUT_RULE writes a standby slot (R30). -/
def execPlanPutRule (p : PortId) (body : List Byte) (s : State) : Result :=
  s.serve p 0x21#8 [.image] (parsePutRule body) fun a t =>
    .next (({ t with plans := { t.plans with standby := t.plans.standby.set a.1.val a.2 a.1.isLt } } : State).respond p
      .ok .none)

/-- The lowest slot whose FLASH or FLASH_HOLD rule fails a test of its image (R32), counting from `n`. -/
def failingSlot (test : Rule → Bool) : Nat → List (Option Rule) → Option Nat
  | _, [] => none
  | n, some r :: rest => if r.action != .census && !test r then some n else failingSlot test (n + 1) rest
  | n, none :: rest => failingSlot test (n + 1) rest

/-- The rule's image is in the catalogue and READY (R32). -/
def ImageStore.ready (st : ImageStore) (r : Rule) : Bool :=
  match r.image.bind st.find with
  | some e => e.state == .ready
  | none => false

/-- The rule's image has the rule's class (R32). -/
def ImageStore.sameClass (st : ImageStore) (r : Rule) : Bool :=
  match r.image.bind st.find with
  | some e => e.cls == r.cls
  | none => false

/-- The plan store after an activation (R33). -/
def PlanStore.activated (pl : PlanStore) : PlanStore :=
  { pl with active := pl.standby, counters := Vector.replicate 64 0, generation := pl.generation + 1 }

/-- Every bay is sent an activation notice (R33). -/
def State.notifyBays (s : State) : State :=
  allBays.foldl (fun t b => t.modBay b fun y => { y with notices := y.notices + 1 }) s

/-- PLAN_ACTIVATE's refusal conditions and effect (R32, R33). -/
def State.planActivate (s : State) (p : PortId) : State :=
  if max32 ≤ s.plans.generation then s.respond p .noSpace .none
  else match failingSlot s.store.ready 0 s.plans.standby.toList with
    | some n => s.respond p .imageState (.slot n)
    | none =>
      match failingSlot s.store.sameClass 0 s.plans.standby.toList with
      | some n => s.respond p .classMismatch (.slot n)
      | none =>
        ((({ s with plans := s.plans.activated } : State).post .planActivated
          (.generation (s.plans.generation + 1))).notifyBays).respond p .ok (.generation (s.plans.generation + 1))

/-- PLAN_ACTIVATE makes the standby plan the active plan (R32, R33). -/
def execPlanActivate (p : PortId) (body : List Byte) (s : State) : Result :=
  s.serve p 0x22#8 [.image] (parseEmpty body) fun _ t => .next (t.planActivate p)

/-- PLAN_QUERY reports a slot of a plan, and for the active plan its match counter; an empty slot's counter is reported
as 0 (R38). -/
def execPlanQuery (p : PortId) (body : List Byte) (s : State) : Result :=
  s.serve p 0x23#8 namedRoles (parsePlanQuery body) fun a t =>
    let slot := if a.1 then t.plans.active[a.2] else t.plans.standby[a.2]
    let counter := if slot.isNone then 0 else t.plans.counters[a.2]
    .next (t.respond p .ok (.rule t.plans.generation slot (if a.1 then some counter else none)))

/-! ### The fleet table (R16 to R18) -/

/-- FLEET_QUERY reports the whole bus record (R16). -/
def execFleetQuery (p : PortId) (body : List Byte) (s : State) : Result :=
  s.serve p 0x30#8 namedRoles (parseFleet body) fun fleet t =>
    match t.bus fleet with
    | some r => .next (t.respond p .ok (.bus r))
    | none => .next (t.respond p .notFound .none)

/-- FIT_QUERY reports the fitness, at-bay and stale count of a bus (R18). -/
def execFitQuery (p : PortId) (body : List Byte) (s : State) : Result :=
  s.serve p 0x31#8 namedRoles (parseFleet body) fun fleet t =>
    match t.bus fleet with
    | some r => .next (t.respond p .ok (.fitness (r.fitness t.plans.generation) r.atBay r.stale))
    | none => .next (t.respond p .ok (.fitness .unknown none 0))

/-- FLEET_FORGET deletes an unbound bus record (R17). -/
def execFleetForget (p : PortId) (body : List Byte) (s : State) : Result :=
  s.serve p 0x32#8 [.service] (parseFleet body) fun fleet t =>
    match t.bus fleet with
    | none => .next (t.respond p .notFound .none)
    | some r =>
      if r.atBay.isSome then .next (t.respond p .atBay .none)
      else .next (({ t with fleet := t.fleet.filter fun q => q.fleet != fleet } : State).respond p .ok .none)

end Sys2Proof.Machine
end

