-- ==== Sys2Proof/Machine/Dispatch.lean ====
section
/-! DEFINITION. The meaning of every command: one arm for each row of spec/opcode_table.json. -/

namespace Sys2Proof.Machine

/-- What a command does to everything but the queue. -/
def exec (i : Instr) (s : State) : Host.Outcome State Fault Refusal :=
  match i with
  | .powerOnReset role0 role1 role2 size => Sys2Proof.Machine.execPowerOnReset role0 role1 role2 size s
  | .yardTimeTick presentPins ignitionPins => Sys2Proof.Machine.execYardTimeTick presentPins ignitionPins s
  | .presentRise bay => Sys2Proof.Machine.execPresentRise bay s
  | .detach bay => Sys2Proof.Machine.execDetach bay s
  | .ignitionRise bay => Sys2Proof.Machine.execIgnitionRise bay s
  | .ignitionFall bay => Sys2Proof.Machine.execIgnitionFall bay s
  | .deadlineReached bay => Sys2Proof.Machine.execDeadlineReached bay s
  | .frameSent bay => Sys2Proof.Machine.execFrameSent bay s
  | .replyReceived bay frame => Sys2Proof.Machine.execReplyReceived bay frame s
  | .replyTimeout bay => Sys2Proof.Machine.execReplyTimeout bay s
  | .replyCharacterTimeout bay => Sys2Proof.Machine.execReplyCharacterTimeout bay s
  | .pollIntervalEnd bay => Sys2Proof.Machine.execPollIntervalEnd bay s
  | .confirmPollDue bay => Sys2Proof.Machine.execConfirmPollDue bay s
  | .confirmationDeadline bay addr => Sys2Proof.Machine.execConfirmationDeadline bay addr s
  | .activationNotice bay => Sys2Proof.Machine.execActivationNotice bay s
  | .blockReadDone bay => Sys2Proof.Machine.execBlockReadDone bay s
  | .uploadWriteDone port => Sys2Proof.Machine.execUploadWriteDone port s
  | .verifyReadDone => Sys2Proof.Machine.execVerifyReadDone s
  | .frameCrcError port code body crc => Sys2Proof.Machine.execFrameCrcError port code body crc s
  | .frameLengthError port code length => Sys2Proof.Machine.execFrameLengthError port code length s
  | .frameCharacterTimeout port => Sys2Proof.Machine.execFrameCharacterTimeout port s
  | .discardQuiet port => Sys2Proof.Machine.execDiscardQuiet port s
  | .busyFrame port code body => Sys2Proof.Machine.execBusyFrame port code body s
  | .unknownRequest port code body => Sys2Proof.Machine.execUnknownRequest port code body s
  | .responseSent port => Sys2Proof.Machine.execResponseSent port s
  | .portReset port => Sys2Proof.Machine.execPortReset port s
  | .portResetRelease port => Sys2Proof.Machine.execPortResetRelease port s
  | .nop port body => Sys2Proof.Machine.execNop port body s
  | .timeRead port body => Sys2Proof.Machine.execTimeRead port body s
  | .evtRead port body => Sys2Proof.Machine.execEvtRead port body s
  | .evtAck port body => Sys2Proof.Machine.execEvtAck port body s
  | .evtMask port body => Sys2Proof.Machine.execEvtMask port body s
  | .imgBegin port body => Sys2Proof.Machine.execImgBegin port body s
  | .imgData port body => Sys2Proof.Machine.execImgData port body s
  | .imgFinish port body => Sys2Proof.Machine.execImgFinish port body s
  | .imgAbandon port body => Sys2Proof.Machine.execImgAbandon port body s
  | .imgRetire port body => Sys2Proof.Machine.execImgRetire port body s
  | .imgPurge port body => Sys2Proof.Machine.execImgPurge port body s
  | .imgPin port body => Sys2Proof.Machine.execImgPin port body s
  | .imgQuery port body => Sys2Proof.Machine.execImgQuery port body s
  | .planClear port body => Sys2Proof.Machine.execPlanClear port body s
  | .planPutRule port body => Sys2Proof.Machine.execPlanPutRule port body s
  | .planActivate port body => Sys2Proof.Machine.execPlanActivate port body s
  | .planQuery port body => Sys2Proof.Machine.execPlanQuery port body s
  | .fleetQuery port body => Sys2Proof.Machine.execFleetQuery port body s
  | .fitQuery port body => Sys2Proof.Machine.execFitQuery port body s
  | .fleetForget port body => Sys2Proof.Machine.execFleetForget port body s
  | .bayStatus port body => Sys2Proof.Machine.execBayStatus port body s
  | .bayConfig port body => Sys2Proof.Machine.execBayConfig port body s
  | .bayEnableOff port body => Sys2Proof.Machine.execBayEnableOff port body s
  | .bayEnableOn port body => Sys2Proof.Machine.execBayEnableOn port body s
  | .bayReset port body => Sys2Proof.Machine.execBayReset port body s
  | .departSet port body => Sys2Proof.Machine.execDepartSet port body s
  | .departClear port body => Sys2Proof.Machine.execDepartClear port body s
  | .departNow port body => Sys2Proof.Machine.execDepartNow port body s
  | .hold port body => Sys2Proof.Machine.execHold port body s
  | .unholdOwn port body => Sys2Proof.Machine.execUnholdOwn port body s
  | .unholdRule port body => Sys2Proof.Machine.execUnholdRule port body s
  | .cutoffClear port body => Sys2Proof.Machine.execCutoffClear port body s
  | .jobQuery port body => Sys2Proof.Machine.execJobQuery port body s
  | .yardReset port body => Sys2Proof.Machine.execYardReset port body s
  | .controllerReset port => Sys2Proof.Machine.execControllerReset port s

end Sys2Proof.Machine
end

