-- ==== Sys2Proof/Safety.lean ====
section
/-! DEFINITION. What counts as a truthful command and a safe step: the conditions under which the part itself would see
the event that a command names (the filters of R84, the timers of R70 and R72, yard time, the arbiter's grant). The
meanings take a command on its sender's word (notes/assumptions/4.md). -/

namespace Sys2Proof

open Machine

/-- A filter has accepted a change towards a value and the bay has not taken it yet (R84). -/
def filterDue (f : Filter) (toward : Bool) : Bool := f.accepted && f.value != toward

/-- The access being carried out, if it satisfies a test. -/
def grantIs (s : State) (test : Grant → Bool) : Bool :=
  match s.store.granted with
  | some g => test g
  | none => false

/-- The event that a command names arises in a state: its filter has accepted the change, its timer has ended, its access
is granted, its response is on the wire. Frames and resets from outside arise whenever the port hears them. -/
def arises (s : State) : Instr → Bool
  | .powerOnReset _ _ _ _ | .yardTimeTick _ _ => true
  | .presentRise b => filterDue (s.bay b).presentFilter true
  | .detach b => filterDue (s.bay b).presentFilter false
  | .ignitionRise b => filterDue (s.bay b).ignitionFilter true
  | .ignitionFall b => filterDue (s.bay b).ignitionFilter false
  | .deadlineReached b => (s.bay b).deadlineCondition s.yardTime
  | .frameSent b => (s.bay b).engine.state == .sending
  | .replyReceived b _ => (s.bay b).engine.state == .awaiting
  | .replyTimeout b => (s.bay b).engine.state == .awaiting && decide ((s.bay b).engine.timerEnd ≤ s.yardTime)
  | .replyCharacterTimeout b => (s.bay b).engine.state == .awaiting
  | .pollIntervalEnd b =>
    (s.bay b).engine.state == .pollWait && !(s.bay b).engine.pollEnded &&
      decide ((s.bay b).engine.timerEnd ≤ s.yardTime)
  | .confirmPollDue b => match (s.bay b).switching with
      | some sw => (duePoll s.yardTime sw.polls).isSome
      | none => false
  | .confirmationDeadline b addr => match (s.bay b).deadlineOf addr with
      | some d => decide (d ≤ s.yardTime)
      | none => false
  | .activationNotice b => decide (0 < (s.bay b).notices)
  | .blockReadDone b => grantIs s fun g => match g with
      | .bayRead c _ _ _ => c == b
      | _ => false
  | .uploadWriteDone p => grantIs s fun g => match g with
      | .portWrite q _ => q == p
      | _ => false
  | .verifyReadDone => grantIs s fun g => match g with
      | .verifyRead _ => true
      | _ => false
  | .frameCrcError p _ _ _ | .frameLengthError p _ _ | .frameCharacterTimeout p | .unknownRequest p _ _ =>
    (s.port p).hears
  | .discardQuiet p => (s.port p).framer == .discard
  | .busyFrame p _ _ => (s.port p).hears && (s.port p).inProgress
  | .responseSent p => (s.port p).sending.isSome
  | .portReset p => !(s.port p).inReset
  | .portResetRelease p => (s.port p).inReset
  | .controllerReset p => (s.port p).sendsReset
  | .nop p _ | .timeRead p _ | .evtRead p _ | .evtAck p _ | .evtMask p _ | .imgBegin p _ | .imgData p _
  | .imgFinish p _ | .imgAbandon p _ | .imgRetire p _ | .imgPurge p _ | .imgPin p _ | .imgQuery p _ | .planClear p _
  | .planPutRule p _ | .planActivate p _ | .planQuery p _ | .fleetQuery p _ | .fitQuery p _ | .fleetForget p _
  | .bayStatus p _ | .bayConfig p _ | .bayEnableOff p _ | .bayEnableOn p _ | .bayReset p _ | .departSet p _
  | .departClear p _ | .departNow p _ | .hold p _ | .unholdOwn p _ | .unholdRule p _ | .cutoffClear p _
  | .jobQuery p _ | .yardReset p _ => (s.port p).hears

/-- What an operation of one bay does outside that bay: the other bays, the clock, the catalogue, image memory, the plans
and the free orders stay as they are, and the ports see nothing but postings. The match counters are not framed; a
granted read of the bay may be marked as discarded; in a fleet table with distinct fleet numbers (R5) the record bound
to another bay stays as it is. -/
structure OnlyBay (b : BayId) (s t : State) : Prop where
  pending : t.pending = s.pending
  freeDraws : t.freeDraws = s.freeDraws
  yardTime : t.yardTime = s.yardTime
  others : ∀ c, c ≠ b → t.bay c = s.bay c
  segmentCount : t.store.segmentCount = s.store.segmentCount
  catalogue : t.store.catalogue = s.store.catalogue
  pointer : t.store.pointer = s.store.pointer
  mem : t.store.mem = s.store.mem
  verifier : t.store.verifier = s.store.verifier
  searchFrom : t.store.searchFrom = s.store.searchFrom
  granted : t.store.granted = s.store.granted ∨ t.store.granted = s.store.granted.map (Grant.forget b)
  standby : t.plans.standby = s.plans.standby
  active : t.plans.active = s.plans.active
  generation : t.plans.generation = s.plans.generation
  posts : ∃ l : List (EventKind × Subject),
    ∀ p, t.port p = l.foldl (fun q x => Port.post x.1 x.2 q) (s.port p)
  buses : (s.fleet.map (·.fleet)).Nodup → (t.fleet.map (·.fleet)).Nodup ∧ ∀ c, c ≠ b → t.bound c = s.bound c

/-! ### Terms of the claims -/

/-- The port takes a request of these roles now: it hears, no request is in progress, and its role is among them
(R175, R177). -/
abbrev Accepts (s : State) (p : PortId) (roles : List Role) : Prop :=
  (s.port p).hears = true ∧ (s.port p).inProgress = false ∧ (s.port p).role ∈ roles

/-- The state after a request has been taken and answered with no other effect: the flag is set, the framer is in HUNT and
the response is produced (R175, R176). -/
def answered (s : State) (p : PortId) (status : Status) (body : Body) : State := (s.intake p).respond p status body

/-- What the taking of a frame and the producing of a response can change: the framer, the request-in-progress flag and
the responses of one port. -/
structure OnlyLink (p : PortId) (s t : State) : Prop where
  pending : t.pending = s.pending
  freeDraws : t.freeDraws = s.freeDraws
  yardTime : t.yardTime = s.yardTime
  store : t.store = s.store
  plans : t.plans = s.plans
  fleet : t.fleet = s.fleet
  bays : t.bays = s.bays
  others : ∀ q, q ≠ p → t.port q = s.port q
  role : (t.port p).role = (s.port p).role
  inReset : (t.port p).inReset = (s.port p).inReset
  upload : (t.port p).upload = (s.port p).upload
  write : (t.port p).write = (s.port p).write
  events : (t.port p).events = (s.port p).events
  enable : (t.port p).enable = (s.port p).enable
  attention : (t.port p).attention = (s.port p).attention

/-- What EVT_READ and EVT_ACK report of some kinds of a pending set: an entry for each of them with a count above 0, and
no other, in ascending kind number (R185). -/
structure Reports (events : Vector EventEntry 15) (kinds : Fin 15 → Prop) (entries : List EventReport) : Prop where
  each : ∀ k : Fin 15, kinds k → 0 < events[k].count →
    { kind := k.val, count := events[k].count, subject := events[k].subject } ∈ entries
  only : ∀ e ∈ entries, ∃ k : Fin 15, kinds k ∧ 0 < events[k].count ∧
    e = { kind := k.val, count := events[k].count, subject := events[k].subject }
  order : (entries.map (·.kind)).Pairwise (· < ·)

/-- A reply frame received now counts as no reply to the transaction (R63). -/
abbrev NoReplyIn (s : State) (b : BayId) (tr : Transaction) (frame : List Byte) : Prop :=
  judgeReply tr.request (s.gapsBound b tr.request.addr) frame = none

/-- The command ends the attempt of a transaction with no reply: a timeout, or a frame that R63 does not accept (R70). -/
def EndsSilent (s : State) (b : BayId) (tr : Transaction) (c : Instr) : Prop :=
  c = .replyTimeout b ∨ c = .replyCharacterTimeout b ∨ ∃ frame, c = .replyReceived b frame ∧ NoReplyIn s b tr frame

/-- The transaction is outstanding in AWAITING and its outcome goes to its activity (R70, R75). -/
abbrev Awaits (s : State) (b : BayId) (tr : Transaction) : Prop :=
  (s.bay b).engine.state = .awaiting ∧ (s.bay b).engine.transaction = some tr ∧ tr.drained = false

/-- The command ends the outstanding transaction of a bay with an outcome: an accepted reply other than NOT-READY, silence
beyond the configured retries (R71), or a NOT-READY beyond the limit (R72). -/
def EndsWith (s : State) (b : BayId) (tr : Transaction) (out : LineOutcome) (c : Instr) : Prop :=
  Awaits s b tr ∧ match out with
    | .reply r => r ≠ .notReady ∧ ∃ frame, c = .replyReceived b frame ∧
        judgeReply tr.request (s.gapsBound b tr.request.addr) frame = some r
    | .noReply => (s.bay b).config.retries < tr.retries + 1 ∧ EndsSilent s b tr c
    | .notReadyLimit => (s.bay b).config.notReadyLimit < tr.polls + 1 ∧ ∃ frame, c = .replyReceived b frame ∧
        judgeReply tr.request (s.gapsBound b tr.request.addr) frame = some .notReady

/-- The pass in flight of a bay, and the passes before and after it in the pass list; no other is in flight (R125). -/
structure InFlight (y : Bay) (before : List Pass) (p : Pass) (after : List Pass) : Prop where
  list : y.passes = before ++ p :: after
  flying : p.inFlight = true
  alone : ∀ q ∈ before ++ after, q.inFlight = false

/-- The roles that the request table permits for a request (section 11.4). -/
def Instr.permitted : Instr → List Role
  | .nop _ _ | .unknownRequest _ _ _ => anyRole
  | .imgBegin _ _ | .imgData _ _ | .imgFinish _ _ | .imgAbandon _ _ | .planClear _ _ | .planPutRule _ _
  | .planActivate _ _ => [.image]
  | .imgRetire _ _ | .imgPurge _ _ | .imgPin _ _ => [.image, .service]
  | .departSet _ _ | .departClear _ _ | .departNow _ _ | .cutoffClear _ _ => [.dispatch, .service]
  | .fleetForget _ _ | .bayConfig _ _ | .bayEnableOff _ _ | .bayEnableOn _ _ | .bayReset _ _ | .unholdRule _ _
  | .yardReset _ _ => [.service]
  | .timeRead _ _ | .evtRead _ _ | .evtAck _ _ | .evtMask _ _ | .imgQuery _ _ | .planQuery _ _ | .fleetQuery _ _
  | .fitQuery _ _ | .bayStatus _ _ | .hold _ _ | .unholdOwn _ _ | .jobQuery _ _ => namedRoles
  | .powerOnReset _ _ _ _ | .yardTimeTick _ _ | .presentRise _ | .detach _ | .ignitionRise _ | .ignitionFall _
  | .deadlineReached _ | .frameSent _ | .replyReceived _ _ | .replyTimeout _ | .replyCharacterTimeout _
  | .pollIntervalEnd _ | .confirmPollDue _ | .confirmationDeadline _ _ | .activationNotice _ | .blockReadDone _
  | .uploadWriteDone _ | .verifyReadDone | .frameCrcError _ _ _ _ | .frameLengthError _ _ _
  | .frameCharacterTimeout _ | .discardQuiet _ | .busyFrame _ _ _ | .responseSent _ | .portReset _
  | .portResetRelease _ | .controllerReset _ => []

/-- The body of a request passes its argument check (R178). -/
def Instr.argsFit : Instr → Bool
  | .nop _ body | .timeRead _ body | .evtRead _ body | .imgFinish _ body | .imgAbandon _ body | .imgPurge _ body
  | .planClear _ body | .planActivate _ body | .yardReset _ body => (parseEmpty body).isSome
  | .evtAck _ body | .evtMask _ body => (parseKinds body).isSome
  | .imgBegin _ body => (parseBegin body).isSome
  | .imgData _ body => (parseChunk body).isSome
  | .imgRetire _ body => (parseImageId body).isSome
  | .imgPin _ body => (parsePin body).isSome
  | .imgQuery _ body => (parseImageQuery body).isSome
  | .planPutRule _ body => (parsePutRule body).isSome
  | .planQuery _ body => (parsePlanQuery body).isSome
  | .fleetQuery _ body | .fitQuery _ body | .fleetForget _ body => (parseFleet body).isSome
  | .bayStatus _ body | .bayReset _ body | .departClear _ body | .departNow _ body | .hold _ body
  | .cutoffClear _ body => (parseBay body).isSome
  | .bayConfig _ body => (parseConfig body).isSome
  | .bayEnableOff _ body | .unholdOwn _ body => (parseBayWith 0 body).isSome
  | .bayEnableOn _ body | .unholdRule _ body => (parseBayWith 1 body).isSome
  | .departSet _ body => (parseDepartSet body).isSome
  | .jobQuery _ body => (parseJobQuery body).isSome
  | .powerOnReset _ _ _ _ | .yardTimeTick _ _ | .presentRise _ | .detach _ | .ignitionRise _ | .ignitionFall _
  | .deadlineReached _ | .frameSent _ | .replyReceived _ _ | .replyTimeout _ | .replyCharacterTimeout _
  | .pollIntervalEnd _ | .confirmPollDue _ | .confirmationDeadline _ _ | .activationNotice _ | .blockReadDone _
  | .uploadWriteDone _ | .verifyReadDone | .frameCrcError _ _ _ _ | .frameLengthError _ _ _
  | .frameCharacterTimeout _ | .discardQuiet _ | .busyFrame _ _ _ | .unknownRequest _ _ _ | .responseSent _
  | .portReset _ | .portResetRelease _ | .controllerReset _ => true

/-- The requests that only read. -/
def Instr.isQuery : Instr → Bool
  | .nop _ _ | .timeRead _ _ | .evtRead _ _ | .imgQuery _ _ | .planQuery _ _ | .fleetQuery _ _ | .fitQuery _ _
  | .bayStatus _ _ | .jobQuery _ _ => true
  | _ => false

/-- The bay that a bay event or a bay line event happens at. -/
def Instr.bayEvent : Instr → Option BayId
  | .presentRise b | .detach b | .ignitionRise b | .ignitionFall b | .deadlineReached b | .frameSent b
  | .replyReceived b _ | .replyTimeout b | .replyCharacterTimeout b | .pollIntervalEnd b | .confirmPollDue b
  | .confirmationDeadline b _ | .activationNotice b => some b
  | _ => none

/-! ### Invariants -/

/-- The event state of a port: the line follows the sets, a count stays within 255 and is 0 exactly while the last subject
is absent, and a port held in reset has nothing pending and nothing enabled (R183, R184, R186). -/
structure PortOk (t : Port) : Prop where
  line : t.attention = attentionOf t.events t.enable
  counts : ∀ k : Fin 15, t.events[k].count ≤ 255
  subjects : ∀ k : Fin 15, t.events[k].count = 0 ↔ t.events[k].subject = none
  inReset : t.inReset = true → (∀ k : Fin 15, t.events[k].count = 0) ∧ t.enable = 0

/-- The answers to requests that a port is sending or that wait. -/
def Machine.Port.answers (t : Port) : Nat := (t.sending.toList ++ t.waiting).countP fun r => r.kind != .refusal

/-- The responses of a port: at most one answers a request, and its request is in progress; none waits with the line free;
at most one refusal waits; and a port held in reset sends nothing (R175, R176, R180). -/
structure LinkOk (t : Port) : Prop where
  one : t.answers ≤ 1
  asked : 0 < t.answers → t.inProgress = true
  order : t.sending = none → t.waiting = []
  refusals : (t.waiting.countP fun r => r.kind == .refusal) ≤ 1
  held : t.inReset = true → t.sending = none ∧ t.inProgress = false

/-- D and C: C is D less the guard, and they are present or absent together (R112). -/
def DepartureOk (y : Bay) : Prop := y.cutoffTime = y.departure.map fun d => cutoffFor d y.config.guardTime

/-- Nothing of a job is under way and no request waits: what the engine still carries is drained (R75, R78). -/
structure Quiet (y : Bay) : Prop where
  passes : y.passes = []
  switching : y.switching = none
  offered : y.engine.offered = none
  drained : y.engine.state ≠ .idle → ∀ tr, y.engine.transaction = some tr → tr.drained = true

/-- The bay states in which the bay has no work: DISABLED, EMPTY, CUTOFF. -/
def stoppedState : BayState → Bool
  | .disabled | .empty | .cutoff => true
  | _ => false

/-- The cutoff flag is set exactly while the bay is in CUTOFF (R163), and a bay in DISABLED, EMPTY or CUTOFF is quiet
(R78). -/
structure BayOk (y : Bay) : Prop where
  flag : y.cutoff.isSome = true ↔ y.state = .cutoff
  quiet : stoppedState y.state = true → Quiet y

/-- Each segment is owned at most once, every owned segment and the pointer lie in the map, each entry owns as many
segments as its length needs, and the ids are distinct (R40, R41, R43). -/
structure StoreOk (st : ImageStore) : Prop where
  pointer : st.pointer < st.segmentCount
  inMap : ∀ seg ∈ st.owned, seg < st.segmentCount
  once : st.owned.Nodup
  sizes : ∀ e ∈ st.entries, e.segments.length = e.segmentNeed
  ids : (st.entries.map (·.id)).Nodup

/-- The fleet table holds at most 256 records with distinct fleet numbers, and at most one is bound to any one bay
(R5). -/
structure FleetOk (s : State) : Prop where
  numbers : (s.fleet.map (·.fleet)).Nodup
  size : s.fleet.length ≤ 256
  bound : ∀ b, (s.fleet.countP fun r => r.atBay == some b) ≤ 1

/-- Each upload context targets a LOADING entry, no two the same one, and each image in the verification queue stands there
once and is VERIFYING (R45, R50). -/
structure StagesOk (s : State) : Prop where
  uploads : ∀ (p : PortId) (c : Upload), (s.port p).upload = some c →
    ∃ e ∈ s.store.entries, e.id = c.image ∧ e.state = .loading
  single : ∀ (p q : PortId) (c d : Upload), (s.port p).upload = some c → (s.port q).upload = some d →
    c.image = d.image → p = q
  queue : ∀ id ∈ s.store.verifier.queue, ∃ e ∈ s.store.entries, e.id = id ∧ e.state = .verifying
  once : s.store.verifier.queue.Nodup

/-- The chunk of each IMG_DATA that waits or is being written lies within the image of its port's context, its request is
in progress and not answered yet, and none waits behind one being written; a verification read is of an image in the
queue (R47, R50, R58, R175). -/
structure AccessOk (s : State) : Prop where
  writes : ∀ (p : PortId) (chunk : List Byte),
    (s.port p).write = some chunk ∨ s.store.granted = some (.portWrite p chunk) →
    (s.port p).inProgress = true ∧ (s.port p).answers = 0 ∧
    ∃ (c : Upload) (e : Entry), (s.port p).upload = some c ∧ s.store.find c.image = some e ∧
      c.cursor + chunk.length ≤ e.length
  single : ∀ (p : PortId) (chunk : List Byte), s.store.granted = some (.portWrite p chunk) → (s.port p).write = none
  verifies : s.store.granted = some (.verifyRead true) → s.store.verifier.queue ≠ []

/-- The invariant of uploads and verification: the ports' links, the image store, its stages and its accesses. -/
structure UploadsOk (s : State) : Prop where
  links : ∀ p, LinkOk (s.port p)
  store : StoreOk s.store
  stages : StagesOk s
  access : AccessOk s

/-- The invariant of the part: image memory in its canonical form, and the ports', departures' and bays' own. -/
structure PartOk (s : State) : Prop where
  memory : Memory.wf s.store.mem = true
  ports : ∀ p, PortOk (s.port p)
  departures : ∀ b, DepartureOk (s.bay b)
  bays : ∀ b, BayOk (s.bay b)

/-! ### The end of a job -/

/-- Job units after their job's end: a FLASH unit that has not finished is CUT, and every claim is released (R88 steps 2
and 4). -/
def endedUnits (units : List JobUnit) : List JobUnit :=
  units.map fun x => { x with
    claim := none
    progress := if x.decision = some .flash then (match x.progress with
      | some (.faulted _) | some .switched | some .cut | some .deferredFault | none => x.progress
      | some _ => some .cut) else x.progress }

/-- What a job's end writes to the bound record: the stale count, and each slot's last decision and last progress (R15,
R154). -/
def jobWritten (units : List JobUnit) (r : BusRecord) : BusRecord := { r with
  stale := (units.filter fun x => decide (x.decision = some .flash ∧ x.progress ≠ some .switched)).length
  slots := r.slots.map fun sl => match units.find? fun x => decide (x.addr = sl.addr) with
    | some x => { sl with lastDecision := x.decision, lastProgress := x.progress }
    | none => sl }

/-- What the end of a bay's job does to the fleet table and the ports: a switch in flight is broken off, with its split
entry and GROUP_SPLIT, and the bound record is written (R88 steps 3 and 5, R151). -/
def jobEnded (t : State) (b : BayId) : State :=
  let units := endedUnits (t.bay b).units
  ((t.modBay b fun y => { y with units := units }).breakOffSwitch b).modBound b (jobWritten units)

/-- What a bay that leaves its bus does to the fleet table and the ports: the job ends, unless a cutoff has ended it, and
the binding is released (R88, R81, R89, R90, R93). -/
def busLeft (t : State) (b : BayId) : State :=
  (if (t.bay b).state = .cutoff then t else jobEnded t b).modBound b fun r => { r with atBay := none }

/-- A switch of group `g` is in flight, and a member in the group's sent list is not SWITCHED: broken off, it posts
GROUP_SPLIT (R150, R151). -/
def SplitsGroup (y : Bay) (g : Nat) : Prop :=
  g ≠ 0 ∧ ∃ (sw : Switch) (r : GroupRecord), y.switching = some sw ∧ sw.group = g ∧ y.groupRecord g = some r ∧
    ∃ (m : Nat) (v : JobUnit) (pl : Planned), m ∈ r.sent ∧ y.unit m = some v ∧ v.progress ≠ some .switched ∧
      v.planned = some pl

/-- What draining makes of an engine: a request that waits is dropped; a transaction whose frame has started runs out with
its result discarded; in POLL_WAIT, or with the frame not started, it ends at once (R75, R76). -/
structure Drains (e g : Engine) : Prop where
  idle : e.state = .idle → g = { e with offered := none }
  pollWait : e.state = .pollWait → g = { e with state := .idle, transaction := none, offered := none, pollEnded := false }
  started : ∀ tr : Transaction, e.state = .sending ∨ e.state = .awaiting → e.transaction = some tr → tr.started = true →
    g = { e with offered := none, transaction := some { tr with drained := true } }
  unstarted : ∀ tr : Transaction, e.state = .sending ∨ e.state = .awaiting → e.transaction = some tr →
    tr.started = false → g = { e with state := .idle, transaction := none, offered := none, pollEnded := false }

/-- What a stop does to the line of a bay: the engine drains, the reader is empty, and a granted read of the bay is marked
as discarded (R75, section 3.9). -/
structure LineStops (b : BayId) (t u : State) : Prop where
  engine : Drains (t.bay b).engine (u.bay b).engine
  reader : (u.bay b).reader = { waiting := none, buffer := none }
  granted : u.store.granted = t.store.granted.map (Grant.forget b)

/-- What `t` becomes when a cutoff acts at a bay: the flag and its cause are set, the line drains, the job ends and
BAY_CUTOFF is posted (R164, R88). -/
structure CutsOff (b : BayId) (cause : CutoffCause) (t u : State) : Prop where
  only : OnlyBay b t u
  bay : u.bay b = { t.bay b with
    state := .cutoff, cutoff := some cause, units := endedUnits (t.bay b).units
    engine := (u.bay b).engine, reader := (u.bay b).reader
    passes := [], groups := [], switching := none, sweepAt := none, planning := none, replanPending := false
    pendingCutoff := none }
  line : LineStops b t u
  quiet : Quiet (u.bay b)
  plans : u.plans = t.plans
  fleet : u.fleet = (jobEnded t b).fleet
  ports : ∀ q : PortId, u.port q = ((jobEnded t b).post .bayCutoff (.bay b)).port q

/-! ### What a bay does next -/

/-- The engine sends the frame of a request for the first time (R70). -/
def Sends (y : Bay) (r : LineRequest) (act : Activity) : Prop :=
  y.engine.state = .sending ∧ ∃ tr : Transaction, y.engine.transaction = some tr ∧ tr.request = r ∧ tr.activity = act ∧
    tr.retries = 0 ∧ tr.polls = 0 ∧ tr.drained = false ∧ tr.speed = y.config.speed

/-- The line is free and no request waits for it (R70). -/
abbrev LineFree (y : Bay) : Prop := y.engine.state = .idle ∧ y.engine.offered = none

/-- What the state `t` becomes when a pass on a free line goes on with block `n` to an address: its frame starts if the
reader holds its data, and otherwise the reader asks for it (R74). -/
def SendsBlock (t u : State) (b : BayId) (addr image n : Nat) : Prop :=
  (∀ data : List Byte, (t.bay b).reader.buffer = some (n, data) → Sends (u.bay b) (.block addr n data) .pass) ∧
  ((t.bay b).reader.buffer = none → t.readOutstanding b = false →
    (u.bay b).engine = (t.bay b).engine ∧ (u.bay b).reader.waiting = some { image := image, block := n })

/-- What `t` becomes when the next OPEN of a pass is offered on a free line (R127). -/
def OffersOpen (t u : State) (b : BayId) (before : List Pass) (p : Pass) (after : List Pass) : Prop :=
  ∀ (d : Nat) (rest : List Nat) (v : JobUnit) (pl : Planned) (e : Entry), p.todo = d :: rest →
    (t.bay b).unit d = some v → v.planned = some pl → t.store.find p.image = some e →
    (u = t.modBay b fun y => { y.modUnit d (fun w =>
        { w with progress := some .opening, openedBlocks := some e.blocks }) with
      passes := before ++ { p with todo := rest } :: after, engine := (u.bay b).engine }) ∧
    Sends (u.bay b)
      (.openBank d p.image pl.version e.length e.blocks p.join (decide (v.kind = some .resume))) .pass

/-- What `t` becomes when the next member of a pass in REPAIR has its turn on a free line (R132). -/
def OffersGaps (t u : State) (b : BayId) (before : List Pass) (p : Pass) (after : List Pass) : Prop :=
  ∀ (d : Nat) (rest : List Nat), p.todo = d :: rest →
    (u = t.modBay b fun y => { y.modUnit d (fun w => { w with progress := some .repairing }) with
      passes := before ++ { p with todo := rest, repairMember := some d, toSend := [], firstGaps := true } :: after
      engine := (u.bay b).engine }) ∧
    Sends (u.bay b) (.gaps d) .pass

/-- What `t` becomes when the next CHECK of a pass is offered on a free line (R136). -/
def OffersCheck (t u : State) (b : BayId) (before : List Pass) (p : Pass) (after : List Pass) : Prop :=
  ∀ (d : Nat) (rest : List Nat), p.todo = d :: rest →
    (u = t.modBay b fun y => { y.modUnit d (fun w => { w with progress := some .checking }) with
      passes := before ++ { p with todo := rest } :: after, engine := (u.bay b).engine }) ∧
    Sends (u.bay b) (.check d) .pass

/-- The members of a pass whose unit satisfies a test, in the order of the member list. -/
def membersThat (t : State) (b : BayId) (p : Pass) (test : JobUnit → Bool) : List Nat :=
  p.members.filter fun m => ((t.bay b).unit m).any test

/-- What `t` becomes when a pass enters CHECK with the members that are not FAULTED (R136). -/
abbrev EntersCheck (t u : State) (b : BayId) (before : List Pass) (p : Pass) (after : List Pass) : Prop :=
  OffersCheck t u b before { p with
    phase := .checking, phaseComplete := false, refetched := 0
    todo := membersThat t b p fun v => !v.isFaulted } after

/-- What `t` becomes when a pass enters REPAIR with the members that are neither CHECK_ONLY nor FAULTED (R132). -/
abbrev EntersRepair (t u : State) (b : BayId) (before : List Pass) (p : Pass) (after : List Pass) : Prop :=
  OffersGaps t u b before { p with
    phase := .repairing, phaseComplete := false, repairMember := none, toSend := [], answered := 0, missingSum := 0
    todo := membersThat t b p fun v => decide (v.kind ≠ some .checkOnly ∧ v.isFaulted = false) } after

/-- What `t` becomes when a pass enters STREAM: to the one member that is neither CHECK_ONLY nor FAULTED, or to all
with address 31, from block 0 (R130). -/
def EntersStream (t u : State) (b : BayId) (before : List Pass) (p : Pass) (after : List Pass) : Prop :=
  let addr := match membersThat t b p fun v => decide (v.kind ≠ some .checkOnly ∧ v.isFaulted = false) with
    | [] => none
    | [a] => some a
    | _ :: _ :: _ => some 31
  (u = t.modBay b fun y => { y with
    passes := before ++ { p with
      phase := .streaming, phaseComplete := false, nextBlock := 0, streamed := 0, activeTime := 0, streamAddr := addr
      choice := if p.choice = some .fromMissing then some .fromB else p.choice } :: after
    engine := (u.bay b).engine, reader := (u.bay b).reader }) ∧
  ∀ a : Nat, addr = some a → 0 < t.store.blocksOf p.image → SendsBlock t u b a p.image 0

/-- What `t` becomes when OPEN has finished, by rows 2 to 4 of R129. -/
def FollowsOpen (t u : State) (b : BayId) (before : List Pass) (p : Pass) (after : List Pass) : Prop :=
  let live := membersThat t b p fun v => !v.isFaulted
  let only := ∀ v ∈ (t.bay b).units, v.addr ∈ live → v.kind = some .checkOnly
  let missing := p.choice = some .fromMissing ∧ ∀ v ∈ (t.bay b).units, v.addr ∈ live → v.kind ≠ some .fresh
  (only → EntersCheck t u b before p after) ∧
  (¬only → missing → EntersRepair t u b before { p with sampleDue := false } after) ∧
  (¬only → ¬missing → EntersStream t u b before p after)

/-- What `t` becomes when a pass ends: a pending re-plan starts a planning, and otherwise an admission run is taken
(R138). -/
def EndsPass (t u : State) (b : BayId) (before : List Pass) (p : Pass) (after : List Pass) : Prop :=
  let ended := t.modBay b fun y => { y with passes := before ++ { p with
    phase := .ended, phaseComplete := false, streamAddr := none, repairMember := none, todo := [], toSend := [] } :: after }
  ((t.bay b).replanPending = true → u = ended.startPlanning b) ∧
  ((t.bay b).replanPending = false → u = ended.admissionRun b)

/-- What `t` becomes when OPEN or REPAIR has finished its work: the pass ends when every member is FAULTED; on a held bay
its phase is complete; and otherwise it goes on (R129, R135, R126). -/
def FinishesPhase (t u : State) (b : BayId) (before : List Pass) (p : Pass) (after : List Pass) (goesOn : Prop) : Prop :=
  let lost := ∀ v ∈ (t.bay b).units, v.addr ∈ p.members → v.isFaulted = true
  (lost → EndsPass t u b before p after) ∧
  (¬lost →
    ((t.bay b).held = true →
      u = t.modBay b fun y => { y with passes := before ++ { p with phaseComplete := true } :: after }) ∧
    ((t.bay b).held = false → goesOn))

/-- What `t` becomes when the repair member is finished or faulted: the next member's turn, which a hold delays, or the
end of REPAIR (R132, R135, R131). -/
def LeavesMember (t u : State) (b : BayId) (before : List Pass) (p : Pass) (after : List Pass) : Prop :=
  let left := { p with repairMember := none, toSend := [] }
  (p.todo ≠ [] →
    ((t.bay b).held = true → u = t.modBay b fun y => { y with passes := before ++ left :: after }) ∧
    ((t.bay b).held = false → OffersGaps t u b before left after)) ∧
  (p.todo = [] → FinishesPhase t u b before left after (EntersCheck t u b before left after))

/-- What `t`, in which a pass on a free line repairs member `a`, becomes: the next listed block is sent, unless it would be
one more than twice the block count, which faults the member; with no block listed GAPS is offered again; and a hold
starts nothing (R132, R134, R131). -/
def GoesOnRepairing (t u : State) (b : BayId) (a : Nat) (before : List Pass) (p : Pass) (after : List Pass) : Prop :=
  (p.toSend = [] →
    ((t.bay b).held = true → u = t) ∧
    ((t.bay b).held = false → Sends (u.bay b) (.gaps a) .pass ∧
      u = t.modBay b fun y => { y with engine := (u.bay b).engine })) ∧
  ∀ (r : Range) (rest : List Range), p.toSend = r :: rest →
    let next := before ++ { p with nextBlock := r.first } :: after
    ((t.bay b).repairSentTo a + 1 ≤ 2 * t.store.blocksOf p.image →
      ((t.bay b).held = true → u = t.modBay b fun y => { y with passes := next }) ∧
      ((t.bay b).held = false → SendsBlock t u b a p.image r.first ∧ u = t.modBay b fun y =>
        { y with passes := next, engine := (u.bay b).engine, reader := (u.bay b).reader })) ∧
    (2 * t.store.blocksOf p.image < (t.bay b).repairSentTo a + 1 →
      LeavesMember (t.faultMember b a .gapsLimit .block (some r.first)) u b before p after)

/-- A pass whose repair member's first GAPS outcome has been counted: a GAPS list counts as an answer and adds its ranges'
blocks, and the last member concerned takes the sample (R123). -/
def gapsCounted (p : Pass) (out : LineOutcome) : Pass :=
  if p.firstGaps = false then p
  else match out with
    | .reply (.gaps ranges _) => { p with
        firstGaps := false, sampleDue := p.sampleDue && !p.todo.isEmpty
        answered := p.answered + 1, missingSum := p.missingSum + (ranges.map (·.count)).sum }
    | _ => { p with firstGaps := false, sampleDue := p.sampleDue && !p.todo.isEmpty }

/-- What `t`, whose hold set has become empty, becomes with a pass in flight: a complete phase is followed by the next one;
a POLL_WAIT that has ended re-sends; a frame or an awaited reply goes on; and otherwise the pass offers the request it
would have offered next (R126, R72, R131). -/
def Resumes (t u : State) (b : BayId) (before : List Pass) (p : Pass) (after : List Pass) : Prop :=
  let y := t.bay b
  (p.phaseComplete = true → LineFree y →
    (p.phase = .opening → FollowsOpen t u b before p after) ∧
    (p.phase = .streaming → EntersRepair t u b before p after) ∧
    (p.phase = .repairing → EntersCheck t u b before p after)) ∧
  (p.phaseComplete = false →
    (y.engine.state = .sending ∨ y.engine.state = .awaiting → u = t) ∧
    (y.engine.state = .pollWait →
      (y.engine.pollEnded = false → u = t) ∧
      (y.engine.pollEnded = true → u = t.modBay b fun z => { z with engine := { z.engine with
        state := .sending, pollEnded := false
        transaction := z.engine.transaction.map fun tr => { tr with speed := z.config.speed } } })) ∧
    (∀ (r : LineRequest) (act : Activity), y.engine.state = .idle → y.engine.offered = some (r, act) →
      Sends (u.bay b) r act ∧ (u.bay b).engine.offered = none ∧
      u = t.modBay b fun z => { z with engine := (u.bay b).engine }) ∧
    (LineFree y →
      (p.phase = .opening → OffersOpen t u b before p after) ∧
      (p.phase = .streaming → ∀ a : Nat, p.streamAddr = some a → p.nextBlock < t.store.blocksOf p.image →
        SendsBlock t u b a p.image p.nextBlock ∧
        u = t.modBay b fun z => { z with engine := (u.bay b).engine, reader := (u.bay b).reader }) ∧
      (p.phase = .repairing →
        (p.repairMember = none → OffersGaps t u b before p after) ∧
        ∀ a : Nat, p.repairMember = some a → GoesOnRepairing t u b a before p after) ∧
      (p.phase = .checking → OffersCheck t u b before p after)))

/-- What `t`, in which the hold set of a bay has become empty, becomes: a pass in flight goes on, and otherwise an admission
run is taken (R169). -/
def HoldEmptied (t u : State) (b : BayId) : Prop :=
  ((∀ q ∈ (t.bay b).passes, q.inFlight = false) → u = t.admissionRun b) ∧
  ∀ (before after : List Pass) (p : Pass), InFlight (t.bay b) before p after → Resumes t u b before p after

/-- What `t` becomes when a port's hold is removed at the bays of a list, one after another (R180 step 4). -/
def DropsHolds (p : PortId) : List BayId → State → State → Prop
  | [], t, u => u = t
  | b :: rest, t, u => ∃ v : State,
    let left := (t.bay b).holds.put p false
    let dropped := t.modBay b fun y => { y with holds := left }
    let empties := left ≠ (t.bay b).holds ∧ left = { sp0 := false, sp1 := false, sp2 := false, rule := false }
    (¬empties → v = dropped) ∧ (empties → HoldEmptied dropped v b) ∧ DropsHolds p rest v u

/-- What `t`, in which the last outcome of a switch has been taken, becomes: the switch is recorded; RULE joins the hold
set when a SWITCHED member carries the hold-after flag; a cutoff that waits, or a deadline condition that holds in STOP
mode, cuts the bay off; and otherwise a pending re-plan starts a planning, or an admission run is taken (R149, R152, R160,
R165). -/
def EndsSwitch (t u : State) (b : BayId) (sw : Switch) : Prop :=
  let carries := ∃ m ∈ sw.members, ∃ v ∈ (t.bay b).units, v.addr = m ∧ v.progress = some .switched ∧ v.holdAfter = true
  let due := (t.bay b).config.mode = .stop ∧ (t.bay b).deadlineCondition t.yardTime = true
  ∃ (e : State) (holds : HoldSet), (carries → holds = { (t.bay b).holds with rule := true }) ∧
    (¬carries → holds = (t.bay b).holds) ∧
    e = (t.recordSwitch b sw).modBay b (fun y => { y with holds := holds, switching := none, state := .transferring }) ∧
    (∀ cause : CutoffCause, (t.bay b).cutoff = none →
      (t.bay b).pendingCutoff = some cause ∨ ((t.bay b).pendingCutoff = none ∧ due ∧ cause = .deadline) →
      CutsOff b cause e u) ∧
    ((t.bay b).pendingCutoff = none → ¬due →
      ((t.bay b).replanPending = true → u = e.startPlanning b) ∧
      ((t.bay b).replanPending = false → u = e.admissionRun b))

/-- The job units as the starting event of a planning leaves them: decided against the active plan, with member kinds and
claims (R99, R108). -/
def plannedUnits (t : State) (b : BayId) : List JobUnit :=
  (decideUnits t.plans.active.toList t.store.find ((t.bay b).units.map JobUnit.replanReset)).map JobUnit.startServing

/-- The RESUME units of a planning, in ascending address order: its GAPS list (R99 step 6). -/
def resumeUnits (t : State) (b : BayId) : List Nat :=
  ((plannedUnits t b).filter fun x => decide (x.decision = some .flash ∧ x.kind = some .resume)).map (·.addr)

/-- What `t`, whose job units a planning has decided, becomes when the planning completes: passes and switch groups are
formed, each deciding rule's counter rises, the bus record is written, and the bay enters TRANSFERRING with an admission
run, or DONE (R107, R28, R105). -/
def PlanningCompletes (b : BayId) (t u : State) (generation : Nat) : Prop :=
  let units := (t.bay b).units
  ∃ (e : State) (counters : Vector Nat 64),
    (∀ i : Fin 64, counters[i] = min 65535 (t.plans.counters[i] +
      (units.filter fun x => decide (x.rule = some i.val)).length)) ∧
    e = (({ t with plans := { t.plans with counters := counters } } : State).modBay b fun y => { y with
      state := if formPasses units = [] then .done else .transferring
      passes := formPasses units, groups := formGroups units, planning := none }).modBound b (fun r => { r with
        evaluated := if generation = 0 then r.evaluated else some generation
        stale := (units.filter fun x => decide (x.decision = some .flash)).length
        slots := r.slots.map fun sl => match units.find? fun x => decide (x.addr = sl.addr) with
          | some x => { sl with censusRule := if x.decision = some .census then x.rule else none }
          | none => sl }) ∧
    u = if formPasses units = [] then e.post .bayDone (.bay b) else e.admissionRun b

/-- What the starting event of a planning, first or repeated, does: every job unit is decided, takes its member kind and
its claim; the first RESUME unit is asked for its gaps; and with no RESUME unit the planning completes (R99, R107). -/
structure PlanningStarts (b : BayId) (t u : State) : Prop where
  only : OnlyBay b t u
  asks : ∀ (d : Nat) (rest : List Nat), resumeUnits t b = d :: rest →
    (u.bay b).state = .planning ∧ (u.bay b).units = plannedUnits t b ∧ (u.bay b).passes = [] ∧ (u.bay b).groups = [] ∧
    (u.bay b).replanPending = false ∧ u.ports = t.ports ∧ u.fleet = t.fleet ∧ u.plans = t.plans ∧
    (u.bay b).planning = some { generation := t.plans.generation, gapsList := rest } ∧
    (LineFree (t.bay b) → Sends (u.bay b) (.gaps d) .planning) ∧
    (¬LineFree (t.bay b) → (u.bay b).engine = { (t.bay b).engine with offered := some (.gaps d, .planning) })
  completes : resumeUnits t b = [] →
    PlanningCompletes b (t.modBay b fun y => { y with units := plannedUnits t b, replanPending := false }) u
      t.plans.generation

/-- The front command is well formed and names an event that arises. -/
def truthful (s : State) : Bool :=
  match s.pending with
  | [] => true
  | c :: _ => c.wellFormed && arises s c

/-- A step ends in a next state. -/
def stepsOn (s : State) : Bool :=
  match step s with
  | .next _ => true
  | .fault _ | .refused _ => false

end Sys2Proof
end

