-- ==== Sys2Proof/Certificates/Slice0/Obligations.lean ====
section
/-! DEFINITION. The statements for the provers. -/

open Sys2Proof Sys2Proof.Machine

/-! ### The machine -/

/-- A step takes the command at the front of the queue and runs it on the state with the queue's rest. With an empty
queue the part idles, which is the model's choice (notes/assumptions/1.md). -/
def Obligations.StepRunsFrontCommand : Prop :=
  ∀ s : State,
    (∀ (c : Instr) (rest : List Instr), s.pending = c :: rest → step s = exec c { s with pending := rest }) ∧
    (s.pending = [] → step s = .next s)

/-- POWER_ON_RESET leaves every block as the tables of R19, R39, R59, R77, R93, R156, R182 and R186 state. Where the
spec leaves room the model reads this as notes/assumptions/29.md says. -/
def Obligations.PowerOnResetLeaves : Prop :=
  ∀ (r0 r1 r2 : Role) (m : MemSize) (s : State), ∃ t : State, exec (.powerOnReset r0 r1 r2 m) s = .next t ∧
    t.pending = s.pending ∧ t.yardTime = 0 ∧ t.fleet = [] ∧
    (t.port 0).role = r0 ∧ (t.port 1).role = r1 ∧ (t.port 2).role = r2 ∧
    (∀ p : PortId, (t.port p).framer = .hunt ∧ (t.port p).inProgress = false ∧ (t.port p).sending = none ∧
      (t.port p).waiting = [] ∧ (t.port p).upload = none ∧ (t.port p).write = none ∧ (t.port p).enable = 0 ∧
      (t.port p).attention = false ∧ ∀ k : Fin 15, (t.port p).events[k] = { count := 0, subject := none }) ∧
    t.store.segmentCount = (match m with
      | .mib64 => 1024
      | .mib128 => 2048
      | .mib256 => 4096) ∧
    t.store.freeCount = t.store.segmentCount ∧ (∀ i : Fin 32, t.store.catalogue[i] = none) ∧
    t.store.pointer = 0 ∧ t.store.verifier.queue = [] ∧ t.store.granted = none ∧ t.store.searchFrom = 0 ∧
    t.plans.generation = 0 ∧
    (∀ i : Fin 64, t.plans.standby[i] = none ∧ t.plans.active[i] = none ∧ t.plans.counters[i] = 0) ∧
    ∀ b : BayId, (t.bay b).state = .empty ∧
      (t.bay b).config =
        { speed := 1, guardTime := 300000, tOpen := 2000, tCheck := 40, tSwitch := 15000, replyTimeout := 50,
          retries := 3, pollInterval := 100, notReadyLimit := 600, filterLength := 5, ignitionCutoff := true,
          mode := .stop } ∧
      (t.bay b).rate = 9600 ∧ (t.bay b).gapRatio = 0 ∧ (t.bay b).units = [] ∧ (t.bay b).passes = [] ∧
      (t.bay b).departure = none ∧ (t.bay b).cutoffTime = none ∧ (t.bay b).cutoff = none ∧
      (t.bay b).warned = false ∧ (t.bay b).holds = { sp0 := false, sp1 := false, sp2 := false, rule := false } ∧
      (t.bay b).presentFilter = { value := false, run := 0, accepted := false } ∧
      (t.bay b).ignitionFilter = { value := false, run := 0, accepted := false } ∧
      (t.bay b).engine.state = .idle ∧ (t.bay b).engine.transaction = none

/-- The invariants hold right after reset. -/
def Obligations.ResetMeetsInvariants : Prop :=
  PartOk State.reset ∧ UploadsOk State.reset ∧ FleetOk State.reset

/-! ### Supervisor ports -/

/-- The intake of a request and the producing of an answer or a refusal touch one link. Responses leave in the order
produced, and a refusal produced while another waits is not sent (R175, R176). That a refusal on the wire no longer
counts as one that waits is the model's choice (notes/assumptions/42.md). -/
def Obligations.AnswersTouchOneLink : Prop :=
  ∀ (s : State) (p : PortId) (st : Status) (body : Body),
    OnlyLink p s (s.intake p) ∧ OnlyLink p s (s.respond p st body) ∧ OnlyLink p s (s.refuse p st body) ∧
    (s.intake p).port p = { s.port p with inProgress := true, framer := .hunt } ∧
    ((s.port p).sending = none →
      (s.respond p st body).port p = { s.port p with sending := some { kind := .answer, status := st, body := body } }) ∧
    ((s.port p).sending ≠ none →
      (s.respond p st body).port p =
        { s.port p with waiting := (s.port p).waiting ++ [{ kind := .answer, status := st, body := body }] }) ∧
    ((∃ r ∈ (s.port p).waiting, r.kind = .refusal) → (s.refuse p st body).port p = s.port p) ∧
    ((∀ r ∈ (s.port p).waiting, r.kind ≠ .refusal) →
      ((s.port p).sending = none → (s.refuse p st body).port p =
        { s.port p with sending := some { kind := .refusal, status := st, body := body } }) ∧
      ((s.port p).sending ≠ none → (s.refuse p st body).port p =
        { s.port p with waiting := (s.port p).waiting ++ [{ kind := .refusal, status := st, body := body }] }))

/-- A port that is held in reset or discarding takes no request; a port with a request in progress answers BUSY with
the code; then come the role check and the argument check, and a request that fails one has no other effect (R175,
R177, R178). The requests that only read change nothing but the link of their port. Where the spec leaves room the
model reads these as notes/assumptions/27.md and notes/assumptions/42.md say. -/
def Obligations.RequestChecks : Prop :=
  (∀ (i : Instr) (s : State) (p : PortId) (code : Byte) (body : List Byte),
    i.request = some (p, code, body) → i.wellFormed = true →
    ((s.port p).hears = false → exec i s = .next s) ∧
    ((s.port p).hears = true → (s.port p).inProgress = true → exec i s = .next (s.refuse p .busy (.code code))) ∧
    ((s.port p).hears = true → (s.port p).inProgress = false → (s.port p).role ∉ i.permitted →
      exec i s = .next (answered s p .role .none)) ∧
    (Accepts s p i.permitted → i.argsFit = false → exec i s = .next (answered s p .badArg .none))) ∧
  ∀ (i : Instr) (s : State) (p : PortId) (code : Byte) (body : List Byte),
    i.request = some (p, code, body) → i.isQuery = true → Accepts s p i.permitted → i.argsFit = true →
    ∃ (st : Status) (r : Body) (t : State), exec i s = .next t ∧ t = answered s p st r ∧ OnlyLink p s t

/-- NOP (R179): OK with an empty body on a port of any role, BAD_ARG with a body, no change beyond the port's own
link; the flag that it sets is cleared at the end of its response, and the response leaves behind those produced
earlier. -/
def Obligations.NopAnswers : Prop :=
  ∀ (s : State) (p : PortId), (s.port p).hears = true → (s.port p).inProgress = false →
    exec (.nop p []) s = .next (answered s p .ok .none) ∧
    (∀ body : List Byte, body ≠ [] → exec (.nop p body) s = .next (answered s p .badArg .none)) ∧
    OnlyLink p s (answered s p .ok .none) ∧ ((answered s p .ok .none).port p).inProgress = true ∧
    (((s.port p).sending = none ∧ (answered s p .ok .none).port p =
        { s.port p with
          inProgress := true, framer := .hunt, sending := some { kind := .answer, status := .ok, body := .none } }) ∨
      ((s.port p).sending ≠ none ∧ (answered s p .ok .none).port p =
        { s.port p with
          inProgress := true, framer := .hunt
          waiting := (s.port p).waiting ++ [{ kind := .answer, status := .ok, body := .none }] })) ∧
    ∀ u : State, (u.port p).sending = some { kind := .answer, status := .ok, body := .none } →
      ∃ v : State, exec (.responseSent p) u = .next v ∧ (v.port p).inProgress = false ∧
        (v.port p).sending = (u.port p).waiting.head? ∧ (v.port p).waiting = (u.port p).waiting.tail

/-- TIME_READ answers with the yard time (R156); EVT_READ answers with the port's enable set and pending entries
(R185). Both leave the state as it is. EVT_ACK reports and empties the given kinds of its port's pending set;
EVT_MASK replaces its enable set. Each sets the line anew: asserted while some kind is enabled and pending (R184,
R185). -/
def Obligations.TimeAndEventsRequests : Prop :=
  (∀ (s : State) (p : PortId), Accepts s p namedRoles →
    exec (.timeRead p []) s = .next (answered s p .ok (.time s.yardTime)) ∧
    ∃ entries : List EventReport,
      exec (.evtRead p []) s = .next (answered s p .ok (.events (s.port p).enable entries)) ∧
      Reports (s.port p).events (fun _ => True) entries) ∧
  ∀ (s : State) (p : PortId) (body : List Byte) (kinds : BitVec 16), Accepts s p namedRoles →
    parseKinds body = some kinds →
    (∃ (entries : List EventReport) (ev : Vector EventEntry 15) (line : Bool),
      exec (.evtAck p body) s = .next (((s.intake p).modPort p fun t => { t with events := ev, attention := line }).respond
        p .ok (.events (s.port p).enable entries)) ∧
      Reports (s.port p).events (fun k => kinds.getLsbD k.val = true) entries ∧
      (∀ k : Fin 15, ev[k] = if kinds.getLsbD k.val then { count := 0, subject := none } else (s.port p).events[k]) ∧
      (line = true ↔ ∃ k : Fin 15, (s.port p).enable.getLsbD k.val = true ∧ 0 < ev[k].count)) ∧
    ∃ line : Bool,
      exec (.evtMask p body) s = .next (((s.intake p).modPort p fun t =>
        { t with enable := kinds, attention := line }).respond p .ok (.enableSet kinds)) ∧
      (line = true ↔ ∃ k : Fin 15, kinds.getLsbD k.val = true ∧ 0 < (s.port p).events[k].count)

/-- A posting adds one occurrence to its entry at each port that is not held in reset, and sets the line (R183,
R184). -/
def Obligations.PostingCounts : Prop :=
  ∀ (s : State) (kind : EventKind) (x : Subject),
    (s.post kind x).bays = s.bays ∧ (s.post kind x).store = s.store ∧ (s.post kind x).plans = s.plans ∧
    (s.post kind x).fleet = s.fleet ∧ (s.post kind x).yardTime = s.yardTime ∧ (s.post kind x).pending = s.pending ∧
    ∀ p : PortId,
      ((s.port p).inReset = true → (s.post kind x).port p = s.port p) ∧
      ((s.port p).inReset = false →
        ∃ (ev : Vector EventEntry 15) (line : Bool),
          (s.post kind x).port p = { s.port p with events := ev, attention := line } ∧
          ev[kind.number].count = min 255 ((s.port p).events[kind.number].count + 1) ∧
          ev[kind.number].subject = some x ∧
          (∀ k : Fin 15, k ≠ kind.number → ev[k] = (s.port p).events[k]) ∧
          (line = true ↔ ∃ k : Fin 15, (s.port p).enable.getLsbD k.val = true ∧ 0 < ev[k].count))

/-- The last stop bit of a response: the next one is sent, and the answer to the request in progress clears the flag
(R175, R176). YARD_RESET is answered OK, and its end is a controller reset (R181). The frames that are not taken
(R173 to R177): a wrong CRC, a length above 1,100 and 20 ms of silence inside a frame are answered FRAME_ERROR; 20 ms
of silence end DISCARD; a frame with a request in progress is answered BUSY with its code; an unknown code is
answered UNKNOWN_REQUEST with the code. That RESPONSE_SENT with nothing being sent changes nothing is the model's
choice. Where the spec leaves room the model reads these as notes/assumptions/5.md, notes/assumptions/18.md and
notes/assumptions/42.md say. -/
def Obligations.ResponsesAndRefusals : Prop :=
  (∀ (s : State) (p : PortId),
    ((s.port p).sending = none → exec (.responseSent p) s = .next s) ∧
    (∀ (st : Status) (r : Body), (s.port p).sending = some { kind := .answer, status := st, body := r } →
      exec (.responseSent p) s = .next (s.modPort p fun t =>
        { t with sending := t.waiting.head?, waiting := t.waiting.tail, inProgress := false })) ∧
    (∀ (st : Status) (r : Body), (s.port p).sending = some { kind := .refusal, status := st, body := r } →
      exec (.responseSent p) s = .next (s.modPort p fun t =>
        { t with sending := t.waiting.head?, waiting := t.waiting.tail })) ∧
    (∀ (st : Status) (r : Body), (s.port p).sending = some { kind := .resetAnswer, status := st, body := r } →
      exec (.responseSent p) s = exec (.controllerReset p) s) ∧
    (Accepts s p [.service] →
      ((s.port p).sending = none → exec (.yardReset p []) s = .next ((s.intake p).modPort p fun t =>
        { t with sending := some { kind := .resetAnswer, status := .ok, body := .none } })) ∧
      ((s.port p).sending ≠ none → exec (.yardReset p []) s = .next ((s.intake p).modPort p fun t =>
        { t with waiting := t.waiting ++ [{ kind := .resetAnswer, status := .ok, body := .none }] })))) ∧
  ∀ (s : State) (p : PortId) (code : Byte) (body : List Byte) (crc length : BitVec 16), (s.port p).hears = true →
    (crc16 (frameInner code body) ≠ crc → exec (.frameCrcError p code body crc) s =
      .next ((s.modPort p fun t => { t with framer := .hunt }).refuse p .frameError .none)) ∧
    (1100 < length.toNat → exec (.frameLengthError p code length) s =
      .next ((s.modPort p fun t => { t with framer := .discard }).refuse p .frameError .none)) ∧
    exec (.frameCharacterTimeout p) s =
      .next ((s.modPort p fun t => { t with framer := .hunt }).refuse p .frameError .none) ∧
    ((s.port p).inProgress = true → exec (.busyFrame p code body) s = .next (s.refuse p .busy (.code code))) ∧
    ((s.port p).inProgress = false → code ∉ requestCodes →
      exec (.unknownRequest p code body) s = .next (answered s p .unknownRequest (.code code))) ∧
    ∀ u : State, (u.port p).framer = .discard →
      exec (.discardQuiet p) u = .next (u.modPort p fun t => { t with framer := .hunt })

/-- PORT_RESET (R180, R182, R186) on a port whose input is not asserted, with no write of the port granted: the
port's framer, responses, flag, upload context, waiting write and event state are cleared, its LOADING image is
deleted, and its hold is gone from every bay, one bay after another in a free order: a hold set that this leaves
empty acts in the same event as under UNHOLD (R180 step 4, R169, HoldEmptied). A YARD_RESET of the port whose OK is
discarded acts after these steps, in the same event (R181). A write that the arbiter has granted completes first, and
the reset then acts as with none granted (R49, R180 step 3). PORT_RESET_RELEASE lets the port work again. Where the
spec leaves room the model reads these as notes/assumptions/7.md, notes/assumptions/14.md, notes/assumptions/16.md,
notes/assumptions/19.md, notes/assumptions/20.md, notes/assumptions/21.md and notes/assumptions/34.md say. -/
def Obligations.PortResetClears : Prop :=
  ∀ (s : State) (p : PortId),
    let clears := fun t : State =>
      t.port p = { s.port p with
        inReset := true, framer := .hunt, inProgress := false, sending := none, waiting := [], upload := none
        write := none, events := Vector.replicate 15 { count := 0, subject := none }, enable := 0
        attention := false } ∧
      (∀ q, q ≠ p → (t.port q).role = (s.port q).role ∧ (t.port q).framer = (s.port q).framer ∧
        (t.port q).inProgress = (s.port q).inProgress ∧ (t.port q).sending = (s.port q).sending ∧
        (t.port q).waiting = (s.port q).waiting ∧ (t.port q).upload = (s.port q).upload ∧
        (t.port q).enable = (s.port q).enable) ∧
      (∀ b : BayId, (t.bay b).holds = (s.bay b).holds.put p false ∧ (t.bay b).config = (s.bay b).config ∧
        (t.bay b).departure = (s.bay b).departure) ∧
      (∀ i : Fin 32, t.store.catalogue[i] = match s.store.catalogue[i], (s.port p).upload with
        | some e, some c => if e.id = c.image then none else some e
        | x, _ => x) ∧
      t.yardTime = s.yardTime ∧ t.plans.active = s.plans.active ∧ t.plans.standby = s.plans.standby ∧
      t.plans.generation = s.plans.generation ∧
      ∃ order : List BayId, order.Nodup ∧ (∀ b : BayId, b ∈ order) ∧
        DropsHolds p order (({ s with
          freeDraws := s.freeDraws + 1
          store := { s.store with catalogue := t.store.catalogue } } : State).setPort p (t.port p)) t
    ((s.port p).inReset = false → (∀ chunk, s.store.granted ≠ some (.portWrite p chunk)) →
      ((s.port p).resetDue = false → ∃ t : State, exec (.portReset p) s = .next t.arbitrate ∧ clears t) ∧
      ((s.port p).resetDue = true → ∃ t : State, exec (.portReset p) s = exec (.controllerReset p) t ∧ clears t)) ∧
    (∀ (chunk : List Byte) (c : Upload) (e : Entry) (m : Memory), s.store.granted = some (.portWrite p chunk) →
      (s.port p).upload = some c → s.store.find c.image = some e → s.store.writeBytes e c.cursor chunk = some m →
      (s.port p).inReset = false →
      exec (.portReset p) s = exec (.portReset p) { s with store := { s.store with granted := none, mem := m } }) ∧
    ((s.port p).inReset = true →
      exec (.portResetRelease p) s = .next (s.modPort p fun t => { t with inReset := false, framer := .hunt }))

/-- CONTROLLER_RESET (R181, R19, R39, R59, R93, R186): yard time, both plans, the generation, the counters and every
port's role, framer and enable set are kept; the jobs of the enabled bays end with the job-end writes to their bound
records and a switch in flight broken off (R88, R151, busLeft), their lines drain, their bindings are released,
LOADING and VERIFYING images are deleted and every upload context is closed. The YARD_RESET's own OK has left its
port; an IMG_DATA whose write waits is answered NO_UPLOAD; and every pending set is cleared, so that it holds only
the GROUP_SPLIT postings of the event itself: one for each bay whose broken-off switch splits its group, in a free
order. A write that the arbiter has granted completes first, and its IMG_DATA is answered OK with the new cursor.
Where the spec leaves room the model reads these as notes/assumptions/7.md and notes/assumptions/18.md say. -/
def Obligations.ControllerResetLeaves : Prop :=
  (∀ (s : State) (p : PortId), s.writer = none → FleetOk s → ∃ t : State, exec (.controllerReset p) s = .next t ∧
    t.yardTime = s.yardTime ∧ t.plans = s.plans ∧
    (∀ b : BayId, (s.bay b).state ≠ .disabled → (t.bay b).state = .empty ∧ t.bound b = none ∧ (t.bay b).units = [] ∧
      (t.bay b).departure = none ∧ (t.bay b).cutoffTime = none ∧ (t.bay b).cutoff = none ∧
      (t.bay b).presentFilter = { value := false, run := 0, accepted := false } ∧
      (t.bay b).ignitionFilter = { value := false, run := 0, accepted := false } ∧
      (BayOk (s.bay b) → Quiet (t.bay b)) ∧ Drains (s.bay b).engine (t.bay b).engine ∧
      (t.bay b).reader = { waiting := none, buffer := none }) ∧
    (∀ b : BayId, (s.bay b).state = .disabled → (t.bay b).state = .disabled) ∧
    (∀ b : BayId, (t.bay b).holds = { sp0 := false, sp1 := false, sp2 := false, rule := false } ∧
      (t.bay b).config = (s.bay b).config ∧ (t.bay b).rate = (s.bay b).rate ∧
      (t.bay b).gapRatio = (s.bay b).gapRatio) ∧
    (∀ i : Fin 32, t.store.catalogue[i] = match s.store.catalogue[i] with
      | some e => if e.state = .loading ∨ e.state = .verifying then none else some e
      | none => none) ∧
    t.store.pointer = 0 ∧ t.store.verifier.queue = [] ∧ t.fleet.length = s.fleet.length ∧
    (∀ (i : Nat) (r : BusRecord), s.fleet[i]? = some r →
      ((∀ b : BayId, r.atBay = some b → (s.bay b).state = .disabled) → t.fleet[i]? = some r) ∧
      ∀ b : BayId, r.atBay = some b → (s.bay b).state ≠ .disabled → t.fleet[i]? = (busLeft s b).fleet[i]?) ∧
    ∃ splits : List (BayId × Nat), (splits.map (·.1)).Nodup ∧
    (∀ (b : BayId) (g : Nat), (b, g) ∈ splits ↔
      (s.bay b).state ∉ [BayState.disabled, .cutoff] ∧ SplitsGroup (s.bay b) g) ∧
    ∀ q : PortId, (t.port q).upload = none ∧ (t.port q).role = (s.port q).role ∧
      (t.port q).framer = (s.port q).framer ∧ (t.port q).inReset = (s.port q).inReset ∧
      (t.port q).enable = (s.port q).enable ∧
      let x := if q = p ∧ (s.port q).sendsReset = true then { s.port q with
          sending := (s.port q).waiting.head?, waiting := (s.port q).waiting.tail, inProgress := false }
        else s.port q
      ∃ (events : Vector EventEntry 15) (line : Bool),
        (x.write = none → t.port q = { x with upload := none, events := events, attention := line }) ∧
        (x.write ≠ none → x.sending = none → t.port q = { x with
          sending := some { kind := .answer, status := .noUpload, body := .none }
          upload := none, write := none, events := events, attention := line }) ∧
        (x.write ≠ none → x.sending ≠ none → t.port q = { x with
          waiting := x.waiting ++ [{ kind := .answer, status := .noUpload, body := .none }]
          upload := none, write := none, events := events, attention := line }) ∧
        (∀ k : Fin 15, k ≠ EventKind.groupSplit.number → events[k] = { count := 0, subject := none }) ∧
        ((s.port q).inReset = true →
          events[EventKind.groupSplit.number] = { count := 0, subject := none }) ∧
        ((s.port q).inReset = false → events[EventKind.groupSplit.number] =
          { count := splits.length, subject := splits.getLast?.map fun x => .bayGroup x.1 x.2 }) ∧
        (line = true ↔ ∃ k : Fin 15, (s.port q).enable.getLsbD k.val = true ∧ 0 < events[k].count)) ∧
  ∀ (s : State) (p q : PortId) (chunk : List Byte) (c : Upload) (e : Entry) (m : Memory),
    s.store.granted = some (.portWrite q chunk) → (s.port q).upload = some c → s.store.find c.image = some e →
    s.store.writeBytes e c.cursor chunk = some m →
    exec (.controllerReset p) s = exec (.controllerReset p) ((({ s with
      store := { s.store with granted := none, mem := m } } : State).modPort q fun t =>
        { t with upload := some { c with cursor := c.cursor + chunk.length } }).respond q .ok
          (.cursor (c.cursor + chunk.length)))

/-! ### The image store -/

/-- IMG_BEGIN (R43, R46): UPLOAD_OPEN, DUP_ID, NO_ENTRY and NO_SPACE in this order; otherwise the lowest empty
position takes the LOADING entry, its segments are the first free ones found scanning upward from the pointer with
wrapping, the pointer moves one past the last of them, and the port's context opens at cursor 0. -/
def Obligations.ImgBeginReserves : Prop :=
  ∀ (s : State) (p : PortId) (body : List Byte) (a : BeginArgs), Accepts s p [.image] → parseBegin body = some a →
    StoreOk s.store →
    ((s.port p).upload ≠ none → exec (.imgBegin p body) s = .next (answered s p .uploadOpen .none)) ∧
    ((s.port p).upload = none →
      (s.store.find a.id ≠ none → exec (.imgBegin p body) s = .next (answered s p .dupId .none)) ∧
      (s.store.find a.id = none → (∀ i : Fin 32, s.store.catalogue[i] ≠ none) →
        exec (.imgBegin p body) s = .next (answered s p .noEntry .none)) ∧
      (s.store.find a.id = none → (∃ i : Fin 32, s.store.catalogue[i] = none) →
        s.store.freeCount < (a.length + 65535) / 65536 →
        exec (.imgBegin p body) s = .next (answered s p .noSpace .none)) ∧
      (s.store.find a.id = none → ∀ pos : Fin 32, s.store.catalogue[pos] = none →
        (∀ i : Fin 32, i < pos → s.store.catalogue[i] ≠ none) → (a.length + 65535) / 65536 ≤ s.store.freeCount →
        ∃ (segs : List Nat) (next : Nat),
          segs = (((List.range s.store.segmentCount).map fun i => (s.store.pointer + i) % s.store.segmentCount).filter
            fun seg => !s.store.owned.contains seg).take ((a.length + 65535) / 65536) ∧
          segs.length = (a.length + 65535) / 65536 ∧
          (∀ last, segs.getLast? = some last → next = (last + 1) % s.store.segmentCount) ∧
          exec (.imgBegin p body) s = .next ((({ s.intake p with store := { s.store with
              catalogue := s.store.catalogue.set pos.val (some
                { id := a.id, version := a.version, cls := a.cls, length := a.length, crc := a.crc, state := .loading,
                  pinned := a.pinned, segments := segs, uploadPort := some p }) pos.isLt
              pointer := next } } : State).modPort p fun t =>
            { t with upload := some { image := a.id, cursor := 0 } }).respond p .ok
              (.reserved pos.val (s.store.freeCount - (a.length + 65535) / 65536)))))

/-- IMG_DATA (R47): NO_UPLOAD with no context, OVERRUN with the cursor when the chunk would pass the image length;
otherwise the chunk waits at the arbiter, and the request is not answered yet. IMG_FINISH (R48): NO_UPLOAD, SHORT
with the cursor, or the entry becomes VERIFYING, joins the verification queue and the context closes. IMG_ABANDON
(R49): NO_UPLOAD, or the entry is deleted, its segments are free and the context closes. -/
def Obligations.UploadRequests : Prop :=
  (∀ (s : State) (p : PortId) (chunk : List Byte), Accepts s p [.image] → 1 ≤ chunk.length → chunk.length ≤ 1024 →
    ((s.port p).upload = none → exec (.imgData p chunk) s = .next (answered s p .noUpload .none).arbitrate) ∧
    (∀ (c : Upload) (e : Entry), (s.port p).upload = some c → s.store.find c.image = some e →
      (e.length < c.cursor + chunk.length →
        exec (.imgData p chunk) s = .next (answered s p .overrun (.cursor c.cursor)).arbitrate) ∧
      (c.cursor + chunk.length ≤ e.length →
        exec (.imgData p chunk) s = .next ((s.intake p).modPort p fun t => { t with write := some chunk }).arbitrate))) ∧
  ∀ (s : State) (p : PortId), Accepts s p [.image] →
    ((s.port p).upload = none →
      exec (.imgFinish p []) s = .next (answered s p .noUpload .none).arbitrate ∧
      exec (.imgAbandon p []) s = .next (answered s p .noUpload .none)) ∧
    ∀ (c : Upload) (e : Entry), (s.port p).upload = some c → s.store.find c.image = some e →
      (c.cursor < e.length →
        exec (.imgFinish p []) s = .next (answered s p .short (.cursor c.cursor)).arbitrate) ∧
      (e.length ≤ c.cursor → ∃ cat : Vector (Option Entry) 32,
        exec (.imgFinish p []) s = .next ((({ s.intake p with store := { s.store with
            catalogue := cat
            verifier := { s.store.verifier with queue := s.store.verifier.queue ++ [c.image] } } } : State).modPort p
          fun t => { t with upload := none }).respond p .accepted .none).arbitrate ∧
        ∀ i : Fin 32, cat[i] = match s.store.catalogue[i] with
          | some x => if x.id = c.image then some { x with state := .verifying, uploadPort := none } else some x
          | none => none) ∧
      ∃ cat : Vector (Option Entry) 32,
        exec (.imgAbandon p []) s = .next ((({ s.intake p with store := { s.store with catalogue := cat } } :
          State).modPort p fun t => { t with upload := none }).respond p .ok .none) ∧
        (∀ i : Fin 32, cat[i] = match s.store.catalogue[i] with
          | some x => if x.id = c.image then none else some x
          | none => none) ∧
        (StoreOk s.store →
          ({ s.store with catalogue := cat } : ImageStore).freeCount = s.store.freeCount + e.segments.length)

/-- UPLOAD_WRITE_DONE (R42, R47): the chunk's bytes stand in image memory where the image's segments put the offsets
from the cursor on, every other byte reads as before, the cursor advances and the IMG_DATA is answered OK with it. -/
def Obligations.UploadWriteAdvances : Prop :=
  ∀ (s : State) (p : PortId) (chunk : List Byte) (c : Upload) (e : Entry), StoreOk s.store →
    Memory.wf s.store.mem = true → s.store.granted = some (.portWrite p chunk) → (s.port p).upload = some c → s.store.find c.image = some e →
    c.cursor + chunk.length ≤ e.length →
    ∃ m : Memory,
      exec (.uploadWriteDone p) s = .next ((({ s with store := { s.store with granted := none, mem := m } } :
        State).modPort p fun t => { t with upload := some { c with cursor := c.cursor + chunk.length } }).respond p .ok
          (.cursor (c.cursor + chunk.length))).arbitrate ∧
      (∀ (i : Nat) (v : Byte), chunk[i]? = some v → ∃ seg, e.segments[(c.cursor + i) / 65536]? = some seg ∧
        e.address s.store.segmentCount (c.cursor + i) = some (seg * 65536 + (c.cursor + i) % 65536) ∧
        Memory.read m (seg * 65536 + (c.cursor + i) % 65536) = v) ∧
      (∀ x : Nat, (∀ i < chunk.length, e.address s.store.segmentCount (c.cursor + i) ≠ some x) →
        Memory.read m x = Memory.read s.store.mem x) ∧
      Memory.wf m = true

/-- IMG_RETIRE (R54): NOT_FOUND, IN_USE, IN_PLAN and PINNED in this order; otherwise the entry is deleted. IMG_PURGE
(R55) deletes exactly the entries that an IMG_RETIRE taken now would delete, and answers their number. -/
def Obligations.ImgRetireAndPurge : Prop :=
  (∀ (s : State) (p : PortId) (body : List Byte) (id : Nat), Accepts s p [.image, .service] →
    parseImageId body = some id →
    (s.store.find id = none → exec (.imgRetire p body) s = .next (answered s p .notFound .none)) ∧
    ∀ e : Entry, s.store.find id = some e →
      ((e.state = .loading ∨ e.state = .verifying ∨ 0 < s.useCount id) →
        exec (.imgRetire p body) s = .next (answered s p .inUse .none)) ∧
      ((e.state = .ready ∨ e.state = .broken) → s.useCount id = 0 →
        ((∃ (i : Fin 64) (r : Rule), s.plans.active[i] = some r ∧ r.action ≠ .census ∧ r.image = some id) →
          exec (.imgRetire p body) s = .next (answered s p .inPlan .none)) ∧
        ((∀ (i : Fin 64) (r : Rule), s.plans.active[i] = some r → r.image = some id → r.action = .census) →
          (e.pinned = true → exec (.imgRetire p body) s = .next (answered s p .pinned .none)) ∧
          (e.pinned = false → ∃ cat : Vector (Option Entry) 32,
            exec (.imgRetire p body) s = .next
              (({ s.intake p with store := { s.store with catalogue := cat } } : State).respond p .ok .none) ∧
            ∀ i : Fin 32, cat[i] = match s.store.catalogue[i] with
              | some x => if x.id = id then none else some x
              | none => none)))) ∧
  ∀ (s : State) (p : PortId), Accepts s p [.image, .service] →
    ∃ (cat : Vector (Option Entry) 32) (n : Nat),
      exec (.imgPurge p []) s = .next
        (({ s.intake p with store := { s.store with catalogue := cat } } : State).respond p .ok (.removed n)) ∧
      n + ({ s.store with catalogue := cat } : ImageStore).entries.length = s.store.entries.length ∧
      ∀ i : Fin 32,
        (s.store.catalogue[i] = none → cat[i] = none) ∧
        ∀ e : Entry, s.store.catalogue[i] = some e →
          ((cat[i] = none ∧ (e.state = .ready ∨ e.state = .broken) ∧ s.useCount e.id = 0 ∧ e.pinned = false ∧
            ∀ (k : Fin 64) (r : Rule), s.plans.active[k] = some r → r.image = some e.id → r.action = .census) ∨
          (cat[i] = some e ∧ (e.state = .loading ∨ e.state = .verifying ∨ 0 < s.useCount e.id ∨ e.pinned = true ∨
            ∃ (k : Fin 64) (r : Rule), s.plans.active[k] = some r ∧ r.image = some e.id ∧ r.action ≠ .census)))

/-- IMG_PIN (R56) sets or clears one entry's flag; IMG_QUERY (R57) reports an entry, its block count, its use count
and, while LOADING, the cursor of its upload, by id and by position alike. -/
def Obligations.ImgPinAndQuery : Prop :=
  ∀ (s : State) (p : PortId) (body : List Byte),
    (∀ (id : Nat) (flag : Bool), Accepts s p [.image, .service] → parsePin body = some (id, flag) →
      (s.store.find id = none → exec (.imgPin p body) s = .next (answered s p .notFound .none)) ∧
      (s.store.find id ≠ none → ∃ cat : Vector (Option Entry) 32,
        exec (.imgPin p body) s = .next
          (({ s.intake p with store := { s.store with catalogue := cat } } : State).respond p .ok (.pin flag)) ∧
        ∀ i : Fin 32, cat[i] = match s.store.catalogue[i] with
          | some x => if x.id = id then some { x with pinned := flag } else some x
          | none => none)) ∧
    (Accepts s p namedRoles → StoreOk s.store →
      (∀ pos : Fin 32, s.store.catalogue[pos] = none → parseImageQuery body = some (.byPosition pos) →
        exec (.imgQuery p body) s = .next (answered s p .ok (.emptyPosition s.store.freeCount))) ∧
      (∀ id : Nat, s.store.find id = none → parseImageQuery body = some (.byId id) →
        exec (.imgQuery p body) s = .next (answered s p .notFound (.free s.store.freeCount))) ∧
      ∀ (pos : Fin 32) (e : Entry), s.store.catalogue[pos] = some e →
        (parseImageQuery body = some (.byPosition pos) ∨ parseImageQuery body = some (.byId e.id)) →
        ∃ cursor : Option Nat,
          exec (.imgQuery p body) s = .next (answered s p .ok (.image
            { position := pos.val, entry := e, blocks := (e.length + 255) / 256, useCount := s.useCount e.id,
              cursor := cursor } s.store.freeCount)) ∧
          (e.state ≠ .loading → cursor = none) ∧
          (e.state = .loading → ∀ (q : PortId) (c : Upload), (s.port q).upload = some c → c.image = e.id →
            (∀ (r : PortId) (d : Upload), (s.port r).upload = some d → d.image = e.id → r = q) →
            cursor = some c.cursor))

/-- VERIFY_READ_DONE (R50 to R52): up to 1,024 bytes of the head image are folded into the CRC-32; after the last of
them the entry is READY when the digest is its crc and BROKEN otherwise, with its event, and the engine starts on the
next image. A read granted before a reset stays granted and is discarded at its completion, which the spec says only
of a bay's block (notes/assumptions/17.md). -/
def Obligations.VerifyReadCompletes : Prop :=
  ∀ (s : State),
    (s.store.granted = some (.verifyRead false) →
      exec .verifyReadDone s = .next ({ s with store := { s.store with granted := none } } : State).arbitrate) ∧
    ∀ (id : Nat) (rest : List Nat) (e : Entry), s.store.granted = some (.verifyRead true) → StoreOk s.store →
      s.store.verifier.queue = id :: rest → s.store.find id = some e → s.store.verifier.offset ≤ e.length →
      ∃ bytes : List Byte, bytes.length = min 1024 (e.length - s.store.verifier.offset) ∧
        (∀ (i : Nat) (v : Byte), bytes[i]? = some v → ∃ x,
          e.address s.store.segmentCount (s.store.verifier.offset + i) = some x ∧ Memory.read s.store.mem x = v) ∧
        (s.store.verifier.offset + bytes.length < e.length →
          exec .verifyReadDone s = .next ({ s with store := { s.store with
            granted := none
            verifier := { queue := id :: rest, offset := s.store.verifier.offset + bytes.length,
                          crc := crc32Fold s.store.verifier.crc bytes } } } : State).arbitrate) ∧
        (s.store.verifier.offset + bytes.length = e.length →
          ∃ (cat : Vector (Option Entry) 32) (result : ImageState) (kind : EventKind),
            exec .verifyReadDone s = .next (({ s with store := { s.store with
                granted := none, catalogue := cat
                verifier := { queue := rest, offset := 0, crc := 0xFFFFFFFF#32 } } } : State).post kind
              (.image id)).arbitrate ∧
            (crc32Fold s.store.verifier.crc bytes ^^^ 0xFFFFFFFF#32 = e.crc → result = .ready ∧ kind = .imageReady) ∧
            (crc32Fold s.store.verifier.crc bytes ^^^ 0xFFFFFFFF#32 ≠ e.crc → result = .broken ∧ kind = .imageBroken) ∧
            ∀ i : Fin 32, cat[i] = match s.store.catalogue[i] with
              | some x => if x.id = id then some { x with state := result } else some x
              | none => none)

/-- The arbiter (R58): the places of the ring are bays 0 to 7, ports 0 to 2 and the verification engine; with image
memory free, the first waiting access found from the place after the one last granted is granted and no longer waits;
with an access under way nothing is granted. -/
def Obligations.ArbiterGrantsNext : Prop :=
  ∀ s : State,
    (∀ b : BayId, s.accessAt b.val = (s.bay b).reader.waiting.map fun r => .bayRead b r.image r.block true) ∧
    (∀ p : PortId, s.accessAt (8 + p.val) = (s.port p).write.map fun chunk => .portWrite p chunk) ∧
    (s.accessAt 11 = if s.store.verifier.queue = [] then none else some (.verifyRead true)) ∧
    (s.store.granted ≠ none → s.arbitrate = s) ∧
    ((∀ i < 12, s.accessAt i = none) → s.arbitrate = s) ∧
    (s.store.granted = none → ∀ (i : Nat) (g : Grant), i < 12 →
      s.accessAt ((s.store.searchFrom + i) % 12) = some g →
      (∀ j < i, s.accessAt ((s.store.searchFrom + j) % 12) = none) →
      s.arbitrate.store = { s.store with granted := some g, searchFrom := ((s.store.searchFrom + i) % 12 + 1) % 12 } ∧
      (∀ b : BayId, s.arbitrate.bay b = if b.val = (s.store.searchFrom + i) % 12 then
        { s.bay b with reader := { (s.bay b).reader with waiting := none } } else s.bay b) ∧
      (∀ p : PortId, s.arbitrate.port p = if 8 + p.val = (s.store.searchFrom + i) % 12 then
        { s.port p with write := none } else s.port p) ∧
      s.arbitrate.plans = s.plans ∧ s.arbitrate.fleet = s.fleet ∧ s.arbitrate.yardTime = s.yardTime)

/-! ### Release plans and deciding -/

/-- PLAN_CLEAR (R31): all 64 standby slots become empty and OK is answered, also for a plan already empty; the active
plan and the generation stay as they are. -/
def Obligations.PlanClearEmpties : Prop :=
  ∀ (s : State) (p : PortId), Accepts s p [.image] →
    ∃ (sb : Vector (Option Rule) 64) (t : State),
      t = ({ s.intake p with plans := { s.plans with standby := sb } } : State).respond p .ok .none ∧
      exec (.planClear p []) s = .next t ∧ (∀ i : Fin 64, t.plans.standby[i] = none) ∧
      t.plans.active = s.plans.active ∧ t.plans.generation = s.plans.generation

/-- PLAN_PUT_RULE (R30) writes one standby slot, which PLAN_QUERY (R38) then reports with the generation; the counter
is reported for the active plan alone, and as 0 for an empty slot. -/
def Obligations.PlanPutAndQuery : Prop :=
  ∀ (s : State) (p : PortId) (body : List Byte),
    (∀ (n : Fin 64) (r : Option Rule), Accepts s p [.image] → parsePutRule body = some (n, r) →
      ∃ sb : Vector (Option Rule) 64,
        exec (.planPutRule p body) s = .next
          (({ s.intake p with plans := { s.plans with standby := sb } } : State).respond p .ok .none) ∧
        ∀ i : Fin 64, sb[i] = if i = n then r else s.plans.standby[i]) ∧
    ∀ n : Fin 64, Accepts s p namedRoles →
      (parsePlanQuery body = some (false, n) → exec (.planQuery p body) s = .next (answered s p .ok
        (.rule s.plans.generation s.plans.standby[n] none))) ∧
      (parsePlanQuery body = some (true, n) → exec (.planQuery p body) s = .next (answered s p .ok
        (.rule s.plans.generation s.plans.active[n]
          (some (if s.plans.active[n] = none then 0 else s.plans.counters[n])))))

/-- PLAN_ACTIVATE (R32, R33): NO_SPACE at the last generation; IMAGE_STATE, then CLASS_MISMATCH, with the lowest slot
that fails; otherwise the standby plan becomes the active plan, the counters return to 0, the generation rises by 1,
PLAN_ACTIVATED is posted and every bay is sent a notice. -/
def Obligations.PlanActivateChecks : Prop :=
  ∀ (s : State) (p : PortId), Accepts s p [.image] →
    let imageOk := fun (i : Fin 64) (test : Entry → Rule → Prop) => ∀ r : Rule, s.plans.standby[i] = some r →
      r.action ≠ .census → ∃ (id : Nat) (e : Entry), r.image = some id ∧ s.store.find id = some e ∧ test e r
    let ready := fun i => imageOk i fun e _ => e.state = .ready
    let sameClass := fun i => imageOk i fun e r => e.cls = r.cls
    (4294967295 ≤ s.plans.generation → exec (.planActivate p []) s = .next (answered s p .noSpace .none)) ∧
    (s.plans.generation < 4294967295 →
      (∀ i : Fin 64, ¬ready i → (∀ j : Fin 64, j < i → ready j) →
        exec (.planActivate p []) s = .next (answered s p .imageState (.slot i.val))) ∧
      ((∀ i : Fin 64, ready i) →
        (∀ i : Fin 64, ¬sameClass i → (∀ j : Fin 64, j < i → sameClass j) →
          exec (.planActivate p []) s = .next (answered s p .classMismatch (.slot i.val))) ∧
        ((∀ i : Fin 64, sameClass i) → ∃ bays : Vector Bay 8,
          exec (.planActivate p []) s = .next (({ ({ s.intake p with plans :=
              { standby := s.plans.standby, active := s.plans.standby, counters := Vector.replicate 64 0,
                generation := s.plans.generation + 1 } } : State).post .planActivated
            (.generation (s.plans.generation + 1)) with bays := bays } : State).respond p .ok
              (.generation (s.plans.generation + 1))) ∧
          ∀ b : BayId, bays[b] = { s.bay b with notices := (s.bay b).notices + 1 })))

/-- Matching (R22): class, revision under the care mask, serial condition; OUTSIDE is the complement of INSIDE over
the same bounds; nothing else of a rule takes part; and the lowest-numbered matching rule decides (R23). -/
def Obligations.RuleMatches : Prop :=
  ∀ (r : Rule) (i : Identity),
    (r.matchesUnit i = true ↔ i.cls = r.cls ∧
      (∀ k : Nat, r.careMask.getLsbD k = true → i.revision.getLsbD k = r.revision.getLsbD k) ∧
      match r.serialKind with
      | .any => True
      | .equal => i.serial = r.low
      | .inside => r.low ≤ i.serial ∧ i.serial ≤ r.high
      | .outside => i.serial < r.low ∨ i.serial > r.high) ∧
    (∀ (a b : Rule) (serial : Nat), a.serialKind = .inside → b.serialKind = .outside → a.low = b.low →
      a.high = b.high → (a.serialOk serial = !b.serialOk serial)) ∧
    (∀ (action : RuleAction) (image : Option Nat) (downgrade : Bool) (group : Nat) (prereq : Option Prereq),
      ({ r with action := action, image := image, allowDowngrade := downgrade, group := group, prereq := prereq } :
        Rule).matchesUnit i = r.matchesUnit i) ∧
    ∀ (plan : List (Option Rule)) (n : Nat),
      firstMatch i 0 plan = some (n, r) ↔ plan[n]? = some (some r) ∧ r.matchesUnit i = true ∧
        ∀ (m : Nat) (q : Rule), m < n → plan[m]? = some (some q) → q.matchesUnit i = false

/-- A unit's first decision and what it records (R23 to R25), by its first matching rule; with the decision FLASH
progress PENDING, the member kind by its known standby, and a claim, and with any other none of these (R99, R101,
R53). The image test (R24), first row whose condition holds, with versions in the order of R2: majors, then minors,
then builds. Prerequisites (R26, R27) over at most 16 units: the sweeps only turn FLASH units whose rule has a
prerequisite into PREREQ_WAIT, every unit left FLASH passes its prerequisite, and no larger choice of FLASH units
does. -/
def Obligations.DecisionsOfAPlan : Prop :=
  (∀ (plan : List (Option Rule)) (find : Nat → Option Entry) (x : JobUnit),
    (firstMatch x.identity 0 plan = none → decideUnit plan find x = { x with
      decision := some .noRule, rule := none, group := 0, planned := none, holdAfter := false }) ∧
    ∀ (n : Nat) (r : Rule), firstMatch x.identity 0 plan = some (n, r) →
      (r.action = .census → decideUnit plan find x = { x with
        decision := some .census, rule := some n, group := 0, planned := none, holdAfter := false }) ∧
      ∀ (id : Nat) (e : Entry), r.action ≠ .census → r.image = some id → find id = some e →
        let d := imageDecision r e x.knownActive x.identity.capacity
        decideUnit plan find x = { x with
          decision := some d, rule := some n, group := r.group
          planned := if d = .flash then some { image := e.id, version := e.version } else none
          holdAfter := decide (d = .flash ∧ r.action = .flashHold) }) ∧
  (∀ x : JobUnit,
    (∀ pl : Planned, x.decision = some .flash → x.planned = some pl →
      let same := x.knownStandby.image = pl.image ∧ x.knownStandby.version = pl.version
      ∃ kind : MemberKind,
        x.startServing = { x with
          progress := some .pending, kind := some kind, missing := none, claim := some pl.image } ∧
        (same → x.knownStandby.state = .complete ∨ x.knownStandby.state = .verified → kind = .checkOnly) ∧
        (same → x.knownStandby.state = .partlyReceived → kind = .resume) ∧
        (¬same ∨ x.knownStandby.state = .blank → kind = .fresh)) ∧
    (x.decision ≠ some .flash →
      x.startServing = { x with progress := none, kind := none, missing := none, claim := none })) ∧
  (∀ (r : Rule) (e : Entry) (active : Version) (capacity : Nat),
    let lower := fun a b : Version => a.major < b.major ∨ (a.major = b.major ∧ (a.minor < b.minor ∨
      (a.minor = b.minor ∧ a.build < b.build)))
    let decision := imageDecision r e active capacity
    (e.version = active → decision = .current) ∧
    (e.version ≠ active → lower e.version active → r.allowDowngrade = false → decision = .downgradeBlocked) ∧
    (e.version ≠ active → (¬lower e.version active ∨ r.allowDowngrade = true) →
      (capacity < (e.length + 65535) / 65536 → decision = .bankTooSmall) ∧
      ((e.length + 65535) / 65536 ≤ capacity → decision = .flash)) ∧
    ∀ a b c : Version, ¬lower a a ∧ (lower a b → lower b c → lower a c) ∧ (lower a b ∨ a = b ∨ lower b a) ∧
      (a.le b = true ↔ lower a b ∨ a = b)) ∧
  ∀ (plan : List (Option Rule)) (find : Nat → Option Entry) (units : List JobUnit), units.length ≤ 16 →
    let first := units.map (decideUnit plan find)
    let reduces := fun (x y : JobUnit) =>
      y = x ∨ (x.decision = some .flash ∧ (prereqOfUnit plan x).isSome = true ∧
        y = { x with decision := some .prereqWait, planned := none, holdAfter := false })
    let passes := fun (l : List JobUnit) => ∀ u ∈ l, u.decision = some .flash → ∀ q : Prereq,
      prereqOfUnit plan u = some q → (∃ v ∈ l, v.identity.cls = q.cls) ∧
        ∀ v ∈ l, v.identity.cls = q.cls → q.minimum.le v.knownActive = true ∨
          (v.decision = some .flash ∧ v.group = u.group ∧ 1 ≤ u.group ∧
            ∃ pl : Planned, v.planned = some pl ∧ q.minimum.le pl.version = true)
    List.Forall₂ reduces first (decideUnits plan find units) ∧ passes (decideUnits plan find units) ∧
    ∀ l : List JobUnit, List.Forall₂ reduces first l → passes l →
      List.Forall₂ (fun x y => x.decision = some .flash → y.decision = some .flash) l (decideUnits plan find units)

/-! ### The fleet table -/

/-- FLEET_QUERY reports the record (R16), FIT_QUERY its fitness by the table of R18, FLEET_FORGET deletes an unbound
record alone (R17). A bay's offer of a fleet number (R9, R10) to a sound table: refused while another bay holds it;
otherwise the record, new or kept, is bound and any other record of the bay is released; a full table first evicts
the unbound record visited longest ago, the lowest fleet number among equals, and posts it. -/
def Obligations.FleetRequestsAndBinding : Prop :=
  (∀ (s : State) (p : PortId) (body : List Byte) (n : Nat), FleetOk s → parseFleet body = some n →
    ((∀ r ∈ s.fleet, r.fleet ≠ n) →
      (Accepts s p namedRoles →
        exec (.fleetQuery p body) s = .next (answered s p .notFound .none) ∧
        exec (.fitQuery p body) s = .next (answered s p .ok (.fitness .unknown none 0))) ∧
      (Accepts s p [.service] → exec (.fleetForget p body) s = .next (answered s p .notFound .none))) ∧
    ∀ r ∈ s.fleet, r.fleet = n →
      (Accepts s p namedRoles →
        exec (.fleetQuery p body) s = .next (answered s p .ok (.bus r)) ∧
        ∃ f : Fitness, exec (.fitQuery p body) s = .next (answered s p .ok (.fitness f r.atBay r.stale)) ∧
          (r.splits ≠ [] → f = .split) ∧
          (r.splits = [] → r.evaluated ≠ some s.plans.generation → f = .unknown) ∧
          (r.splits = [] → r.evaluated = some s.plans.generation → 0 < r.stale → f = .stale) ∧
          (r.splits = [] → r.evaluated = some s.plans.generation → r.stale = 0 → f = .current)) ∧
      (Accepts s p [.service] →
        (r.atBay ≠ none → exec (.fleetForget p body) s = .next (answered s p .atBay .none)) ∧
        (r.atBay = none → exec (.fleetForget p body) s = .next
          (({ s.intake p with fleet := s.fleet.filter fun q => decide (q.fleet ≠ n) } : State).respond p .ok .none)))) ∧
  ∀ (s : State) (b : BayId) (n : Nat), FleetOk s →
    let released := fun q : BusRecord => if q.atBay = some b then { q with atBay := none } else q
    let fresh : BusRecord := { fleet := n, atBay := some b, lastVisit := s.yardTime, evaluated := none, stale := 0,
                               slots := [], splits := [] }
    (∀ r ∈ s.fleet, r.fleet = n → r.atBay ≠ none → r.atBay ≠ some b → s.offerFleet b n = (.refused, s)) ∧
    (∀ r ∈ s.fleet, r.fleet = n → r.atBay = none ∨ r.atBay = some b →
      s.offerFleet b n = (.bound, { s with fleet := s.fleet.map fun q =>
        if q.fleet = n then { q with atBay := some b, lastVisit := s.yardTime } else released q })) ∧
    ((∀ r ∈ s.fleet, r.fleet ≠ n) →
      (s.fleet.length < 256 → ∃ l : List BusRecord, s.offerFleet b n = (.bound, { s with fleet := l }) ∧
        List.Perm l (fresh :: s.fleet.map released)) ∧
      (s.fleet.length = 256 → ∃ (l : List BusRecord) (v : BusRecord),
        v ∈ s.fleet.map released ∧ v.atBay = none ∧
        (∀ w ∈ s.fleet.map released, w.atBay = none →
          v.lastVisit < w.lastVisit ∨ (v.lastVisit = w.lastVisit ∧ v.fleet ≤ w.fleet)) ∧
        s.offerFleet b n = (.bound, { s.post .busEvicted (.bus v.fleet) with fleet := l }) ∧
        List.Perm (v :: l) (fresh :: s.fleet.map released))) ∧
    FleetOk (s.offerFleet b n).2

/-! ### Requests to a bay -/

/-- BAY_STATUS (R91) reports the bay's own values, the bound fleet number, the line-busy indication and the number of
job units in each progress value, the DEFERRED and FAULTED values together whatever their reason, which together
number all job units. JOB_QUERY (R92) reports a job unit record. -/
def Obligations.BayReports : Prop :=
  ∀ (s : State) (p : PortId) (body : List Byte), Accepts s p namedRoles →
    let shown := fun (b : BayId) (v : Progress) => ((s.bay b).units.filter fun u => decide (u.progress = some v)).length
    (∀ b : BayId, parseBay body = some b → ∃ r : BayReport,
      exec (.bayStatus p body) s = .next (answered s p .ok (.bay r)) ∧
      r.state = (s.bay b).state ∧ r.cutoffFlag = (s.bay b).cutoff.isSome ∧ r.cutoffCause = (s.bay b).cutoff ∧
      r.holds = (s.bay b).holds ∧ r.departure = (s.bay b).departure ∧ r.cutoffTime = (s.bay b).cutoffTime ∧
      r.rate = (s.bay b).rate ∧ r.gapRatio = (s.bay b).gapRatio ∧ r.present = (s.bay b).presentFilter.value ∧
      r.ignition = (s.bay b).ignitionFilter.value ∧ r.config = (s.bay b).config ∧
      r.switchGroup = (s.bay b).switching.map (·.group) ∧
      (r.lineBusy = true ↔ (s.bay b).engine.state = .sending ∨ (s.bay b).engine.state = .awaiting) ∧
      (FleetOk s → ∀ record ∈ s.fleet, record.atBay = some b → r.boundFleet = some record.fleet) ∧
      ((∀ record ∈ s.fleet, record.atBay ≠ some b) → r.boundFleet = none) ∧
      (∀ pass : PassReport, r.pass = some pass → ∃ q ∈ (s.bay b).passes, q.inFlight = true ∧
        pass = { image := q.image, phase := q.phase, nextBlock := q.nextBlock, streamed := q.streamed,
                 activeTime := q.activeTime, members := q.members }) ∧
      (r.pass = none ↔ ∀ q ∈ (s.bay b).passes, q.inFlight = false) ∧
      r.counts.pending = shown b .pending ∧ r.counts.opening = shown b .opening ∧
      r.counts.receiving = shown b .receiving ∧ r.counts.repairing = shown b .repairing ∧
      r.counts.checking = shown b .checking ∧ r.counts.verified = shown b .verified ∧
      r.counts.switching = shown b .switching ∧ r.counts.confirming = shown b .confirming ∧
      r.counts.switched = shown b .switched ∧ r.counts.cut = shown b .cut ∧
      r.counts.deferred = shown b .deferredNoTime + shown b .deferredFault ∧
      r.counts.faulted = ((s.bay b).units.filter fun u => match u.progress with
        | some (.faulted _) => true
        | _ => false).length ∧
      r.counts.unset = ((s.bay b).units.filter fun u => decide (u.progress = none)).length ∧
      r.counts.pending + r.counts.opening + r.counts.receiving + r.counts.repairing + r.counts.checking +
        r.counts.verified + r.counts.switching + r.counts.confirming + r.counts.switched + r.counts.deferred +
        r.counts.faulted + r.counts.cut + r.counts.unset = (s.bay b).units.length) ∧
    ∀ (b : BayId) (a : Nat), parseJobQuery body = some (b, a) →
      ((∀ u ∈ (s.bay b).units, u.addr ≠ a) → exec (.jobQuery p body) s = .next (answered s p .notFound .none)) ∧
      (((s.bay b).units.map (·.addr)).Nodup → ∀ u ∈ (s.bay b).units, u.addr = a →
        exec (.jobQuery p body) s = .next (answered s p .ok (.unit u)))

/-- The stop reason (R171) is the highest-ranked condition that holds when BAY_STATUS is taken. -/
def Obligations.StopReasonRanks : Prop :=
  ∀ (s : State) (p : PortId) (body : List Byte) (b : BayId), Accepts s p namedRoles → parseBay body = some b →
    ∃ r : BayReport, exec (.bayStatus p body) s = .next (answered s p .ok (.bay r)) ∧
      ((s.bay b).state = .disabled → r.stopReason = .disabled) ∧
      ((s.bay b).state ≠ .disabled → ∀ c : CutoffCause, (s.bay b).cutoff = some c → r.stopReason = .cutoff c) ∧
      ((s.bay b).state ≠ .disabled → (s.bay b).cutoff = none →
        ((s.bay b).holds ≠ { sp0 := false, sp1 := false, sp2 := false, rule := false } → r.stopReason = .hold) ∧
        ((s.bay b).holds = { sp0 := false, sp1 := false, sp2 := false, rule := false } →
          (((s.bay b).state = .done ∧ ∃ u ∈ (s.bay b).units, u.progress = some .deferredNoTime) →
            r.stopReason = .noTime) ∧
          (¬((s.bay b).state = .done ∧ ∃ u ∈ (s.bay b).units, u.progress = some .deferredNoTime) →
            r.stopReason = .unstopped)))

/-- BAY_CONFIG (R79, R80): DISABLED, then BAY_ACTIVE; otherwise the clamped record is stored and answered, a new line
speed sets R to its nominal rate, the cutoff time is recomputed, a new filter length restarts both runs; and the
deadline compare takes the new values (R160, R161). Where the spec leaves room the model reads this as
notes/assumptions/9.md says. -/
def Obligations.BayConfigStores : Prop :=
  ∀ (s : State) (p : PortId) (body : List Byte) (b : BayId) (c : BayConfig), Accepts s p [.service] →
    parseConfig body = some (b, c) → BayOk (s.bay b) → DepartureOk (s.bay b) →
    c.inRange = true ∧
    ((s.bay b).state = .disabled → exec (.bayConfig p body) s = .next (answered s p .disabled .none)) ∧
    ((s.bay b).state ∈ [BayState.enumerating, .planning, .transferring, .switching] →
      exec (.bayConfig p body) s = .next (answered s p .bayActive .none)) ∧
    ((s.bay b).state ∈ [BayState.empty, .anonymous, .duplicate, .done, .cutoff] → ∃ (u : State) (y : Bay),
      exec (.bayConfig p body) s = .next (u.respond p .ok (.config c)).arbitrate ∧ OnlyBay b (s.intake p) u ∧
      y = { s.bay b with
        config := c
        rate := if c.speed = (s.bay b).config.speed then (s.bay b).rate else lineSpeed c.speed / 12
        cutoffTime := (s.bay b).departure.map fun d => d - c.guardTime
        presentFilter := { (s.bay b).presentFilter with
          run := if c.filterLength = (s.bay b).config.filterLength then (s.bay b).presentFilter.run else 0 }
        ignitionFilter := { (s.bay b).ignitionFilter with
          run := if c.filterLength = (s.bay b).config.filterLength then (s.bay b).ignitionFilter.run else 0 } } ∧
      (y.deadlineCondition s.yardTime = false → u = (s.intake p).setBay b y) ∧
      (y.deadlineCondition s.yardTime = true →
        (c.mode = .stop → (s.bay b).state ∈ [BayState.empty, .cutoff] → u = (s.intake p).setBay b y) ∧
        (c.mode = .stop → (s.bay b).state ∈ [BayState.anonymous, .duplicate, .done] →
          CutsOff b .deadline ((s.intake p).setBay b y) u) ∧
        (c.mode = .warn → (s.bay b).state ≠ .empty → (s.bay b).warned = false →
          u = ((s.intake p).setBay b { y with warned := true }).post .deadlineWarn (.bay b)) ∧
        (c.mode = .warn → ((s.bay b).state = .empty ∨ (s.bay b).warned = true) → u = (s.intake p).setBay b y)))

/-- BAY_ENABLE off (R81) takes the bay out of service: its line drains, a switch in flight is broken off with its
split entry and GROUP_SPLIT, the bound record takes the job-end writes, the binding is released and the filters stop
(R75, R88, R151, busLeft); the port holds, the configuration, R and L are kept. BAY_ENABLE on (R82) makes a disabled
bay EMPTY with its filters restarted. Each changes nothing on a bay already so set. BAY_RESET (R90) ends the job in
the same way and returns the bay to its starting condition with R nominal and L 0; a disabled bay loses its hold set
and stays DISABLED. Where the spec leaves room the model reads this as notes/assumptions/27.md says. -/
def Obligations.BayEnableAndReset : Prop :=
  (∀ (s : State) (p : PortId) (body : List Byte) (b : BayId), Accepts s p [.service] →
    (parseBayWith 0 body = some b →
      ((s.bay b).state = .disabled → exec (.bayEnableOff p body) s = .next (answered s p .ok .none).arbitrate) ∧
      ((s.bay b).state ≠ .disabled → ∃ u : State,
        exec (.bayEnableOff p body) s = .next (u.respond p .ok .none).arbitrate ∧ OnlyBay b (s.intake p) u ∧
        (u.bay b).state = .disabled ∧ (u.bay b).units = [] ∧ u.bound b = none ∧
        (u.bay b).departure = none ∧ (u.bay b).cutoffTime = none ∧ (u.bay b).cutoff = none ∧ (u.bay b).warned = false ∧
        (u.bay b).presentFilter = { value := false, run := 0, accepted := false } ∧
        (u.bay b).ignitionFilter = { value := false, run := 0, accepted := false } ∧
        (u.bay b).holds = { (s.bay b).holds with rule := false } ∧ (u.bay b).config = (s.bay b).config ∧
        (u.bay b).rate = (s.bay b).rate ∧ (u.bay b).gapRatio = (s.bay b).gapRatio ∧
        (BayOk (s.bay b) → Quiet (u.bay b)) ∧ LineStops b s u ∧
        u.fleet = (busLeft s b).fleet ∧ ∀ q : PortId, u.port q = (busLeft (s.intake p) b).port q)) ∧
    (parseBayWith 1 body = some b →
      ((s.bay b).state ≠ .disabled → exec (.bayEnableOn p body) s = .next (answered s p .ok .none)) ∧
      ((s.bay b).state = .disabled → exec (.bayEnableOn p body) s = .next (((s.intake p).modBay b fun y =>
        { y with state := .empty, presentFilter := { value := false, run := 0, accepted := false }
                 ignitionFilter := { value := false, run := 0, accepted := false } }).respond p .ok .none)))) ∧
  ∀ (s : State) (p : PortId) (body : List Byte) (b : BayId), Accepts s p [.service] → parseBay body = some b →
    ((s.bay b).state = .disabled → exec (.bayReset p body) s = .next (((s.intake p).modBay b fun y =>
      { y with holds := { sp0 := false, sp1 := false, sp2 := false, rule := false }
               rate := lineSpeed y.config.speed / 12, gapRatio := 0 }).respond p .ok .none).arbitrate) ∧
    ((s.bay b).state ≠ .disabled → ∃ u : State,
      exec (.bayReset p body) s = .next (u.respond p .ok .none).arbitrate ∧ OnlyBay b (s.intake p) u ∧
      (u.bay b).state = .empty ∧ (u.bay b).units = [] ∧ u.bound b = none ∧ (u.bay b).departure = none ∧
      (u.bay b).cutoffTime = none ∧ (u.bay b).cutoff = none ∧ (u.bay b).warned = false ∧
      (u.bay b).holds = { sp0 := false, sp1 := false, sp2 := false, rule := false } ∧
      (u.bay b).presentFilter = { value := false, run := 0, accepted := false } ∧
      (u.bay b).ignitionFilter = { value := false, run := 0, accepted := false } ∧
      (u.bay b).config = (s.bay b).config ∧ (u.bay b).rate = lineSpeed (s.bay b).config.speed / 12 ∧
      (u.bay b).gapRatio = 0 ∧ (BayOk (s.bay b) → Quiet (u.bay b)) ∧ LineStops b s u ∧
      u.fleet = (busLeft s b).fleet ∧ ∀ q : PortId, u.port q = (busLeft (s.intake p) b).port q)

/-- DEPART_SET (R157): DISABLED, NO_BUS; otherwise D and C = D less the guard are stored and answered, a new D clears
the warned indication, and the deadline compare and an admission run are taken. With C not reached the admission run
acts on the state with D and C stored. With C reached in STOP mode the bay is cut off and BAY_CUTOFF posted, or in
SWITCHING the cutoff becomes pending; in WARN mode DEADLINE_WARN is posted once and the admission run acts on the
state after it. DEPART_CLEAR (R158): DISABLED, NO_BUS; with no D it changes nothing; otherwise D, C and the warned
indication go and an admission run acts on that state. Outside TRANSFERRING and DONE an admission run changes nothing
(R119). Where the spec leaves room the model reads this as notes/assumptions/9.md says. -/
def Obligations.Departures : Prop :=
  (∀ (s : State) (p : PortId) (body : List Byte) (b : BayId) (d : Time), Accepts s p [.dispatch, .service] →
    parseDepartSet body = some (b, d) → BayOk (s.bay b) →
    ((s.bay b).state = .disabled → exec (.departSet p body) s = .next (answered s p .disabled .none)) ∧
    ((s.bay b).state = .empty → exec (.departSet p body) s = .next (answered s p .noBus .none)) ∧
    ((s.bay b).state ≠ .disabled → (s.bay b).state ≠ .empty → ∃ (u : State) (c : Time) (stored : State),
      c = d - (s.bay b).config.guardTime ∧
      stored = (s.intake p).modBay b (fun y =>
        { y with departure := some d, cutoffTime := some c
                 warned := if y.departure = some d then y.warned else false }) ∧
      exec (.departSet p body) s = .next (u.respond p .ok (.departure d c)).arbitrate ∧ OnlyBay b (s.intake p) u ∧
      (u.bay b).departure = some d ∧ (u.bay b).cutoffTime = some c ∧ (u.bay b).config = (s.bay b).config ∧
      (u.bay b).holds = (s.bay b).holds ∧
      ((s.bay b).state ∉ [BayState.transferring, .done] →
        stored.admissionRun b = stored ∧ (s.yardTime < c → u = stored)) ∧
      (s.yardTime < c → u = stored.admissionRun b ∧
        (u.bay b).warned = (if (s.bay b).departure = some d then (s.bay b).warned else false) ∧
        (u.bay b).cutoff = (s.bay b).cutoff) ∧
      (c ≤ s.yardTime → (s.bay b).config.mode = .stop →
        ((s.bay b).state ∉ [BayState.switching, .cutoff] →
          CutsOff b .deadline stored u) ∧
        ((s.bay b).state = .switching → (u.bay b).state = .switching ∧ (u.bay b).cutoff = none ∧
          (u.bay b).pendingCutoff = some (match (s.bay b).pendingCutoff with
            | some cause => cause
            | none => .deadline)) ∧
        ((s.bay b).state = .cutoff → u = stored ∧ (u.bay b).cutoff = (s.bay b).cutoff)) ∧
      (c ≤ s.yardTime → (s.bay b).config.mode = .warn →
        (u.bay b).warned = true ∧ (u.bay b).cutoff = (s.bay b).cutoff ∧
        ((stored.bay b).warned = true → u = stored.admissionRun b) ∧
        ((stored.bay b).warned = false → u =
          ((stored.modBay b fun y => { y with warned := true }).post .deadlineWarn (.bay b)).admissionRun b)))) ∧
  ∀ (s : State) (p : PortId) (body : List Byte) (b : BayId), Accepts s p [.dispatch, .service] →
    parseBay body = some b →
    ((s.bay b).state = .disabled → exec (.departClear p body) s = .next (answered s p .disabled .none)) ∧
    ((s.bay b).state = .empty → exec (.departClear p body) s = .next (answered s p .noBus .none)) ∧
    ((s.bay b).state ≠ .disabled → (s.bay b).state ≠ .empty →
      ((s.bay b).departure = none → exec (.departClear p body) s = .next (answered s p .ok .none)) ∧
      ((s.bay b).departure ≠ none → ∃ u cleared : State,
        cleared = (s.intake p).modBay b (fun y => { y with departure := none, cutoffTime := none, warned := false }) ∧
        exec (.departClear p body) s = .next (u.respond p .ok .none).arbitrate ∧ OnlyBay b (s.intake p) u ∧
        u = cleared.admissionRun b ∧
        (u.bay b).departure = none ∧ (u.bay b).cutoffTime = none ∧ (u.bay b).warned = false ∧
        (u.bay b).config = (s.bay b).config ∧ (u.bay b).holds = (s.bay b).holds ∧
        (u.bay b).cutoff = (s.bay b).cutoff ∧
        ((s.bay b).state ∉ [BayState.transferring, .done] → u = cleared)))

/-- DEPART_NOW (R162) outside SWITCHING cuts the bay off: the line drains, every unfinished FLASH unit becomes CUT,
every claim is released, the work is dropped, the bound record takes the job-end writes and BAY_CUTOFF is posted
(R75, R88, R164, CutsOff). In SWITCHING the cutoff becomes pending, the first cause kept (R165); in CUTOFF nothing
changes. -/
def Obligations.DepartNowCuts : Prop :=
  ∀ (s : State) (p : PortId) (body : List Byte) (b : BayId), Accepts s p [.dispatch, .service] →
    parseBay body = some b → BayOk (s.bay b) →
    ((s.bay b).state = .disabled → exec (.departNow p body) s = .next (answered s p .disabled .none)) ∧
    ((s.bay b).state = .empty → exec (.departNow p body) s = .next (answered s p .noBus .none)) ∧
    ((s.bay b).state = .cutoff → exec (.departNow p body) s = .next (answered s p .ok .none).arbitrate) ∧
    ((s.bay b).state = .switching → exec (.departNow p body) s = .next (((s.intake p).modBay b fun y =>
      { y with pendingCutoff := some (match y.pendingCutoff with
          | some cause => cause
          | none => .departNow) }).respond p .ok .none).arbitrate) ∧
    ((s.bay b).state ∈ [BayState.enumerating, .planning, .anonymous, .duplicate, .transferring, .done] →
      ∃ u : State, exec (.departNow p body) s = .next (u.respond p .ok .none).arbitrate ∧
        CutsOff b .departNow (s.intake p) u)

/-- HOLD (R168) adds the requesting port, and a set that this makes non-empty in POLL_WAIT pauses the pass there at
once (R131); UNHOLD (R169) removes OWN or RULE. A member absent already changes nothing; a set left empty acts in the
same event: a paused pass goes on with the request it would have offered next, a POLL_WAIT that has ended re-sends, a
complete phase is followed by the next one (R126, R131, R72); with no pass in flight an admission run acts on the
state with the emptied set, which outside TRANSFERRING and DONE changes nothing (R119). Where the spec leaves room
the model reads these as notes/assumptions/14.md, notes/assumptions/16.md, notes/assumptions/19.md,
notes/assumptions/20.md, notes/assumptions/21.md, notes/assumptions/27.md, notes/assumptions/34.md and
notes/assumptions/36.md say. -/
def Obligations.HoldAndUnhold : Prop :=
  ∀ (s : State) (p : PortId) (body : List Byte) (b : BayId),
    (Accepts s p namedRoles → parseBay body = some b →
      ((s.bay b).state = .disabled → exec (.hold p body) s = .next (answered s p .disabled .none)) ∧
      ((s.bay b).state ≠ .disabled →
        ((s.bay b).held = true → exec (.hold p body) s = .next (((s.intake p).modBay b fun y =>
          { y with holds := y.holds.put p true }).respond p .ok .none)) ∧
        ((s.bay b).held = false → exec (.hold p body) s = .next (((s.intake p).modBay b fun y =>
          { y with
            holds := y.holds.put p true
            engine := { y.engine with pollHeld := decide (y.engine.state = .pollWait) } }).respond p .ok .none)))) ∧
    (∀ (rest : HoldSet) (i : Instr), rest ≠ (s.bay b).holds →
      ((i = .unholdOwn p body ∧ Accepts s p namedRoles ∧ parseBayWith 0 body = some b ∧
          rest = (s.bay b).holds.put p false) ∨
        (i = .unholdRule p body ∧ Accepts s p [.service] ∧ parseBayWith 1 body = some b ∧
          rest = { (s.bay b).holds with rule := false })) →
      (rest ≠ { sp0 := false, sp1 := false, sp2 := false, rule := false } → exec i s = .next
        (((s.intake p).modBay b fun y => { y with holds := rest }).respond p .ok .none).arbitrate) ∧
      (rest = { sp0 := false, sp1 := false, sp2 := false, rule := false } → ∃ u emptied : State,
        emptied = (s.intake p).modBay b (fun y => { y with holds := rest }) ∧
        exec i s = .next (u.respond p .ok .none).arbitrate ∧ OnlyBay b (s.intake p) u ∧ (u.bay b).holds = rest ∧
        (u.bay b).config = (s.bay b).config ∧ (u.bay b).departure = (s.bay b).departure ∧
        (u.bay b).cutoff = (s.bay b).cutoff ∧ HoldEmptied emptied u b ∧
        ((∀ q ∈ (s.bay b).passes, q.inFlight = false) → (s.bay b).state ∉ [BayState.transferring, .done] →
          u = emptied))) ∧
    (Accepts s p namedRoles → parseBayWith 0 body = some b → (s.bay b).holds = (s.bay b).holds.put p false →
      exec (.unholdOwn p body) s = .next (answered s p .ok .none).arbitrate) ∧
    (Accepts s p [.service] → parseBayWith 1 body = some b → (s.bay b).holds.rule = false →
      exec (.unholdRule p body) s = .next (answered s p .ok .none).arbitrate)

/-- CUTOFF_CLEAR (R167): DISABLED; OK with a clear flag; NOT_STOPPED; IGNITION_ON; otherwise the flag goes, the
binding is released with nothing else written to the record, and a fresh sweep starts: the engine sends IDENTIFY to
address 1, and no BAY_ATTACHED is posted. When the deadline condition still holds in STOP mode, the bay is cut off
again with no frame started and BAY_CUTOFF is posted (R160). Where the spec leaves room the model reads this as
notes/assumptions/9.md says. -/
def Obligations.CutoffClearRestarts : Prop :=
  ∀ (s : State) (p : PortId) (body : List Byte) (b : BayId), Accepts s p [.dispatch, .service] →
    parseBay body = some b → BayOk (s.bay b) →
    ((s.bay b).state = .disabled → exec (.cutoffClear p body) s = .next (answered s p .disabled .none)) ∧
    ((s.bay b).state ≠ .disabled → (s.bay b).state ≠ .cutoff →
      exec (.cutoffClear p body) s = .next (answered s p .ok .none)) ∧
    ((s.bay b).state = .cutoff →
      ((s.bay b).lineBusy = true → exec (.cutoffClear p body) s = .next (answered s p .notStopped .none)) ∧
      ((s.bay b).lineBusy = false →
        ((s.bay b).cutoff = some .ignition ∧ (s.bay b).ignitionFilter.value = true ∧
          (s.bay b).config.ignitionCutoff = true →
          exec (.cutoffClear p body) s = .next (answered s p .ignitionOn .none)) ∧
        (¬((s.bay b).cutoff = some .ignition ∧ (s.bay b).ignitionFilter.value = true ∧
          (s.bay b).config.ignitionCutoff = true) → (s.bay b).presentFilter.value = true → ∃ u : State,
          exec (.cutoffClear p body) s = .next (u.respond p .ok .none).arbitrate ∧ OnlyBay b (s.intake p) u ∧
          u.bound b = none ∧ (u.bay b).units = [] ∧ (u.bay b).departure = (s.bay b).departure ∧
          (u.bay b).cutoffTime = (s.bay b).cutoffTime ∧ (u.bay b).holds = (s.bay b).holds ∧
          (u.bay b).rate = (s.bay b).rate ∧ (u.bay b).config = (s.bay b).config ∧
          ((s.bay b).config.mode = .warn ∨ (s.bay b).deadlineCondition s.yardTime = false →
            (u.bay b).state = .enumerating ∧ (u.bay b).cutoff = none ∧ (u.bay b).sweepAt = some 1 ∧
            (u.bay b).passes = [] ∧ (u.bay b).switching = none ∧
            u.fleet = s.fleet.map (fun r => if r.atBay = some b then { r with atBay := none } else r) ∧
            ((s.bay b).engine.state = .idle → (u.bay b).engine.state = .sending ∧ (u.bay b).engine.offered = none ∧
              ∃ tr : Transaction, (u.bay b).engine.transaction = some tr ∧ tr.request = .identify 1 ∧
                tr.activity = .sweep ∧ tr.retries = 0 ∧ tr.polls = 0 ∧ tr.drained = false ∧
                tr.speed = (s.bay b).config.speed) ∧
            ((s.bay b).engine.state ≠ .idle →
              (u.bay b).engine = { (s.bay b).engine with offered := some (.identify 1, .sweep) }) ∧
            ((s.bay b).deadlineCondition s.yardTime = false ∨ (s.bay b).warned = true →
              u.ports = (s.intake p).ports ∧ (u.bay b).warned = (s.bay b).warned) ∧
            ((s.bay b).deadlineCondition s.yardTime = true → (s.bay b).warned = false →
              (∀ q : PortId, u.port q = ((s.intake p).post .deadlineWarn (.bay b)).port q) ∧
              (u.bay b).warned = true)) ∧
          ((s.bay b).config.mode = .stop ∧ (s.bay b).deadlineCondition s.yardTime = true →
            ((s.bay b).engine.state = .idle → (u.bay b).engine = (s.bay b).engine) ∧
            CutsOff b .deadline (((s.intake p).modBound b fun r => { r with atBay := none }).modBay b fun y => { y with
              state := .enumerating, cutoff := none, units := [], passes := [], groups := [], switching := none
              sweepAt := some 1, planning := none, replanPending := false }) u))))

/-! ### The clock and the bays' sense lines -/

/-- YARD_TIME_TICK (R84, R122, R131, R156): yard time rises by 1, both filters of a bay in service take a sample, and
the active stream time of a pass in STREAM that is not paused rises by 1. The model's choices: yard time stays at its
last value (notes/assumptions/6.md), an accepted change stands until the bay takes it (notes/assumptions/8.md). Where
the spec leaves room the model reads this as notes/assumptions/36.md says. -/
def Obligations.TickAdvances : Prop :=
  ∀ (s : State) (present ignition : BitVec 8), ∃ t : State, exec (.yardTimeTick present ignition) s = .next t ∧
    t.pending = s.pending ∧ t.ports = s.ports ∧ t.store = s.store ∧ t.plans = s.plans ∧ t.fleet = s.fleet ∧
    (s.yardTime < 18446744073709551615 → t.yardTime = s.yardTime + 1) ∧
    (18446744073709551615 ≤ s.yardTime → t.yardTime = s.yardTime) ∧
    ∀ b : BayId,
      let sampled := fun (f : Filter) (pin : Bool) => if f.accepted = true then f
        else if pin = f.value then { f with run := 0 }
        else if f.run + 1 < (s.bay b).config.filterLength then { f with run := f.run + 1 }
        else { f with run := 0, accepted := true }
      let paused := (s.bay b).held = true ∧ (∃ q ∈ (s.bay b).passes, q.inFlight = true) ∧
        ((s.bay b).engine.state = .idle ∨ ((s.bay b).engine.state = .pollWait ∧ (s.bay b).engine.pollHeld = true))
      ((s.bay b).state = .disabled → (t.bay b).presentFilter = (s.bay b).presentFilter ∧
        (t.bay b).ignitionFilter = (s.bay b).ignitionFilter) ∧
      ((s.bay b).state ≠ .disabled →
        (t.bay b).presentFilter = sampled (s.bay b).presentFilter (present.getLsbD b.val) ∧
        (t.bay b).ignitionFilter = sampled (s.bay b).ignitionFilter (ignition.getLsbD b.val)) ∧
      (paused → (t.bay b).passes = (s.bay b).passes) ∧
      (¬paused → (t.bay b).passes = (s.bay b).passes.map fun q =>
        if q.phase = .streaming then { q with activeTime := q.activeTime + 1 } else q) ∧
      (t.bay b).state = (s.bay b).state ∧ (t.bay b).config = (s.bay b).config ∧ (t.bay b).units = (s.bay b).units ∧
      (t.bay b).holds = (s.bay b).holds ∧ (t.bay b).departure = (s.bay b).departure ∧
      (t.bay b).cutoffTime = (s.bay b).cutoffTime ∧ (t.bay b).cutoff = (s.bay b).cutoff ∧
      (t.bay b).engine.state = (s.bay b).engine.state

/-- PRESENT_RISE (R85): an EMPTY bay posts BAY_ATTACHED and starts its sweep with IDENTIFY to address 1, which waits
while the engine drains; with ignition on and ignition cutoff enabled it is cut off instead. DETACH (R89): the bay
leaves its bus with its line drained, a switch in flight broken off and the job-end writes made (R75, R88, R151,
busLeft), posts BAY_DETACHED and is EMPTY; port holds, configuration, R and L stay. That PRESENT_RISE changes nothing
at a bay that is not EMPTY, and DETACH nothing in DISABLED or EMPTY, is the model's choice. Where the spec leaves
room the model reads these as notes/assumptions/5.md and notes/assumptions/8.md say. -/
def Obligations.AttachAndDetach : Prop :=
  ∀ (s : State) (b : BayId),
    ((s.bay b).state ≠ .empty → exec (.presentRise b) s = .next s) ∧
    ((s.bay b).state = .empty → (s.bay b).cutoff = none → ∃ u : State,
      exec (.presentRise b) s = .next u.arbitrate ∧ OnlyBay b s u ∧
      (u.bay b).presentFilter = { value := true, run := 0, accepted := false } ∧
      (u.bay b).departure = (s.bay b).departure ∧ (u.bay b).holds = (s.bay b).holds ∧
      ((s.bay b).ignitionFilter.value = true ∧ (s.bay b).config.ignitionCutoff = true →
        CutsOff b .ignition ((s.modBay b fun y =>
          { y with presentFilter := { value := true, run := 0, accepted := false } }).post .bayAttached (.bay b)) u) ∧
      (¬((s.bay b).ignitionFilter.value = true ∧ (s.bay b).config.ignitionCutoff = true) →
        (u.bay b).state = .enumerating ∧ (u.bay b).units = [] ∧ (u.bay b).passes = [] ∧
        (u.bay b).sweepAt = some 1 ∧ (∀ p : PortId, u.port p = (s.post .bayAttached (.bay b)).port p) ∧
        (((s.bay b).engine.state = .idle ∧ (s.bay b).engine.offered = none) →
          (u.bay b).engine.state = .sending ∧ ∃ tr : Transaction, (u.bay b).engine.transaction = some tr ∧
            tr.request = .identify 1 ∧ tr.activity = .sweep ∧ tr.retries = 0 ∧ tr.polls = 0 ∧
            tr.speed = (s.bay b).config.speed) ∧
        ((s.bay b).engine.state ≠ .idle →
          (u.bay b).engine = { (s.bay b).engine with offered := some (.identify 1, .sweep) }))) ∧
    (((s.bay b).state = .disabled ∨ (s.bay b).state = .empty) → exec (.detach b) s = .next s) ∧
    ((s.bay b).state ≠ .disabled → (s.bay b).state ≠ .empty → ∃ u : State,
      exec (.detach b) s = .next u.arbitrate ∧ OnlyBay b s u ∧ (u.bay b).state = .empty ∧ (u.bay b).units = [] ∧
      u.bound b = none ∧ (u.bay b).departure = none ∧ (u.bay b).cutoffTime = none ∧ (u.bay b).cutoff = none ∧
      (u.bay b).warned = false ∧ (u.bay b).presentFilter = { value := false, run := 0, accepted := false } ∧
      (u.bay b).holds = { (s.bay b).holds with rule := false } ∧ (u.bay b).config = (s.bay b).config ∧
      (u.bay b).rate = (s.bay b).rate ∧ (u.bay b).gapRatio = (s.bay b).gapRatio ∧
      (BayOk (s.bay b) → Quiet (u.bay b)) ∧ LineStops b s u ∧ u.fleet = (busLeft s b).fleet ∧
      ∀ p : PortId, u.port p = ((busLeft s b).post .bayDetached (.bay b)).port p)

/-- IGNITION_RISE and IGNITION_FALL (R87): the filtered value changes; with PRESENT present IGNITION_CHANGE is
posted, and a rise with ignition cutoff enabled cuts the bay off in every state, dropping a pending cutoff; a switch
in flight is broken off, and the bound record and the ports take its split entry, GROUP_SPLIT and the job-end writes
before BAY_CUTOFF (R151, R88, R164, CutsOff); a cutoff keeps its first cause, and a fall clears none. That a rise
with the filtered value already on, and a fall with it already off, change nothing is the model's choice. Where the
spec leaves room the model reads these as notes/assumptions/4.md, notes/assumptions/5.md and notes/assumptions/8.md
say. -/
def Obligations.IgnitionChanges : Prop :=
  ∀ (s : State) (b : BayId), (s.bay b).state ≠ .disabled →
    let turned := fun v : Bool => s.modBay b fun y =>
      { y with ignitionFilter := { value := v, run := 0, accepted := false } }
    ((s.bay b).ignitionFilter.value = true → exec (.ignitionRise b) s = .next s) ∧
    ((s.bay b).ignitionFilter.value = false → exec (.ignitionFall b) s = .next s) ∧
    ((s.bay b).ignitionFilter.value = true →
      ((s.bay b).presentFilter.value = false → exec (.ignitionFall b) s = .next (turned false).arbitrate) ∧
      ((s.bay b).presentFilter.value = true →
        exec (.ignitionFall b) s = .next ((turned false).post .ignitionChange (.bay b)).arbitrate)) ∧
    ((s.bay b).ignitionFilter.value = false →
      ((s.bay b).presentFilter.value = false → exec (.ignitionRise b) s = .next (turned true).arbitrate) ∧
      ((s.bay b).presentFilter.value = true →
        ((s.bay b).config.ignitionCutoff = false ∨ (s.bay b).cutoff ≠ none →
          exec (.ignitionRise b) s = .next ((turned true).post .ignitionChange (.bay b)).arbitrate) ∧
        ((s.bay b).config.ignitionCutoff = true → (s.bay b).cutoff = none → ∃ u : State,
          exec (.ignitionRise b) s = .next u.arbitrate ∧ OnlyBay b s u ∧
          CutsOff b .ignition ((turned true).post .ignitionChange (.bay b)) u)))

/-- DEADLINE_REACHED (R159 to R161, R165): with the condition false nothing happens. In STOP mode the bay is cut off
with cause DEADLINE and the job-end writes of R88 (CutsOff), in SWITCHING the cutoff becomes pending with the first
cause kept, and DISABLED, EMPTY and CUTOFF are left alone; in WARN mode DEADLINE_WARN is posted once and nothing is
cut off. Where the spec leaves room the model reads this as notes/assumptions/9.md says. -/
def Obligations.DeadlineReachedActs : Prop :=
  ∀ (s : State) (b : BayId), BayOk (s.bay b) →
    let due := ∃ d c : Time, (s.bay b).departure = some d ∧ (s.bay b).cutoffTime = some c ∧ c ≤ s.yardTime
    (¬due → exec (.deadlineReached b) s = .next s.arbitrate) ∧
    (due → (s.bay b).config.mode = .stop →
      ((s.bay b).state ∈ [BayState.disabled, .empty, .cutoff] → exec (.deadlineReached b) s = .next s.arbitrate) ∧
      ((s.bay b).state = .switching → exec (.deadlineReached b) s = .next (s.modBay b fun y =>
        { y with pendingCutoff := some (match y.pendingCutoff with
            | some cause => cause
            | none => .deadline) }).arbitrate) ∧
      ((s.bay b).state ∈ [BayState.enumerating, .planning, .anonymous, .duplicate, .transferring, .done] →
        ∃ u : State, exec (.deadlineReached b) s = .next u.arbitrate ∧ CutsOff b .deadline s u)) ∧
    (due → (s.bay b).config.mode = .warn →
      (((s.bay b).warned = true ∨ (s.bay b).state = .disabled ∨ (s.bay b).state = .empty) →
        exec (.deadlineReached b) s = .next s.arbitrate) ∧
      ((s.bay b).warned = false → (s.bay b).state ≠ .disabled → (s.bay b).state ≠ .empty →
        exec (.deadlineReached b) s =
          .next ((s.modBay b fun y => { y with warned := true }).post .deadlineWarn (.bay b)).arbitrate))

/-- ACTIVATION_NOTICE (R34 to R37): with a pass in flight or a switch, a re-plan becomes pending once and the waiting
passes are dropped with their units PENDING and unclaimed, and the next refetch pass stands right after the current
one (R137 step 4); DONE, TRANSFERRING with nothing in flight and PLANNING plan anew against the active plan
(PlanningStarts); in PLANNING the planning under way is abandoned and its GAPS drains, so that the first GAPS of the
new planning waits while its frame or its reply is out (R75, R76, R110); the other states take the notice with no
effect. That the command changes nothing with no notice waiting is the model's choice. Where the spec leaves room the
model reads these as notes/assumptions/5.md and notes/assumptions/26.md say. -/
def Obligations.ActivationNoticeTaken : Prop :=
  ∀ (s : State) (b : BayId),
    ((s.bay b).notices = 0 → exec (.activationNotice b) s = .next s) ∧
    (0 < (s.bay b).notices →
      let taken := s.modBay b fun y => { y with notices := y.notices - 1 }
      let gone := ((s.bay b).passes.filter fun q => decide (q.phase = .waiting)).flatMap (·.members)
      let planned := (decideUnits s.plans.active.toList s.store.find
        ((s.bay b).units.map JobUnit.replanReset)).map JobUnit.startServing
      ((s.bay b).state ∈ [BayState.disabled, .empty, .enumerating, .anonymous, .duplicate, .cutoff] →
        exec (.activationNotice b) s = .next taken.arbitrate) ∧
      (((s.bay b).state = .switching ∨ ((s.bay b).state = .transferring ∧ ∃ q ∈ (s.bay b).passes, q.inFlight = true)) →
        ((s.bay b).replanPending = true → exec (.activationNotice b) s = .next taken.arbitrate) ∧
        ((s.bay b).replanPending = false → exec (.activationNotice b) s = .next (taken.modBay b fun y => { y with
          replanPending := true
          passes := (y.passes.filter fun q => decide (q.phase ≠ .waiting)).map fun q => { q with refetched := 0 }
          units := y.units.map fun u =>
            if u.addr ∈ gone then { u with progress := some .pending, claim := none } else u }).arbitrate)) ∧
      (((s.bay b).state = .done ∨ (s.bay b).state = .planning ∨
          ((s.bay b).state = .transferring ∧ ∀ q ∈ (s.bay b).passes, q.inFlight = false)) →
        ∃ (g : Engine) (u : State),
        exec (.activationNotice b) s = .next u.arbitrate ∧ OnlyBay b s u ∧ (u.bay b).replanPending = false ∧
        ((s.bay b).state ≠ .planning → g = (s.bay b).engine) ∧
        ((s.bay b).state = .planning → Drains (s.bay b).engine g) ∧
        PlanningStarts b (taken.modBay b fun y => { y with engine := g }) u ∧
        ((∃ x ∈ planned, x.decision = some .flash ∧ x.kind = some .resume) →
          (u.bay b).state = .planning ∧ (u.bay b).units = planned ∧ u.plans.counters = s.plans.counters ∧
          (u.bay b).planning = some
            { generation := s.plans.generation
              gapsList := ((planned.filter fun x => decide (x.decision = some .flash ∧ x.kind = some .resume)).map
                (·.addr)).tail }) ∧
        ((∀ x ∈ planned, ¬(x.decision = some .flash ∧ x.kind = some .resume)) →
          (u.bay b).planning = none ∧
          (u.bay b).state ∈ [BayState.transferring, .switching, .done] ∧
          (∀ i : Fin 64, u.plans.counters[i] = min 65535 (s.plans.counters[i] +
            (planned.filter fun x => decide (x.rule = some i.val)).length)) ∧
          ((∀ x ∈ planned, x.decision ≠ some .flash) → (u.bay b).state = .done ∧ (u.bay b).units = planned))))

/-! ### The bay line -/

/-- FRAME_SENT (R70, R75, R76): with no frame being sent nothing happens, which is the model's choice
(notes/assumptions/5.md). A frame other than BLOCK leaves the engine AWAITING with the reply timeout running. A
drained BLOCK ends its transaction with no outcome, and a request that waits is taken, unless a hold pauses its pass.
The first character of a SWITCH frame adds its member to the switch's sent list (R142); in the model that character
starts at the next millisecond or with the frame's end (notes/assumptions/32.md). Where the spec leaves room the
model reads this as notes/assumptions/19.md says. -/
def Obligations.FrameSentEnds : Prop :=
  (∀ (s : State) (b : BayId),
    ((s.bay b).engine.state ≠ .sending → exec (.frameSent b) s = .next s) ∧
    ∀ tr : Transaction, (s.bay b).engine.state = .sending → (s.bay b).engine.transaction = some tr →
      (tr.request.command ≠ .block → ∃ u : State, exec (.frameSent b) s = .next u.arbitrate ∧ OnlyBay b s u ∧
        u.ports = s.ports ∧ u.fleet = s.fleet ∧
        (u.bay b).engine = { (s.bay b).engine with
          state := .awaiting, transaction := some { tr with started := true }
          timerEnd := s.yardTime + (s.bay b).config.replyTimeout } ∧
        (u.bay b).state = (s.bay b).state ∧ (u.bay b).units = (s.bay b).units ∧ (u.bay b).passes = (s.bay b).passes ∧
        (u.bay b).reader = (s.bay b).reader ∧
        (tr.started = true ∨ tr.request.command ≠ .switch →
          (u.bay b).groups = (s.bay b).groups ∧ (u.bay b).switching = (s.bay b).switching)) ∧
      (tr.request.command = .block → tr.drained = true → ∃ u : State, exec (.frameSent b) s = .next u.arbitrate ∧
        OnlyBay b s u ∧ u.ports = s.ports ∧ u.fleet = s.fleet ∧
        (u.bay b).state = (s.bay b).state ∧ (u.bay b).units = (s.bay b).units ∧ (u.bay b).passes = (s.bay b).passes ∧
        ((s.bay b).engine.offered = none → (u.bay b).engine.state = .idle ∧ (u.bay b).engine.transaction = none) ∧
        ∀ (r : LineRequest) (act : Activity), (s.bay b).engine.offered = some (r, act) →
          (act = .pass ∧ (s.bay b).held = true → (u.bay b).engine.state = .idle ∧
            (u.bay b).engine.offered = some (r, act)) ∧
          (act ≠ .pass ∨ (s.bay b).held = false → (u.bay b).engine.state = .sending ∧
            (u.bay b).engine.offered = none ∧ ∃ tr' : Transaction, (u.bay b).engine.transaction = some tr' ∧
              tr'.request = r ∧ tr'.activity = act ∧ tr'.retries = 0 ∧ tr'.polls = 0 ∧ tr'.drained = false ∧
              tr'.speed = (s.bay b).config.speed))) ∧
  ∀ (s : State) (present ignition : BitVec 8) (b : BayId) (tr : Transaction) (a : Nat) (sw : Switch) (c : Instr),
    (c = .yardTimeTick present ignition ∨ c = .frameSent b) → (s.bay b).engine.state = .sending →
    (s.bay b).engine.transaction = some tr → tr.request = .switch a → tr.started = false →
    (s.bay b).switching = some sw →
    ∃ t : State, exec c s = .next t ∧
      (∃ tr' : Transaction, (t.bay b).engine.transaction = some tr' ∧ tr'.started = true ∧ tr'.request = .switch a) ∧
      (sw.group = 0 → (t.bay b).groups = (s.bay b).groups ∧ ∃ sw' : Switch, (t.bay b).switching = some sw' ∧
        ∀ x : Nat, x ∈ sw'.soloSent ↔ x = a ∨ x ∈ sw.soloSent) ∧
      (sw.group ≠ 0 → (t.bay b).switching = some sw ∧
        List.Forall₂ (fun r r' : GroupRecord => r'.group = r.group ∧ r'.members = r.members ∧
          ∀ x : Nat, x ∈ r'.sent ↔ (r.group = sw.group ∧ x = a) ∨ x ∈ r.sent) (s.bay b).groups (t.bay b).groups)

/-- The last stop bit of a BLOCK frame (R74, R122, R126, R130, R131). In STREAM next block and the streamed count
rise by 1; the next frame starts at once when its data has been read, and the reader asks for the block that follows;
a hold starts nothing; with the last block the rate sample is taken and REPAIR is next, entered at once unless held.
In REPAIR (R132, R134) the member's repair blocks sent rise by 1 and the block leaves the listed ranges; then the
next listed block is sent, or GAPS is offered again after the last one, and a block that would be one more than twice
the block count faults the member instead, which leaves it; that it does so at once on a held bay is the model's
choice (notes/assumptions/41.md), and that the next member concerned is taken there only when the hold set empties is
its choice too (notes/assumptions/21.md). With no block listed next block stays one past the block sent, which is the
model's choice (notes/assumptions/34.md). Where the spec leaves room the model reads this as notes/assumptions/16.md
says. -/
def Obligations.BlockSentAdvances : Prop :=
  (∀ (s : State) (b : BayId) (tr : Transaction) (before after : List Pass) (p : Pass) (e : Entry),
    (s.bay b).engine.state = .sending → (s.bay b).engine.transaction = some tr → tr.request.command = .block →
    tr.drained = false → InFlight (s.bay b) before p after → p.phase = .streaming →
    s.store.find p.image = some e → p.nextBlock < e.blocks →
    let next := { p with nextBlock := p.nextBlock + 1, streamed := p.streamed + 1 }
    ∃ u : State, exec (.frameSent b) s = .next u.arbitrate ∧ OnlyBay b s u ∧ u.ports = s.ports ∧
      (u.bay b).state = (s.bay b).state ∧ (u.bay b).gapRatio = (s.bay b).gapRatio ∧
      (p.nextBlock + 1 < e.blocks → (u.bay b).passes = before ++ next :: after ∧ (u.bay b).units = (s.bay b).units ∧
        (u.bay b).rate = (s.bay b).rate ∧
        ((s.bay b).held = true → (u.bay b).engine.state = .idle ∧ (u.bay b).engine.transaction = none ∧
          (u.bay b).reader = (s.bay b).reader) ∧
        ((s.bay b).held = false → ∀ (a : Nat) (data : List Byte), p.streamAddr = some a →
          ((s.bay b).reader.buffer = some (p.nextBlock + 1, data) →
            (u.bay b).engine.state = .sending ∧ (∃ tr' : Transaction, (u.bay b).engine.transaction = some tr' ∧
              tr'.request = .block a (p.nextBlock + 1) data ∧ tr'.activity = .pass ∧ tr'.started = true ∧
              tr'.drained = false) ∧
            (u.bay b).reader.buffer = none ∧
            (u.bay b).reader.waiting = if p.nextBlock + 2 < e.blocks then
              some { image := p.image, block := p.nextBlock + 2 } else none) ∧
          ((s.bay b).reader.buffer = none → (u.bay b).engine.state = .idle ∧
            (u.bay b).engine.transaction = none))) ∧
      (p.nextBlock + 1 = e.blocks →
        let sample := if p.activeTime = 0 then 60000
          else max 1 (min 60000 ((p.streamed + 1) * 256 * 1000 / p.activeTime))
        ((p.streamed + 1 < 64 → (u.bay b).rate = (s.bay b).rate) ∧
          (64 ≤ p.streamed + 1 → ((u.bay b).rate : Int) =
            (s.bay b).rate + Int.tdiv ((sample : Int) - (s.bay b).rate) 4)) ∧
        ((s.bay b).held = true → (u.bay b).units = (s.bay b).units ∧ (u.bay b).engine.state = .idle ∧
          (u.bay b).passes = before ++ { next with phaseComplete := true, sampleDue := true } :: after) ∧
        ((s.bay b).held = false → ∃ p' : Pass, (u.bay b).passes = before ++ p' :: after ∧ p'.phase = .repairing ∧
          p'.image = p.image ∧ p'.members = p.members ∧ p'.nextBlock = p.nextBlock + 1 ∧
          p'.streamed = p.streamed + 1 ∧ p'.activeTime = p.activeTime ∧ p'.phaseComplete = false))) ∧
  ∀ (s : State) (b : BayId) (tr : Transaction) (before after : List Pass) (p : Pass) (a : Nat) (r : Range)
    (rest : List Range) (x : JobUnit),
    (s.bay b).engine.state = .sending → (s.bay b).engine.transaction = some tr → tr.request.command = .block →
    tr.drained = false → (s.bay b).engine.offered = none → InFlight (s.bay b) before p after → p.phase = .repairing →
    p.repairMember = some a → p.toSend = r :: rest → (s.bay b).unit a = some x →
    let left : Pass := { p with
      nextBlock := r.first + 1
      toSend := if r.count ≤ 1 then rest else { first := r.first + 1, count := r.count - 1 } :: rest }
    ∃ u t : State, exec (.frameSent b) s = .next u.arbitrate ∧ OnlyBay b s u ∧
      t = s.modBay b (fun y => { y.modUnit a (fun v => { v with repairSent := v.repairSent + 1 }) with
        engine := { y.engine with state := .idle, transaction := none, pollEnded := false }
        passes := before ++ left :: after }) ∧
      (t.bay b).unit a = some { x with repairSent := x.repairSent + 1 } ∧
      GoesOnRepairing t u b a before left after

/-- The end of an attempt (R70 to R72, R75): with no reply awaited nothing happens, which is the model's choice
(notes/assumptions/4.md, notes/assumptions/5.md); a drained attempt ends with its result discarded and no re-send; an
attempt with no reply is re-sent within the configured retries; a NOT-READY reply within the limit leads to POLL_WAIT
with the retry count back at 0, in which a hold that came before does not pause the pass (R131;
notes/assumptions/36.md). -/
def Obligations.AttemptsEnd : Prop :=
  ∀ (s : State) (b : BayId) (frame : List Byte),
    ((s.bay b).engine.state ≠ .awaiting → ∀ c ∈ [Instr.replyReceived b frame, .replyTimeout b, .replyCharacterTimeout b],
      exec c s = .next s) ∧
    (∀ tr : Transaction, (s.bay b).engine.state = .awaiting → (s.bay b).engine.transaction = some tr →
      tr.drained = true → ∀ c ∈ [Instr.replyReceived b frame, .replyTimeout b, .replyCharacterTimeout b],
      ∃ u : State, exec c s = .next u.arbitrate ∧ OnlyBay b s u ∧ u.ports = s.ports ∧ u.fleet = s.fleet ∧
        (u.bay b).state = (s.bay b).state ∧ (u.bay b).units = (s.bay b).units ∧ (u.bay b).passes = (s.bay b).passes ∧
        (u.bay b).switching = (s.bay b).switching ∧
        ((s.bay b).engine.offered = none → (u.bay b).engine.state = .idle ∧ (u.bay b).engine.transaction = none) ∧
        ∀ (r : LineRequest) (act : Activity), (s.bay b).engine.offered = some (r, act) → act ≠ .pass →
          (u.bay b).engine.state = .sending ∧ (u.bay b).engine.offered = none ∧
          ∃ tr' : Transaction, (u.bay b).engine.transaction = some tr' ∧ tr'.request = r ∧ tr'.activity = act ∧
            tr'.retries = 0 ∧ tr'.polls = 0 ∧ tr'.drained = false) ∧
    (∀ (tr : Transaction) (c : Instr), Awaits s b tr → EndsSilent s b tr c →
      tr.retries + 1 ≤ (s.bay b).config.retries → exec c s = .next (s.modBay b fun y => { y with
        engine := { y.engine with
          state := .sending, pollEnded := false
          transaction := some { tr with retries := tr.retries + 1, speed := y.config.speed } } }).arbitrate) ∧
    ∀ tr : Transaction, Awaits s b tr →
      judgeReply tr.request (s.gapsBound b tr.request.addr) frame = some .notReady →
      tr.polls + 1 ≤ (s.bay b).config.notReadyLimit →
      exec (.replyReceived b frame) s = .next (s.modBay b fun y => { y with
        engine := { y.engine with
          state := .pollWait, pollEnded := false, pollHeld := false, timerEnd := s.yardTime + y.config.pollInterval
          transaction := some { tr with retries := 0, polls := tr.polls + 1 } } }).arbitrate

/-- POLL_INTERVAL_END (R72): the same frame is sent again with its counts; while a hold that came in this POLL_WAIT
pauses the pass it waits on, and a transaction that was outstanding when the hold came polls on to its outcome (R131,
R170; notes/assumptions/36.md). CONFIRM_POLL_DUE (R147): with the engine free, IDENTIFY goes to the member whose due
time comes first, once reached. CONFIRMATION_DEADLINE (R148, R149): a member past its deadline with no IDENTIFY
outstanding is FAULTED(SWITCH_FAILED), and with no member left in the round the switch ends. That a command changes
nothing with no POLL_WAIT, no switch, no due poll or no deadline past is the model's choice. Where the spec leaves
room the model reads these as notes/assumptions/4.md, notes/assumptions/5.md, notes/assumptions/9.md,
notes/assumptions/14.md, notes/assumptions/28.md and notes/assumptions/32.md say. -/
def Obligations.PollsAndConfirmation : Prop :=
  ∀ (s : State) (b : BayId),
    ((s.bay b).engine.state ≠ .pollWait → exec (.pollIntervalEnd b) s = .next s) ∧
    (∀ tr : Transaction, (s.bay b).engine.state = .pollWait → (s.bay b).engine.transaction = some tr →
      (tr.activity = .pass ∧ (s.bay b).held = true ∧ (s.bay b).engine.pollHeld = true → exec (.pollIntervalEnd b) s =
        .next (s.modBay b fun y => { y with engine := { y.engine with pollEnded := true } }).arbitrate) ∧
      (tr.activity ≠ .pass ∨ (s.bay b).held = false ∨ (s.bay b).engine.pollHeld = false → exec (.pollIntervalEnd b) s =
        .next (s.modBay b fun y => { y with engine := { y.engine with
          state := .sending, pollEnded := false, transaction := some { tr with speed := y.config.speed } } }).arbitrate)) ∧
    ((s.bay b).switching = none → exec (.confirmPollDue b) s = .next s.arbitrate) ∧
    (∀ sw : Switch, (s.bay b).switching = some sw →
      (sw.todo ≠ [] ∨ (s.bay b).engine.state ≠ .idle ∨ (s.bay b).engine.offered ≠ none ∨
          (∀ q ∈ sw.polls, s.yardTime < q.due) → exec (.confirmPollDue b) s = .next s.arbitrate) ∧
      (sw.todo = [] → (s.bay b).engine.state = .idle → (s.bay b).engine.offered = none →
        ∀ q ∈ sw.polls, q.due ≤ s.yardTime →
          (∀ r ∈ sw.polls, r ≠ q → q.due < r.due ∨ (q.due = r.due ∧ q.addr < r.addr)) →
          exec (.confirmPollDue b) s = .next (s.modBay b fun y => { y with
            engine := { y.engine with
              state := .sending, pollEnded := false
              transaction := some
                { request := .identify q.addr, activity := .confirm, retries := 0, polls := 0, speed := y.config.speed
                  started := false, drained := false } } }).arbitrate)) ∧
    ∀ (addr : Nat) (sw : Switch) (q : Poll) (x : JobUnit), (s.bay b).switching = some sw → q ∈ sw.polls →
      q.addr = addr → (∀ r ∈ sw.polls, r.addr = addr → r = q) → (s.bay b).unit addr = some x →
      let outstanding := (s.bay b).engine.state ≠ .idle ∧ ∃ tr : Transaction,
        (s.bay b).engine.transaction = some tr ∧ tr.activity = .confirm ∧ tr.request = .identify addr
      (s.yardTime < q.deadline ∨ outstanding → exec (.confirmationDeadline b addr) s = .next s) ∧
      (q.deadline ≤ s.yardTime → ¬outstanding → ∃ u : State, exec (.confirmationDeadline b addr) s = .next u.arbitrate ∧
        OnlyBay b s u ∧
        (sw.todo ≠ [] ∨ (∃ r ∈ sw.polls, r.addr ≠ addr) →
          (u.bay b).switching = some { sw with polls := sw.polls.filter fun r => decide (r.addr ≠ addr) } ∧
          (u.bay b).state = (s.bay b).state ∧ (u.bay b).groups = (s.bay b).groups ∧
          (u.bay b).units = (s.bay b).units.map (fun v => if v.addr = addr then
            { v with
              progress := some (.faulted .switchFailed), claim := none
              fault := some { reason := .switchFailed, command := .identify, block := none }
              knownStandby := { image := 0, version := Version.zero, state := .blank } } else v) ∧
          ∀ p : PortId, u.port p = (s.post .unitFault (.bayUnit b addr)).port p) ∧
        (sw.todo = [] → (∀ r ∈ sw.polls, r.addr = addr) →
          (∀ tr : Transaction, (s.bay b).engine.transaction = some tr → tr.activity ≠ .switch) →
          (∀ (r : LineRequest) (act : Activity), (s.bay b).engine.offered = some (r, act) → act ≠ .switch) →
          let last : Switch := { sw with polls := [] }
          EndsSwitch ((s.modBay b fun y => { y with switching := some last }).faultUnit b addr .switchFailed .identify none)
            u b last))

/-- BLOCK_READ_DONE (R42, R58, R74, R131): a read for a bay that has stopped or is paused is discarded. Otherwise the
256 bytes, those beyond the image's length 0xFF, go out at once when the line is free and the pass wants the block,
and the reader asks for the block that follows: in STREAM the next one, in REPAIR the next of the range or the first
of the range after it; with none it asks for nothing. R134 limits what is sent, and R74 has the reader ask with no
limit: that the reader asks for no repair block beyond that limit is the model's choice (notes/assumptions/16.md).
While a frame is on the line they wait, also at a bay that is held and not paused yet. That the command changes
nothing with no read of the bay granted is the model's choice. Where the spec leaves room the model reads these as
notes/assumptions/5.md, notes/assumptions/17.md and notes/assumptions/36.md say. -/
def Obligations.BlockReadStartsFrame : Prop :=
  ∀ (s : State) (b : BayId),
    ((∀ image k live, s.store.granted ≠ some (.bayRead b image k live)) → exec (.blockReadDone b) s = .next s) ∧
    ∀ (image k : Nat) (live : Bool), s.store.granted = some (.bayRead b image k live) →
      let freed : State := { s with store := { s.store with granted := none } }
      (live = false ∨ (s.bay b).paused = true → exec (.blockReadDone b) s = .next freed.arbitrate) ∧
      ∀ (before after : List Pass) (p : Pass) (e : Entry), live = true → (s.bay b).paused = false → StoreOk s.store →
        s.store.find image = some e → InFlight (s.bay b) before p after → p.image = image →
        ∃ data : List Byte, data.length = 256 ∧
          (∀ j : Nat, j < 256 → e.length ≤ 256 * k + j → data[j]? = some 0xFF#8) ∧
          (∀ j a : Nat, j < 256 → 256 * k + j < e.length → e.address s.store.segmentCount (256 * k + j) = some a →
            data[j]? = some (Memory.read s.store.mem a)) ∧
          ((s.bay b).engine.state ≠ .idle → exec (.blockReadDone b) s = .next (freed.modBay b fun y =>
            { y with reader := { y.reader with buffer := some (k, data) } }).arbitrate) ∧
          ∀ (a : Nat) (following : Option BlockRead), (s.bay b).engine.state = .idle →
            ((p.phase = .streaming ∧ p.streamAddr = some a ∧ p.nextBlock = k ∧ k < e.blocks ∧
                following = if k + 1 < e.blocks then some { image := image, block := k + 1 } else none) ∨
              (p.phase = .repairing ∧ p.repairMember = some a ∧ ∃ (r : Range) (rest : List Range),
                p.toSend = r :: rest ∧ r.first = k ∧
                following = if (s.bay b).repairSentTo a + 2 ≤ 2 * e.blocks then
                  (if 1 < r.count then some (k + 1) else rest.head?.map (·.first)).map fun m =>
                    { image := image, block := m }
                else none)) →
            exec (.blockReadDone b) s = .next (freed.modBay b fun y => { y with
              reader := { waiting := following, buffer := none }
              engine := { y.engine with
                state := .sending, pollEnded := false
                transaction := some
                  { request := .block a k data, activity := .pass, retries := 0, polls := 0, speed := y.config.speed
                    started := true, drained := false } } }).arbitrate

/-! ### Outcomes of transactions -/

/-- The sweep (R94 to R97, R86, R9): an accepted identity makes a job unit record at its address, a silent address
makes none, and the next address is asked. After address 16 the bay is ANONYMOUS without a gateway's fleet number,
DUPLICATE when the number is bound at another bay, and otherwise bound to the record, which is refreshed (R13, R14):
each unit that answered has its slot, with its history where the serial is the slot's; UNIT_CHANGED is posted for
each unit replaced, in ascending address order; and an unconfirmed member leaves its split entry when its unit was
replaced, is gone, or reports its planned version. Then the first planning starts (R99). -/
def Obligations.SweepBuildsUnits : Prop :=
  ∀ (s : State) (b : BayId) (tr : Transaction) (out : LineOutcome) (c : Instr) (a : Nat), EndsWith s b tr out c →
    tr.activity = .sweep → tr.request = .identify a →
    let found := match out with
      | .reply (.identity i) => (s.bay b).units ++
          [{ addr := a, identity := if a = 1 then i else { i with fleet := 0 }, knownActive := i.active
             knownStandby := { image := i.standbyImage, version := i.standbyVersion, state := i.standbyState }
             decision := none, rule := none, planned := none, group := 0, holdAfter := false, kind := none
             missing := none, progress := none, gaps := [], more := false, repairSent := 0, refetchUsed := false
             fault := none, claim := none, openedBlocks := none }]
      | _ => (s.bay b).units
    let gateway := found.find? fun x => decide (x.addr = 1)
    let replaced := fun (old : List Slot) (m : JobUnit) =>
      old.any fun o => decide (o.addr = m.addr ∧ o.serial ≠ m.identity.serial)
    let refreshed := fun old : List Slot => found.map fun m =>
      let new : Slot := {
        addr := m.addr, cls := m.identity.cls, revision := m.identity.revision, serial := m.identity.serial
        active := m.identity.active, standbyImage := m.identity.standbyImage
        standbyVersion := m.identity.standbyVersion, standbyState := m.identity.standbyState
        lastDecision := none, lastProgress := none, censusRule := none }
      match old.find? fun o => decide (o.addr = m.addr) with
      | some o => if o.serial = m.identity.serial then { new with
          lastDecision := o.lastDecision, lastProgress := o.lastProgress, censusRule := o.censusRule } else new
      | none => new
    let remaining := fun (old : List Slot) (splits : List Split) =>
      (splits.map fun e => { e with
        members := e.members.filter fun k => match found.find? fun m => decide (m.addr = k.addr) with
          | some m => decide (replaced old m = false ∧ m.identity.active ≠ k.version)
          | none => old.all fun o => decide (o.addr ≠ k.addr) }).filter fun e => decide (e.members ≠ [])
    (a < 16 → ∃ u : State, exec c s = .next u.arbitrate ∧ OnlyBay b s u ∧ u.ports = s.ports ∧ u.fleet = s.fleet ∧
      (u.bay b).units = found ∧ (u.bay b).state = (s.bay b).state ∧ (u.bay b).sweepAt = some (a + 1) ∧
      ((s.bay b).engine.offered = none → (u.bay b).engine.state = .sending ∧ ∃ tr' : Transaction,
        (u.bay b).engine.transaction = some tr' ∧ tr'.request = .identify (a + 1) ∧ tr'.activity = .sweep ∧
        tr'.retries = 0 ∧ tr'.drained = false)) ∧
    (16 ≤ a → (∀ x : JobUnit, gateway = some x → x.identity.cls = 1 → x.identity.fleet = 0) →
      ∃ u : State, exec c s = .next u.arbitrate ∧ OnlyBay b s u ∧ u.fleet = s.fleet ∧ (u.bay b).state = .anonymous ∧
        (u.bay b).units = found ∧ (u.bay b).sweepAt = none ∧
        ∀ p : PortId, u.port p = (s.post .bayAnomaly (.bay b)).port p) ∧
    (16 ≤ a → FleetOk s → ∀ x : JobUnit, gateway = some x → x.identity.cls = 1 → x.identity.fleet ≠ 0 →
      ((∃ r ∈ s.fleet, r.fleet = x.identity.fleet ∧ r.atBay ≠ none ∧ r.atBay ≠ some b) →
        ∃ u : State, exec c s = .next u.arbitrate ∧ OnlyBay b s u ∧ u.fleet = s.fleet ∧
          (u.bay b).state = .duplicate ∧ (u.bay b).units = found ∧ (u.bay b).sweepAt = none ∧
          ∀ p : PortId, u.port p = (s.post .bayAnomaly (.bay b)).port p) ∧
      ((∀ r ∈ s.fleet, r.fleet = x.identity.fleet → r.atBay = none ∨ r.atBay = some b) →
        (∃ (u w : State) (r : BusRecord), exec c s = .next u.arbitrate ∧
          (s.offerFleet b x.identity.fleet).2.bound b = some r ∧ r.fleet = x.identity.fleet ∧
          w.bay b = { s.bay b with
            engine := { (s.bay b).engine with state := .idle, transaction := none, pollEnded := false }
            units := found, sweepAt := none } ∧
          w.bound b = some { r with slots := refreshed r.slots, splits := remaining r.slots r.splits } ∧
          (∀ p : PortId, w.port p = ((found.filter (replaced r.slots)).foldl
            (fun t m => t.post .unitChanged (.fleetUnit r.fleet m.addr)) (s.offerFleet b x.identity.fleet).2).port p) ∧
          w.store = s.store ∧ w.plans = s.plans ∧ w.yardTime = s.yardTime ∧ PlanningStarts b w u) ∧
        ∃ u : State, exec c s = .next u.arbitrate ∧ OnlyBay b s u ∧
          (u.bay b).state ∈ [BayState.planning, .transferring, .switching, .done] ∧
          (u.bay b).units.map (·.identity) = found.map (·.identity) ∧
          ∃ r : BusRecord, u.bound b = some r ∧ r.fleet = x.identity.fleet ∧ r.lastVisit = s.yardTime ∧
            r.slots.map (·.addr) = found.map (·.addr)))

/-- A member that faults in a pass (R139, R140): its record takes the reason and the command, its claim is released,
UNIT_FAULT is posted, and a group from 1 to 7 is marked: its VERIFIED members are deferred. -/
def Obligations.MemberFaults : Prop :=
  ∀ (s : State) (b : BayId) (a : Nat) (reason : FaultReason) (command : LineCommand) (block : Option Nat) (x : JobUnit),
    (s.bay b).unit a = some x →
    let u := s.faultMember b a reason command block
    let inGroup := fun v : Nat => ∃ r : GroupRecord, (s.bay b).groupRecord x.group = some r ∧ v ∈ r.members
    OnlyBay b s u ∧ u.fleet = s.fleet ∧ (∀ p : PortId, u.port p = (s.post .unitFault (.bayUnit b a)).port p) ∧
    (u.bay b).state = (s.bay b).state ∧ (u.bay b).passes = (s.bay b).passes ∧ (u.bay b).engine = (s.bay b).engine ∧
    (u.bay b).groups = (s.bay b).groups.map (fun r => if r.group = x.group then { r with faulted := true } else r) ∧
    List.Forall₂ (fun v w : JobUnit =>
      (v.addr = a → w = { v with
        progress := some (.faulted reason), claim := none
        fault := some { reason := reason, command := command, block := block }
        knownStandby := if reason = .switchFailed then { image := 0, version := Version.zero, state := .blank }
          else v.knownStandby }) ∧
      (v.addr ≠ a → inGroup v.addr → v.progress = some .verified →
        w = { v with progress := some .deferredFault, claim := none }) ∧
      (v.addr ≠ a → ¬(inGroup v.addr ∧ v.progress = some .verified) → w = v)) (s.bay b).units (u.bay b).units

/-- The outcome of an OPEN (R127 to R131, R98): OK, a RESUME member's REJECT MISMATCH with its second OPEN, and the
faults, which are State.faultMember with the member's group marked and its VERIFIED members deferred (R139 step 5,
R140; MemberFaults); then the next member's OPEN, or, after the last member's outcome, the rows of R129: the pass
ends when every member is FAULTED, CHECK, REPAIR with STREAM skipped, or STREAM, which a hold delays. Where the spec
leaves room the model reads this as notes/assumptions/20.md says. -/
def Obligations.OpenOutcomes : Prop :=
  ∀ (s : State) (b : BayId) (tr : Transaction) (out : LineOutcome) (c : Instr) (a image length blocks : Nat)
    (version : Version) (join resume : Bool) (before after : List Pass) (p : Pass) (x : JobUnit),
    EndsWith s b tr out c → tr.activity = .pass → tr.request = .openBank a image version length blocks join resume →
    InFlight (s.bay b) before p after → p.phase = .opening → (s.bay b).unit a = some x →
    (s.bay b).engine.offered = none →
    let ended := s.modBay b Bay.endTransaction
    let becomes := fun (t : State) (p' : Pass) => ∃ u : State, exec c s = .next u.arbitrate ∧ OnlyBay b s u ∧
      (p'.todo ≠ [] → ((s.bay b).held = true → u = t) ∧
        ((s.bay b).held = false → OffersOpen t u b before p' after)) ∧
      (p'.todo = [] → FinishesPhase t u b before p' after (FollowsOpen t u b before p' after))
    (out = .reply .ok → becomes (ended.modBay b fun y => y.modUnit a fun v => { v with
      progress := some .receiving
      knownStandby := if resume = true then v.knownStandby
        else match v.planned with
          | some pl => { image := pl.image, version := pl.version, state := .partlyReceived }
          | none => v.knownStandby }) p) ∧
    (out = .reply (.reject .mismatch) → resume = true →
      becomes (ended.modBay b fun y => { y.modUnit a (fun v => { v with kind := some .fresh, missing := none }) with
        passes := before ++ { p with todo := a :: p.todo } :: after }) { p with todo := a :: p.todo }) ∧
    ∀ reason : FaultReason,
      ((∃ r : RejectReason, out = .reply (.reject r) ∧ (r = .mismatch → resume = false) ∧ reason = .rejected r) ∨
        (out = .noReply ∧ reason = .noReply) ∨ (out = .notReadyLimit ∧ reason = .notReadyLimit)) →
      let t := ended.faultMember b a reason .openBank none
      becomes t p ∧ (t.bay b).unit a = some { x with
        progress := some (.faulted reason), claim := none
        fault := some { reason := reason, command := .openBank, block := none } } ∧
      ∀ q : PortId, t.port q = (s.post .unitFault (.bayUnit b a)).port q

/-- The outcome of a GAPS in REPAIR (R123, R132 to R135): the ranges are written and their first block is sent,
unless it would be one more than twice the block count, which faults the member, at once also on a held bay
(notes/assumptions/41.md); an empty list finishes the member; a refusal or silence faults it. A member that is left
is followed by the next one's GAPS, or, after the last, by CHECK or by the end of the pass; and a hold starts
nothing. The first outcomes feed the gap ratio sample. Where the spec leaves room the model reads these as
notes/assumptions/16.md and notes/assumptions/21.md say. -/
def Obligations.RepairGapsOutcomes : Prop :=
  ∀ (s : State) (b : BayId) (tr : Transaction) (out : LineOutcome) (c : Instr) (a : Nat) (before after : List Pass)
    (p : Pass) (x : JobUnit),
    EndsWith s b tr out c → tr.activity = .pass → tr.request = .gaps a → InFlight (s.bay b) before p after →
    p.phase = .repairing → p.repairMember = some a → (s.bay b).unit a = some x →
    let blocks := s.store.blocksOf p.image
    let faults := fun reason : FaultReason =>
      (∃ r : RejectReason, out = .reply (.reject r) ∧ reason = .rejected r) ∨ (out = .noReply ∧ reason = .noReply)
    (∀ (r : Range) (rest : List Range) (more : Bool), out = .reply (.gaps (r :: rest) more) →
      x.repairSent + 1 ≤ 2 * blocks → ∃ u : State, exec c s = .next u.arbitrate ∧ OnlyBay b s u ∧ u.ports = s.ports ∧
        (u.bay b).unit a = some { x with gaps := r :: rest, more := more } ∧
        (∃ p' : Pass, (u.bay b).passes = before ++ p' :: after ∧ p'.phase = .repairing ∧ p'.repairMember = some a ∧
          p'.toSend = r :: rest ∧ p'.nextBlock = r.first ∧ p'.todo = p.todo ∧ p'.members = p.members) ∧
        ((s.bay b).held = true → (u.bay b).engine.state = .idle ∧ (u.bay b).reader = (s.bay b).reader) ∧
        ((s.bay b).held = false → (s.bay b).reader.buffer = none → s.readOutstanding b = false →
          (u.bay b).reader.waiting = some { image := p.image, block := r.first }) ∧
        (p.firstGaps = false ∨ p.sampleDue = false ∨ p.todo ≠ [] → (u.bay b).gapRatio = (s.bay b).gapRatio) ∧
        (p.firstGaps = true → p.sampleDue = true → p.todo = [] →
          ((u.bay b).gapRatio : Int) = (s.bay b).gapRatio + Int.tdiv
            (((min 255 ((p.missingSum + ((r :: rest).map (·.count)).sum) * 256 / (blocks * (p.answered + 1))) : Nat) :
              Int) - (s.bay b).gapRatio) 4)) ∧
    (∀ (r : Range) (rest : List Range) (more : Bool), out = .reply (.gaps (r :: rest) more) →
      2 * blocks < x.repairSent + 1 → (s.bay b).held = true → p.todo ≠ [] → ∃ u : State,
        exec c s = .next u.arbitrate ∧ OnlyBay b s u ∧
        (∀ q : PortId, u.port q = (s.post .unitFault (.bayUnit b a)).port q) ∧
        (u.bay b).unit a = some { x with
          gaps := r :: rest, more := more, progress := some (.faulted .gapsLimit), claim := none
          fault := some { reason := .gapsLimit, command := .block, block := some r.first } } ∧
        ∃ p' : Pass, (u.bay b).passes = before ++ p' :: after ∧ p'.repairMember = none ∧ p'.todo = p.todo) ∧
    (∀ more : Bool, out = .reply (.gaps [] more) → (s.bay b).held = true → ∃ u : State,
      exec c s = .next u.arbitrate ∧ OnlyBay b s u ∧
      (p.todo ≠ [] → u.ports = s.ports ∧ (u.bay b).unit a = some { x with gaps := [], more := more } ∧
        ∃ p' : Pass, (u.bay b).passes = before ++ p' :: after ∧ p'.phase = .repairing ∧ p'.repairMember = none ∧
          p'.todo = p.todo ∧ p'.phaseComplete = p.phaseComplete) ∧
      (p.todo = [] → x.isFaulted = false → a ∈ p.members → u.ports = s.ports ∧
        ∃ p' : Pass, (u.bay b).passes = before ++ p' :: after ∧ p'.phase = .repairing ∧ p'.repairMember = none ∧
          p'.phaseComplete = true)) ∧
    (∀ reason : FaultReason, faults reason → (s.bay b).held = true → p.todo ≠ [] → ∃ u : State, exec c s = .next u.arbitrate ∧ OnlyBay b s u ∧
        (∀ q : PortId, u.port q = (s.post .unitFault (.bayUnit b a)).port q) ∧
        (u.bay b).unit a = some { x with
          progress := some (.faulted reason), claim := none
          fault := some { reason := reason, command := .gaps, block := none }
          knownStandby := if reason = .switchFailed then { image := 0, version := Version.zero, state := .blank }
            else x.knownStandby } ∧
        ∃ p' : Pass, (u.bay b).passes = before ++ p' :: after ∧ p'.repairMember = none ∧ p'.todo = p.todo) ∧
    ((s.bay b).engine.offered = none → ∃ (u t : State) (ratio : Nat), exec c s = .next u.arbitrate ∧ OnlyBay b s u ∧
      t = s.modBay b (fun y => { y with
        engine := { y.engine with state := .idle, transaction := none, pollEnded := false }
        passes := before ++ gapsCounted p out :: after, gapRatio := ratio }) ∧
      let p1 := gapsCounted p out
      let sampled := p.firstGaps = true ∧ p.sampleDue = true ∧ p.todo = [] ∧ p1.answered ≠ 0
      (¬sampled → ratio = (s.bay b).gapRatio) ∧
      (sampled → (ratio : Int) = (s.bay b).gapRatio + Int.tdiv
        (((min 255 (p1.missingSum * 256 / (blocks * p1.answered)) : Nat) : Int) - (s.bay b).gapRatio) 4) ∧
      (∀ more : Bool, out = .reply (.gaps [] more) →
        LeavesMember (t.modBay b fun y => y.modUnit a fun v => { v with gaps := [], more := more }) u b before p1 after) ∧
      (∀ (r : Range) (rest : List Range) (more : Bool), out = .reply (.gaps (r :: rest) more) →
        GoesOnRepairing (t.modBay b fun y =>
          { y.modUnit a (fun v => { v with gaps := r :: rest, more := more }) with
            passes := before ++ { p1 with toSend := r :: rest } :: after }) u b a before
          { p1 with toSend := r :: rest } after) ∧
      ∀ reason : FaultReason, faults reason →
        LeavesMember (t.faultMember b a reason .gaps none) u b before p1 after)

/-- The outcome of a CHECK (R136 to R140, R98): the expected digest makes the member VERIFIED, or
DEFERRED(FAULT_IN_GROUP) in a marked group; another digest or NOT_COMPLETE moves it into a refetch pass once, and
faults it the second time; any other outcome faults it. A fault is State.faultMember, which marks the group and
defers its VERIFIED members (R139 step 5, R140; MemberFaults), and nothing else changes at the other units. The next
member's CHECK follows unless held; with none left the pass ends, and a re-plan that is pending starts a planning, or
an admission run is taken, which a hold keeps from starting anything. -/
def Obligations.CheckOutcomes : Prop :=
  ∀ (s : State) (b : BayId) (tr : Transaction) (out : LineOutcome) (c : Instr) (a : Nat)
    (before after : List Pass) (p : Pass) (x : JobUnit) (e : Entry),
    EndsWith s b tr out c → tr.activity = .pass → tr.request = .check a → InFlight (s.bay b) before p after →
    p.phase = .checking → (s.bay b).unit a = some x → s.store.find p.image = some e →
    (s.bay b).engine.offered = none →
    let ended := s.modBay b Bay.endTransaction
    let holding := fun (v : JobUnit) (st : StandbyState) => match v.planned with
      | some pl => ({ image := pl.image, version := pl.version, state := st } : Standby)
      | none => v.knownStandby
    let lost : Standby := { image := 0, version := Version.zero, state := .blank }
    let marked := ∃ r : GroupRecord, (s.bay b).groupRecord x.group = some r ∧ r.faulted = true
    let becomes := fun (t : State) (p' : Pass) (after' : List Pass) => ∃ u : State, exec c s = .next u.arbitrate ∧
      OnlyBay b s u ∧
      (p.todo ≠ [] → ((s.bay b).held = true → u = t) ∧
        ((s.bay b).held = false → OffersCheck t u b before p' after')) ∧
      (p.todo = [] → EndsPass t u b before p' after')
    let faulted := fun (t : State) (reason : FaultReason) (bank : Standby) => (t.bay b).unit a = some { x with
        progress := some (.faulted reason), claim := none, knownStandby := bank
        fault := some { reason := reason, command := .check, block := none } } ∧
      ∀ q : PortId, t.port q = (s.post .unitFault (.bayUnit b a)).port q
    (out = .reply (.digest e.crc) →
      (¬marked → becomes (ended.modBay b fun y => y.modUnit a fun v =>
        { v with progress := some .verified, knownStandby := holding v .verified }) p after) ∧
      (marked → becomes (ended.modBay b fun y => y.modUnit a fun v =>
        { v with progress := some .deferredFault, knownStandby := holding v .verified, claim := none }) p after)) ∧
    (∀ (bank : JobUnit → Standby) (reason : FaultReason),
      ((∃ crc : BitVec 32, out = .reply (.digest crc) ∧ crc ≠ e.crc ∧ bank = (fun _ => lost) ∧ reason = .digest) ∨
        (out = .reply (.reject .notComplete) ∧ bank = (fun v => holding v .partlyReceived) ∧
          reason = .rejected .notComplete)) →
      let known := ended.modBay b fun y => y.modUnit a fun v => { v with knownStandby := bank v }
      let left := { p with members := p.members.filter (fun m => decide (m ≠ a)), refetched := p.refetched + 1 }
      let behind := after.take p.refetched ++
        { image := p.image, members := [a], group := p.group
          lowestRule := match x.rule with
            | some n => n
            | none => p.lowestRule
          phase := .waiting, nextBlock := 0, activeTime := 0, streamed := 0, choice := none
          streamAddr := none, repairMember := none, phaseComplete := false, join := false, todo := []
          toSend := [], firstGaps := false, answered := 0, missingSum := 0, sampleDue := false
          refetched := 0 } :: after.drop p.refetched
      (x.refetchUsed = false → becomes (known.modBay b fun y => { y.modUnit a (fun v => { v with
          refetchUsed := true, kind := some .fresh, missing := none, gaps := [], more := false, repairSent := 0
          progress := some .pending }) with passes := before ++ left :: behind }) left behind) ∧
      (x.refetchUsed = true → becomes (known.faultMember b a reason .check none) p after ∧
        faulted (known.faultMember b a reason .check none) reason (bank x))) ∧
    (∀ reason : FaultReason,
      ((∃ r : RejectReason, r ≠ .notComplete ∧ out = .reply (.reject r) ∧ reason = .rejected r) ∨
        (out = .noReply ∧ reason = .noReply) ∨ (out = .notReadyLimit ∧ reason = .notReadyLimit)) →
      becomes (ended.faultMember b a reason .check none) p after ∧
      faulted (ended.faultMember b a reason .check none) reason x.knownStandby) ∧
    (p.todo = [] → out = .reply (.digest e.crc) → (s.bay b).held = true → (s.bay b).replanPending = false →
      ∃ u : State, exec c s = .next u.arbitrate ∧ OnlyBay b s u ∧ u.ports = s.ports ∧
        (u.bay b).state = (s.bay b).state ∧ (u.bay b).engine.state = .idle ∧
        ∃ p' : Pass, (u.bay b).passes = before ++ p' :: after ∧ p'.phase = .ended ∧ p'.streamAddr = none ∧
          p'.repairMember = none ∧ p'.nextBlock = p.nextBlock ∧ p'.members = p.members)

/-- The outcome of a planning's GAPS (R102 to R104, R107): the ranges and the missing total, FRESH on MISMATCH, or a
fault; then the next unit's GAPS, or, after the last, the planning completes. When the active plan has changed since
the planning started, the outcome is discarded and the planning restarted against the new plan with the notices that
wait (R28, R36); that it restarts in this event is the model's choice (notes/assumptions/26.md). -/
def Obligations.PlanningGapsTaken : Prop :=
  ∀ (s : State) (b : BayId) (tr : Transaction) (out : LineOutcome) (c : Instr) (a : Nat) (x : JobUnit) (pl : Planning),
    EndsWith s b tr out c → tr.activity = .planning → tr.request = .gaps a → (s.bay b).unit a = some x →
    (s.bay b).planning = some pl →
    let faults := fun reason : FaultReason =>
      (∃ r : RejectReason, r ≠ .mismatch ∧ out = .reply (.reject r) ∧ reason = .rejected r) ∨
        (out = .noReply ∧ reason = .noReply)
    (∀ (d : Nat) (rest : List Nat), pl.generation = s.plans.generation → pl.gapsList = d :: rest →
      (s.bay b).engine.offered = none → ∃ u : State,
      exec c s = .next u.arbitrate ∧ OnlyBay b s u ∧ u.fleet = s.fleet ∧ (u.bay b).state = (s.bay b).state ∧
      (u.bay b).planning = some { pl with gapsList := rest } ∧ (∀ m : Nat, m ≠ a → (u.bay b).unit m = (s.bay b).unit m) ∧
      (u.bay b).engine.state = .sending ∧ (∃ tr' : Transaction, (u.bay b).engine.transaction = some tr' ∧
        tr'.request = .gaps d ∧ tr'.activity = .planning ∧ tr'.retries = 0 ∧ tr'.polls = 0 ∧ tr'.drained = false) ∧
      (∀ (ranges : List Range) (more : Bool), out = .reply (.gaps ranges more) → u.ports = s.ports ∧
        (u.bay b).unit a = some { x with
          gaps := ranges, more := more, missing := if more = true then none else some (ranges.map (·.count)).sum }) ∧
      (out = .reply (.reject .mismatch) → u.ports = s.ports ∧
        (u.bay b).unit a = some { x with kind := some .fresh, missing := none, gaps := [], more := false }) ∧
      (∀ reason : FaultReason, faults reason →
        (∀ p : PortId, u.port p = (s.post .unitFault (.bayUnit b a)).port p) ∧
        (u.bay b).unit a = some { x with
          progress := some (.faulted reason), claim := none
          fault := some { reason := reason, command := .gaps, block := none } })) ∧
    (pl.generation = s.plans.generation → pl.gapsList = [] → ∃ u : State,
      exec c s = .next u.arbitrate ∧ OnlyBay b s u ∧ (u.bay b).planning = none ∧
      (u.bay b).state ∈ [BayState.transferring, .switching, .done] ∧
      (∀ i : Fin 64, u.plans.counters[i] = min 65535 (s.plans.counters[i] +
        ((s.bay b).units.filter fun v => decide (v.rule = some i.val)).length)) ∧
      ((s.bay b).held = true → (u.bay b).passes = formPasses (u.bay b).units ∧
        (u.bay b).groups = formGroups (u.bay b).units ∧
        (u.bay b).state = if (u.bay b).passes = [] then .done else .transferring) ∧
      (∀ before : BusRecord, s.bound b = some before → ∃ after : BusRecord, u.bound b = some after ∧
        after.fleet = before.fleet ∧ after.lastVisit = before.lastVisit ∧ after.splits = before.splits ∧
        after.evaluated = (if pl.generation = 0 then before.evaluated else some pl.generation) ∧
        after.stale = ((s.bay b).units.filter fun v => decide (v.decision = some .flash)).length) ∧
      let ended := s.modBay b fun y => { y with
        engine := { y.engine with state := .idle, transaction := none, pollEnded := false } }
      (∀ (ranges : List Range) (more : Bool), out = .reply (.gaps ranges more) →
        PlanningCompletes b (ended.modBay b fun y => y.modUnit a fun v => { v with
          gaps := ranges, more := more, missing := if more = true then none else some (ranges.map (·.count)).sum })
          u pl.generation) ∧
      (out = .reply (.reject .mismatch) → PlanningCompletes b (ended.modBay b fun y => y.modUnit a fun v =>
        { v with kind := some .fresh, missing := none, gaps := [], more := false }) u pl.generation) ∧
      ∀ reason : FaultReason, faults reason →
        PlanningCompletes b (ended.faultUnit b a reason .gaps none) u pl.generation) ∧
    (pl.generation ≠ s.plans.generation → ∃ u : State, exec c s = .next u.arbitrate ∧
      PlanningStarts b (s.modBay b fun y => { y with
        engine := { y.engine with state := .idle, transaction := none, pollEnded := false }, notices := 0 }) u)

/-- The outcome of a SWITCH (R146, R139, R98): OK makes the member CONFIRMING with its deadline and first poll; any
other outcome is FAULTED(SWITCH_FAILED), and the group is not marked by it. The next member's SWITCH is offered
whatever the outcome; after the last one the confirmation round waits for a poll that is due. When the last SWITCH
fails and no other member is confirming, the switch ends at once (R147, R149), as every failed switch of a group 0
unit does. Where the spec leaves room the model reads this as notes/assumptions/9.md says. -/
def Obligations.SwitchOutcomes : Prop :=
  ∀ (s : State) (b : BayId) (tr : Transaction) (out : LineOutcome) (c : Instr) (a : Nat) (sw : Switch) (x : JobUnit),
    EndsWith s b tr out c → tr.activity = .switch → tr.request = .switch a → (s.bay b).switching = some sw →
    (s.bay b).unit a = some x → (s.bay b).engine.offered = none →
    let failed := { x with
      progress := some (.faulted .switchFailed), claim := none
      fault := some { reason := .switchFailed, command := .switch, block := none }
      knownStandby := { image := 0, version := Version.zero, state := .blank } }
    ((out = .reply .ok ∨ sw.todo ≠ [] ∨ ∃ q ∈ sw.polls, q.addr ≠ a) →
      let polls : List Poll := if out = .reply .ok then sw.polls ++
          [{ addr := a, deadline := s.yardTime + (s.bay b).config.tSwitch
             due := s.yardTime + (s.bay b).config.pollInterval }]
        else sw.polls.filter fun q => decide (q.addr ≠ a)
      ∃ u : State, exec c s = .next u.arbitrate ∧ OnlyBay b s u ∧ u.fleet = s.fleet ∧
        (u.bay b).state = (s.bay b).state ∧ (u.bay b).groups = (s.bay b).groups ∧
        (u.bay b).passes = (s.bay b).passes ∧ (u.bay b).holds = (s.bay b).holds ∧
        (∀ d : Nat, d ≠ a → (u.bay b).unit d = (s.bay b).unit d) ∧
        (out = .reply .ok → u.ports = s.ports ∧ (u.bay b).unit a = some { x with progress := some .confirming }) ∧
        (out ≠ .reply .ok → (∀ p : PortId, u.port p = (s.post .unitFault (.bayUnit b a)).port p) ∧
          (u.bay b).unit a = some failed) ∧
        (∀ (d : Nat) (rest : List Nat), sw.todo = d :: rest →
          (u.bay b).switching = some { sw with todo := rest, polls := polls } ∧ (u.bay b).engine.state = .sending ∧
          ∃ tr' : Transaction, (u.bay b).engine.transaction = some tr' ∧ tr'.request = .switch d ∧
            tr'.activity = .switch ∧ tr'.retries = 0 ∧ tr'.drained = false) ∧
        (sw.todo = [] → (u.bay b).switching = some { sw with polls := polls } ∧
          ((∀ q ∈ polls, s.yardTime < q.due) →
            (u.bay b).engine.state = .idle ∧ (u.bay b).engine.transaction = none))) ∧
    (out ≠ .reply .ok → sw.todo = [] → (∀ q ∈ sw.polls, q.addr = a) →
      ∃ u t : State, exec c s = .next u.arbitrate ∧ OnlyBay b s u ∧
        t = (s.modBay b fun y => { y with
          engine := { y.engine with state := .idle, transaction := none, pollEnded := false }
          switching := some { sw with polls := [] } }).faultUnit b a .switchFailed .switch none ∧
        (t.bay b).unit a = some failed ∧ (∀ d : Nat, d ≠ a → (t.bay b).unit d = (s.bay b).unit d) ∧
        (∀ p : PortId, t.port p = (s.post .unitFault (.bayUnit b a)).port p) ∧
        EndsSwitch t u b { sw with polls := [] })

/-- The outcome of a confirmation IDENTIFY (R148, R7, R98): the member's serial at the planned version makes it
SWITCHED; another identity, or silence at or past the deadline, is FAULTED(SWITCH_FAILED); silence before it sets the
next poll. With no member left the switch ends (R149, R152, R160, R165): it is recorded, RULE joins the holds when a
SWITCHED member carries the hold-after flag, and then a waiting cutoff, or a deadline condition that holds in STOP
mode, cuts the bay off, a pending re-plan starts a planning, or an admission run is taken; a held bay rests in
TRANSFERRING. Where the spec leaves room the model reads this as notes/assumptions/9.md says. -/
def Obligations.ConfirmationOutcomes : Prop :=
  ∀ (s : State) (b : BayId) (tr : Transaction) (out : LineOutcome) (c : Instr) (a : Nat) (sw : Switch) (x : JobUnit)
    (pl : Planned) (q : Poll),
    EndsWith s b tr out c → tr.activity = .confirm → tr.request = .identify a → (s.bay b).switching = some sw →
    sw.todo = [] → (s.bay b).unit a = some x → x.planned = some pl → q ∈ sw.polls → q.addr = a →
    (∀ r ∈ sw.polls, r.addr = a → r = q) → (s.bay b).engine.offered = none →
    let seen := ∃ i : Identity, out = .reply (.identity i) ∧ i.serial = x.identity.serial ∧ i.active = pl.version
    let fails := (∃ i : Identity, out = .reply (.identity i) ∧
        (i.serial ≠ x.identity.serial ∨ i.active ≠ pl.version)) ∨ (out = .noReply ∧ q.deadline ≤ s.yardTime)
    let others := sw.polls.filter fun r => decide (r.addr ≠ a)
    let blank : Standby := { image := 0, version := Version.zero, state := .blank }
    let confirmed := { x with
      progress := some .switched, claim := none, knownActive := pl.version, knownStandby := blank }
    let failed := { x with
      progress := some (.faulted .switchFailed), claim := none, knownStandby := blank
      fault := some { reason := .switchFailed, command := .identify, block := none } }
    let slotWritten := s.fleet.map fun r => if r.atBay = some b then
      { r with slots := r.slots.map fun sl => if sl.addr = a then { sl with active := pl.version } else sl } else r
    let waits := fun (y : Bay) (polls : List Poll) => y.switching = some { sw with polls := polls } ∧
      ((∀ r ∈ polls, s.yardTime < r.due) → y.engine.state = .idle ∧ y.engine.transaction = none)
    (out = .noReply → s.yardTime < q.deadline → ∃ u : State, exec c s = .next u.arbitrate ∧ OnlyBay b s u ∧
      u.ports = s.ports ∧ u.fleet = s.fleet ∧ (u.bay b).units = (s.bay b).units ∧
      (u.bay b).state = (s.bay b).state ∧ waits (u.bay b) (sw.polls.map fun r =>
        if r.addr = a then { r with due := s.yardTime + (s.bay b).config.pollInterval } else r)) ∧
    (others ≠ [] →
      (seen → ∃ u : State, exec c s = .next u.arbitrate ∧ OnlyBay b s u ∧ u.ports = s.ports ∧ u.fleet = slotWritten ∧
        (u.bay b).state = (s.bay b).state ∧ (u.bay b).unit a = some confirmed ∧ waits (u.bay b) others) ∧
      (fails → ∃ u : State, exec c s = .next u.arbitrate ∧ OnlyBay b s u ∧ u.fleet = s.fleet ∧
        (∀ p : PortId, u.port p = (s.post .unitFault (.bayUnit b a)).port p) ∧
        (u.bay b).state = (s.bay b).state ∧ (u.bay b).groups = (s.bay b).groups ∧
        (u.bay b).unit a = some failed ∧ waits (u.bay b) others)) ∧
    (others = [] → seen ∨ fails →
      let carries := (∃ m ∈ sw.members, m ≠ a ∧ ∃ v ∈ (s.bay b).units, v.addr = m ∧ v.progress = some .switched ∧
          v.holdAfter = true) ∨ (seen ∧ a ∈ sw.members ∧ x.holdAfter = true)
      ((s.bay b).units.map (·.addr)).Nodup →
      (∀ cause : CutoffCause, (s.bay b).pendingCutoff = some cause → (s.bay b).cutoff = none →
        ∃ u : State, exec c s = .next u.arbitrate ∧ OnlyBay b s u ∧ (u.bay b).state = .cutoff ∧
          (u.bay b).cutoff = some cause ∧ Quiet (u.bay b) ∧ (∀ v ∈ (u.bay b).units, v.claim = none) ∧
          (carries → (u.bay b).holds = { (s.bay b).holds with rule := true }) ∧
          (¬carries → (u.bay b).holds = (s.bay b).holds)) ∧
      ((s.bay b).pendingCutoff = none → (s.bay b).replanPending = false →
        ((s.bay b).config.mode = .warn ∨ (s.bay b).deadlineCondition s.yardTime = false) →
        (carries ∨ (s.bay b).held = true) →
        ∃ u : State, exec c s = .next u.arbitrate ∧ OnlyBay b s u ∧ (u.bay b).state = .transferring ∧
          (u.bay b).switching = none ∧ (u.bay b).passes = (s.bay b).passes ∧
          (u.bay b).engine.state = .idle ∧ (u.bay b).engine.transaction = none ∧
          (carries → (u.bay b).holds = { (s.bay b).holds with rule := true }) ∧
          (¬carries → (u.bay b).holds = (s.bay b).holds) ∧
          (seen → (u.bay b).unit a = some confirmed) ∧ (fails → (u.bay b).unit a = some failed) ∧
          (seen → (∀ m ∈ sw.members, m = a ∨ ∃ v : JobUnit, (s.bay b).unit m = some v ∧ v.progress = some .switched) →
            ∀ p : PortId, u.port p = (s.post .groupSwitched (.bayGroup b sw.group)).port p) ∧
          (fails → sw.group = 0 → a ∈ sw.members →
            ∀ p : PortId, u.port p = (s.post .unitFault (.bayUnit b a)).port p))) ∧
    (others = [] →
      let last : Switch := { sw with polls := [] }
      let ended := s.modBay b fun y => { y with
        engine := { y.engine with state := .idle, transaction := none, pollEnded := false }, switching := some last }
      (seen → ∃ u t : State, exec c s = .next u.arbitrate ∧ OnlyBay b s u ∧
        t = { ended.modBay b (fun y => y.modUnit a fun v => { v with
          progress := some .switched, claim := none, knownActive := pl.version, knownStandby := blank }) with
            fleet := slotWritten } ∧
        (t.bay b).unit a = some confirmed ∧ EndsSwitch t u b last) ∧
      (fails → ∃ u t : State, exec c s = .next u.arbitrate ∧ OnlyBay b s u ∧
        t = ended.faultUnit b a .switchFailed .identify none ∧ (t.bay b).unit a = some failed ∧
        (∀ p : PortId, t.port p = (s.post .unitFault (.bayUnit b a)).port p) ∧ EndsSwitch t u b last))

/-- Steps 1 and 2 of a switch's end (R149, R150, R8), and a switch broken off (R151). A group whose members are all
SWITCHED leaves its split entry; otherwise the sent members that are not SWITCHED are written as its entry, with
those of the former entry that are no members, and GROUP_SPLIT is posted. A group 0 unit writes nothing. -/
def Obligations.SplitEntryWritten : Prop :=
  ∀ (s : State) (b : BayId) (sw : Switch),
    let all := ∀ m ∈ sw.members, ∃ v : JobUnit, (s.bay b).unit m = some v ∧ v.progress = some .switched
    (sw.group = 0 → (all → s.recordSwitch b sw = s.post .groupSwitched (.bayGroup b 0)) ∧
      (¬all → s.recordSwitch b sw = s)) ∧
    ((s.bay b).switching = some sw →
      (sw.group = 0 → s.breakOffSwitch b = s) ∧ (sw.group ≠ 0 → ¬all → s.breakOffSwitch b = s.recordSwitch b sw)) ∧
    (sw.group ≠ 0 → FleetOk s → ∀ (g : GroupRecord) (before : BusRecord), (s.bay b).groupRecord sw.group = some g →
      s.bound b = some before →
      let missed := fun m : Unconfirmed => m.addr ∈ g.sent ∧ ∃ (v : JobUnit) (pl : Planned),
        (s.bay b).unit m.addr = some v ∧ v.progress ≠ some .switched ∧ v.planned = some pl ∧ m.version = pl.version
      let t := s.recordSwitch b sw
      OnlyBay b s t ∧ t.store = s.store ∧ t.plans = s.plans ∧ (t.bay b).units = (s.bay b).units ∧
      (t.bay b).groups = (s.bay b).groups.map (fun r => if r.group = sw.group then { r with ended := true } else r) ∧
      ∃ after : BusRecord, t.bound b = some after ∧ after = { before with splits := after.splits } ∧
        (∀ e ∈ before.splits, e.group ≠ sw.group → e.members ≠ [] → e ∈ after.splits) ∧
        (∀ e ∈ after.splits, e.group ≠ sw.group → e ∈ before.splits) ∧
        (all → (∀ p : PortId, t.port p = (s.post .groupSwitched (.bayGroup b sw.group)).port p) ∧
          ∀ (e : Split) (m : Unconfirmed), e ∈ after.splits → e.group = sw.group → m ∈ e.members →
            m.addr ∉ sw.members ∧ ∃ e0 ∈ before.splits, e0.group = sw.group ∧ m ∈ e0.members) ∧
        (¬all → (∃ m : Unconfirmed, missed m) →
          (∀ p : PortId, t.port p = (s.post .groupSplit (.bayGroup b sw.group)).port p) ∧
          ∃ e ∈ after.splits, e.group = sw.group ∧ e.images = g.images ∧
            (∀ e' ∈ after.splits, e'.group = sw.group → e' = e) ∧
            ∀ m : Unconfirmed, m ∈ e.members ↔ missed m ∨
              ∃ e0 ∈ before.splits, e0.group = sw.group ∧ m ∈ e0.members ∧ m.addr ∉ g.members) ∧
        (¬all → (∀ m : Unconfirmed, ¬missed m) → t.ports = s.ports ∧
          ∀ (e : Split) (m : Unconfirmed), e ∈ after.splits → e.group = sw.group → m ∈ e.members →
            ∃ e0 ∈ before.splits, e0.group = sw.group ∧ m ∈ e0.members))

/-! ### Admission -/

/-- The pass estimate, its need and the fit test (R114 to R118): four terms, each formed exactly, rounded up and
saturated; S by the first row of R116 that holds; the need adds T_switch for each member; and the learned values stay
in their ranges (R113, R122, R123). -/
def Obligations.AdmissionArithmetic : Prop :=
  (∀ (y : Bay) (units : List JobUnit) (m blocks toStream : Nat),
    let checkOnly := ∀ u ∈ units, u.kind = some .checkOnly
    let resumes := ∀ u ∈ units, u.kind = some .checkOnly ∨ (u.kind = some .resume ∧ u.missing ≠ none)
    let top := 4294967295
    ((checkOnly ∧ toStream = 0) ∨
      (¬checkOnly ∧ resumes ∧ toStream = ((units.filter fun u => decide (u.kind = some .resume)).map fun u =>
        match u.missing with
        | some n => n
        | none => 0).sum) ∨
      (¬checkOnly ∧ ¬resumes ∧ toStream = blocks)) →
    let stream := min top ((toStream * 256000 + y.rate - 1) / y.rate)
    passEstimate y units m blocks = min top (
      min top ((units.filter fun u => decide (u.kind = some .fresh)).length * y.config.tOpen) + stream +
      min top ((stream * y.gapRatio + 255) / 256) + min top (m * ((blocks + 255) / 256) * y.config.tCheck))) ∧
  (∀ (y : Bay) (p : Pass) (blocks : Nat), passNeed y p blocks = min 4294967295
    (passEstimate y (y.units.filter fun u => decide (u.addr ∈ p.members)) p.members.length blocks +
      p.members.length * y.config.tSwitch)) ∧
  (∀ (y : Bay) (now need : Nat), y.fits now need = true ↔ ∀ c : Time, y.cutoffTime = some c → now + need ≤ c) ∧
  (nominalRate 0 = 4800 ∧ nominalRate 1 = 9600 ∧ nominalRate 2 = 19200 ∧ nominalRate 3 = 38400) ∧
  ∀ (y : Bay) (p : Pass) (blocks : Nat),
    (1 ≤ y.rate → y.rate ≤ 60000 → 1 ≤ (y.takeRateSample p).rate ∧ (y.takeRateSample p).rate ≤ 60000) ∧
    (y.gapRatio ≤ 255 → (y.takeGapSample p blocks).gapRatio ≤ 255)

/-- An admission run (R119 to R121, R143 to R145): outside its conditions, or held, it changes nothing. Otherwise the
first switch tried that fits starts, then the first waiting pass that fits; what was tried and refused shows
DEFERRED(NO_TIME); and a bay with nothing started is in DONE, BAY_DONE being posted when it enters. Where the spec
leaves room the model reads these as notes/assumptions/15.md and notes/assumptions/30.md say. -/
def Obligations.AdmissionRunOrder : Prop :=
  ∀ (s : State) (b : BayId),
    let y := s.bay b
    let runs := (y.state = .transferring ∨ y.state = .done) ∧ (∀ q ∈ y.passes, q.inFlight = false) ∧
      y.switching = none ∧ y.replanPending = false ∧ y.held = false
    let counts := fun v : JobUnit => v.progress = some .verified ∨
      (v.progress = some .deferredNoTime ∧ ∀ q ∈ y.passes, q.phase = .waiting → v.addr ∉ q.members)
    let done := fun m : Nat => ∀ q ∈ y.passes, m ∈ q.members → q.phase = .ended
    let fits := fun t : SwitchTry => y.fits s.yardTime (t.members.length * y.config.tSwitch) = true
    let passFits := fun p : Pass => y.fits s.yardTime (passNeed y p (s.store.blocksOf p.image)) = true
    let refused := fun l : List SwitchTry => l.flatMap (·.members)
    let waiting := y.passes.filter fun q => decide (q.phase = .waiting)
    (¬runs → s.admissionRun b = s) ∧
    (∀ t : SwitchTry, t ∈ y.switchTries ↔
      ((∃ v ∈ y.units, t = { group := 0, members := [v.addr] } ∧ v.decision = some .flash ∧ v.group = 0 ∧ counts v ∧
        done v.addr) ∨
      ∃ r ∈ y.groups, t = { group := r.group, members := r.members } ∧ r.ended = false ∧ r.faulted = false ∧
        ∀ m ∈ r.members, (∃ v : JobUnit, y.unit m = some v ∧ counts v) ∧ done m)) ∧
    ((y.units.map (·.addr)).Pairwise (· < ·) → (y.groups.map (·.group)).Pairwise (· < ·) →
      (∀ r ∈ y.groups, 1 ≤ r.group) → y.switchTries.Pairwise fun t w => t.group < w.group ∨
        (t.group = 0 ∧ w.group = 0 ∧ ∃ m n : Nat, t.members = [m] ∧ w.members = [n] ∧ m < n)) ∧
    (runs → OnlyBay b s (s.admissionRun b) ∧
      (∀ (first rest : List SwitchTry) (t : SwitchTry), y.switchTries = first ++ t :: rest → fits t →
        (∀ w ∈ first, ¬fits w) →
        (s.admissionRun b).ports = s.ports ∧ ((s.admissionRun b).bay b).state = .switching ∧
        ((s.admissionRun b).bay b).switching = some
          { group := t.group, members := t.members, todo := t.members.tail, polls := [], soloSent := [] } ∧
        ((s.admissionRun b).bay b).units = y.units.map (fun v =>
          if v.addr ∈ t.members then { v with progress := some .switching }
          else if v.addr ∈ refused first then { v with progress := some .deferredNoTime } else v) ∧
        ((s.admissionRun b).bay b).groups =
          y.groups.map (fun r => if r.group = t.group then { r with sent := [] } else r) ∧
        ((s.admissionRun b).bay b).passes = y.passes ∧
        ∀ (m : Nat) (ms : List Nat), t.members = m :: ms → y.engine.state = .idle → y.engine.offered = none →
          ((s.admissionRun b).bay b).engine.state = .sending ∧ ∃ tr : Transaction,
            ((s.admissionRun b).bay b).engine.transaction = some tr ∧ tr.request = .switch m ∧
            tr.activity = .switch) ∧
      ((∀ t ∈ y.switchTries, ¬fits t) →
        (∀ (first rest : List Pass) (p : Pass), waiting = first ++ p :: rest → passFits p →
          (∀ w ∈ first, ¬passFits w) →
          (s.admissionRun b).ports = s.ports ∧ ((s.admissionRun b).bay b).state = .transferring ∧
          (∃ (l r : List Pass) (p' : Pass), y.passes = l ++ p :: r ∧
            ((s.admissionRun b).bay b).passes = l ++ p' :: r ∧ p'.inFlight = true ∧ p'.members = p.members ∧
            p'.image = p.image ∧ p'.join = decide (1 < p.members.length)) ∧
          ∀ v ∈ y.units, v.addr ∉ p.members → (if v.addr ∈ refused y.switchTries ∨ ∃ w ∈ first, v.addr ∈ w.members
            then { v with progress := some .deferredNoTime } else v) ∈ ((s.admissionRun b).bay b).units) ∧
        ((∀ p ∈ waiting, ¬passFits p) →
          ((s.admissionRun b).bay b).state = .done ∧ ((s.admissionRun b).bay b).passes = y.passes ∧
          ((s.admissionRun b).bay b).units = y.units.map (fun v =>
            if v.addr ∈ refused y.switchTries ∨ ∃ w ∈ waiting, v.addr ∈ w.members
            then { v with progress := some .deferredNoTime } else v) ∧
          (y.state = .done → (s.admissionRun b).ports = s.ports) ∧
          (y.state = .transferring →
            ∀ q : PortId, (s.admissionRun b).port q = (s.post .bayDone (.bay b)).port q))))

/-- The pass list and the switch-group records that a planning forms (R105, R106). -/
def Obligations.PassesFormed : Prop :=
  ∀ units : List JobUnit,
    let served := fun u : JobUnit => u.decision = some .flash ∧ ∀ r : FaultReason, u.progress ≠ some (.faulted r)
    (units.map (·.addr)).Pairwise (· < ·) → (∀ u ∈ units, u.group ≤ 7) →
    (∀ u ∈ units, u.decision = some .flash → u.planned ≠ none ∧ ∃ n < 64, u.rule = some n) →
    (∀ p ∈ formPasses units, p.members ≠ [] ∧ p.members.Pairwise (· < ·) ∧ p.phase = .waiting ∧ p.nextBlock = 0 ∧
      p.activeTime = 0 ∧ p.streamed = 0 ∧
      (∀ a : Nat, a ∈ p.members ↔ ∃ u ∈ units, u.addr = a ∧ served u ∧ u.group = p.group ∧
        ∃ pl : Planned, u.planned = some pl ∧ pl.image = p.image) ∧
      (∃ u ∈ units, u.addr ∈ p.members ∧ u.rule = some p.lowestRule) ∧
      ∀ u ∈ units, ∀ n : Nat, u.addr ∈ p.members → u.rule = some n → p.lowestRule ≤ n) ∧
    (∀ u ∈ units, served u → ∃ p ∈ formPasses units, u.addr ∈ p.members) ∧
    ((formPasses units).Pairwise fun p q => (p.group, p.image) ≠ (q.group, q.image) ∧
      (p.group < q.group ∨ (p.group = q.group ∧ p.lowestRule ≤ q.lowestRule))) ∧
    (∀ r ∈ formGroups units, 1 ≤ r.group ∧ r.group ≤ 7 ∧ r.members ≠ [] ∧ r.members.Pairwise (· < ·) ∧
      (∀ a : Nat, a ∈ r.members ↔ ∃ u ∈ units, u.addr = a ∧ u.decision = some .flash ∧ u.group = r.group) ∧
      r.images.Pairwise (· < ·) ∧
      (∀ i : Nat, i ∈ r.images ↔ ∃ u ∈ units, u.decision = some .flash ∧ u.group = r.group ∧
        ∃ pl : Planned, u.planned = some pl ∧ pl.image = i) ∧
      (r.faulted = true ↔ ∃ u ∈ units, u.decision = some .flash ∧ u.group = r.group ∧
        ∃ reason : FaultReason, u.progress = some (.faulted reason)) ∧ r.ended = false ∧ r.sent = []) ∧
    (∀ u ∈ units, u.decision = some .flash → u.group ≠ 0 → ∃ r ∈ formGroups units, r.group = u.group) ∧
    ((formGroups units).map (·.group)).Pairwise (· < ·)

/-! ### Frames of a supervisor port -/

/-- Reading and writing the frames of a supervisor port agree (section 11.2, R173, R174, R178), for every request,
for a frame with a wrong CRC and for a frame whose length is too great; and what is read is well formed. Where a
second body byte chooses the row, the choice is the model's. Where the spec leaves room the model reads these as
notes/assumptions/24.md and notes/assumptions/27.md say. -/
def Obligations.DecodeEncodeAgree : Prop :=
  (∀ (i : Instr) (p : PortId) (code : Byte) (body : List Byte), i.request = some (p, code, body) →
    i.wellFormed = true → decodeFrame p (encodeFrame code body) = some i) ∧
  (∀ (p : PortId) (code : Byte) (body : List Byte) (crc : BitVec 16),
    (Instr.frameCrcError p code body crc).wellFormed = true →
    decodeFrame p ([0xA5#8] ++ frameInner code body ++ toBytes 2 crc.toNat) = some (.frameCrcError p code body crc)) ∧
  (∀ (p : PortId) (code : Byte) (length : BitVec 16), (Instr.frameLengthError p code length).wellFormed = true →
    decodeFrame p ([0xA5#8, code] ++ toBytes 2 length.toNat) = some (.frameLengthError p code length)) ∧
  ∀ (p : PortId) (bytes : List Byte) (i : Instr), decodeFrame p bytes = some i → i.wellFormed = true ∧
    ∀ (q : PortId) (code : Byte) (body : List Byte), i.request = some (q, code, body) →
      q = p ∧ bytes = encodeFrame code body

/-- The bodies with many fields are read as they are laid out (R178), and a reply frame as section 4.2.1 lays it out
(R61, R62). -/
def Obligations.LayoutsRead : Prop :=
  (∀ (n : Fin 64) (r : Option Rule), (∀ q : Rule, r = some q → q.wellFormed = true) →
    parsePutRule (putRuleBody n r) = some (n, r)) ∧
  (∀ a : BeginArgs, 1 ≤ a.id → a.id ≤ 65535 → a.version.major ≤ 255 → a.version.minor ≤ 255 →
    a.version.build ≤ 65535 → 1 ≤ a.cls → a.cls ≤ 31 → 1 ≤ a.length → a.length ≤ 16777216 →
    parseBegin a.body = some a) ∧
  (∀ (b : BayId) (c : BayConfig), c.inRange = true → parseConfig (configBody b c) = some (b, c)) ∧
  (∀ (b : BayId) (d : Time), d < 18446744073709551615 → parseDepartSet (departSetBody b d) = some (b, d)) ∧
  ∀ (addr : Nat) (code : Byte) (body : List Byte), addr ≤ 255 → body.length ≤ 272 →
    readReply (lineFrame 0x3C#8 addr code body) = some { addr := addr, code := code.toNat, body := body }

/-! ### The whole part -/

/-- Every step keeps the invariants of the part, of the fleet table, and of uploads and verification. -/
def Obligations.StepKeepsInvariant : Prop :=
  ∀ s t : State, step s = .next t → (PartOk s → PartOk t) ∧ (FleetOk s → FleetOk t) ∧ (UploadsOk s → UploadsOk t)

/-- A bay event or a bay line event acts at its bay alone: the other bays, the clock, the catalogue, image memory and
the plans stay as they are, and the ports see nothing but postings; then the arbiter may grant an access. -/
def Obligations.BayEventsStayAtTheirBay : Prop :=
  ∀ (i : Instr) (b : BayId) (s : State), i.bayEvent = some b → ∃ u : State, OnlyBay b s u ∧
    (exec i s = .next u ∨ exec i s = .next u.arbitrate)

/-- What no command but a few changes: yard time (R156); the active plan, its generation and the standby plan (R30,
R31, R33); and a catalogue entry on which a job unit holds a claim, or that is LOADING or VERIFYING (section 3.4),
which stays in its position with its content, a READY or BROKEN one in its state. -/
def Obligations.CommandsKeepEntries : Prop :=
  ∀ (i : Instr) (s t : State), exec i s = .next t → (∀ r0 r1 r2 m, i ≠ .powerOnReset r0 r1 r2 m) →
    ((∀ x y, i ≠ .yardTimeTick x y) → t.yardTime = s.yardTime) ∧
    ((∀ p body, i ≠ .planActivate p body) →
      t.plans.active = s.plans.active ∧ t.plans.generation = s.plans.generation) ∧
    ((∀ p body, i ≠ .planClear p body ∧ i ≠ .planPutRule p body) → t.plans.standby = s.plans.standby) ∧
    ∀ (pos : Fin 32) (e : Entry), StoreOk s.store → StagesOk s → s.store.catalogue[pos] = some e →
      ((e.state = .ready ∨ e.state = .broken) → 0 < s.useCount e.id →
        ∃ pinned : Bool, t.store.catalogue[pos] = some { e with pinned := pinned }) ∧
      ((e.state = .loading ∨ e.state = .verifying) →
        (∀ p body, i ≠ .controllerReset p ∧ i ≠ .responseSent p ∧ i ≠ .portReset p ∧ i ≠ .imgAbandon p body) →
        ∃ e' : Entry, t.store.catalogue[pos] = some e' ∧
          e' = { e with state := e'.state, pinned := e'.pinned, uploadPort := e'.uploadPort })

/-- Every command goes on to a next state where the invariant of uploads and verification holds, which holds after
reset and after every step; no command changes the queue. -/
def Obligations.EveryCommandCompletes : Prop :=
  ∀ (i : Instr) (s : State), UploadsOk s → ∃ t : State, exec i s = .next t ∧ UploadsOk t ∧ t.pending = s.pending
end

