-- ==== Sys2Proof/Laws/State.lean ====
section
/-! SUPPORT. One lemma for each field of State under each update, and what each accessor reads after an update. -/

namespace Sys2Proof.Machine

@[simp] theorem State.setBay_pending (s : State) (b : BayId) (y : Bay) : (s.setBay b y).pending = s.pending := rfl
@[simp] theorem State.setBay_freeDraws (s : State) (b : BayId) (y : Bay) : (s.setBay b y).freeDraws = s.freeDraws := rfl
@[simp] theorem State.setBay_yardTime (s : State) (b : BayId) (y : Bay) : (s.setBay b y).yardTime = s.yardTime := rfl
@[simp] theorem State.setBay_ports (s : State) (b : BayId) (y : Bay) : (s.setBay b y).ports = s.ports := rfl
@[simp] theorem State.setBay_store (s : State) (b : BayId) (y : Bay) : (s.setBay b y).store = s.store := rfl
@[simp] theorem State.setBay_plans (s : State) (b : BayId) (y : Bay) : (s.setBay b y).plans = s.plans := rfl
@[simp] theorem State.setBay_fleet (s : State) (b : BayId) (y : Bay) : (s.setBay b y).fleet = s.fleet := rfl

@[simp] theorem State.modBay_pending (s : State) (b : BayId) (f : Bay → Bay) : (s.modBay b f).pending = s.pending := rfl
@[simp] theorem State.modBay_freeDraws (s : State) (b : BayId) (f : Bay → Bay) : (s.modBay b f).freeDraws = s.freeDraws := rfl
@[simp] theorem State.modBay_yardTime (s : State) (b : BayId) (f : Bay → Bay) : (s.modBay b f).yardTime = s.yardTime := rfl
@[simp] theorem State.modBay_ports (s : State) (b : BayId) (f : Bay → Bay) : (s.modBay b f).ports = s.ports := rfl
@[simp] theorem State.modBay_store (s : State) (b : BayId) (f : Bay → Bay) : (s.modBay b f).store = s.store := rfl
@[simp] theorem State.modBay_plans (s : State) (b : BayId) (f : Bay → Bay) : (s.modBay b f).plans = s.plans := rfl
@[simp] theorem State.modBay_fleet (s : State) (b : BayId) (f : Bay → Bay) : (s.modBay b f).fleet = s.fleet := rfl

@[simp] theorem State.setPort_pending (s : State) (p : PortId) (t : Port) : (s.setPort p t).pending = s.pending := rfl
@[simp] theorem State.setPort_freeDraws (s : State) (p : PortId) (t : Port) : (s.setPort p t).freeDraws = s.freeDraws := rfl
@[simp] theorem State.setPort_yardTime (s : State) (p : PortId) (t : Port) : (s.setPort p t).yardTime = s.yardTime := rfl
@[simp] theorem State.setPort_store (s : State) (p : PortId) (t : Port) : (s.setPort p t).store = s.store := rfl
@[simp] theorem State.setPort_plans (s : State) (p : PortId) (t : Port) : (s.setPort p t).plans = s.plans := rfl
@[simp] theorem State.setPort_fleet (s : State) (p : PortId) (t : Port) : (s.setPort p t).fleet = s.fleet := rfl
@[simp] theorem State.setPort_bays (s : State) (p : PortId) (t : Port) : (s.setPort p t).bays = s.bays := rfl

@[simp] theorem State.modPort_pending (s : State) (p : PortId) (f : Port → Port) : (s.modPort p f).pending = s.pending := rfl
@[simp] theorem State.modPort_freeDraws (s : State) (p : PortId) (f : Port → Port) : (s.modPort p f).freeDraws = s.freeDraws := rfl
@[simp] theorem State.modPort_yardTime (s : State) (p : PortId) (f : Port → Port) : (s.modPort p f).yardTime = s.yardTime := rfl
@[simp] theorem State.modPort_store (s : State) (p : PortId) (f : Port → Port) : (s.modPort p f).store = s.store := rfl
@[simp] theorem State.modPort_plans (s : State) (p : PortId) (f : Port → Port) : (s.modPort p f).plans = s.plans := rfl
@[simp] theorem State.modPort_fleet (s : State) (p : PortId) (f : Port → Port) : (s.modPort p f).fleet = s.fleet := rfl
@[simp] theorem State.modPort_bays (s : State) (p : PortId) (f : Port → Port) : (s.modPort p f).bays = s.bays := rfl

@[simp] theorem State.post_pending (s : State) (k : EventKind) (x : Subject) : (s.post k x).pending = s.pending := rfl
@[simp] theorem State.post_freeDraws (s : State) (k : EventKind) (x : Subject) : (s.post k x).freeDraws = s.freeDraws := rfl
@[simp] theorem State.post_yardTime (s : State) (k : EventKind) (x : Subject) : (s.post k x).yardTime = s.yardTime := rfl
@[simp] theorem State.post_store (s : State) (k : EventKind) (x : Subject) : (s.post k x).store = s.store := rfl
@[simp] theorem State.post_plans (s : State) (k : EventKind) (x : Subject) : (s.post k x).plans = s.plans := rfl
@[simp] theorem State.post_fleet (s : State) (k : EventKind) (x : Subject) : (s.post k x).fleet = s.fleet := rfl
@[simp] theorem State.post_bays (s : State) (k : EventKind) (x : Subject) : (s.post k x).bays = s.bays := rfl

@[simp] theorem State.respond_pending (s : State) (p : PortId) (st : Status) (b : Body) : (s.respond p st b).pending = s.pending := rfl
@[simp] theorem State.respond_freeDraws (s : State) (p : PortId) (st : Status) (b : Body) : (s.respond p st b).freeDraws = s.freeDraws := rfl
@[simp] theorem State.respond_yardTime (s : State) (p : PortId) (st : Status) (b : Body) : (s.respond p st b).yardTime = s.yardTime := rfl
@[simp] theorem State.respond_store (s : State) (p : PortId) (st : Status) (b : Body) : (s.respond p st b).store = s.store := rfl
@[simp] theorem State.respond_plans (s : State) (p : PortId) (st : Status) (b : Body) : (s.respond p st b).plans = s.plans := rfl
@[simp] theorem State.respond_fleet (s : State) (p : PortId) (st : Status) (b : Body) : (s.respond p st b).fleet = s.fleet := rfl
@[simp] theorem State.respond_bays (s : State) (p : PortId) (st : Status) (b : Body) : (s.respond p st b).bays = s.bays := rfl

@[simp] theorem State.refuse_pending (s : State) (p : PortId) (st : Status) (b : Body) : (s.refuse p st b).pending = s.pending := rfl
@[simp] theorem State.refuse_freeDraws (s : State) (p : PortId) (st : Status) (b : Body) : (s.refuse p st b).freeDraws = s.freeDraws := rfl
@[simp] theorem State.refuse_yardTime (s : State) (p : PortId) (st : Status) (b : Body) : (s.refuse p st b).yardTime = s.yardTime := rfl
@[simp] theorem State.refuse_store (s : State) (p : PortId) (st : Status) (b : Body) : (s.refuse p st b).store = s.store := rfl
@[simp] theorem State.refuse_plans (s : State) (p : PortId) (st : Status) (b : Body) : (s.refuse p st b).plans = s.plans := rfl
@[simp] theorem State.refuse_fleet (s : State) (p : PortId) (st : Status) (b : Body) : (s.refuse p st b).fleet = s.fleet := rfl
@[simp] theorem State.refuse_bays (s : State) (p : PortId) (st : Status) (b : Body) : (s.refuse p st b).bays = s.bays := rfl

@[simp] theorem State.intake_pending (s : State) (p : PortId) : (s.intake p).pending = s.pending := rfl
@[simp] theorem State.intake_freeDraws (s : State) (p : PortId) : (s.intake p).freeDraws = s.freeDraws := rfl
@[simp] theorem State.intake_yardTime (s : State) (p : PortId) : (s.intake p).yardTime = s.yardTime := rfl
@[simp] theorem State.intake_store (s : State) (p : PortId) : (s.intake p).store = s.store := rfl
@[simp] theorem State.intake_plans (s : State) (p : PortId) : (s.intake p).plans = s.plans := rfl
@[simp] theorem State.intake_fleet (s : State) (p : PortId) : (s.intake p).fleet = s.fleet := rfl
@[simp] theorem State.intake_bays (s : State) (p : PortId) : (s.intake p).bays = s.bays := rfl

@[simp] theorem State.modBound_pending (s : State) (b : BayId) (f : BusRecord → BusRecord) : (s.modBound b f).pending = s.pending := rfl
@[simp] theorem State.modBound_freeDraws (s : State) (b : BayId) (f : BusRecord → BusRecord) : (s.modBound b f).freeDraws = s.freeDraws := rfl
@[simp] theorem State.modBound_yardTime (s : State) (b : BayId) (f : BusRecord → BusRecord) : (s.modBound b f).yardTime = s.yardTime := rfl
@[simp] theorem State.modBound_ports (s : State) (b : BayId) (f : BusRecord → BusRecord) : (s.modBound b f).ports = s.ports := rfl
@[simp] theorem State.modBound_store (s : State) (b : BayId) (f : BusRecord → BusRecord) : (s.modBound b f).store = s.store := rfl
@[simp] theorem State.modBound_plans (s : State) (b : BayId) (f : BusRecord → BusRecord) : (s.modBound b f).plans = s.plans := rfl
@[simp] theorem State.modBound_bays (s : State) (b : BayId) (f : BusRecord → BusRecord) : (s.modBound b f).bays = s.bays := rfl

@[simp] theorem State.unbind_pending (s : State) (b : BayId) : (s.unbind b).pending = s.pending := rfl
@[simp] theorem State.unbind_freeDraws (s : State) (b : BayId) : (s.unbind b).freeDraws = s.freeDraws := rfl
@[simp] theorem State.unbind_yardTime (s : State) (b : BayId) : (s.unbind b).yardTime = s.yardTime := rfl
@[simp] theorem State.unbind_ports (s : State) (b : BayId) : (s.unbind b).ports = s.ports := rfl
@[simp] theorem State.unbind_store (s : State) (b : BayId) : (s.unbind b).store = s.store := rfl
@[simp] theorem State.unbind_plans (s : State) (b : BayId) : (s.unbind b).plans = s.plans := rfl
@[simp] theorem State.unbind_bays (s : State) (b : BayId) : (s.unbind b).bays = s.bays := rfl

@[simp] theorem State.endGrant_pending (s : State) : (s.endGrant).pending = s.pending := rfl
@[simp] theorem State.endGrant_freeDraws (s : State) : (s.endGrant).freeDraws = s.freeDraws := rfl
@[simp] theorem State.endGrant_yardTime (s : State) : (s.endGrant).yardTime = s.yardTime := rfl
@[simp] theorem State.endGrant_ports (s : State) : (s.endGrant).ports = s.ports := rfl
@[simp] theorem State.endGrant_plans (s : State) : (s.endGrant).plans = s.plans := rfl
@[simp] theorem State.endGrant_fleet (s : State) : (s.endGrant).fleet = s.fleet := rfl
@[simp] theorem State.endGrant_bays (s : State) : (s.endGrant).bays = s.bays := rfl

@[simp] theorem State.drawOrder_pending (s : State) : (s.drawOrder).pending = s.pending := rfl
@[simp] theorem State.drawOrder_yardTime (s : State) : (s.drawOrder).yardTime = s.yardTime := rfl
@[simp] theorem State.drawOrder_ports (s : State) : (s.drawOrder).ports = s.ports := rfl
@[simp] theorem State.drawOrder_store (s : State) : (s.drawOrder).store = s.store := rfl
@[simp] theorem State.drawOrder_plans (s : State) : (s.drawOrder).plans = s.plans := rfl
@[simp] theorem State.drawOrder_fleet (s : State) : (s.drawOrder).fleet = s.fleet := rfl
@[simp] theorem State.drawOrder_bays (s : State) : (s.drawOrder).bays = s.bays := rfl

@[simp] theorem State.drawOrder_freeDraws (s : State) : s.drawOrder.freeDraws = s.freeDraws + 1 := rfl
@[simp] theorem State.endGrant_granted (s : State) : s.endGrant.store.granted = none := rfl
@[simp] theorem State.endGrant_catalogue (s : State) : s.endGrant.store.catalogue = s.store.catalogue := rfl
@[simp] theorem State.endGrant_mem (s : State) : s.endGrant.store.mem = s.store.mem := rfl
@[simp] theorem State.endGrant_segmentCount (s : State) : s.endGrant.store.segmentCount = s.store.segmentCount := rfl
@[simp] theorem State.endGrant_pointer (s : State) : s.endGrant.store.pointer = s.store.pointer := rfl
@[simp] theorem State.endGrant_verifier (s : State) : s.endGrant.store.verifier = s.store.verifier := rfl
@[simp] theorem State.endGrant_searchFrom (s : State) : s.endGrant.store.searchFrom = s.store.searchFrom := rfl

/-! ### Reading a bay or a port after an update -/

@[simp] theorem State.bay_setBay_same (s : State) (b : BayId) (y : Bay) : (s.setBay b y).bay b = y := by
  simp [State.bay, State.setBay]

theorem State.bay_setBay_other (s : State) {b c : BayId} (y : Bay) (h : c ≠ b) : (s.setBay b y).bay c = s.bay c := by
  have : b.val ≠ c.val := fun e => h (Fin.ext e.symm)
  simp [State.bay, State.setBay, Vector.getElem_set_ne _ _ this]

@[simp] theorem State.bay_modBay_same (s : State) (b : BayId) (f : Bay → Bay) : (s.modBay b f).bay b = f (s.bay b) := by
  simp [State.modBay]

theorem State.bay_modBay_other (s : State) {b c : BayId} (f : Bay → Bay) (h : c ≠ b) :
    (s.modBay b f).bay c = s.bay c := State.bay_setBay_other s _ h

@[simp] theorem State.port_setPort_same (s : State) (p : PortId) (t : Port) : (s.setPort p t).port p = t := by
  simp [State.port, State.setPort]

theorem State.port_setPort_other (s : State) {p q : PortId} (t : Port) (h : q ≠ p) :
    (s.setPort p t).port q = s.port q := by
  have : p.val ≠ q.val := fun e => h (Fin.ext e.symm)
  simp [State.port, State.setPort, Vector.getElem_set_ne _ _ this]

@[simp] theorem State.port_modPort_same (s : State) (p : PortId) (f : Port → Port) :
    (s.modPort p f).port p = f (s.port p) := by
  simp [State.modPort]

theorem State.port_modPort_other (s : State) {p q : PortId} (f : Port → Port) (h : q ≠ p) :
    (s.modPort p f).port q = s.port q := State.port_setPort_other s _ h

theorem State.bay_of_bays {s t : State} (h : t.bays = s.bays) (b : BayId) : t.bay b = s.bay b := by
  simp [State.bay, h]

theorem State.port_of_ports {s t : State} (h : t.ports = s.ports) (p : PortId) : t.port p = s.port p := by
  simp [State.port, h]

@[simp] theorem State.bay_modPort (s : State) (p : PortId) (f : Port → Port) (b : BayId) :
    (s.modPort p f).bay b = s.bay b := rfl
@[simp] theorem State.bay_post (s : State) (k : EventKind) (x : Subject) (b : BayId) : (s.post k x).bay b = s.bay b := rfl
@[simp] theorem State.bay_respond (s : State) (p : PortId) (st : Status) (r : Body) (b : BayId) :
    (s.respond p st r).bay b = s.bay b := rfl
@[simp] theorem State.bay_intake (s : State) (p : PortId) (b : BayId) : (s.intake p).bay b = s.bay b := rfl
@[simp] theorem State.bay_modBound (s : State) (c : BayId) (f : BusRecord → BusRecord) (b : BayId) :
    (s.modBound c f).bay b = s.bay b := rfl
@[simp] theorem State.bay_unbind (s : State) (c b : BayId) : (s.unbind c).bay b = s.bay b := rfl
@[simp] theorem State.bay_endGrant (s : State) (b : BayId) : s.endGrant.bay b = s.bay b := rfl
@[simp] theorem State.port_modBay (s : State) (b : BayId) (f : Bay → Bay) (p : PortId) :
    (s.modBay b f).port p = s.port p := rfl
@[simp] theorem State.port_modBound (s : State) (b : BayId) (f : BusRecord → BusRecord) (p : PortId) :
    (s.modBound b f).port p = s.port p := rfl
@[simp] theorem State.port_unbind (s : State) (b : BayId) (p : PortId) : (s.unbind b).port p = s.port p := rfl
@[simp] theorem State.port_endGrant (s : State) (p : PortId) : s.endGrant.port p = s.port p := rfl

/-! ### Records of the part replaced whole -/

@[simp] theorem State.port_with_store (s : State) (x : ImageStore) (p : PortId) : ({ s with store := x } : State).port p = s.port p := rfl
@[simp] theorem State.bay_with_store (s : State) (x : ImageStore) (b : BayId) : ({ s with store := x } : State).bay b = s.bay b := rfl
@[simp] theorem State.port_with_plans (s : State) (x : PlanStore) (p : PortId) : ({ s with plans := x } : State).port p = s.port p := rfl
@[simp] theorem State.bay_with_plans (s : State) (x : PlanStore) (b : BayId) : ({ s with plans := x } : State).bay b = s.bay b := rfl
@[simp] theorem State.port_with_fleet (s : State) (x : List BusRecord) (p : PortId) : ({ s with fleet := x } : State).port p = s.port p := rfl
@[simp] theorem State.bay_with_fleet (s : State) (x : List BusRecord) (b : BayId) : ({ s with fleet := x } : State).bay b = s.bay b := rfl
@[simp] theorem State.port_with_yardTime (s : State) (x : Time) (p : PortId) : ({ s with yardTime := x } : State).port p = s.port p := rfl
@[simp] theorem State.bay_with_yardTime (s : State) (x : Time) (b : BayId) : ({ s with yardTime := x } : State).bay b = s.bay b := rfl
@[simp] theorem State.port_with_pending (s : State) (x : List Instr) (p : PortId) : ({ s with pending := x } : State).port p = s.port p := rfl
@[simp] theorem State.bay_with_pending (s : State) (x : List Instr) (b : BayId) : ({ s with pending := x } : State).bay b = s.bay b := rfl

end Sys2Proof.Machine
end

