-- ==== Sys2Proof/Laws/Ports.lean ====
section
/-! SUPPORT. What the intake of a request, the producing of a response, a posting and the arbiter do, said once each. -/

namespace Sys2Proof

open Machine

/-! ### Intake -/

/-- The four ways in which a request is taken. -/
theorem serve_cases {α : Type} (s : State) (p : PortId) (code : Byte) (roles : List Role) (args : Option α)
    (act : α → State → Result) :
    ((s.port p).hears = false ∧ s.serve p code roles args act = .next s) ∨
    ((s.port p).hears = true ∧ (s.port p).inProgress = true ∧
      s.serve p code roles args act = .next (s.refuse p .busy (.code code))) ∨
    ((s.port p).hears = true ∧ (s.port p).inProgress = false ∧ (s.port p).role ∉ roles ∧
      s.serve p code roles args act = .next (answered s p .role .none)) ∨
    (Accepts s p roles ∧ args = none ∧ s.serve p code roles args act = .next (answered s p .badArg .none)) ∨
    (∃ a, Accepts s p roles ∧ args = some a ∧ s.serve p code roles args act = act a (s.intake p)) := by
  cases h : (s.port p).hears
  · exact .inl ⟨rfl, by simp [State.serve, h]⟩
  · cases k : (s.port p).inProgress
    · by_cases r : (s.port p).role ∈ roles
      · cases args with
        | none => exact .inr (.inr (.inr (.inl ⟨⟨h, k, r⟩, rfl, by simp [State.serve, h, k, r, answered]⟩)))
        | some a => exact .inr (.inr (.inr (.inr ⟨a, ⟨h, k, r⟩, rfl, by simp [State.serve, h, k, r]⟩)))
      · exact .inr (.inr (.inl ⟨rfl, rfl, r, by simp [State.serve, h, k, r, answered]⟩))
    · exact .inr (.inl ⟨rfl, rfl, by simp [State.serve, h, k]⟩)

/-- A request that passes the role and argument checks is carried out on the state with the request taken. -/
theorem serve_accepts {α : Type} {s : State} {p : PortId} {roles : List Role} (h : Accepts s p roles) (code : Byte)
    (a : α) (act : α → State → Result) : s.serve p code roles (some a) act = act a (s.intake p) := by
  simp [State.serve, h.1, h.2.1, h.2.2]

/-- What taking a request does to its port. -/
theorem port_intake_same (s : State) (p : PortId) :
    (s.intake p).port p = { s.port p with inProgress := true, framer := .hunt } := State.port_modPort_same _ _ _

theorem port_intake_other (s : State) {p q : PortId} (h : q ≠ p) : (s.intake p).port q = s.port q :=
  State.port_modPort_other _ _ h

/-- What producing a response does to its port. -/
theorem port_respond_same (s : State) (p : PortId) (st : Status) (r : Body) :
    (s.respond p st r).port p = Port.produce { kind := .answer, status := st, body := r } (s.port p) :=
  State.port_modPort_same _ _ _

theorem port_respond_other (s : State) {p q : PortId} (st : Status) (r : Body) (h : q ≠ p) :
    (s.respond p st r).port q = s.port q := State.port_modPort_other _ _ h

/-- A response is produced: the fields of the port that it leaves alone. -/
theorem produce_frame (r : Response) (t : Port) :
    (Port.produce r t).role = t.role ∧ (Port.produce r t).framer = t.framer ∧ (Port.produce r t).inReset = t.inReset ∧
    (Port.produce r t).inProgress = t.inProgress ∧ (Port.produce r t).upload = t.upload ∧
    (Port.produce r t).write = t.write ∧ (Port.produce r t).events = t.events ∧ (Port.produce r t).enable = t.enable ∧
    (Port.produce r t).attention = t.attention := by
  unfold Port.produce
  split <;> simp

/-- The response goes to the wire when nothing is being sent and behind the waiting ones otherwise. -/
theorem produce_order (r : Response) (t : Port) :
    (t.sending = none ∧ (Port.produce r t).sending = some r ∧ (Port.produce r t).waiting = t.waiting) ∨
    (∃ q, t.sending = some q ∧ (Port.produce r t).sending = some q ∧
      (Port.produce r t).waiting = t.waiting ++ [r]) := by
  unfold Port.produce
  cases h : t.sending with
  | none => exact .inl ⟨rfl, rfl, rfl⟩
  | some q => exact .inr ⟨q, rfl, rfl, rfl⟩

/-! ### Postings -/

/-- A posting reaches every port. -/
theorem port_post (s : State) (k : EventKind) (x : Subject) (p : PortId) :
    (s.post k x).port p = Port.post k x (s.port p) := by
  simp only [State.post]
  fin_cases p <;> simp [State.port, State.modPort, State.setPort]

/-- What a posting leaves alone in a port. -/
theorem post_frame (k : EventKind) (x : Subject) (t : Port) :
    (Port.post k x t).role = t.role ∧ (Port.post k x t).framer = t.framer ∧ (Port.post k x t).inReset = t.inReset ∧
    (Port.post k x t).inProgress = t.inProgress ∧ (Port.post k x t).sending = t.sending ∧
    (Port.post k x t).waiting = t.waiting ∧ (Port.post k x t).upload = t.upload ∧
    (Port.post k x t).write = t.write ∧ (Port.post k x t).enable = t.enable := by
  unfold Port.post
  split <;> simp [Port.withAttention]

/-! ### The arbiter -/

/-- What the arbiter's grant can change: the access that it grants, where it searches next, and the mark of the access
that is no longer waiting. -/
theorem arbitrate_cases (s : State) :
    s.arbitrate = s ∨
    ∃ g n, s.store.granted = none ∧
      s.arbitrate = { s.clearAccess g with store := { s.store with granted := some g, searchFrom := n } } := by
  unfold State.arbitrate
  split
  · exact .inl rfl
  · next h =>
    split
    · exact .inl rfl
    · next i _ =>
      split
      · exact .inl rfl
      · next g _ => refine .inr ⟨g, (i + 1) % 12, h, ?_⟩; cases g <;> rfl

@[simp] theorem arbitrate_pending (s : State) : s.arbitrate.pending = s.pending := by
  rcases arbitrate_cases s with h | ⟨g, n, _, h⟩ <;> rw [h]; cases g <;> rfl
@[simp] theorem arbitrate_freeDraws (s : State) : s.arbitrate.freeDraws = s.freeDraws := by
  rcases arbitrate_cases s with h | ⟨g, n, _, h⟩ <;> rw [h]; cases g <;> rfl
@[simp] theorem arbitrate_yardTime (s : State) : s.arbitrate.yardTime = s.yardTime := by
  rcases arbitrate_cases s with h | ⟨g, n, _, h⟩ <;> rw [h]; cases g <;> rfl
@[simp] theorem arbitrate_plans (s : State) : s.arbitrate.plans = s.plans := by
  rcases arbitrate_cases s with h | ⟨g, n, _, h⟩ <;> rw [h]; cases g <;> rfl
@[simp] theorem arbitrate_fleet (s : State) : s.arbitrate.fleet = s.fleet := by
  rcases arbitrate_cases s with h | ⟨g, n, _, h⟩ <;> rw [h]; cases g <;> rfl

/-- The arbiter's grant keeps the map, the catalogue, image memory and the verification engine. -/
theorem arbitrate_store (s : State) : ∃ g n, s.arbitrate.store = { s.store with granted := g, searchFrom := n } := by
  rcases arbitrate_cases s with h | ⟨g, n, _, h⟩ <;> rw [h]
  · exact ⟨_, _, rfl⟩
  · exact ⟨_, _, rfl⟩

@[simp] theorem arbitrate_segmentCount (s : State) : s.arbitrate.store.segmentCount = s.store.segmentCount := by
  obtain ⟨g, n, h⟩ := arbitrate_store s; rw [h]
@[simp] theorem arbitrate_catalogue (s : State) : s.arbitrate.store.catalogue = s.store.catalogue := by
  obtain ⟨g, n, h⟩ := arbitrate_store s; rw [h]
@[simp] theorem arbitrate_pointer (s : State) : s.arbitrate.store.pointer = s.store.pointer := by
  obtain ⟨g, n, h⟩ := arbitrate_store s; rw [h]
@[simp] theorem arbitrate_mem (s : State) : s.arbitrate.store.mem = s.store.mem := by
  obtain ⟨g, n, h⟩ := arbitrate_store s; rw [h]
@[simp] theorem arbitrate_verifier (s : State) : s.arbitrate.store.verifier = s.store.verifier := by
  obtain ⟨g, n, h⟩ := arbitrate_store s; rw [h]

/-- What the grant of an access does to a bay: its read no longer waits. -/
theorem bay_clearAccess (s : State) (g : Grant) (b : BayId) :
    (s.clearAccess g).bay b = s.bay b ∨
      (s.clearAccess g).bay b = { s.bay b with reader := { (s.bay b).reader with waiting := none } } := by
  cases g with
  | bayRead c i k l =>
    simp only [State.clearAccess]
    by_cases e : b = c
    · subst e; exact .inr (State.bay_modBay_same s b _)
    · exact .inl (State.bay_modBay_other s _ e)
  | portWrite _ _ => exact .inl rfl
  | verifyRead _ => exact .inl rfl

/-- What the grant of an access does to a port: its write no longer waits. -/
theorem port_clearAccess (s : State) (g : Grant) (p : PortId) :
    (s.clearAccess g).port p = s.port p ∨ (s.clearAccess g).port p = { s.port p with write := none } := by
  cases g with
  | bayRead _ _ _ _ => exact .inl rfl
  | portWrite q _ =>
    simp only [State.clearAccess]
    by_cases e : p = q
    · subst e; exact .inr (State.port_modPort_same s p _)
    · exact .inl (State.port_modPort_other s _ e)
  | verifyRead _ => exact .inl rfl

/-- The arbiter's grant takes at most the waiting read of a bay. -/
theorem bay_arbitrate (s : State) (b : BayId) :
    s.arbitrate.bay b = s.bay b ∨
      s.arbitrate.bay b = { s.bay b with reader := { (s.bay b).reader with waiting := none } } := by
  rcases arbitrate_cases s with h | ⟨g, n, _, h⟩ <;> rw [h]
  · exact .inl rfl
  · exact bay_clearAccess s g b

/-- The arbiter's grant takes at most the waiting write of a port. -/
theorem port_arbitrate (s : State) (p : PortId) :
    s.arbitrate.port p = s.port p ∨ s.arbitrate.port p = { s.port p with write := none } := by
  rcases arbitrate_cases s with h | ⟨g, n, _, h⟩ <;> rw [h]
  · exact .inl rfl
  · exact port_clearAccess s g p

/-! ### The end of an upload -/

@[simp] theorem dropUpload_bays (s : State) (p : PortId) : (s.dropUpload p).bays = s.bays := by
  unfold State.dropUpload; split <;> simp
@[simp] theorem dropUpload_yardTime (s : State) (p : PortId) : (s.dropUpload p).yardTime = s.yardTime := by
  unfold State.dropUpload; split <;> simp
@[simp] theorem dropUpload_plans (s : State) (p : PortId) : (s.dropUpload p).plans = s.plans := by
  unfold State.dropUpload; split <;> simp
@[simp] theorem dropUpload_fleet (s : State) (p : PortId) : (s.dropUpload p).fleet = s.fleet := by
  unfold State.dropUpload; split <;> simp
@[simp] theorem dropUpload_pending (s : State) (p : PortId) : (s.dropUpload p).pending = s.pending := by
  unfold State.dropUpload; split <;> simp
@[simp] theorem dropUpload_freeDraws (s : State) (p : PortId) : (s.dropUpload p).freeDraws = s.freeDraws := by
  unfold State.dropUpload; split <;> simp

theorem port_dropUpload_same (s : State) (p : PortId) :
    (s.dropUpload p).port p = { s.port p with upload := none } := by
  unfold State.dropUpload
  split
  · next e => rw [← e]
  · rw [State.port_modPort_same, State.port_with_store]

theorem port_dropUpload_other (s : State) {p q : PortId} (h : q ≠ p) : (s.dropUpload p).port q = s.port q := by
  unfold State.dropUpload
  split
  · rfl
  · rw [State.port_modPort_other _ _ h, State.port_with_store]

/-! ### Links, the line and the reports -/

theorem OnlyLink.modPort (s : State) (p : PortId) (f : Port → Port)
    (h : ∀ t, (f t).role = t.role ∧ (f t).inReset = t.inReset ∧ (f t).upload = t.upload ∧ (f t).write = t.write ∧
      (f t).events = t.events ∧ (f t).enable = t.enable ∧ (f t).attention = t.attention) : OnlyLink p s (s.modPort p f) := by
  have e : (s.modPort p f).port p = f (s.port p) := State.port_modPort_same _ _ _
  obtain ⟨h1, h2, h3, h4, h5, h6, h7⟩ := h (s.port p)
  exact ⟨rfl, rfl, rfl, rfl, rfl, rfl, rfl, fun q hq => State.port_modPort_other _ _ hq, by rw [e, h1], by rw [e, h2],
    by rw [e, h3], by rw [e, h4], by rw [e, h5], by rw [e, h6], by rw [e, h7]⟩

theorem OnlyLink.trans {p : PortId} {s t u : State} (h : OnlyLink p s t) (k : OnlyLink p t u) : OnlyLink p s u :=
  ⟨k.1.trans h.1, k.2.trans h.2, k.3.trans h.3, k.4.trans h.4, k.5.trans h.5, k.6.trans h.6, k.7.trans h.7,
   fun q hq => (k.8 q hq).trans (h.8 q hq), k.9.trans h.9, k.10.trans h.10, k.11.trans h.11, k.12.trans h.12,
   k.13.trans h.13, k.14.trans h.14, k.15.trans h.15⟩

theorem OnlyLink.respond (s : State) (p : PortId) (st : Status) (b : Body) : OnlyLink p s (s.respond p st b) := by
  refine OnlyLink.modPort s p _ fun t => ?_
  have := produce_frame { kind := .answer, status := st, body := b } t
  tauto

theorem OnlyLink.intake (s : State) (p : PortId) : OnlyLink p s (s.intake p) :=
  OnlyLink.modPort s p _ fun _ => ⟨rfl, rfl, rfl, rfl, rfl, rfl, rfl⟩

theorem OnlyLink.answered (s : State) (p : PortId) (st : Status) (b : Body) : OnlyLink p s (answered s p st b) :=
  (OnlyLink.intake s p).trans (OnlyLink.respond _ _ _ _)

theorem accepts_any {s : State} {p : PortId} (h : (s.port p).hears = true) (k : (s.port p).inProgress = false) :
    Accepts s p anyRole := ⟨h, k, by cases (s.port p).role <;> decide⟩

theorem port_answered (s : State) (p : PortId) (st : Status) (b : Body) : (answered s p st b).port p =
    Port.produce { kind := .answer, status := st, body := b } { s.port p with inProgress := true, framer := .hunt } := by
  rw [answered, port_respond_same, port_intake_same]

theorem reports_spec (events : Vector EventEntry 15) (test : Fin 15 → Bool) :
    Reports events (fun k => test k = true) (reports events test) := by
  have hk : ∀ k : Fin 15, k ∈ kindNumbers := by decide
  constructor
  · intro k h1 h2
    simp only [reports, List.mem_map, List.mem_filter, Bool.and_eq_true, decide_eq_true_eq]
    exact ⟨k, ⟨hk k, h1, h2⟩, rfl⟩
  · intro e he
    simp only [reports, List.mem_map, List.mem_filter, Bool.and_eq_true, decide_eq_true_eq] at he
    obtain ⟨k, ⟨_, h1, h2⟩, rfl⟩ := he
    exact ⟨k, h1, h2, rfl⟩
  · simp only [reports, List.map_map]
    rw [List.pairwise_map]
    refine List.Pairwise.filter _ ?_
    exact List.Pairwise.imp (R := fun a b : Fin 15 => a.val < b.val) (fun h => h) (by decide)

theorem attentionOf_iff (ev : Vector EventEntry 15) (en : BitVec 16) :
    attentionOf ev en = true ↔ ∃ k : Fin 15, en.getLsbD k.val = true ∧ 0 < ev[k].count := by
  have hk : ∀ k : Fin 15, k ∈ kindNumbers := by decide
  simp only [attentionOf, List.any_eq_true, Bool.and_eq_true, decide_eq_true_eq]
  exact ⟨fun ⟨k, _, h⟩ => ⟨k, h⟩, fun ⟨k, h⟩ => ⟨k, hk k, h⟩⟩

theorem modPort_congr (s : State) (p : PortId) {f g : Port → Port} (h : f (s.port p) = g (s.port p)) :
    s.modPort p f = s.modPort p g := by simp [State.modPort, h]

end Sys2Proof
end

