-- ==== Sys2Proof/Laws/BayFrame.lean ====
section
/-! SUPPORT. Every operation of one bay touches nothing else: `OnlyBay`, proved once for each operation, in the form that
chains. -/

namespace Sys2Proof

open Machine

/-! ### The relation -/

theorem OnlyBay.refl (b : BayId) (s : State) : OnlyBay b s s where
  pending := rfl
  freeDraws := rfl
  yardTime := rfl
  others _ _ := rfl
  segmentCount := rfl
  catalogue := rfl
  pointer := rfl
  mem := rfl
  verifier := rfl
  searchFrom := rfl
  granted := .inl rfl
  standby := rfl
  active := rfl
  generation := rfl
  posts := ⟨[], fun _ => rfl⟩
  buses h := ⟨h, fun _ _ => rfl⟩

theorem forget_forget (b : BayId) (g : Option Grant) : (g.map (Grant.forget b)).map (Grant.forget b) = g.map (Grant.forget b) := by
  cases g with
  | none => rfl
  | some g => cases g with
    | bayRead c i k live => simp [Grant.forget]
    | portWrite _ _ => rfl
    | verifyRead _ => rfl

theorem OnlyBay.trans {b : BayId} {s t u : State} (h : OnlyBay b s t) (k : OnlyBay b t u) : OnlyBay b s u where
  pending := k.pending.trans h.pending
  freeDraws := k.freeDraws.trans h.freeDraws
  yardTime := k.yardTime.trans h.yardTime
  others c hc := (k.others c hc).trans (h.others c hc)
  segmentCount := k.segmentCount.trans h.segmentCount
  catalogue := k.catalogue.trans h.catalogue
  pointer := k.pointer.trans h.pointer
  mem := k.mem.trans h.mem
  verifier := k.verifier.trans h.verifier
  searchFrom := k.searchFrom.trans h.searchFrom
  granted := by
    rcases k.granted with e | e <;> rcases h.granted with f | f <;> rw [e, f]
    · exact .inl rfl
    · exact .inr rfl
    · exact .inr rfl
    · exact .inr (forget_forget b _)
  standby := k.standby.trans h.standby
  active := k.active.trans h.active
  generation := k.generation.trans h.generation
  posts := by
    obtain ⟨l, hl⟩ := h.posts
    obtain ⟨m, hm⟩ := k.posts
    exact ⟨l ++ m, fun p => by rw [hm p, hl p, List.foldl_append]⟩
  buses d :=
    have e := h.buses d
    have f := k.buses e.1
    ⟨f.1, fun c hc => (f.2 c hc).trans (e.2 c hc)⟩

/-! ### The plain updates -/

theorem OnlyBay.modBay {b : BayId} {s t : State} (h : OnlyBay b s t) (f : Bay → Bay) : OnlyBay b s (t.modBay b f) :=
  h.trans { OnlyBay.refl b t with
    others := fun _ hc => State.bay_modBay_other t f hc }

theorem OnlyBay.post {b : BayId} {s t : State} (h : OnlyBay b s t) (k : EventKind) (x : Subject) :
    OnlyBay b s (t.post k x) :=
  h.trans { OnlyBay.refl b t with posts := ⟨[(k, x)], fun p => port_post t k x p⟩ }

theorem OnlyBay.counters {b : BayId} {s t : State} (h : OnlyBay b s t) (c : Vector Nat 64) :
    OnlyBay b s { t with plans := { t.plans with counters := c } } := h.trans { OnlyBay.refl b t with }

/-- Another fleet table that keeps the numbers distinct and the records bound to other bays. -/
theorem OnlyBay.fleet {b : BayId} {s t : State} (h : OnlyBay b s t) {l : List BusRecord}
    (hl : (t.fleet.map (·.fleet)).Nodup → (l.map (·.fleet)).Nodup ∧
      ∀ c, c ≠ b → (l.find? fun r => r.atBay == some c) = t.bound c) :
    OnlyBay b s { t with fleet := l } := h.trans { OnlyBay.refl b t with buses := hl }

/-- Records changed one by one keep their numbers distinct, and a search finds the same record when no change makes or
unmakes a hit. -/
theorem map_records (l : List BusRecord) (f : BusRecord → BusRecord) (c : BayId) (hf : ∀ r ∈ l, (f r).fleet = r.fleet)
    (hc : ∀ r ∈ l, ((f r).atBay == some c) = (r.atBay == some c) ∧ (r.atBay = some c → f r = r)) :
    (l.map f).map (·.fleet) = l.map (·.fleet) ∧
      ((l.map f).find? fun r => r.atBay == some c) = l.find? fun r => r.atBay == some c := by
  induction l with
  | nil => exact ⟨rfl, rfl⟩
  | cons r rest ih =>
    have i := ih (fun q hq => hf q (.tail _ hq)) (fun q hq => hc q (.tail _ hq))
    have h1 := hf r (.head _)
    have h2 := hc r (.head _)
    refine ⟨by simp only [List.map_cons, h1, i.1], ?_⟩
    simp only [List.map_cons, List.find?_cons, h2.1, i.2]
    split
    · next e => rw [h2.2 (by simpa using e)]
    · rfl

theorem OnlyBay.modBound {b : BayId} {s t : State} (h : OnlyBay b s t) {f : BusRecord → BusRecord}
    (hf : ∀ r, (f r).fleet = r.fleet ∧ ((f r).atBay = r.atBay ∨ (f r).atBay = none)) :
    OnlyBay b s (t.modBound b f) := by
  refine h.fleet fun d => ?_
  have key := fun c (hc : c ≠ b) => map_records t.fleet (fun r => if r.atBay == some b then f r else r) c
    (fun r _ => by split <;> simp [hf]) (fun r _ => by
      split
      · next e =>
        have e' : r.atBay = some b := by simpa using e
        have n : b ≠ c := fun x => hc x.symm
        rcases (hf r).2 with g | g <;> simp [g, e', n]
      · exact ⟨rfl, fun _ => rfl⟩)
  have other : ∃ c : BayId, c ≠ b := by
    by_cases hb : b = 0
    · exact ⟨1, by rw [hb]; decide⟩
    · exact ⟨0, fun x => hb x.symm⟩
  obtain ⟨c, hc⟩ := other
  exact ⟨by rw [(key c hc).1]; exact d, fun c hc => (key c hc).2⟩

theorem OnlyBay.unbind {b : BayId} {s t : State} (h : OnlyBay b s t) : OnlyBay b s (t.unbind b) :=
  h.modBound fun _ => ⟨rfl, .inr rfl⟩

theorem OnlyBay.drainLine {b : BayId} {s t : State} (h : OnlyBay b s t) : OnlyBay b s (t.drainLine b) :=
  (h.modBay fun y => { y.drainEngine with reader := { waiting := none, buffer := none } }).trans
    { OnlyBay.refl b _ with granted := .inr rfl, others := fun _ _ => rfl }

theorem OnlyBay.ite {b : BayId} {s t u : State} {c : Prop} [Decidable c] (h : OnlyBay b s t) (k : OnlyBay b s u) :
    OnlyBay b s (if c then t else u) := by split <;> assumption

/-! ### The fleet table -/

/-- Only a record with another bay's number, or the records of other numbers, are found for a bay. -/
theorem find_filter (l : List BusRecord) (n : Nat) (c : BayId)
    (hn : ∀ r ∈ l, r.fleet = n → r.atBay ≠ some c) :
    ((l.filter fun r => r.fleet != n).find? fun r => r.atBay == some c) = l.find? fun r => r.atBay == some c := by
  induction l with
  | nil => rfl
  | cons r rest ih =>
    have i := ih fun q hq => hn q (.tail _ hq)
    by_cases e : r.fleet = n
    · have := hn r (.head _) e
      simp [e, this, i]
    · simp [e, i, List.find?_cons]

theorem evictionVictim_mem {l : List BusRecord} {v : BusRecord} (h : evictionVictim l = some v) :
    v ∈ l ∧ v.atBay = none := by
  have key : ∀ (rest : List BusRecord) (r : BusRecord), rest.foldl olderRecord r = r ∨ rest.foldl olderRecord r ∈ rest := by
    intro rest
    induction rest with
    | nil => exact fun r => .inl rfl
    | cons q rest ih =>
      intro r
      rcases ih (olderRecord r q) with e | e
      · rw [List.foldl_cons, e]
        unfold olderRecord
        split
        · exact .inr (.head _)
        · exact .inl rfl
      · exact .inr (.tail _ e)
  unfold evictionVictim at h
  split at h
  · cases h
  · next r rest e =>
    cases h
    have m : rest.foldl olderRecord r ∈ r :: rest := by
      rcases key rest r with x | x
      · rw [x]; exact .head _
      · exact .tail _ x
    rw [← e] at m
    simpa using m

theorem nodup_fleet {l : List BusRecord} (d : (l.map (·.fleet)).Nodup) {r q : BusRecord} (hr : r ∈ l) (hq : q ∈ l)
    (e : r.fleet = q.fleet) : r = q := List.inj_on_of_nodup_map d hr hq e

theorem OnlyBay.evictIfFull {b : BayId} {s t : State} (h : OnlyBay b s t) : OnlyBay b s t.evictIfFull := by
  unfold State.evictIfFull
  split
  · exact h
  · split
    · next v hv =>
      refine OnlyBay.post (h.fleet fun d => ⟨?_, fun c _ => ?_⟩) _ _
      · exact d.sublist (List.filter_sublist.map _)
      · obtain ⟨m, n⟩ := evictionVictim_mem hv
        refine find_filter _ _ _ fun r hr e => ?_
        rw [nodup_fleet d hr m e, n]
        simp
    · exact h

theorem insertBus_spec (x : BusRecord) (l : List BusRecord) (c : BayId) (hx : x.atBay ≠ some c) :
    ((insertBus x l).map (·.fleet)).Perm (x.fleet :: l.map (·.fleet)) ∧
      ((insertBus x l).find? fun r => r.atBay == some c) = l.find? fun r => r.atBay == some c := by
  induction l with
  | nil => simp [insertBus, hx]
  | cons q rest ih =>
    unfold insertBus
    split
    · simp [hx, List.find?_cons]
    · refine ⟨?_, by simp only [List.find?_cons, ih.2]⟩
      simp only [List.map_cons]
      exact (ih.1.cons _).trans (.swap _ _ _)

theorem fleet_unbind (t : State) (b : BayId) : (t.unbind b).fleet.map (·.fleet) = t.fleet.map (·.fleet) := by
  simp only [State.unbind, State.modBound, List.map_map]
  refine List.map_congr_left fun r _ => ?_
  dsimp only [Function.comp]
  split <;> rfl

theorem fleet_evictIfFull (t : State) : (t.evictIfFull.fleet.map (·.fleet)).Sublist (t.fleet.map (·.fleet)) := by
  unfold State.evictIfFull
  split
  · exact .refl _
  · split
    · exact List.filter_sublist.map _
    · exact .refl _

theorem OnlyBay.offerFleet {b : BayId} {s t : State} (h : OnlyBay b s t) (n : Nat) :
    OnlyBay b s (t.offerFleet b n).2 := by
  unfold State.offerFleet
  split
  · next r hr =>
    split
    · exact h
    · next hb =>
      have hu := h.unbind
      refine (hu.fleet (t := t.unbind b) fun d => ?_)
      have key := fun c (hc : c ≠ b) => map_records (t.unbind b).fleet
        (fun q => if q.fleet == n then { q with atBay := some b, lastVisit := t.yardTime } else q) c
        (fun q _ => by split <;> rfl) (fun q hq => by
          split
          · next e =>
            have e' : q.fleet = n := by simpa using e
            have hne : q.atBay ≠ some c := by
              simp only [State.unbind, State.modBound, List.mem_map] at hq
              obtain ⟨q0, m0, e0⟩ := hq
              have r0 : r ∈ t.fleet ∧ r.fleet = n := by
                unfold State.bus at hr
                exact ⟨List.mem_of_find?_eq_some hr, by simpa using List.find?_some hr⟩
              have f0 : q0.fleet = n := by
                rw [← e', ← e0]; split <;> rfl
              have : q0 = r := by
                rw [fleet_unbind] at d
                exact nodup_fleet d m0 r0.1 (f0.trans r0.2.symm)
              subst this
              rw [← e0]
              intro x
              split at x
              · simp at x
              · rw [x] at hb
                simp at hb
                exact hc hb
            have n' : b ≠ c := fun x => hc x.symm
            simp [hne, n']
          · exact ⟨rfl, fun _ => rfl⟩)
      have other : ∃ c : BayId, c ≠ b := by
        by_cases hb : b = 0
        · exact ⟨1, by rw [hb]; decide⟩
        · exact ⟨0, fun x => hb x.symm⟩
      obtain ⟨c, hc⟩ := other
      exact ⟨by rw [(key c hc).1]; exact d, fun c hc => (key c hc).2⟩
  · next hr =>
    refine (h.unbind.evictIfFull).fleet fun d => ?_
    have key := fun c (hc : c ≠ b) => insertBus_spec (BusRecord.create n b t.yardTime) (t.unbind b).evictIfFull.fleet c
      (by simp only [BusRecord.create]; exact fun x => hc (by simpa using x.symm))
    have other : ∃ c : BayId, c ≠ b := by
      by_cases hb : b = 0
      · exact ⟨1, by rw [hb]; decide⟩
      · exact ⟨0, fun x => hb x.symm⟩
    obtain ⟨c, hc⟩ := other
    refine ⟨(key c hc).1.nodup_iff.mpr (List.nodup_cons.mpr ⟨fun m => ?_, d⟩), fun c hc => (key c hc).2⟩
    have m' := (fleet_evictIfFull (t.unbind b)).subset m
    rw [fleet_unbind] at m'
    obtain ⟨q, hq, e⟩ := List.mem_map.mp m'
    have := List.find?_eq_none.mp hr q hq
    simp [e, BusRecord.create] at this

theorem OnlyBay.foldPosts {b : BayId} {s : State} (k : EventKind) (f : JobUnit → Subject) (l : List JobUnit) :
    ∀ {t : State}, OnlyBay b s t → OnlyBay b s (l.foldl (fun t u => t.post k (f u)) t) := by
  induction l with
  | nil => exact fun h => h
  | cons u rest ih => exact fun h => ih (h.post _ _)

theorem OnlyBay.refreshBound {b : BayId} {s t : State} (h : OnlyBay b s t) : OnlyBay b s (t.refreshBound b) := by
  unfold State.refreshBound
  split
  · exact h
  · exact OnlyBay.foldPosts _ _ _ (h.modBound fun _ => ⟨rfl, .inl rfl⟩)

/-! ### The operations of a bay -/

theorem OnlyBay.faultUnit {b : BayId} {s t : State} (h : OnlyBay b s t) (a : Nat) (r : FaultReason) (c : LineCommand) (k : Option Nat) :
    OnlyBay b s (t.faultUnit b a r c k) := by
  simp only [State.faultUnit]
  with_reducible repeat first | exact h | apply OnlyBay.modBay | apply OnlyBay.post

theorem OnlyBay.faultMember {b : BayId} {s t : State} (h : OnlyBay b s t) (a : Nat) (r : FaultReason) (c : LineCommand) (k : Option Nat) :
    OnlyBay b s (t.faultMember b a r c k) := by
  simp only [State.faultMember]
  with_reducible repeat first | exact h | apply OnlyBay.modBay | apply OnlyBay.faultUnit

theorem OnlyBay.splitGroup {b : BayId} {s t : State} (h : OnlyBay b s t) (g : Nat) :
    OnlyBay b s (t.splitGroup b g) := by
  simp only [State.splitGroup]
  repeat' split
  all_goals with_reducible repeat first | exact h | apply OnlyBay.post | exact fun _ => ⟨rfl, .inl rfl⟩ | apply OnlyBay.modBound

theorem OnlyBay.breakOffSwitch {b : BayId} {s t : State} (h : OnlyBay b s t) :
    OnlyBay b s (t.breakOffSwitch b) := by
  simp only [State.breakOffSwitch]
  repeat' split
  all_goals with_reducible repeat first | exact h | apply OnlyBay.modBay | apply OnlyBay.splitGroup

theorem OnlyBay.endJob {b : BayId} {s t : State} (h : OnlyBay b s t) :
    OnlyBay b s (t.endJob b) := by
  simp only [State.endJob]
  with_reducible repeat first | exact h | apply OnlyBay.modBay | exact fun _ => ⟨rfl, .inl rfl⟩ | apply OnlyBay.modBound | apply OnlyBay.breakOffSwitch

theorem OnlyBay.endJobOnce {b : BayId} {s t : State} (h : OnlyBay b s t) :
    OnlyBay b s (t.endJobOnce b) := by
  simp only [State.endJobOnce]
  repeat' split
  all_goals with_reducible repeat first | exact h | apply OnlyBay.endJob

theorem OnlyBay.cutOffBay {b : BayId} {s t : State} (h : OnlyBay b s t) (c : CutoffCause) :
    OnlyBay b s (t.cutOffBay b c) := by
  simp only [State.cutOffBay]
  repeat' split
  all_goals with_reducible repeat first | exact h | apply OnlyBay.modBay | apply OnlyBay.post | apply OnlyBay.drainLine | apply OnlyBay.endJob

theorem OnlyBay.takeCutoff {b : BayId} {s t : State} (h : OnlyBay b s t) (c : CutoffCause) :
    OnlyBay b s (t.takeCutoff b c) := by
  simp only [State.takeCutoff]
  repeat' split
  all_goals with_reducible repeat first | exact h | apply OnlyBay.modBay | apply OnlyBay.cutOffBay

theorem OnlyBay.deadlineCompare {b : BayId} {s t : State} (h : OnlyBay b s t) :
    OnlyBay b s (t.deadlineCompare b) := by
  simp only [State.deadlineCompare]
  repeat' split
  all_goals with_reducible repeat first | exact h | apply OnlyBay.modBay | apply OnlyBay.post | apply OnlyBay.takeCutoff

theorem OnlyBay.leaveBus {b : BayId} {s t : State} (h : OnlyBay b s t) :
    OnlyBay b s (t.leaveBus b) := by
  simp only [State.leaveBus]
  with_reducible repeat first | exact h | apply OnlyBay.modBay | apply OnlyBay.unbind | apply OnlyBay.drainLine | apply OnlyBay.endJobOnce

theorem OnlyBay.sendBlock {b : BayId} {s t : State} (h : OnlyBay b s t) :
    OnlyBay b s (t.sendBlock b) := by
  simp only [State.sendBlock]
  repeat' split
  all_goals with_reducible repeat first | exact h | apply OnlyBay.modBay

theorem OnlyBay.enterStream {b : BayId} {s t : State} (h : OnlyBay b s t) :
    OnlyBay b s (t.enterStream b) := by
  simp only [State.enterStream]
  with_reducible repeat first | exact h | apply OnlyBay.modBay | apply OnlyBay.sendBlock

theorem OnlyBay.offerOpen {b : BayId} {s t : State} (h : OnlyBay b s t) :
    OnlyBay b s (t.offerOpen b) := by
  simp only [State.offerOpen]
  repeat' split
  all_goals with_reducible repeat first | exact h | apply OnlyBay.modBay

theorem OnlyBay.afterOpen {b : BayId} {s t : State} (h : OnlyBay b s t) :
    OnlyBay b s (t.afterOpen b) := by
  simp only [State.afterOpen]
  repeat' split
  all_goals with_reducible repeat first | exact h | apply OnlyBay.modBay | apply OnlyBay.enterStream

theorem OnlyBay.enterOpen {b : BayId} {s t : State} (h : OnlyBay b s t) :
    OnlyBay b s (t.enterOpen b) := by
  simp only [State.enterOpen]
  repeat' split
  all_goals with_reducible repeat first | exact h | apply OnlyBay.modBay | apply OnlyBay.offerOpen | apply OnlyBay.afterOpen

theorem OnlyBay.startPass {b : BayId} {s t : State} (h : OnlyBay b s t) (f : Pass → Bool) (p : Pass) :
    OnlyBay b s (t.startPass b f p) := by
  simp only [State.startPass]
  with_reducible repeat first | exact h | apply OnlyBay.modBay | apply OnlyBay.enterOpen

theorem OnlyBay.restInDone {b : BayId} {s t : State} (h : OnlyBay b s t) :
    OnlyBay b s (t.restInDone b) := by
  simp only [State.restInDone]
  repeat' split
  all_goals with_reducible repeat first | exact h | apply OnlyBay.modBay | apply OnlyBay.post

theorem OnlyBay.admissionRun {b : BayId} {s t : State} (h : OnlyBay b s t) :
    OnlyBay b s (t.admissionRun b) := by
  simp only [State.admissionRun]
  repeat' split
  all_goals with_reducible repeat first | exact h | apply OnlyBay.modBay | apply OnlyBay.startPass | apply OnlyBay.restInDone

theorem OnlyBay.completePlanning {b : BayId} {s t : State} (h : OnlyBay b s t) (g : Nat) :
    OnlyBay b s (t.completePlanning b g) := by
  unfold State.completePlanning
  extract_lets units s1 plans s2 s3
  have h1 : OnlyBay b s s1 := h.modBay _
  have h2 : OnlyBay b s s2 := h1.counters _
  have h3 : OnlyBay b s s3 := h2.modBound fun _ => ⟨rfl, .inl rfl⟩
  split
  · exact (h3.modBay _).post _ _
  · exact (h3.modBay _).admissionRun

theorem OnlyBay.startPlanning {b : BayId} {s t : State} (h : OnlyBay b s t) :
    OnlyBay b s (t.startPlanning b) := by
  simp only [State.startPlanning]
  repeat' split
  all_goals with_reducible repeat first | exact h | apply OnlyBay.modBay | apply OnlyBay.completePlanning

theorem OnlyBay.endPass {b : BayId} {s t : State} (h : OnlyBay b s t) :
    OnlyBay b s (t.endPass b) := by
  simp only [State.endPass]
  repeat' split
  all_goals with_reducible repeat first | exact h | apply OnlyBay.modBay | apply OnlyBay.admissionRun | apply OnlyBay.startPlanning

theorem OnlyBay.finishOpen {b : BayId} {s t : State} (h : OnlyBay b s t) (p : Pass) :
    OnlyBay b s (t.finishOpen b p) := by
  simp only [State.finishOpen, State.finishPhase]
  repeat' split
  all_goals with_reducible repeat first | exact h | apply OnlyBay.modBay | apply OnlyBay.afterOpen | apply OnlyBay.endPass

theorem OnlyBay.continueOpen {b : BayId} {s t : State} (h : OnlyBay b s t) :
    OnlyBay b s (t.continueOpen b) := by
  simp only [State.continueOpen]
  repeat' split
  all_goals with_reducible repeat first | exact h | apply OnlyBay.offerOpen | apply OnlyBay.finishOpen

theorem OnlyBay.takeOpen {b : BayId} {s t : State} (h : OnlyBay b s t) (a : Nat) (r : Bool) (o : LineOutcome) :
    OnlyBay b s (t.takeOpen b a r o) := by
  simp only [State.takeOpen]
  repeat' split
  all_goals with_reducible repeat first | exact h | apply OnlyBay.modBay | apply OnlyBay.faultMember | apply OnlyBay.continueOpen

theorem OnlyBay.finishRepair {b : BayId} {s t : State} (h : OnlyBay b s t) (p : Pass) :
    OnlyBay b s (t.finishRepair b p) := by
  simp only [State.finishRepair, State.finishPhase]
  repeat' split
  all_goals with_reducible repeat first | exact h | apply OnlyBay.modBay | apply OnlyBay.endPass

theorem OnlyBay.leaveRepairMember {b : BayId} {s t : State} (h : OnlyBay b s t) :
    OnlyBay b s (t.leaveRepairMember b) := by
  simp only [State.leaveRepairMember]
  repeat' split
  all_goals with_reducible repeat first | exact h | apply OnlyBay.modBay | apply OnlyBay.finishRepair

theorem OnlyBay.repairStep {b : BayId} {s t : State} (h : OnlyBay b s t) :
    OnlyBay b s (t.repairStep b) := by
  simp only [State.repairStep]
  repeat' split
  all_goals with_reducible repeat first | exact h | apply OnlyBay.modBay | apply OnlyBay.faultMember | apply OnlyBay.sendBlock | apply OnlyBay.leaveRepairMember

theorem OnlyBay.countFirstGaps {b : BayId} {s t : State} (h : OnlyBay b s t) (p : Pass) (o : LineOutcome) :
    OnlyBay b s (t.countFirstGaps b p o) := by
  simp only [State.countFirstGaps]
  repeat' split
  all_goals with_reducible repeat first | exact h | apply OnlyBay.modBay

theorem OnlyBay.takeRepairGaps {b : BayId} {s t : State} (h : OnlyBay b s t) (a : Nat) (o : LineOutcome) :
    OnlyBay b s (t.takeRepairGaps b a o) := by
  simp only [State.takeRepairGaps]
  repeat' split
  all_goals with_reducible repeat first | exact h | apply OnlyBay.modBay | apply OnlyBay.faultMember | apply OnlyBay.leaveRepairMember | apply OnlyBay.repairStep | apply OnlyBay.countFirstGaps

theorem OnlyBay.finishStream {b : BayId} {s t : State} (h : OnlyBay b s t) (p : Pass) :
    OnlyBay b s (t.finishStream b p) := by
  simp only [State.finishStream, State.finishPhase]
  repeat' split
  all_goals with_reducible repeat first | exact h | apply OnlyBay.modBay

theorem OnlyBay.takeBlockSent {b : BayId} {s t : State} (h : OnlyBay b s t) :
    OnlyBay b s (t.takeBlockSent b) := by
  simp only [State.takeBlockSent]
  repeat' split
  all_goals with_reducible repeat first | exact h | apply OnlyBay.modBay | apply OnlyBay.sendBlock | apply OnlyBay.repairStep | apply OnlyBay.finishStream

theorem OnlyBay.continueCheck {b : BayId} {s t : State} (h : OnlyBay b s t) :
    OnlyBay b s (t.continueCheck b) := by
  simp only [State.continueCheck]
  repeat' split
  all_goals with_reducible repeat first | exact h | apply OnlyBay.modBay | apply OnlyBay.endPass

theorem OnlyBay.refetchOrFault {b : BayId} {s t : State} (h : OnlyBay b s t) (a : Nat) (r : FaultReason) :
    OnlyBay b s (t.refetchOrFault b a r) := by
  unfold State.refetchOrFault
  split
  · exact h.faultMember _ _ _ _
  · exact h.modBay _

theorem OnlyBay.checkMember {b : BayId} {s t : State} (h : OnlyBay b s t) (a i : Nat) (o : LineOutcome) :
    OnlyBay b s (t.checkMember b a i o) := by
  cases o with
  | reply r =>
    cases r with
    | digest c => exact OnlyBay.ite (h.modBay _) ((h.modBay _).refetchOrFault _ _)
    | reject r =>
      cases r
      case notComplete => exact (h.modBay _).refetchOrFault _ _
      all_goals exact h.faultMember _ _ _ _
    | _ => exact h.faultMember _ _ _ _
  | _ => exact h.faultMember _ _ _ _

theorem OnlyBay.takeCheck {b : BayId} {s t : State} (h : OnlyBay b s t) (a : Nat) (o : LineOutcome) :
    OnlyBay b s (t.takeCheck b a o) := by
  unfold State.takeCheck
  split
  · exact h
  · exact (h.checkMember a _ o).continueCheck

theorem OnlyBay.enterNext {b : BayId} {s t : State} (h : OnlyBay b s t) (p : Pass) :
    OnlyBay b s (t.enterNext b p) := by
  simp only [State.enterNext]
  repeat' split
  all_goals with_reducible repeat first | exact h | apply OnlyBay.modBay | apply OnlyBay.afterOpen

theorem OnlyBay.offerNext {b : BayId} {s t : State} (h : OnlyBay b s t) (p : Pass) :
    OnlyBay b s (t.offerNext b p) := by
  simp only [State.offerNext]
  repeat' split
  all_goals with_reducible repeat first | exact h | apply OnlyBay.modBay | apply OnlyBay.sendBlock | apply OnlyBay.offerOpen | apply OnlyBay.repairStep

theorem OnlyBay.resumePass {b : BayId} {s t : State} (h : OnlyBay b s t) (p : Pass) :
    OnlyBay b s (t.resumePass b p) := by
  simp only [State.resumePass]
  repeat' split
  all_goals with_reducible repeat first | exact h | apply OnlyBay.modBay | apply OnlyBay.enterNext | apply OnlyBay.offerNext

theorem OnlyBay.holdEmptied {b : BayId} {s t : State} (h : OnlyBay b s t) :
    OnlyBay b s (t.holdEmptied b) := by
  simp only [State.holdEmptied]
  repeat' split
  all_goals with_reducible repeat first | exact h | apply OnlyBay.admissionRun | apply OnlyBay.resumePass

theorem OnlyBay.recordSwitch {b : BayId} {s t : State} (h : OnlyBay b s t) (w : Switch) :
    OnlyBay b s (t.recordSwitch b w) := by
  simp only [State.recordSwitch]
  repeat' split
  all_goals with_reducible repeat first | exact h | apply OnlyBay.modBay | apply OnlyBay.post | exact fun _ => ⟨rfl, .inl rfl⟩ | apply OnlyBay.modBound | apply OnlyBay.splitGroup

theorem OnlyBay.endSwitch {b : BayId} {s t : State} (h : OnlyBay b s t) (w : Switch) :
    OnlyBay b s (t.endSwitch b w) := by
  simp only [State.endSwitch]
  repeat' split
  all_goals with_reducible repeat first | exact h | apply OnlyBay.modBay | apply OnlyBay.cutOffBay | apply OnlyBay.admissionRun | apply OnlyBay.startPlanning | apply OnlyBay.recordSwitch

theorem OnlyBay.continueSwitch {b : BayId} {s t : State} (h : OnlyBay b s t) :
    OnlyBay b s (t.continueSwitch b) := by
  simp only [State.continueSwitch]
  repeat' split
  all_goals with_reducible repeat first | exact h | apply OnlyBay.modBay | apply OnlyBay.endSwitch

theorem OnlyBay.failSwitch {b : BayId} {s t : State} (h : OnlyBay b s t) (a : Nat) (c : LineCommand) :
    OnlyBay b s (t.failSwitch b a c) := by
  simp only [State.failSwitch]
  with_reducible repeat first | exact h | apply OnlyBay.modBay | apply OnlyBay.faultUnit

theorem OnlyBay.settleRound {b : BayId} {s t : State} (h : OnlyBay b s t) :
    OnlyBay b s (t.settleRound b) := by
  simp only [State.settleRound]
  repeat' split
  all_goals with_reducible repeat first | exact h | apply OnlyBay.modBay | apply OnlyBay.endSwitch

theorem OnlyBay.takeSwitch {b : BayId} {s t : State} (h : OnlyBay b s t) (a : Nat) (o : LineOutcome) :
    OnlyBay b s (t.takeSwitch b a o) := by
  simp only [State.takeSwitch]
  repeat' split
  all_goals with_reducible repeat first | exact h | apply OnlyBay.modBay | apply OnlyBay.continueSwitch | apply OnlyBay.failSwitch

theorem OnlyBay.confirmMember {b : BayId} {s t : State} (h : OnlyBay b s t) (a : Nat) (v : Version) :
    OnlyBay b s (t.confirmMember b a v) := by
  simp only [State.confirmMember]
  with_reducible repeat first | exact h | apply OnlyBay.modBay | exact fun _ => ⟨rfl, .inl rfl⟩ | apply OnlyBay.modBound

theorem OnlyBay.takeConfirm {b : BayId} {s t : State} (h : OnlyBay b s t) (a : Nat) (o : LineOutcome) :
    OnlyBay b s (t.takeConfirm b a o) := by
  simp only [State.takeConfirm]
  repeat' split
  all_goals with_reducible repeat first | exact h | apply OnlyBay.modBay | apply OnlyBay.continueSwitch | apply OnlyBay.failSwitch | apply OnlyBay.confirmMember

theorem OnlyBay.enterAnomaly {b : BayId} {s t : State} (h : OnlyBay b s t) (x : BayState) :
    OnlyBay b s (t.enterAnomaly b x) := by
  simp only [State.enterAnomaly]
  with_reducible repeat first | exact h | apply OnlyBay.modBay | apply OnlyBay.post

theorem OnlyBay.endSweep {b : BayId} {s t : State} (h : OnlyBay b s t) :
    OnlyBay b s (t.endSweep b) := by
  unfold State.endSweep
  split
  · exact h.enterAnomaly _
  · next fleet _ =>
    have h1 := h.offerFleet fleet
    split
    · next e => rw [e] at h1; exact h1.enterAnomaly _
    · next e => rw [e] at h1; exact (h1.modBay _).refreshBound.startPlanning

theorem OnlyBay.takeSweep {b : BayId} {s t : State} (h : OnlyBay b s t) (a : Nat) (o : LineOutcome) :
    OnlyBay b s (t.takeSweep b a o) := by
  simp only [State.takeSweep]
  repeat' split
  all_goals with_reducible repeat first | exact h | apply OnlyBay.modBay | apply OnlyBay.endSweep

theorem OnlyBay.goOnPlanning {b : BayId} {s t : State} (h : OnlyBay b s t) (a : Nat) (o : LineOutcome) :
    OnlyBay b s (t.goOnPlanning b a o) := by
  simp only [State.goOnPlanning]
  repeat' split
  all_goals with_reducible repeat first | exact h | apply OnlyBay.modBay | apply OnlyBay.faultUnit | apply OnlyBay.completePlanning

theorem OnlyBay.restartPlanning {b : BayId} {s t : State} (h : OnlyBay b s t) : OnlyBay b s (t.restartPlanning b) :=
  (h.modBay _).startPlanning

theorem OnlyBay.takePlanningGaps {b : BayId} {s t : State} (h : OnlyBay b s t) (a : Nat) (o : LineOutcome) :
    OnlyBay b s (t.takePlanningGaps b a o) := by
  unfold State.takePlanningGaps
  split
  · exact h.restartPlanning
  · exact h.goOnPlanning a o

theorem OnlyBay.handBack {b : BayId} {s t : State} (h : OnlyBay b s t) (tr : Transaction) (o : LineOutcome) :
    OnlyBay b s (t.handBack b tr o) := by
  simp only [State.handBack]
  repeat' split
  all_goals with_reducible repeat first | exact h | apply OnlyBay.modBay | apply OnlyBay.takeOpen | apply OnlyBay.takeRepairGaps | apply OnlyBay.takeCheck | apply OnlyBay.takeSwitch | apply OnlyBay.takeConfirm | apply OnlyBay.takeSweep | apply OnlyBay.takePlanningGaps

theorem OnlyBay.noReplyAttempt {b : BayId} {s t : State} (h : OnlyBay b s t) (tr : Transaction) :
    OnlyBay b s (t.noReplyAttempt b tr) := by
  simp only [State.noReplyAttempt]
  repeat' split
  all_goals with_reducible repeat first | exact h | apply OnlyBay.modBay | apply OnlyBay.handBack

theorem OnlyBay.notReady {b : BayId} {s t : State} (h : OnlyBay b s t) (tr : Transaction) :
    OnlyBay b s (t.notReady b tr) := by
  simp only [State.notReady]
  repeat' split
  all_goals with_reducible repeat first | exact h | apply OnlyBay.modBay | apply OnlyBay.handBack

theorem OnlyBay.takeNotice {b : BayId} {s t : State} (h : OnlyBay b s t) :
    OnlyBay b s (t.takeNotice b) := by
  simp only [State.takeNotice]
  repeat' split
  all_goals with_reducible repeat first | exact h | apply OnlyBay.modBay | apply OnlyBay.startPlanning

theorem OnlyBay.resetBay {b : BayId} {s t : State} (h : OnlyBay b s t) :
    OnlyBay b s (t.resetBay b) := by
  simp only [State.resetBay]
  repeat' split
  all_goals with_reducible repeat first | exact h | apply OnlyBay.modBay | apply OnlyBay.leaveBus

theorem OnlyBay.disableBay {b : BayId} {s t : State} (h : OnlyBay b s t) :
    OnlyBay b s (t.disableBay b) := by
  simp only [State.disableBay]
  repeat' split
  all_goals with_reducible repeat first | exact h | apply OnlyBay.modBay | apply OnlyBay.leaveBus

theorem OnlyBay.bayReset {b : BayId} {s t : State} (h : OnlyBay b s t) :
    OnlyBay b s (t.bayReset b) := by
  simp only [State.bayReset]
  with_reducible repeat first | exact h | apply OnlyBay.modBay | apply OnlyBay.resetBay

theorem OnlyBay.clearCutoff {b : BayId} {s t : State} (h : OnlyBay b s t) :
    OnlyBay b s (t.clearCutoff b) := by
  simp only [State.clearCutoff]
  repeat' split
  all_goals with_reducible repeat first | exact h | apply OnlyBay.modBay | apply OnlyBay.unbind | apply OnlyBay.deadlineCompare

theorem OnlyBay.dropRule {b : BayId} {s t : State} (h : OnlyBay b s t) :
    OnlyBay b s (t.dropRule b) := by
  simp only [State.dropRule]
  repeat' split
  all_goals with_reducible repeat first | exact h | apply OnlyBay.modBay | apply OnlyBay.holdEmptied

theorem OnlyBay.dropHold {b : BayId} {s t : State} (h : OnlyBay b s t) (p : PortId) :
    OnlyBay b s (State.dropHold p t b) := by
  simp only [State.dropHold]
  repeat' split
  all_goals with_reducible repeat first | exact h | apply OnlyBay.modBay | apply OnlyBay.holdEmptied

end Sys2Proof
end

