-- ==== Sys2Proof/Laws/BaySettings.lean ====
section
/-! SUPPORT. What a bay's own work leaves alone: its configuration, filters, departure, cutoff time, and, up to
a cutoff or the end of a switch, its hold set, its cutoff flag and its being in service. -/

namespace Sys2Proof.Machine

/-- What no work of a bay changes. -/
structure Settings where
  config : BayConfig
  presentFilter : Filter
  ignitionFilter : Filter
  departure : Option Time
  cutoffTime : Option Time
  warned : Bool

/-- The settings of a bay. -/
def Bay.settings (y : Bay) : Settings :=
  { config := y.config, presentFilter := y.presentFilter, ignitionFilter := y.ignitionFilter,
    departure := y.departure, cutoffTime := y.cutoffTime, warned := y.warned }

/-- The settings of a bay with its hold set and cutoff flag: what only a cutoff or the end of a switch changes. -/
def Bay.standing (y : Bay) : Settings × HoldSet × Option CutoffCause := (y.settings, y.holds, y.cutoff)

theorem settings_of_standing {x y : Bay} (h : x.standing = y.standing) : x.settings = y.settings := congrArg (·.1) h

/-! ### The operations on a bay -/

@[simp] theorem standing_modUnit (y : Bay) (a : Nat) (f : JobUnit → JobUnit) : (y.modUnit a f).standing = y.standing := by
  simp only [Bay.modUnit]
  rfl

@[simp] theorem standing_modUnits (y : Bay) (a : List Nat) (f : JobUnit → JobUnit) : (y.modUnits a f).standing = y.standing := by
  simp only [Bay.modUnits]
  rfl

@[simp] theorem standing_modPass (y : Bay) (f : Pass → Pass) : (y.modPass f).standing = y.standing := by
  simp only [Bay.modPass]
  rfl

@[simp] theorem standing_modGroup (y : Bay) (g : Nat) (f : GroupRecord → GroupRecord) : (y.modGroup g f).standing = y.standing := by
  simp only [Bay.modGroup]
  rfl

@[simp] theorem standing_modPolls (y : Bay) (f : List Poll → List Poll) : (y.modPolls f).standing = y.standing := by
  simp only [Bay.modPolls]
  rfl

@[simp] theorem standing_addSent (y : Bay) (a : Nat) : (y.addSent a).standing = y.standing := by
  simp only [Bay.addSent]
  repeat' split
  all_goals rfl

@[simp] theorem standing_startFrame (y : Bay) (r : LineRequest) (act : Activity) : (y.startFrame r act).standing = y.standing := by
  simp only [Bay.startFrame]
  rfl

@[simp] theorem standing_startLine (y : Bay) : (y.startLine).standing = y.standing := by
  simp only [Bay.startLine]
  repeat' split
  all_goals first | rfl | (simp; rfl)

@[simp] theorem standing_offer (y : Bay) (r : LineRequest) (act : Activity) : (y.offer r act).standing = y.standing := by
  simp only [Bay.offer]
  repeat' split
  all_goals rfl

@[simp] theorem standing_takeOffered (y : Bay) : (y.takeOffered).standing = y.standing := by
  simp only [Bay.takeOffered]
  repeat' split
  all_goals rfl

@[simp] theorem standing_endTransaction (y : Bay) : (y.endTransaction).standing = y.standing := by
  simp only [Bay.endTransaction]
  rfl

@[simp] theorem standing_endDrain (y : Bay) : (y.endDrain).standing = y.standing := by
  simp only [Bay.endDrain]
  simp

@[simp] theorem standing_resend (y : Bay) (f : Transaction → Transaction) : (y.resend f).standing = y.standing := by
  simp only [Bay.resend]
  rfl

@[simp] theorem standing_drainEngine (y : Bay) : (y.drainEngine).standing = y.standing := by
  simp only [Bay.drainEngine]
  repeat' split
  all_goals rfl

@[simp] theorem standing_askBlock (y : Bay) (i k : Nat) : (y.askBlock i k).standing = y.standing := by
  simp only [Bay.askBlock]
  rfl

@[simp] theorem standing_flagGroupOf (y : Bay) (a : Nat) : (y.flagGroupOf a).standing = y.standing := by
  simp only [Bay.flagGroupOf]
  repeat' split
  all_goals rfl

@[simp] theorem standing_offerCheck (y : Bay) : (y.offerCheck).standing = y.standing := by
  simp only [Bay.offerCheck]
  repeat' split
  all_goals simp

@[simp] theorem standing_enterCheck (y : Bay) : (y.enterCheck).standing = y.standing := by
  simp only [Bay.enterCheck]
  simp

@[simp] theorem standing_offerGaps (y : Bay) : (y.offerGaps).standing = y.standing := by
  simp only [Bay.offerGaps]
  repeat' split
  all_goals simp

@[simp] theorem standing_nextRepairMember (y : Bay) : (y.nextRepairMember).standing = y.standing := by
  simp only [Bay.nextRepairMember]
  repeat' split
  all_goals simp

@[simp] theorem standing_enterRepair (y : Bay) : (y.enterRepair).standing = y.standing := by
  simp only [Bay.enterRepair]
  simp

@[simp] theorem standing_takeRateSample (y : Bay) (p : Pass) : (y.takeRateSample p).standing = y.standing := by
  simp only [Bay.takeRateSample]
  repeat' split
  all_goals rfl

@[simp] theorem standing_takeGapSample (y : Bay) (p : Pass) (n : Nat) : (y.takeGapSample p n).standing = y.standing := by
  simp only [Bay.takeGapSample]
  repeat' split
  all_goals rfl

@[simp] theorem standing_defer (y : Bay) (a : List Nat) : (y.defer a).standing = y.standing := by
  simp only [Bay.defer]
  rfl

@[simp] theorem standing_startSwitch (y : Bay) (t : SwitchTry) : (y.startSwitch t).standing = y.standing := by
  simp only [Bay.startSwitch]
  repeat' split
  all_goals first | rfl | (simp; rfl)

@[simp] theorem standing_refetch (y : Bay) (a : Nat) : (y.refetch a).standing = y.standing := by
  simp only [Bay.refetch]
  repeat' split
  all_goals rfl

@[simp] theorem standing_verifyMember (y : Bay) (a : Nat) : (y.verifyMember a).standing = y.standing := by
  simp only [Bay.verifyMember]
  repeat' split
  all_goals rfl

@[simp] theorem standing_pollDue (y : Bay) (now : Time) : (y.pollDue now).standing = y.standing := by
  simp only [Bay.pollDue]
  repeat' split
  all_goals simp

@[simp] theorem standing_sweepTo (y : Bay) (a : Nat) : (y.sweepTo a).standing = y.standing := by
  simp only [Bay.sweepTo]
  all_goals (simp; rfl)

@[simp] theorem standing_enterSweep (y : Bay) : (y.enterSweep).standing = y.standing := by
  simp only [Bay.enterSweep]
  rfl

@[simp] theorem standing_beginSweep (y : Bay) : (y.beginSweep).standing = y.standing := by
  simp only [Bay.beginSweep]
  simp

@[simp] theorem standing_countStreaming (y : Bay) : (y.countStreaming).standing = y.standing := by
  simp only [Bay.countStreaming]
  repeat' split
  all_goals rfl

@[simp] theorem standing_dropWork (y : Bay) : (y.dropWork).standing = y.standing := by
  simp only [Bay.dropWork]
  rfl

@[simp] theorem standing_pendCutoff (y : Bay) (c : CutoffCause) : (y.pendCutoff c).standing = y.standing := by
  simp only [Bay.pendCutoff]
  repeat' split
  all_goals rfl

@[simp] theorem standing_discardWaiting (y : Bay) : (y.discardWaiting).standing = y.standing := by
  simp only [Bay.discardWaiting]
  rfl

@[simp] theorem standing_markReplan (y : Bay) : (y.markReplan).standing = y.standing := by
  simp only [Bay.markReplan]
  repeat' split
  all_goals rfl

@[simp] theorem state_modUnit (y : Bay) (a : Nat) (f : JobUnit → JobUnit) : (y.modUnit a f).state = y.state := by
  simp only [Bay.modUnit]

@[simp] theorem state_modUnits (y : Bay) (a : List Nat) (f : JobUnit → JobUnit) : (y.modUnits a f).state = y.state := by
  simp only [Bay.modUnits]

@[simp] theorem state_modPass (y : Bay) (f : Pass → Pass) : (y.modPass f).state = y.state := by
  simp only [Bay.modPass]

@[simp] theorem state_modGroup (y : Bay) (g : Nat) (f : GroupRecord → GroupRecord) : (y.modGroup g f).state = y.state := by
  simp only [Bay.modGroup]

@[simp] theorem state_modPolls (y : Bay) (f : List Poll → List Poll) : (y.modPolls f).state = y.state := by
  simp only [Bay.modPolls]

@[simp] theorem state_addSent (y : Bay) (a : Nat) : (y.addSent a).state = y.state := by
  simp only [Bay.addSent]
  repeat' split
  all_goals rfl

@[simp] theorem state_startFrame (y : Bay) (r : LineRequest) (act : Activity) : (y.startFrame r act).state = y.state := by
  simp only [Bay.startFrame]

@[simp] theorem state_startLine (y : Bay) : (y.startLine).state = y.state := by
  simp only [Bay.startLine]
  repeat' split
  all_goals simp

@[simp] theorem state_offer (y : Bay) (r : LineRequest) (act : Activity) : (y.offer r act).state = y.state := by
  simp only [Bay.offer]
  repeat' split
  all_goals rfl

@[simp] theorem state_takeOffered (y : Bay) : (y.takeOffered).state = y.state := by
  simp only [Bay.takeOffered]
  repeat' split
  all_goals rfl

@[simp] theorem state_endTransaction (y : Bay) : (y.endTransaction).state = y.state := by
  simp only [Bay.endTransaction]

@[simp] theorem state_endDrain (y : Bay) : (y.endDrain).state = y.state := by
  simp only [Bay.endDrain]
  simp

@[simp] theorem state_resend (y : Bay) (f : Transaction → Transaction) : (y.resend f).state = y.state := by
  simp only [Bay.resend]

@[simp] theorem state_drainEngine (y : Bay) : (y.drainEngine).state = y.state := by
  simp only [Bay.drainEngine]
  repeat' split
  all_goals rfl

@[simp] theorem state_askBlock (y : Bay) (i k : Nat) : (y.askBlock i k).state = y.state := by
  simp only [Bay.askBlock]

@[simp] theorem state_flagGroupOf (y : Bay) (a : Nat) : (y.flagGroupOf a).state = y.state := by
  simp only [Bay.flagGroupOf]
  repeat' split
  all_goals rfl

@[simp] theorem state_offerCheck (y : Bay) : (y.offerCheck).state = y.state := by
  simp only [Bay.offerCheck]
  repeat' split
  all_goals simp

@[simp] theorem state_enterCheck (y : Bay) : (y.enterCheck).state = y.state := by
  simp only [Bay.enterCheck]
  simp

@[simp] theorem state_offerGaps (y : Bay) : (y.offerGaps).state = y.state := by
  simp only [Bay.offerGaps]
  repeat' split
  all_goals simp

@[simp] theorem state_nextRepairMember (y : Bay) : (y.nextRepairMember).state = y.state := by
  simp only [Bay.nextRepairMember]
  repeat' split
  all_goals simp

@[simp] theorem state_enterRepair (y : Bay) : (y.enterRepair).state = y.state := by
  simp only [Bay.enterRepair]
  simp

@[simp] theorem state_takeRateSample (y : Bay) (p : Pass) : (y.takeRateSample p).state = y.state := by
  simp only [Bay.takeRateSample]
  repeat' split
  all_goals rfl

@[simp] theorem state_takeGapSample (y : Bay) (p : Pass) (n : Nat) : (y.takeGapSample p n).state = y.state := by
  simp only [Bay.takeGapSample]
  repeat' split
  all_goals rfl

@[simp] theorem state_defer (y : Bay) (a : List Nat) : (y.defer a).state = y.state := by
  simp only [Bay.defer]
  rfl

@[simp] theorem state_refetch (y : Bay) (a : Nat) : (y.refetch a).state = y.state := by
  simp only [Bay.refetch]
  repeat' split
  all_goals rfl

@[simp] theorem state_verifyMember (y : Bay) (a : Nat) : (y.verifyMember a).state = y.state := by
  simp only [Bay.verifyMember]
  repeat' split
  all_goals rfl

@[simp] theorem state_pollDue (y : Bay) (now : Time) : (y.pollDue now).state = y.state := by
  simp only [Bay.pollDue]
  repeat' split
  all_goals simp

@[simp] theorem state_sweepTo (y : Bay) (a : Nat) : (y.sweepTo a).state = y.state := by
  simp only [Bay.sweepTo]
  simp

@[simp] theorem state_countStreaming (y : Bay) : (y.countStreaming).state = y.state := by
  simp only [Bay.countStreaming]
  repeat' split
  all_goals rfl

@[simp] theorem state_dropWork (y : Bay) : (y.dropWork).state = y.state := by
  simp only [Bay.dropWork]

@[simp] theorem state_pendCutoff (y : Bay) (c : CutoffCause) : (y.pendCutoff c).state = y.state := by
  simp only [Bay.pendCutoff]

@[simp] theorem state_discardWaiting (y : Bay) : (y.discardWaiting).state = y.state := by
  simp only [Bay.discardWaiting]
  rfl

@[simp] theorem state_markReplan (y : Bay) : (y.markReplan).state = y.state := by
  simp only [Bay.markReplan]
  repeat' split
  all_goals rfl

@[simp] theorem state_startSwitch (y : Bay) (t : SwitchTry) : (y.startSwitch t).state = .switching := by
  simp only [Bay.startSwitch]
  split
  all_goals first | rfl | simp


/-! ### The operations of the part at a bay -/

/-- The bay is in service: in none of DISABLED, EMPTY and CUTOFF. -/
def BayState.inService : BayState → Bool
  | .disabled | .empty | .cutoff => false
  | .enumerating | .planning | .anonymous | .duplicate | .transferring | .switching | .done => true

/-- A bay keeps its standing, and stays in service if it was. -/
def Keeps (x y : Bay) : Prop := y.standing = x.standing ∧ (x.state.inService = true → y.state.inService = true)

theorem Keeps.refl (x : Bay) : Keeps x x := ⟨rfl, id⟩

theorem Keeps.same {x : Bay} {s t : State} {b c : BayId} (e : s.bay c = t.bay b) (h : Keeps x (t.bay b)) :
    Keeps x (s.bay c) := e ▸ h

theorem Keeps.modBay {x : Bay} {t : State} {b : BayId} {f : Bay → Bay} (h : Keeps x (t.bay b))
    (hf : ∀ y, Keeps y (f y)) : Keeps x ((t.modBay b f).bay b) := by
  rw [State.bay_modBay_same]
  exact ⟨(hf _).1.trans h.1, fun k => (hf _).2 (h.2 k)⟩

theorem Keeps.post {x : Bay} {t : State} {b : BayId} (h : Keeps x (t.bay b)) (k : EventKind) (z : Subject) :
    Keeps x ((t.post k z).bay b) := h

theorem Keeps.modBound {x : Bay} {t : State} {b : BayId} (h : Keeps x (t.bay b)) (c : BayId) (f : BusRecord → BusRecord) :
    Keeps x ((t.modBound c f).bay b) := h

theorem Keeps.plans {x : Bay} {t : State} {b : BayId} (h : Keeps x (t.bay b)) (c : PlanStore) :
    Keeps x (({ t with plans := c } : State).bay b) := h

theorem Keeps.ite {x : Bay} {s t : State} {b : BayId} {c : Prop} [Decidable c] (h : Keeps x (s.bay b))
    (k : Keeps x (t.bay b)) : Keeps x ((if c then s else t).bay b) := by split <;> assumption

theorem Keeps.enterAnomaly {x : Bay} {t : State} {b : BayId} (h : Keeps x (t.bay b)) {st : BayState}
    (hs : st.inService = true) : Keeps x ((t.enterAnomaly b st).bay b) := by
  simp only [State.enterAnomaly]
  refine Keeps.post (Keeps.modBay h ?_) _ _
  exact fun y => ⟨rfl, fun _ => hs⟩

theorem bay_foldPosts (k : EventKind) (f : JobUnit → Subject) (l : List JobUnit) (b : BayId) :
    ∀ t : State, (l.foldl (fun t u => t.post k (f u)) t).bay b = t.bay b := by
  induction l with
  | nil => exact fun _ => rfl
  | cons u rest ih => exact fun t => (ih _).trans (State.bay_post _ _ _ _)

theorem bay_evictIfFull (t : State) (b : BayId) : t.evictIfFull.bay b = t.bay b := by
  unfold State.evictIfFull
  repeat' split
  all_goals rfl

theorem bay_offerFleet (t : State) (b : BayId) (n : Nat) (c : BayId) : (t.offerFleet b n).2.bay c = t.bay c := by
  unfold State.offerFleet
  repeat' split
  all_goals first | rfl | exact bay_evictIfFull (t.unbind b) c

theorem Keeps.faultUnit {x : Bay} {t : State} {b : BayId} (h : Keeps x (t.bay b)) (a : Nat) (r : FaultReason) (c : LineCommand) (k : Option Nat) : Keeps x ((t.faultUnit b a r c k).bay b) := by
  simp only [State.faultUnit]
  all_goals
    repeat
      first
      | with_reducible exact h
      | with_reducible apply Keeps.modBay
      | exact fun _ => ⟨rfl, id⟩
      | with_reducible apply Keeps.post
      | with_reducible apply Keeps.modBound

theorem Keeps.faultMember {x : Bay} {t : State} {b : BayId} (h : Keeps x (t.bay b)) (a : Nat) (r : FaultReason) (c : LineCommand) (k : Option Nat) : Keeps x ((t.faultMember b a r c k).bay b) := by
  simp only [State.faultMember]
  all_goals
    repeat
      first
      | with_reducible exact h
      | with_reducible apply Keeps.modBay
      | exact fun _ => ⟨(by simp), (by simp)⟩
      | with_reducible apply Keeps.post
      | with_reducible apply Keeps.modBound
      | with_reducible apply Keeps.faultUnit

theorem Keeps.splitGroup {x : Bay} {t : State} {b : BayId} (h : Keeps x (t.bay b)) (g : Nat) : Keeps x ((t.splitGroup b g).bay b) := by
  simp only [State.splitGroup]
  repeat' split
  all_goals
    repeat
      first
      | with_reducible exact h
      | with_reducible apply Keeps.modBay
      | exact fun _ => ⟨rfl, id⟩
      | with_reducible apply Keeps.post
      | with_reducible apply Keeps.modBound

theorem Keeps.breakOffSwitch {x : Bay} {t : State} {b : BayId} (h : Keeps x (t.bay b)) : Keeps x ((t.breakOffSwitch b).bay b) := by
  simp only [State.breakOffSwitch]
  repeat' split
  all_goals
    repeat
      first
      | with_reducible exact h
      | with_reducible apply Keeps.modBay
      | exact fun _ => ⟨rfl, id⟩
      | with_reducible apply Keeps.post
      | with_reducible apply Keeps.modBound
      | with_reducible apply Keeps.splitGroup

theorem Keeps.endJob {x : Bay} {t : State} {b : BayId} (h : Keeps x (t.bay b)) : Keeps x ((t.endJob b).bay b) := by
  simp only [State.endJob]
  all_goals
    repeat
      first
      | with_reducible exact h
      | with_reducible apply Keeps.modBay
      | exact fun _ => ⟨rfl, id⟩
      | with_reducible apply Keeps.post
      | with_reducible apply Keeps.modBound
      | with_reducible apply Keeps.breakOffSwitch

theorem Keeps.drainLine {x : Bay} {t : State} {b : BayId} (h : Keeps x (t.bay b)) : Keeps x ((t.drainLine b).bay b) := by
  simp only [State.drainLine]
  have k : Keeps x ((t.modBay b fun y => { y.drainEngine with reader := { waiting := none, buffer := none } }).bay b) :=
    Keeps.modBay h fun y => ⟨(rfl : _ = y.drainEngine.standing).trans (by simp), fun e => (state_drainEngine y).symm ▸ e⟩
  exact k

theorem Keeps.sendBlock {x : Bay} {t : State} {b : BayId} (h : Keeps x (t.bay b)) : Keeps x ((t.sendBlock b).bay b) := by
  simp only [State.sendBlock]
  repeat' split
  case h_1.isTrue =>
    refine Keeps.modBay h fun y => ?_
    split
    · exact ⟨(standing_askBlock _ _ _).trans (standing_startFrame _ _ _), id⟩
    · exact ⟨standing_startFrame _ _ _, id⟩
  all_goals
    first
    | exact h
    | exact Keeps.modBay h fun y => ⟨standing_askBlock _ _ _, id⟩

theorem Keeps.enterStream {x : Bay} {t : State} {b : BayId} (h : Keeps x (t.bay b)) : Keeps x ((t.enterStream b).bay b) := by
  simp only [State.enterStream]
  all_goals
    repeat
      first
      | with_reducible exact h
      | with_reducible apply Keeps.modBay
      | exact fun _ => ⟨rfl, id⟩
      | with_reducible apply Keeps.post
      | with_reducible apply Keeps.modBound
      | with_reducible apply Keeps.sendBlock

theorem Keeps.offerOpen {x : Bay} {t : State} {b : BayId} (h : Keeps x (t.bay b)) : Keeps x ((t.offerOpen b).bay b) := by
  simp only [State.offerOpen]
  repeat' split
  all_goals
    repeat
      first
      | with_reducible exact h
      | with_reducible apply Keeps.modBay
      | exact fun _ => ⟨(by simp), (by simp)⟩
      | with_reducible apply Keeps.post
      | with_reducible apply Keeps.modBound

theorem Keeps.afterOpen {x : Bay} {t : State} {b : BayId} (h : Keeps x (t.bay b)) : Keeps x ((t.afterOpen b).bay b) := by
  simp only [State.afterOpen]
  repeat' split
  all_goals
    repeat
      first
      | with_reducible exact h
      | with_reducible apply Keeps.modBay
      | exact fun _ => ⟨(by simp), (by simp)⟩
      | with_reducible apply Keeps.post
      | with_reducible apply Keeps.modBound
      | with_reducible apply Keeps.enterStream

theorem Keeps.enterOpen {x : Bay} {t : State} {b : BayId} (h : Keeps x (t.bay b)) : Keeps x ((t.enterOpen b).bay b) := by
  simp only [State.enterOpen]
  repeat' split
  all_goals
    repeat
      first
      | with_reducible exact h
      | with_reducible apply Keeps.modBay
      | exact fun _ => ⟨rfl, id⟩
      | with_reducible apply Keeps.post
      | with_reducible apply Keeps.modBound
      | with_reducible apply Keeps.offerOpen
      | with_reducible apply Keeps.afterOpen

theorem Keeps.startPass {x : Bay} {t : State} {b : BayId} (h : Keeps x (t.bay b)) (f : Pass → Bool) (p : Pass) : Keeps x ((t.startPass b f p).bay b) := by
  simp only [State.startPass]
  all_goals
    repeat
      first
      | with_reducible exact h
      | with_reducible apply Keeps.modBay
      | exact fun _ => ⟨rfl, fun _ => rfl⟩
      | with_reducible apply Keeps.post
      | with_reducible apply Keeps.modBound
      | with_reducible apply Keeps.enterOpen

theorem Keeps.restInDone {x : Bay} {t : State} {b : BayId} (h : Keeps x (t.bay b)) : Keeps x ((t.restInDone b).bay b) := by
  simp only [State.restInDone]
  repeat' split
  all_goals
    repeat
      first
      | with_reducible exact h
      | with_reducible apply Keeps.modBay
      | exact fun _ => ⟨rfl, fun _ => rfl⟩
      | with_reducible apply Keeps.post
      | with_reducible apply Keeps.modBound

theorem Keeps.admissionRun {x : Bay} {t : State} {b : BayId} (h : Keeps x (t.bay b)) : Keeps x ((t.admissionRun b).bay b) := by
  simp only [State.admissionRun]
  repeat' split
  all_goals
    repeat
      first
      | with_reducible exact h
      | with_reducible apply Keeps.modBay
      | exact fun y => ⟨by simp, by first | exact id | exact fun _ => by simp [BayState.inService]⟩
      | with_reducible apply Keeps.post
      | with_reducible apply Keeps.modBound
      | with_reducible apply Keeps.startPass
      | with_reducible apply Keeps.restInDone

theorem Keeps.completePlanning {x : Bay} {t : State} {b : BayId} (h : Keeps x (t.bay b)) (g : Nat) : Keeps x ((t.completePlanning b g).bay b) := by
  simp only [State.completePlanning]
  split
  · with_reducible apply Keeps.post
    with_reducible apply Keeps.modBay
    · with_reducible apply Keeps.modBound
      with_reducible apply Keeps.plans
      with_reducible apply Keeps.modBay
      · exact h
      · exact fun y => ⟨rfl, id⟩
    · exact fun y => ⟨rfl, fun _ => rfl⟩
  · with_reducible apply Keeps.admissionRun
    with_reducible apply Keeps.modBay
    · with_reducible apply Keeps.modBound
      with_reducible apply Keeps.plans
      with_reducible apply Keeps.modBay
      · exact h
      · exact fun y => ⟨rfl, id⟩
    · exact fun y => ⟨rfl, fun _ => rfl⟩

theorem Keeps.startPlanning {x : Bay} {t : State} {b : BayId} (h : Keeps x (t.bay b)) : Keeps x ((t.startPlanning b).bay b) := by
  simp only [State.startPlanning]
  repeat' split
  all_goals
    repeat
      first
      | with_reducible exact h
      | with_reducible apply Keeps.modBay
      | exact fun y => ⟨by first | rfl | (simp; rfl), by first | exact fun _ => rfl | simp⟩
      | with_reducible apply Keeps.post
      | with_reducible apply Keeps.modBound
      | with_reducible apply Keeps.completePlanning

theorem Keeps.endPass {x : Bay} {t : State} {b : BayId} (h : Keeps x (t.bay b)) : Keeps x ((t.endPass b).bay b) := by
  simp only [State.endPass]
  repeat' split
  all_goals
    repeat
      first
      | with_reducible exact h
      | with_reducible apply Keeps.modBay
      | exact fun _ => ⟨rfl, id⟩
      | with_reducible apply Keeps.post
      | with_reducible apply Keeps.modBound
      | with_reducible apply Keeps.admissionRun
      | with_reducible apply Keeps.startPlanning

theorem Keeps.finishOpen {x : Bay} {t : State} {b : BayId} (h : Keeps x (t.bay b)) (p : Pass) : Keeps x ((t.finishOpen b p).bay b) := by
  simp only [State.finishOpen, State.finishPhase]
  repeat' split
  all_goals
    repeat
      first
      | with_reducible exact h
      | with_reducible apply Keeps.modBay
      | exact fun _ => ⟨rfl, id⟩
      | with_reducible apply Keeps.post
      | with_reducible apply Keeps.modBound
      | with_reducible apply Keeps.afterOpen
      | with_reducible apply Keeps.endPass

theorem Keeps.continueOpen {x : Bay} {t : State} {b : BayId} (h : Keeps x (t.bay b)) : Keeps x ((t.continueOpen b).bay b) := by
  simp only [State.continueOpen]
  repeat' split
  all_goals
    repeat
      first
      | with_reducible exact h
      | with_reducible apply Keeps.modBay
      | exact fun _ => ⟨rfl, id⟩
      | with_reducible apply Keeps.post
      | with_reducible apply Keeps.modBound
      | with_reducible apply Keeps.offerOpen
      | with_reducible apply Keeps.finishOpen

theorem Keeps.takeOpen {x : Bay} {t : State} {b : BayId} (h : Keeps x (t.bay b)) (a : Nat) (r : Bool) (o : LineOutcome) : Keeps x ((t.takeOpen b a r o).bay b) := by
  simp only [State.takeOpen]
  repeat' split
  all_goals
    repeat
      first
      | with_reducible exact h
      | with_reducible apply Keeps.modBay
      | exact fun _ => ⟨rfl, id⟩
      | with_reducible apply Keeps.post
      | with_reducible apply Keeps.modBound
      | with_reducible apply Keeps.faultMember
      | with_reducible apply Keeps.continueOpen

theorem Keeps.finishRepair {x : Bay} {t : State} {b : BayId} (h : Keeps x (t.bay b)) (p : Pass) : Keeps x ((t.finishRepair b p).bay b) := by
  simp only [State.finishRepair, State.finishPhase]
  repeat' split
  all_goals
    repeat
      first
      | with_reducible exact h
      | with_reducible apply Keeps.modBay
      | exact fun _ => ⟨(by simp), (by simp)⟩
      | with_reducible apply Keeps.post
      | with_reducible apply Keeps.modBound
      | with_reducible apply Keeps.endPass

theorem Keeps.leaveRepairMember {x : Bay} {t : State} {b : BayId} (h : Keeps x (t.bay b)) : Keeps x ((t.leaveRepairMember b).bay b) := by
  simp only [State.leaveRepairMember]
  repeat' split
  all_goals
    repeat
      first
      | with_reducible exact h
      | with_reducible apply Keeps.modBay
      | exact fun _ => ⟨(by simp), (by simp)⟩
      | with_reducible apply Keeps.post
      | with_reducible apply Keeps.modBound
      | with_reducible apply Keeps.finishRepair

theorem Keeps.repairStep {x : Bay} {t : State} {b : BayId} (h : Keeps x (t.bay b)) : Keeps x ((t.repairStep b).bay b) := by
  simp only [State.repairStep]
  repeat' split
  all_goals
    repeat
      first
      | with_reducible exact h
      | with_reducible apply Keeps.modBay
      | exact fun _ => ⟨(by simp), (by simp)⟩
      | with_reducible apply Keeps.post
      | with_reducible apply Keeps.modBound
      | with_reducible apply Keeps.faultMember
      | with_reducible apply Keeps.sendBlock
      | with_reducible apply Keeps.leaveRepairMember

theorem Keeps.countFirstGaps {x : Bay} {t : State} {b : BayId} (h : Keeps x (t.bay b)) (p : Pass) (o : LineOutcome) : Keeps x ((t.countFirstGaps b p o).bay b) := by
  simp only [State.countFirstGaps]
  repeat' split
  all_goals
    repeat
      first
      | with_reducible exact h
      | with_reducible apply Keeps.modBay
      | exact fun _ => ⟨(by simp), (by simp)⟩
      | with_reducible apply Keeps.post
      | with_reducible apply Keeps.modBound

theorem Keeps.takeRepairGaps {x : Bay} {t : State} {b : BayId} (h : Keeps x (t.bay b)) (a : Nat) (o : LineOutcome) : Keeps x ((t.takeRepairGaps b a o).bay b) := by
  simp only [State.takeRepairGaps]
  repeat' split
  all_goals
    repeat
      first
      | with_reducible exact h
      | with_reducible apply Keeps.modBay
      | exact fun _ => ⟨rfl, id⟩
      | with_reducible apply Keeps.post
      | with_reducible apply Keeps.modBound
      | with_reducible apply Keeps.faultMember
      | with_reducible apply Keeps.leaveRepairMember
      | with_reducible apply Keeps.repairStep
      | with_reducible apply Keeps.countFirstGaps

theorem Keeps.finishStream {x : Bay} {t : State} {b : BayId} (h : Keeps x (t.bay b)) (p : Pass) : Keeps x ((t.finishStream b p).bay b) := by
  simp only [State.finishStream, State.finishPhase]
  repeat' split
  all_goals
    repeat
      first
      | with_reducible exact h
      | with_reducible apply Keeps.modBay
      | exact fun _ => ⟨(by simp), (by simp)⟩
      | with_reducible apply Keeps.post
      | with_reducible apply Keeps.modBound

theorem Keeps.takeBlockSent {x : Bay} {t : State} {b : BayId} (h : Keeps x (t.bay b)) : Keeps x ((t.takeBlockSent b).bay b) := by
  simp only [State.takeBlockSent]
  repeat' split
  all_goals
    repeat
      first
      | with_reducible exact h
      | with_reducible apply Keeps.modBay
      | exact fun _ => ⟨rfl, id⟩
      | with_reducible apply Keeps.post
      | with_reducible apply Keeps.modBound
      | with_reducible apply Keeps.sendBlock
      | with_reducible apply Keeps.repairStep
      | with_reducible apply Keeps.finishStream

theorem Keeps.continueCheck {x : Bay} {t : State} {b : BayId} (h : Keeps x (t.bay b)) : Keeps x ((t.continueCheck b).bay b) := by
  simp only [State.continueCheck]
  repeat' split
  all_goals
    repeat
      first
      | with_reducible exact h
      | with_reducible apply Keeps.modBay
      | exact fun _ => ⟨(by simp), (by simp)⟩
      | with_reducible apply Keeps.post
      | with_reducible apply Keeps.modBound
      | with_reducible apply Keeps.endPass

theorem Keeps.refetchOrFault {x : Bay} {t : State} {b : BayId} (h : Keeps x (t.bay b)) (a : Nat) (r : FaultReason) : Keeps x ((t.refetchOrFault b a r).bay b) := by
  simp only [State.refetchOrFault]
  repeat' split
  all_goals
    repeat
      first
      | with_reducible exact h
      | with_reducible apply Keeps.modBay
      | exact fun _ => ⟨(by simp), (by simp)⟩
      | with_reducible apply Keeps.post
      | with_reducible apply Keeps.modBound
      | with_reducible apply Keeps.faultMember

theorem Keeps.checkMember {x : Bay} {t : State} {b : BayId} (h : Keeps x (t.bay b)) (a i : Nat) (o : LineOutcome) : Keeps x ((t.checkMember b a i o).bay b) := by
  cases o with
  | reply r =>
    cases r with
    | digest c =>
      refine Keeps.ite (Keeps.modBay h ?_) (Keeps.refetchOrFault (Keeps.modBay h ?_) _ _)
      all_goals exact fun y => ⟨by simp, by simp⟩
    | reject r =>
      cases r
      case notComplete =>
        refine Keeps.refetchOrFault (Keeps.modBay h ?_) _ _
        exact fun y => ⟨by simp, by simp⟩
      all_goals exact h.faultMember _ _ _ _
    | _ => exact h.faultMember _ _ _ _
  | _ => exact h.faultMember _ _ _ _

theorem Keeps.takeCheck {x : Bay} {t : State} {b : BayId} (h : Keeps x (t.bay b)) (a : Nat) (o : LineOutcome) : Keeps x ((t.takeCheck b a o).bay b) := by
  unfold State.takeCheck
  split
  · exact h
  · exact (h.checkMember _ _ _).continueCheck

theorem Keeps.enterNext {x : Bay} {t : State} {b : BayId} (h : Keeps x (t.bay b)) (p : Pass) : Keeps x ((t.enterNext b p).bay b) := by
  simp only [State.enterNext]
  repeat' split
  all_goals
    repeat
      first
      | with_reducible exact h
      | with_reducible apply Keeps.modBay
      | exact fun _ => ⟨(by simp), (by simp)⟩
      | with_reducible apply Keeps.post
      | with_reducible apply Keeps.modBound
      | with_reducible apply Keeps.afterOpen

theorem Keeps.offerNext {x : Bay} {t : State} {b : BayId} (h : Keeps x (t.bay b)) (p : Pass) : Keeps x ((t.offerNext b p).bay b) := by
  simp only [State.offerNext]
  repeat' split
  all_goals
    repeat
      first
      | with_reducible exact h
      | with_reducible apply Keeps.modBay
      | exact fun _ => ⟨(by simp), (by simp)⟩
      | with_reducible apply Keeps.post
      | with_reducible apply Keeps.modBound
      | with_reducible apply Keeps.sendBlock
      | with_reducible apply Keeps.offerOpen
      | with_reducible apply Keeps.repairStep

theorem Keeps.resumePass {x : Bay} {t : State} {b : BayId} (h : Keeps x (t.bay b)) (p : Pass) : Keeps x ((t.resumePass b p).bay b) := by
  simp only [State.resumePass]
  repeat' split
  all_goals
    repeat
      first
      | with_reducible exact h
      | with_reducible apply Keeps.modBay
      | exact fun _ => ⟨(by simp), (by simp)⟩
      | with_reducible apply Keeps.post
      | with_reducible apply Keeps.modBound
      | with_reducible apply Keeps.enterNext
      | with_reducible apply Keeps.offerNext

theorem Keeps.holdEmptied {x : Bay} {t : State} {b : BayId} (h : Keeps x (t.bay b)) : Keeps x ((t.holdEmptied b).bay b) := by
  simp only [State.holdEmptied]
  repeat' split
  all_goals
    repeat
      first
      | with_reducible exact h
      | with_reducible apply Keeps.modBay
      | exact fun _ => ⟨rfl, id⟩
      | with_reducible apply Keeps.post
      | with_reducible apply Keeps.modBound
      | with_reducible apply Keeps.admissionRun
      | with_reducible apply Keeps.resumePass

theorem Keeps.recordSwitch {x : Bay} {t : State} {b : BayId} (h : Keeps x (t.bay b)) (w : Switch) : Keeps x ((t.recordSwitch b w).bay b) := by
  simp only [State.recordSwitch]
  repeat' split
  all_goals
    repeat
      first
      | with_reducible exact h
      | with_reducible apply Keeps.modBay
      | exact fun _ => ⟨rfl, id⟩
      | with_reducible apply Keeps.post
      | with_reducible apply Keeps.modBound
      | with_reducible apply Keeps.splitGroup

theorem Keeps.failSwitch {x : Bay} {t : State} {b : BayId} (h : Keeps x (t.bay b)) (a : Nat) (c : LineCommand) : Keeps x ((t.failSwitch b a c).bay b) := by
  simp only [State.failSwitch]
  all_goals
    repeat
      first
      | with_reducible exact h
      | with_reducible apply Keeps.modBay
      | exact fun _ => ⟨rfl, id⟩
      | with_reducible apply Keeps.post
      | with_reducible apply Keeps.modBound
      | with_reducible apply Keeps.faultUnit

theorem Keeps.confirmMember {x : Bay} {t : State} {b : BayId} (h : Keeps x (t.bay b)) (a : Nat) (v : Version) : Keeps x ((t.confirmMember b a v).bay b) := by
  simp only [State.confirmMember]
  all_goals
    repeat
      first
      | with_reducible exact h
      | with_reducible apply Keeps.modBay
      | exact fun _ => ⟨rfl, id⟩
      | with_reducible apply Keeps.post
      | with_reducible apply Keeps.modBound

theorem Keeps.refreshBound {x : Bay} {t : State} {b : BayId} (h : Keeps x (t.bay b)) : Keeps x ((t.refreshBound b).bay b) := by
  unfold State.refreshBound
  split
  · exact h
  · exact Keeps.same (bay_foldPosts _ _ _ _ _) (h.modBound _ _)

theorem Keeps.endSweep {x : Bay} {t : State} {b : BayId} (h : Keeps x (t.bay b)) : Keeps x ((t.endSweep b).bay b) := by
  unfold State.endSweep
  split
  · exact h.enterAnomaly rfl
  · next fleet _ =>
    have e := bay_offerFleet t b fleet b
    split
    · next q => rw [q] at e; exact (h.same e).enterAnomaly rfl
    · next q =>
      rw [q] at e
      refine Keeps.startPlanning (Keeps.refreshBound (Keeps.modBay (h.same e) ?_))
      exact fun y => ⟨rfl, id⟩

theorem Keeps.takeSweep {x : Bay} {t : State} {b : BayId} (h : Keeps x (t.bay b)) (a : Nat) (o : LineOutcome) : Keeps x ((t.takeSweep b a o).bay b) := by
  simp only [State.takeSweep]
  repeat' split
  all_goals
    repeat
      first
      | with_reducible exact h
      | with_reducible apply Keeps.modBay
      | exact fun y => ⟨by first | rfl | simp, by simp⟩
      | with_reducible apply Keeps.post
      | with_reducible apply Keeps.modBound
      | with_reducible apply Keeps.endSweep

theorem Keeps.goOnPlanning {x : Bay} {t : State} {b : BayId} (h : Keeps x (t.bay b)) (a : Nat) (o : LineOutcome) : Keeps x ((t.goOnPlanning b a o).bay b) := by
  simp only [State.goOnPlanning]
  repeat' split
  all_goals
    repeat
      first
      | with_reducible exact h
      | with_reducible apply Keeps.modBay
      | exact fun y => ⟨by first | rfl | (simp; rfl), by simp⟩
      | with_reducible apply Keeps.post
      | with_reducible apply Keeps.modBound
      | with_reducible apply Keeps.faultUnit
      | with_reducible apply Keeps.completePlanning

theorem Keeps.restartPlanning {x : Bay} {t : State} {b : BayId} (h : Keeps x (t.bay b)) : Keeps x ((t.restartPlanning b).bay b) :=
  Keeps.startPlanning (Keeps.modBay h fun _ => ⟨rfl, id⟩)

theorem Keeps.takePlanningGaps {x : Bay} {t : State} {b : BayId} (h : Keeps x (t.bay b)) (a : Nat) (o : LineOutcome) : Keeps x ((t.takePlanningGaps b a o).bay b) := by
  unfold State.takePlanningGaps
  split
  · exact h.restartPlanning
  · exact h.goOnPlanning a o

end Sys2Proof.Machine
end

