-- ==== Sys2Proof/Laws/Leaving.lean ====
section
/-! SUPPORT. What draining the line, ending a job, a cutoff and leaving the bus do to a bay (R75, R88, R164, R81, R89,
R90). -/

namespace Sys2Proof.Machine

/-! ### Draining -/

theorem bay_drainLine (s : State) (b : BayId) :
    (s.drainLine b).bay b = { (s.bay b).drainEngine with reader := { waiting := none, buffer := none } } := by
  simp only [State.drainLine, State.bay_with_store, State.bay_modBay_same]

/-- Draining the engine changes the engine alone. -/
theorem drainEngine_eq (y : Bay) : y.drainEngine = { y with engine := y.drainEngine.engine } := by
  unfold Bay.drainEngine
  repeat' split
  all_goals rfl

/-- A drained engine holds no request that waits and no transaction that is not drained. -/
theorem drained_engine (y : Bay) : y.drainEngine.engine.offered = none ∧
    (y.drainEngine.engine.state ≠ .idle → ∀ tr, y.drainEngine.engine.transaction = some tr → tr.drained = true) := by
  unfold Bay.drainEngine
  split
  · next h => exact ⟨rfl, fun n => absurd h n⟩
  · exact ⟨rfl, fun n => absurd rfl n⟩
  all_goals
    split
    · split
      · refine ⟨rfl, fun _ tr h => ?_⟩
        simp only [Option.some.injEq] at h
        rw [← h]
      · exact ⟨rfl, fun n => absurd rfl n⟩
    · exact ⟨rfl, fun n => absurd rfl n⟩

/-- What draining makes of the engine of a bay (R75, R76). -/
theorem drains_drainEngine (y : Bay) : Drains y.engine y.drainEngine.engine := by
  refine ⟨fun h => ?_, fun h => ?_, fun tr h k d => ?_, fun tr h k d => ?_⟩
  · simp only [Bay.drainEngine, h]
  · simp only [Bay.drainEngine, h]; rfl
  · rcases h with h | h <;> simp only [Bay.drainEngine, h, k, if_pos d]
  · rcases h with h | h <;> simp only [Bay.drainEngine, h, k] <;> rw [if_neg (by simp [d])] <;> rfl

/-! ### The end of a job -/

@[simp] theorem bay_splitGroup (t : State) (b c : BayId) (g : Nat) : (t.splitGroup b g).bay c = t.bay c := by
  simp only [State.splitGroup]
  repeat' split
  all_goals simp

/-- Breaking off a switch changes at most the switch-group records of the bay. -/
theorem bay_breakOffSwitch (t : State) (b : BayId) :
    ∃ g, (t.breakOffSwitch b).bay b = { t.bay b with groups := g } := by
  simp only [State.breakOffSwitch]
  repeat' split
  · exact ⟨_, rfl⟩
  · exact ⟨_, rfl⟩
  · rw [bay_splitGroup, State.bay_modBay_same]; exact ⟨_, rfl⟩

/-- The bay after the end of its job (R88). -/
theorem bay_endJob (t : State) (b : BayId) : (t.endJob b).bay b =
    { t.bay b with
      units := (t.bay b).units.map fun u => u.cutOff.release
      passes := [], groups := [], switching := none, sweepAt := none, planning := none, replanPending := false
      pendingCutoff := none } := by
  simp only [State.endJob]
  rw [State.bay_modBay_same, State.bay_modBound, State.bay_modBay_same]
  obtain ⟨g, e⟩ := bay_breakOffSwitch (t.modBay b fun y => { y with units := y.units.map JobUnit.cutOff }) b
  rw [e, State.bay_modBay_same]
  simp only [Bay.dropWork, List.map_map]
  rfl

/-- The bay after a cutoff that acts (R164). -/
theorem bay_cutOffBay (s : State) (b : BayId) (c : CutoffCause) (h : (s.bay b).cutoff = none) :
    (s.cutOffBay b c).bay b =
      { s.bay b with
        cutoff := some c, state := .cutoff, engine := (s.bay b).drainEngine.engine
        reader := { waiting := none, buffer := none }
        units := (s.bay b).units.map fun u => u.cutOff.release
        passes := [], groups := [], switching := none, sweepAt := none, planning := none, replanPending := false
        pendingCutoff := none } := by
  unfold State.cutOffBay
  rw [if_neg (by simp [h])]
  dsimp only
  rw [State.bay_post, State.bay_modBay_same, bay_endJob, bay_drainLine, State.bay_modBay_same, drainEngine_eq]
  have e : ({ s.bay b with cutoff := some c } : Bay).drainEngine.engine = (s.bay b).drainEngine.engine := by
    unfold Bay.drainEngine
    dsimp only
    cases (s.bay b).engine.state <;> cases (s.bay b).engine.transaction <;> try rfl
    all_goals dsimp only; split <;> rfl
  rw [e]

/-! ### Leaving the bus -/

theorem bound_unbind (s : State) (b : BayId) : (s.unbind b).bound b = none := by
  simp only [State.unbind, State.modBound, State.bound, List.find?_eq_none, List.mem_map]
  rintro r ⟨q, _, rfl⟩
  split <;> simp_all

@[simp] theorem bound_modBay (s : State) (b c : BayId) (f : Bay → Bay) : (s.modBay b f).bound c = s.bound c := rfl

theorem bound_leaveBus (s : State) (b : BayId) : (s.leaveBus b).bound b = none := by
  simp only [State.leaveBus, bound_modBay, bound_unbind]

/-- The bay after leaving the bus (R81, R89, R90). -/
theorem bay_leaveBus (s : State) (b : BayId) :
    ∃ y : Bay, (s.leaveBus b).bay b =
        { s.bay b with
          departure := none, cutoffTime := none, cutoff := none, warned := false, units := []
          engine := (s.bay b).drainEngine.engine, reader := { waiting := none, buffer := none }
          passes := y.passes, groups := y.groups, switching := y.switching, sweepAt := y.sweepAt
          planning := y.planning, replanPending := y.replanPending, pendingCutoff := y.pendingCutoff } ∧
      ((s.bay b).state = .cutoff → y = s.bay b) ∧
      ((s.bay b).state ≠ .cutoff → y.passes = [] ∧ y.groups = [] ∧ y.switching = none ∧ y.sweepAt = none ∧
        y.planning = none ∧ y.replanPending = false ∧ y.pendingCutoff = none) := by
  have e : (s.drainLine b).bay b = { s.bay b with
      engine := (s.bay b).drainEngine.engine, reader := { waiting := none, buffer := none } } := by
    rw [bay_drainLine, drainEngine_eq]
  simp only [State.leaveBus]
  rw [State.bay_modBay_same, State.bay_unbind]
  unfold State.endJobOnce
  rw [e]
  by_cases h : (s.bay b).state = .cutoff
  · rw [if_pos h, e]
    exact ⟨s.bay b, rfl, fun _ => rfl, fun n => absurd h n⟩
  · rw [if_neg h, bay_endJob, e]
    exact ⟨(s.bay b).dropWork, rfl, fun k => absurd k h, fun _ => ⟨rfl, rfl, rfl, rfl, rfl, rfl, rfl⟩⟩

/-- A sound bay that has left the bus is quiet. -/
theorem quiet_leaveBus (s : State) (b : BayId) (h : BayOk (s.bay b)) : Quiet ((s.leaveBus b).bay b) := by
  obtain ⟨y, e, h1, h2⟩ := bay_leaveBus s b
  have d := drained_engine (s.bay b)
  rw [e]
  by_cases hc : (s.bay b).state = .cutoff
  · have q := h.quiet (by rw [hc]; rfl)
    have hy := h1 hc
    subst hy
    exact ⟨q.passes, q.switching, d.1, d.2⟩
  · have k := h2 hc
    exact ⟨k.1, k.2.2.1, d.1, d.2⟩

/-- What a cutoff leaves is quiet. -/
theorem quiet_cutOffBay (s : State) (b : BayId) (c : CutoffCause) (h : (s.bay b).cutoff = none) :
    Quiet ((s.cutOffBay b c).bay b) := by
  have d := drained_engine (s.bay b)
  rw [bay_cutOffBay s b c h]
  exact ⟨rfl, rfl, d.1, d.2⟩

end Sys2Proof.Machine
end

