-- ==== Sys2Proof/Laws/BaySound.lean ====
section
/-! SUPPORT. The soundness of a bay (R78, R112, R163) is kept by every operation of the bay. -/

namespace Sys2Proof

open Machine

/-- A bay is sound: its cutoff flag and its work fit its state, and C fits D. -/
def BayGood (y : Bay) : Prop := BayOk y ∧ DepartureOk y

theorem stopped_iff (s : BayState) : stoppedState s = true ↔ s.inService = false := by cases s <;> decide

theorem good_keeps {x y : Bay} (h : BayGood x) (k : Keeps x y) (hs : x.state.inService = true) : BayGood y := by
  have hy := k.2 hs
  have h1 : x.cutoff = none := by
    cases hc : x.cutoff with
    | none => rfl
    | some c =>
      have := h.1.flag.mp (by rw [hc]; rfl)
      rw [this] at hs; cases hs
  have h2 : y.cutoff = none := by
    have := congrArg (·.2.2) k.1
    exact this.trans h1
  have hn : y.state ≠ .cutoff := by intro e; rw [e] at hy; cases hy
  refine ⟨⟨⟨(fun e => by rw [h2] at e; cases e), fun e => absurd e hn⟩, fun e => ?_⟩, ?_⟩
  · rw [(stopped_iff _).mp e] at hy; cases hy
  · have hset := settings_of_standing k.1
    have e1 : y.departure = x.departure := congrArg (·.departure) hset
    have e2 : y.cutoffTime = x.cutoffTime := congrArg (·.cutoffTime) hset
    have e3 : y.config = x.config := congrArg (·.config) hset
    unfold DepartureOk; rw [e1, e2, e3]; exact h.2

theorem good_mod {y z : Bay} (h : BayGood y) (hs : z.standing = y.standing) (hst : z.state = y.state)
    (hq : stoppedState y.state = true → Quiet y → Quiet z) : BayGood z := by
  have hc : z.cutoff = y.cutoff := congrArg (·.2.2) hs
  have hset := settings_of_standing hs
  have e1 : z.departure = y.departure := congrArg (·.departure) hset
  have e2 : z.cutoffTime = y.cutoffTime := congrArg (·.cutoffTime) hset
  have e3 : z.config = y.config := congrArg (·.config) hset
  exact ⟨⟨by rw [hc, hst]; exact h.1.flag, fun k => by rw [hst] at k; exact hq k (h.1.quiet k)⟩,
    by unfold DepartureOk; rw [e1, e2, e3]; exact h.2⟩

theorem good_cutOff {s : State} {b : BayId} (c : CutoffCause)
    (h : BayGood (s.bay b)) : BayGood ((s.cutOffBay b c).bay b) := by
  cases hc : (s.bay b).cutoff with
  | some x =>
    have : s.cutOffBay b c = s := by unfold State.cutOffBay; rw [if_pos (by rw [hc]; rfl)]
    rw [this]; exact h
  | none =>
    have hq := quiet_cutOffBay s b c hc
    have e := bay_cutOffBay s b c hc
    refine ⟨⟨?_, fun _ => hq⟩, ?_⟩
    · rw [e]; exact ⟨fun _ => rfl, fun _ => rfl⟩
    · rw [e]; exact h.2

theorem good_leave {s : State} {b : BayId} (h : BayGood (s.bay b)) {y : Bay} (f : Bay → Bay)
    (hf : ∀ x, (f x).passes = x.passes ∧ (f x).switching = x.switching ∧ (f x).engine = x.engine ∧ (f x).cutoff =
    x.cutoff ∧ (f x).departure = x.departure ∧ (f x).cutoffTime = x.cutoffTime ∧ (f x).state ≠ .cutoff)
    (hy : y = f ((s.leaveBus b).bay b)) : BayGood y := by
  have hq := quiet_leaveBus s b h.1
  obtain ⟨z, e, _⟩ := bay_leaveBus s b
  have hfx := hf ((s.leaveBus b).bay b)
  subst hy
  have c0 : ((s.leaveBus b).bay b).cutoff = none := by rw [e]
  have d0 : ((s.leaveBus b).bay b).departure = none := by rw [e]
  have t0 : ((s.leaveBus b).bay b).cutoffTime = none := by rw [e]
  refine ⟨⟨⟨(fun k => by rw [hfx.2.2.2.1, c0] at k; cases k), fun k => absurd k hfx.2.2.2.2.2.2⟩,
      fun _ => ⟨by rw [hfx.1]; exact hq.passes, by rw [hfx.2.1]; exact hq.switching,
      by rw [hfx.2.2.1]; exact hq.offered, by rw [hfx.2.2.1]; exact hq.drained⟩⟩, ?_⟩
  unfold DepartureOk
  rw [hfx.2.2.2.2.1, hfx.2.2.2.2.2.1, d0, t0]; rfl

theorem inService_or (s : BayState) : s.inService = true ∨ stoppedState s = true := by cases s <;> decide

theorem good_endSwitch {x : Bay} {s : State} {b : BayId} {sw : Switch} (h : BayGood x) (k : Keeps x (s.bay b))
    (hs : x.state.inService = true) : BayGood ((s.endSwitch b sw).bay b) := by
  have k1 := Keeps.recordSwitch k sw
  have g1 := good_keeps h k1 hs
  have s1 := k1.2 hs
  unfold State.endSwitch
  obtain ⟨t, ht⟩ : ∃ t, s.recordSwitch b sw = t := ⟨_, rfl⟩
  rw [ht] at k1 g1 s1 ⊢
  obtain ⟨u, hu⟩ : ∃ u, (t.modBay b fun y =>
      { y with
        holds := if y.holdAfterSwitch sw.members then { y.holds with rule := true } else y.holds
        switching := none, state := .transferring }) = u := ⟨_, rfl⟩
  have ub : u.bay b = { t.bay b with
      holds := if (t.bay b).holdAfterSwitch sw.members then { (t.bay b).holds with rule := true } else (t.bay b).holds
      switching := none, state := .transferring } := by
    rw [← hu, State.bay_modBay_same]
  rw [hu]
  have hc : (t.bay b).cutoff = none := by
    cases hc : (t.bay b).cutoff with
    | none => rfl
    | some c => have := g1.1.flag.mp (by rw [hc]; rfl); rw [this] at s1; cases s1
  have g2 : BayGood (u.bay b) := by
    rw [ub]
    refine ⟨⟨⟨(fun e => by rw [hc] at e; cases e), (fun e => by cases e)⟩, (fun e => by cases e)⟩, g1.2⟩
  have s2 : (u.bay b).state.inService = true := by rw [ub]; rfl
  dsimp only
  split
  · exact good_cutOff _ g2
  · split
    · exact good_cutOff _ g2
    · split
      · exact good_keeps g2 (Keeps.startPlanning (Keeps.refl _)) s2
      · exact good_keeps g2 (Keeps.admissionRun (Keeps.refl _)) s2

theorem good_continueSwitch {x : Bay} {s : State} {b : BayId} (h : BayGood x) (k : Keeps x (s.bay b))
    (hs : x.state.inService = true) : BayGood ((s.continueSwitch b).bay b) := by
  unfold State.continueSwitch
  split
  · exact good_keeps h k hs
  · split
    · refine good_keeps h (Keeps.modBay k fun y => ?_) hs
      exact ⟨by simp; rfl, by simp⟩
    · split
      · exact good_endSwitch h k hs
      · exact good_keeps h (Keeps.modBay k fun y => ⟨by simp, by simp⟩) hs

theorem good_settle {x : Bay} {s : State} {b : BayId} (h : BayGood x) (k : Keeps x (s.bay b))
    (hs : x.state.inService = true) : BayGood ((s.settleRound b).bay b) := by
  unfold State.settleRound
  split
  · exact good_keeps h k hs
  · split
    · exact good_keeps h k hs
    · split
      · exact good_endSwitch h k hs
      · exact good_keeps h (Keeps.modBay k fun y => ⟨by simp, by simp⟩) hs

theorem good_takeSwitch {x : Bay} {s : State} {b : BayId} (h : BayGood x) (k : Keeps x (s.bay b))
    (hs : x.state.inService = true) (a : Nat) (o : LineOutcome) : BayGood ((s.takeSwitch b a o).bay b) := by
  unfold State.takeSwitch
  split
  · exact good_continueSwitch h (Keeps.modBay k fun y => ⟨by simp, by simp⟩) hs
  · exact good_continueSwitch h (Keeps.failSwitch k _ _) hs

theorem good_takeConfirm {x : Bay} {s : State} {b : BayId} (h : BayGood x) (k : Keeps x (s.bay b))
    (hs : x.state.inService = true) (a : Nat) (o : LineOutcome) : BayGood ((s.takeConfirm b a o).bay b) := by
  unfold State.takeConfirm
  dsimp only
  split
  · split
    · split
      · split
        · exact good_continueSwitch h (Keeps.confirmMember k _ _) hs
        · exact good_continueSwitch h (Keeps.failSwitch k _ _) hs
      · exact good_continueSwitch h (Keeps.failSwitch k _ _) hs
    · split
      · exact good_continueSwitch h (Keeps.failSwitch k _ _) hs
      · exact good_continueSwitch h (Keeps.modBay k fun y => ⟨by simp, by simp⟩) hs
  · exact good_continueSwitch h k hs

theorem good_handBack {s : State} {b : BayId} (h : BayGood (s.bay b))
    (hs : (s.bay b).state.inService = true) (tr : Transaction) (o : LineOutcome) :
    BayGood ((s.handBack b tr o).bay b) := by
  unfold State.handBack
  have k : Keeps (s.bay b) ((s.modBay b Bay.endTransaction).bay b) := by
    rw [State.bay_modBay_same]; exact ⟨by simp, by simp⟩
  dsimp only
  split
  · exact good_keeps h (Keeps.takeSweep k _ _) hs
  · exact good_keeps h (Keeps.takePlanningGaps k _ _) hs
  · exact good_keeps h (Keeps.takeOpen k _ _ _) hs
  · exact good_keeps h (Keeps.takeRepairGaps k _ _) hs
  · exact good_keeps h (Keeps.takeCheck k _ _) hs
  · exact good_takeSwitch h k hs _ _
  · exact good_takeConfirm h k hs _ _
  · exact good_keeps h k hs


theorem Quiet.congr {y z : Bay} (h : Quiet y) (h1 : z.passes = y.passes) (h2 : z.switching = y.switching)
    (h3 : z.engine = y.engine) : Quiet z :=
  ⟨by rw [h1]; exact h.passes, by rw [h2]; exact h.switching, by rw [h3]; exact h.offered, by rw [h3]; exact h.drained⟩

/-- A bay that differs from a sound one in no field that soundness reads is sound. -/
theorem good_of {y z : Bay} (h : BayGood y) (h1 : z.cutoff = y.cutoff) (h2 : z.state = y.state)
    (h3 : z.departure = y.departure) (h4 : z.cutoffTime = y.cutoffTime) (h5 : z.config = y.config)
    (hq : Quiet y → Quiet z) : BayGood z :=
  ⟨⟨by rw [h1, h2]; exact h.1.flag, fun k => by rw [h2] at k; exact hq (h.1.quiet k)⟩,
    by unfold DepartureOk; rw [h3, h4, h5]; exact h.2⟩

theorem good_plain {y z : Bay} (h : BayGood y) (h1 : z.cutoff = y.cutoff) (h2 : z.state = y.state)
    (h3 : z.departure = y.departure) (h4 : z.cutoffTime = y.cutoffTime) (h5 : z.config = y.config)
    (h6 : z.passes = y.passes) (h7 : z.switching = y.switching) (h8 : z.engine = y.engine) : BayGood z :=
  good_of h h1 h2 h3 h4 h5 fun q => q.congr h6 h7 h8

/-- A port joining the hold set leaves the work of the bay alone (R168). -/
theorem good_addHold (p : PortId) {y : Bay} (h : BayGood y) : BayGood (y.addHold p) :=
  good_of h rfl rfl rfl rfl rfl fun q => ⟨q.passes, q.switching, q.offered, q.drained⟩

theorem stopped_not (y : Bay) (h : stoppedState y.state = true) : y.state.inService = false := (stopped_iff _).mp h

/-- A new state, in service, with no cutoff. -/
theorem good_enter {y : Bay} (h1 : y.cutoff = none) (h2 : y.state.inService = true)
    (h3 : DepartureOk y) : BayGood y := by
  refine ⟨⟨⟨(fun e => by rw [h1] at e; cases e), (fun e => by rw [e] at h2; cases h2)⟩, fun e => ?_⟩, h3⟩
  rw [stopped_not _ e] at h2; cases h2

theorem no_cutoff {y : Bay} (h : BayGood y) (hs : y.state ≠ .cutoff) : y.cutoff = none := by
  cases hc : y.cutoff with
  | none => rfl
  | some c => exact absurd (h.1.flag.mp (by rw [hc]; rfl)) hs

theorem good_takeCutoff {s : State} {b : BayId}
    (h : BayGood (s.bay b)) (c : CutoffCause) : BayGood ((s.takeCutoff b c).bay b) := by
  unfold State.takeCutoff
  split
  all_goals first
    | exact good_cutOff c h
    | exact h
    | (rw [State.bay_modBay_same]; exact good_plain h rfl rfl rfl rfl rfl rfl rfl rfl)

theorem good_post {s : State} {b : BayId}
    (h : BayGood (s.bay b)) (k : EventKind) (x : Subject) : BayGood ((s.post k x).bay b) := h

theorem good_deadline {s : State} {b : BayId} (h : BayGood (s.bay b)) : BayGood ((s.deadlineCompare b).bay b) := by
  unfold State.deadlineCompare
  dsimp only
  split
  · split
    · exact good_takeCutoff h _
    · split
      · exact h
      · refine good_post ?_ _ _
        rw [State.bay_modBay_same]; exact good_plain h rfl rfl rfl rfl rfl rfl rfl rfl
  · exact h

theorem good_admission {s : State} {b : BayId} (h : BayGood (s.bay b)) : BayGood ((s.admissionRun b).bay b) := by
  rcases inService_or (s.bay b).state with k | k
  · exact good_keeps h (Keeps.admissionRun (Keeps.refl _)) k
  · have : s.admissionRun b = s := by
      unfold State.admissionRun
      dsimp only
      rw [if_pos]
      have : (s.bay b).mayRun = false := by
        unfold Bay.mayRun
        cases hst : (s.bay b).state <;> rw [hst] at k <;> first | rfl | cases k
      simp [this]
    rw [this]; exact h

theorem currentPass_none {y : Bay} (h : y.passes = []) : y.currentPass = none := by
  unfold Bay.currentPass; rw [h]; rfl

theorem good_holdEmptied {s : State} {b : BayId} (h : BayGood (s.bay b)) : BayGood ((s.holdEmptied b).bay b) := by
  rcases inService_or (s.bay b).state with k | k
  · exact good_keeps h (Keeps.holdEmptied (Keeps.refl _)) k
  · unfold State.holdEmptied
    rw [currentPass_none (h.1.quiet k).passes]
    exact good_admission h

theorem good_dropHold {s : State} {b : BayId} (p : PortId)
    (h : BayGood (s.bay b)) : BayGood ((State.dropHold p s b).bay b) := by
  unfold State.dropHold
  split
  · have g : BayGood ((s.modBay b fun y => { y with holds := y.holds.put p false }).bay b) := by
      rw [State.bay_modBay_same]; exact good_plain h rfl rfl rfl rfl rfl rfl rfl rfl
    dsimp only
    split
    · exact g
    · exact good_holdEmptied g
  · exact h

theorem good_dropRule {s : State} {b : BayId} (h : BayGood (s.bay b)) : BayGood ((s.dropRule b).bay b) := by
  unfold State.dropRule
  split
  · have g : BayGood ((s.modBay b fun y => { y with holds := { y.holds with rule := false } }).bay b) := by
      rw [State.bay_modBay_same]; exact good_plain h rfl rfl rfl rfl rfl rfl rfl rfl
    dsimp only
    split
    · exact g
    · exact good_holdEmptied g
  · exact h

theorem good_resetBay {s : State} {b : BayId} (h : BayGood (s.bay b)) : BayGood ((s.resetBay b).bay b) := by
  unfold State.resetBay
  split
  · rw [State.bay_modBay_same]; exact good_plain h rfl rfl rfl rfl rfl rfl rfl rfl
  · rw [State.bay_modBay_same]
    exact good_leave h (fun y =>
      { y with holds := HoldSet.none, presentFilter := Filter.start, ignitionFilter := Filter.start, state := .empty })
      (fun _ => ⟨rfl, rfl, rfl, rfl, rfl, rfl, (fun e => nomatch e)⟩) rfl

theorem good_disableBay {s : State} {b : BayId} (h : BayGood (s.bay b)) : BayGood ((s.disableBay b).bay b) := by
  unfold State.disableBay
  split
  · exact h
  · rw [State.bay_modBay_same]
    exact good_leave h (fun y =>
      { y with
        holds := { y.holds with rule := false }, presentFilter := Filter.start, ignitionFilter := Filter.start
        state := .disabled }) (fun _ => ⟨rfl, rfl, rfl, rfl, rfl, rfl, (fun e => nomatch e)⟩) rfl

theorem good_bayReset {s : State} {b : BayId} (h : BayGood (s.bay b)) : BayGood ((s.bayReset b).bay b) := by
  unfold State.bayReset
  rw [State.bay_modBay_same]
  exact good_plain (good_resetBay h) rfl rfl rfl rfl rfl rfl rfl rfl

theorem good_clearCutoff {s : State} {b : BayId} (h : BayGood (s.bay b))
    (hc : (s.bay b).state = .cutoff) : BayGood ((s.clearCutoff b).bay b) := by
  have q := h.1.quiet (by rw [hc]; rfl)
  unfold State.clearCutoff
  dsimp only
  have hu : (s.unbind b).bay b = s.bay b := rfl
  have ht : ((s.unbind b).modBay b fun y => { y with cutoff := none, units := [] }).bay b =
      { s.bay b with cutoff := none, units := [] } := by
    rw [State.bay_modBay_same, hu]
  obtain ⟨t, e⟩ : ∃ t, ((s.unbind b).modBay b fun y => { y with cutoff := none, units := [] }) = t := ⟨_, rfl⟩
  rw [e] at ht ⊢
  split
  · have g : BayGood ((t.modBay b Bay.enterSweep).bay b) := by
      rw [State.bay_modBay_same, ht]
      exact good_enter rfl rfl h.2
    have g2 := good_deadline g
    split
    · rename_i hs
      rw [State.bay_modBay_same]
      exact good_mod g2 (by simp) (by simp) (fun k => by rw [hs] at k; cases k)
    · exact g2
  · rw [State.bay_modBay_same, ht]
    refine ⟨⟨⟨(fun e => nomatch e), (fun e => nomatch e)⟩, fun _ => q.congr rfl rfl rfl⟩, rfl⟩

theorem good_startLine {y : Bay} (h : BayGood y) : BayGood y.startLine := by
  refine good_mod h (by simp) (by simp) fun _ q => ?_
  unfold Bay.startLine
  split
  · rename_i tr h1 h2
    split
    · exact q
    · have q2 : Quiet { y with engine := { y.engine with transaction := some { tr with started := true } } } :=
        ⟨q.passes, q.switching, q.offered, fun a => by rintro tr' ⟨⟩; exact q.drained a tr h2⟩
      dsimp only
      split
      · unfold Bay.addSent
        split
        · exact q2
        · rename_i sw hsw; have k := q.switching; rw [show y.switching = some sw from hsw] at k; cases k
      · exact q2
  · exact q

theorem good_tick {y : Bay} (h : BayGood y) (p i : Bool) : BayGood (y.tick p i) := by
  have h1 : BayGood y.countStreaming := by
    refine good_mod h (by simp) ?_ fun _ q => ?_
    · unfold Bay.countStreaming; split
      · rfl
      · simp
    · unfold Bay.countStreaming; split
      · exact q
      · refine q.congr ?_ rfl rfl
        unfold Bay.modPass; rw [q.passes]; simp
  have h2 := good_startLine h1
  unfold Bay.tick
  dsimp only
  split
  · exact h2
  · exact good_plain h2 rfl rfl rfl rfl rfl rfl rfl rfl

theorem good_endDrain {y : Bay} (h : BayGood y) : BayGood y.endDrain := by
  refine good_mod h (by simp) (by simp) fun _ q => ?_
  unfold Bay.endDrain Bay.takeOffered Bay.endTransaction
  dsimp only
  rw [q.offered]
  exact ⟨q.passes, q.switching, rfl, fun a => absurd rfl a⟩

theorem good_notice {s : State} {b : BayId} (h : BayGood (s.bay b)) : BayGood ((s.takeNotice b).bay b) := by
  unfold State.takeNotice
  have k0 := Keeps.refl (s.bay b)
  split
  any_goals exact h
  all_goals rename_i hs
  all_goals have hi : (s.bay b).state.inService = true := by rw [hs]; rfl
  · exact good_keeps h (Keeps.startPlanning k0) hi
  · split
    · exact good_keeps h (Keeps.modBay k0 fun y => ⟨by simp, by simp⟩) hi
    · exact good_keeps h (Keeps.startPlanning k0) hi
  · exact good_keeps h (Keeps.modBay k0 fun y => ⟨by simp, by simp⟩) hi
  · exact good_keeps h (Keeps.startPlanning (Keeps.modBay k0 fun y => ⟨by simp, by simp⟩)) hi

end Sys2Proof
end

