-- ==== Sys2Proof/Laws/Bytes.lean ====
section
/-! SUPPORT. Byte order: reading a field written most significant byte first gives its number back. -/

namespace Sys2Proof.Machine

theorem beNat_append (a b : List Byte) : beNat (a ++ b) = beNat a * 256 ^ b.length + beNat b := by
  have from_start : ∀ (b : List Byte) (n : Nat), b.foldl (fun acc b => acc * 256 + b.toNat) n =
      n * 256 ^ b.length + b.foldl (fun acc b => acc * 256 + b.toNat) 0 := by
    intro b
    induction b with
    | nil => simp
    | cons x b ih =>
      intro n
      simp only [List.foldl_cons, List.length_cons]
      rw [ih, ih (0 * 256 + x.toNat), pow_succ]
      ring
  unfold beNat
  rw [List.foldl_append, from_start]

@[simp] theorem length_toBytes (len n : Nat) : (toBytes len n).length = len := by
  induction len generalizing n with
  | zero => rfl
  | succ len ih => simp [toBytes, ih]

theorem beNat_toBytes (len n : Nat) : beNat (toBytes len n) = n % 256 ^ len := by
  induction len generalizing n with
  | zero => simp [toBytes, beNat, Nat.mod_one]
  | succ len ih =>
    unfold toBytes
    rw [beNat_append, ih, show 256 ^ (len + 1) = 256 * 256 ^ len from pow_succ' _ _, Nat.mod_mul]
    simp only [List.length_singleton, pow_one, beNat, List.foldl_cons, List.foldl_nil, BitVec.toNat_ofNat]
    rw [show n % 2 ^ 8 = n % 256 from rfl, Nat.mul_comm, Nat.add_comm, Nat.zero_mul, Nat.zero_add]

theorem toBytes_beNat (l : List Byte) : toBytes l.length (beNat l) = l := by
  induction l using List.reverseRecOn with
  | nil => rfl
  | append_singleton l x ih =>
    rw [List.length_append, List.length_singleton]
    unfold toBytes
    rw [beNat_append]
    have hx : beNat [x] = x.toNat := by simp [beNat]
    have := x.isLt
    rw [hx, List.length_singleton, pow_one, show (beNat l * 256 + x.toNat) / 256 = beNat l by omega, ih]
    congr 2
    apply BitVec.eq_of_toNat_eq
    simp
    omega

/-- The field at a known place of a body. -/
theorem field_append (before mid rest : List Byte) (off len : Nat) (h : before.length = off) (k : mid.length = len) :
    field (before ++ (mid ++ rest)) off len = beNat mid := by
  unfold field
  rw [List.drop_append_of_le_length (by omega), ← h, List.drop_length, List.nil_append, ← k,
    List.take_append_of_le_length (Nat.le_refl _), List.take_length]

/-- A number that fits its field is read as it was written. -/
theorem field_toBytes (before rest body : List Byte) (off len n : Nat) (e : body = before ++ (toBytes len n ++ rest))
    (h : before.length = off) (k : n < 256 ^ len) : field body off len = n := by
  rw [e, field_append before _ rest off len h (length_toBytes _ _), beNat_toBytes, Nat.mod_eq_of_lt k]

end Sys2Proof.Machine
end

