-- ==== Sys2Proof/Laws/FleetKept.lean ====
section
/-! SUPPORT. The fleet table's condition (R5) is kept by every operation. -/

namespace Sys2Proof

open Machine

theorem unbind_none (s : State) (b : BayId) : ∀ r ∈ (s.unbind b).fleet, r.atBay ≠ some b := by
  intro r hr hb
  have := bound_unbind s b
  unfold State.bound at this
  rw [List.find?_eq_none] at this
  exact this r hr (by simpa using hb)

theorem evict_subset (s : State) : ∀ r ∈ s.evictIfFull.fleet, r ∈ s.fleet := by
  intro r hr
  unfold State.evictIfFull at hr
  split at hr
  · exact hr
  · split at hr
    · rw [State.post_fleet] at hr; exact (List.mem_filter.mp hr).1
    · exact hr
theorem FleetOk.congr {s t : State} (h : FleetOk s) (e : t.fleet = s.fleet) : FleetOk t :=
  ⟨by rw [e]; exact h.1, by rw [e]; exact h.2, by rw [e]; exact h.3⟩
theorem FleetOk.modBay {b : BayId} {t : State} (h : FleetOk t) (f : Bay → Bay) : FleetOk (t.modBay b f) := h.congr rfl
theorem FleetOk.post {t : State} (h : FleetOk t) (k : EventKind) (x : Subject) : FleetOk (t.post k x) := h.congr rfl
theorem FleetOk.counters {t : State}
    (h : FleetOk t) (c : Vector Nat 64) : FleetOk { t with plans := { t.plans with counters := c } } := h.congr rfl

theorem FleetOk.map {t : State} (h : FleetOk t) {f : BusRecord → BusRecord}
    (hf : ∀ r, (f r).fleet = r.fleet ∧ ((f r).atBay = r.atBay ∨ (f r).atBay = none)) :
    FleetOk { t with fleet := t.fleet.map f } := by
  have e : (t.fleet.map f).map (·.fleet) = t.fleet.map (·.fleet) := by
    rw [List.map_map]; exact List.map_congr_left fun r _ => (hf r).1
  refine ⟨by rw [show (({ t with fleet := t.fleet.map f } :
      State).fleet.map (·.fleet)) = t.fleet.map (·.fleet) from e]; exact h.1, by simpa using h.2, fun c => ?_⟩
  refine Nat.le_trans ?_ (h.3 c)
  show (t.fleet.map f).countP _ ≤ _
  rw [List.countP_map]
  refine List.countP_mono_left fun r _ k => ?_
  replace k : ((f r).atBay == some c) = true := k
  rcases (hf r).2 with e | e
  · rw [e] at k; exact k
  · rw [e] at k; cases k

theorem FleetOk.modBound {b : BayId} {t : State} (h : FleetOk t) {f : BusRecord → BusRecord}
    (hf : ∀ r, (f r).fleet = r.fleet ∧ ((f r).atBay = r.atBay ∨ (f r).atBay = none)) :
    FleetOk (t.modBound b f) :=
  h.map fun r => by split; exact hf r; exact ⟨rfl, .inl rfl⟩
theorem FleetOk.unbind {b : BayId} {t : State}
    (h : FleetOk t) : FleetOk (t.unbind b) := h.modBound fun _ => ⟨rfl, .inr rfl⟩
theorem FleetOk.drainLine {b : BayId} {t : State} (h : FleetOk t) : FleetOk (t.drainLine b) := h.congr rfl
theorem FleetOk.ite {t u : State} {c : Prop} [Decidable c]
    (h : FleetOk t) (k : FleetOk u) : FleetOk (if c then t else u) := by split <;> assumption

theorem FleetOk.sub {t : State} (h : FleetOk t) {l : List BusRecord}
    (hl : l.Sublist t.fleet) : FleetOk { t with fleet := l } :=
  ⟨h.1.sublist (hl.map _), Nat.le_trans hl.length_le h.2, fun c => Nat.le_trans (hl.countP_le) (h.3 c)⟩

theorem count_unbind (t : State) (b : BayId) : ((t.unbind b).fleet.countP fun r => r.atBay == some b) = 0 := by
  rw [List.countP_eq_zero]
  intro r hr k
  exact unbind_none t b r hr (by simpa using k)

theorem FleetOk.foldPosts (k : EventKind) (f : JobUnit → Subject) (l : List JobUnit) :
    ∀ {t : State}, FleetOk t → FleetOk (l.foldl (fun t u => t.post k (f u)) t) := by
  induction l with
  | nil => exact fun h => h
  | cons u rest ih => exact fun h => ih (h.post _ _)

theorem FleetOk.refreshBound {b : BayId} {t : State} (h : FleetOk t) : FleetOk (t.refreshBound b) := by
  unfold State.refreshBound
  split
  · exact h
  · exact FleetOk.foldPosts _ _ _ (h.modBound fun _ => ⟨rfl, .inl rfl⟩)

theorem evict_len {t : State} (h : FleetOk t)
    (hu : ∃ r ∈ t.fleet, r.atBay = none) : t.evictIfFull.fleet.length < 256 := by
  unfold State.evictIfFull
  split
  · assumption
  · rename_i hn
    split
    · rename_i v hv
      obtain ⟨hm, _⟩ := evictionVictim_mem hv
      show (t.fleet.filter fun r => r.fleet != v.fleet).length < 256
      have h1 : (t.fleet.filter fun r => r.fleet != v.fleet).length < t.fleet.length :=
        List.length_filter_lt_length_iff_exists.mpr ⟨v, hm, by simp⟩
      have := h.2
      omega
    · rename_i hv
      exfalso
      unfold evictionVictim at hv
      split at hv
      · rename_i hf
        obtain ⟨r, hr, e⟩ := hu
        have : r ∈ t.fleet.filter fun r => r.atBay.isNone := List.mem_filter.mpr ⟨hr, by rw [e]; rfl⟩
        rw [hf] at this; cases this
      · cases hv

/-- A full table holds an unbound record: at most eight are bound. -/
theorem exists_unbound {t : State} (h : FleetOk t) (hl : 256 ≤ t.fleet.length) : ∃ r ∈ t.fleet, r.atBay = none := by
  by_contra hc
  push Not at hc
  have h1 : t.fleet.length ≤ (allBays.map fun b => t.fleet.countP fun r => r.atBay == some b).sum := by
    have : ∀ (l : List BusRecord), (∀ r ∈ l,
        r.atBay ≠ none) → l.length ≤ (allBays.map fun b => l.countP fun r => r.atBay == some b).sum := by
      intro l
      induction l with
      | nil => intro _; exact Nat.zero_le _
      | cons r l ih =>
        intro hr
        have k := ih fun x hx => hr x (List.mem_cons_of_mem _ hx)
        obtain ⟨b, hb⟩ := Option.ne_none_iff_exists'.mp (hr r List.mem_cons_self)
        simp only [allBays, List.map_cons, List.map_nil, List.sum_cons, List.sum_nil, List.countP_cons,
            List.length_cons, hb] at k ⊢
        fin_cases b <;> simp at k ⊢ <;> omega
    exact this _ hc
  have h2 : (allBays.map fun b => t.fleet.countP fun r => r.atBay == some b).sum ≤ 8 := by
    have := h.3
    simp only [allBays, List.map_cons, List.map_nil, List.sum_cons, List.sum_nil]
    have a0 := this 0; have a1 := this 1; have a2 := this 2; have a3 := this 3
    have a4 := this 4; have a5 := this 5; have a6 := this 6; have a7 := this 7
    omega
  omega

theorem FleetOk.offerFleet {b : BayId} {t : State} (h : FleetOk t) (n : Nat) : FleetOk (t.offerFleet b n).2 := by
  unfold State.offerFleet
  split
  · rename_i r hr
    split
    · exact h
    · rename_i hn
      have hu := h.unbind (b := b)
      dsimp only
      obtain ⟨u, hu'⟩ : ∃ u, t.unbind b = u := ⟨_, rfl⟩
      have hc0 := count_unbind t b
      rw [hu'] at hu hc0 ⊢
      have e : (u.fleet.map fun q => if q.fleet == n then { q with atBay := some b, lastVisit := t.yardTime }
          else q).map (·.fleet) = u.fleet.map (·.fleet) := by
        rw [List.map_map]; refine List.map_congr_left fun q _ => ?_
        dsimp only [Function.comp]; split <;> rfl
      refine ⟨by rw [e]; exact hu.1, by show (u.fleet.map _).length ≤ 256; rw [List.length_map]; exact hu.2,
          fun c => ?_⟩
      show (u.fleet.map _).countP _ ≤ 1
      rw [List.countP_map]
      by_cases hcb : c = b
      · subst hcb
        have : ∀ (l : List BusRecord), (l.map (·.fleet)).Nodup → (l.countP fun r => r.atBay == some c) = 0 →
            l.countP ((fun r : BusRecord => r.atBay == some c) ∘ fun q => if q.fleet == n then
                { q with atBay := some c, lastVisit := t.yardTime } else q) ≤ 1 := by
          intro l
          induction l with
          | nil => intro _ _; exact Nat.zero_le _
          | cons q l ih =>
            intro hd h0
            rw [List.map_cons, List.nodup_cons] at hd
            rw [List.countP_cons] at h0 ⊢
            have ih' := ih hd.2 (by omega)
            by_cases hq : q.fleet = n
            · have : l.countP ((fun r : BusRecord => r.atBay == some c) ∘ fun q => if q.fleet == n then
                { q with atBay := some c, lastVisit := t.yardTime } else q) = 0 := by
                rw [List.countP_eq_zero]
                intro x hx k
                have hxn : x.fleet ≠ n := by
                  intro e; exact hd.1 (by rw [hq, ← e]; exact List.mem_map.mpr ⟨x, hx, rfl⟩)
                simp only [Function.comp, hxn, beq_iff_eq, if_false] at k
                have : (l.countP fun r => r.atBay == some c) = 0 := by omega
                rw [List.countP_eq_zero] at this
                exact this x hx (by simpa using k)
              rw [this]; split <;> omega
            · have hq0 : ¬((((fun r : BusRecord => r.atBay == some c) ∘ fun q => if q.fleet == n then
                { q with atBay := some c, lastVisit := t.yardTime } else q) q) = true) := by
                simp only [Function.comp, hq, beq_iff_eq, if_false]
                intro k
                have : (q.atBay == some c) = true := by simpa using k
                rw [if_pos this] at h0; omega
              rw [if_neg hq0]; omega
        exact this u.fleet hu.1 hc0
      · refine Nat.le_trans (List.countP_mono_left fun q _ k => ?_) (hu.3 c)
        simp only [Function.comp] at k
        split at k
        · exact absurd (by simpa using k) (Ne.symm hcb)
        · exact k
  · rename_i hnone
    have hu := h.unbind (b := b)
    have hc0 := count_unbind t b
    have hfl := fleet_unbind t b
    obtain ⟨u, hu'⟩ : ∃ u, t.unbind b = u := ⟨_, rfl⟩
    dsimp only
    rw [hu'] at hu hc0 hfl ⊢
    have he : FleetOk u.evictIfFull := by
      unfold State.evictIfFull
      split
      · exact hu
      · split
        · exact (hu.sub List.filter_sublist).post _ _
        · exact hu
    have hlen : u.evictIfFull.fleet.length < 256 := by
      by_cases k : u.fleet.length < 256
      · have := (fleet_evictIfFull u).length_le; simp at this; omega
      · exact evict_len hu (exists_unbound hu (by omega))
    have hsub := evict_subset u
    obtain ⟨v, hv⟩ : ∃ v, u.evictIfFull = v := ⟨_, rfl⟩
    rw [hv] at he hlen hsub ⊢
    have hp : (insertBus (BusRecord.create n b t.yardTime) v.fleet).Perm (BusRecord.create n b t.yardTime ::
        v.fleet) := by
      generalize BusRecord.create n b t.yardTime = x
      induction v.fleet with
      | nil => exact List.Perm.refl _
      | cons q l ih =>
        unfold insertBus; split
        · exact List.Perm.refl _
        · exact (ih.cons q).trans (List.Perm.swap _ _ _)
    refine ⟨?_, ?_, fun c => ?_⟩
    · show ((insertBus _ v.fleet).map (·.fleet)).Nodup
      rw [(hp.map _).nodup_iff, List.map_cons, List.nodup_cons]
      refine ⟨?_, he.1⟩
      intro k
      obtain ⟨x, hx, e⟩ := List.mem_map.mp k
      have h1 : x.fleet ∈ u.fleet.map (·.fleet) := List.mem_map.mpr ⟨x, hsub x hx, rfl⟩
      rw [hfl] at h1
      obtain ⟨y, hy, e2⟩ := List.mem_map.mp h1
      unfold State.bus at hnone
      rw [List.find?_eq_none] at hnone
      exact hnone y hy (by rw [beq_iff_eq, e2, e]; rfl)
    · show (insertBus _ v.fleet).length ≤ 256
      rw [hp.length_eq, List.length_cons]; omega
    · show (insertBus _ v.fleet).countP _ ≤ 1
      rw [hp.countP_eq, List.countP_cons]
      by_cases hcb : c = b
      · subst hcb
        have : v.fleet.countP (fun r => r.atBay == some c) = 0 := by
          rw [List.countP_eq_zero] at hc0 ⊢
          exact fun x hx => hc0 x (hsub x hx)
        rw [this]; split <;> omega
      · have : ¬(((BusRecord.create n b t.yardTime).atBay == some c) = true) := by
          intro k
          have : some b = some c := by simpa [BusRecord.create] using k
          cases this; exact hcb rfl
        rw [if_neg this]; exact he.3 c

/-! ### The operations of a bay -/

theorem FleetOk.faultUnit {b : BayId} {t : State}
    (h : FleetOk t) (a : Nat) (r : FaultReason) (c : LineCommand) (k : Option Nat) :
    FleetOk (t.faultUnit b a r c k) := by
  simp only [State.faultUnit]
  with_reducible repeat first | exact h | apply FleetOk.modBay | apply FleetOk.post

theorem FleetOk.faultMember {b : BayId} {t : State}
    (h : FleetOk t) (a : Nat) (r : FaultReason) (c : LineCommand) (k : Option Nat) :
    FleetOk (t.faultMember b a r c k) := by
  simp only [State.faultMember]
  with_reducible repeat first | exact h | apply FleetOk.modBay | apply FleetOk.faultUnit

theorem FleetOk.splitGroup {b : BayId} {t : State} (h : FleetOk t) (g : Nat) :
    FleetOk (t.splitGroup b g) := by
  simp only [State.splitGroup]
  repeat' split
  all_goals with_reducible repeat
      first
        | exact h | apply FleetOk.post | exact fun _ => ⟨rfl, .inl rfl⟩ | apply FleetOk.modBound

theorem FleetOk.breakOffSwitch {b : BayId} {t : State} (h : FleetOk t) :
    FleetOk (t.breakOffSwitch b) := by
  simp only [State.breakOffSwitch]
  repeat' split
  all_goals with_reducible repeat first | exact h | apply FleetOk.modBay | apply FleetOk.splitGroup

theorem FleetOk.endJob {b : BayId} {t : State} (h : FleetOk t) :
    FleetOk (t.endJob b) := by
  simp only [State.endJob]
  with_reducible repeat
      first
        | exact h | apply FleetOk.modBay | exact fun _ => ⟨rfl, .inl rfl⟩ | apply FleetOk.modBound
        | apply FleetOk.breakOffSwitch

theorem FleetOk.endJobOnce {b : BayId} {t : State} (h : FleetOk t) :
    FleetOk (t.endJobOnce b) := by
  simp only [State.endJobOnce]
  repeat' split
  all_goals with_reducible repeat first | exact h | apply FleetOk.endJob

theorem FleetOk.cutOffBay {b : BayId} {t : State} (h : FleetOk t) (c : CutoffCause) :
    FleetOk (t.cutOffBay b c) := by
  simp only [State.cutOffBay]
  repeat' split
  all_goals with_reducible repeat
      first
        | exact h | apply FleetOk.modBay | apply FleetOk.post | apply FleetOk.drainLine | apply FleetOk.endJob

theorem FleetOk.takeCutoff {b : BayId} {t : State} (h : FleetOk t) (c : CutoffCause) :
    FleetOk (t.takeCutoff b c) := by
  simp only [State.takeCutoff]
  repeat' split
  all_goals with_reducible repeat first | exact h | apply FleetOk.modBay | apply FleetOk.cutOffBay

theorem FleetOk.deadlineCompare {b : BayId} {t : State} (h : FleetOk t) :
    FleetOk (t.deadlineCompare b) := by
  simp only [State.deadlineCompare]
  repeat' split
  all_goals with_reducible repeat first | exact h | apply FleetOk.modBay | apply FleetOk.post | apply FleetOk.takeCutoff

theorem FleetOk.leaveBus {b : BayId} {t : State} (h : FleetOk t) :
    FleetOk (t.leaveBus b) := by
  simp only [State.leaveBus]
  with_reducible repeat
      first
        | exact h | apply FleetOk.modBay | apply FleetOk.unbind | apply FleetOk.drainLine | apply FleetOk.endJobOnce

theorem FleetOk.sendBlock {b : BayId} {t : State} (h : FleetOk t) :
    FleetOk (t.sendBlock b) := by
  simp only [State.sendBlock]
  repeat' split
  all_goals with_reducible repeat first | exact h | apply FleetOk.modBay

theorem FleetOk.enterStream {b : BayId} {t : State} (h : FleetOk t) :
    FleetOk (t.enterStream b) := by
  simp only [State.enterStream]
  with_reducible repeat first | exact h | apply FleetOk.modBay | apply FleetOk.sendBlock

theorem FleetOk.offerOpen {b : BayId} {t : State} (h : FleetOk t) :
    FleetOk (t.offerOpen b) := by
  simp only [State.offerOpen]
  repeat' split
  all_goals with_reducible repeat first | exact h | apply FleetOk.modBay

theorem FleetOk.afterOpen {b : BayId} {t : State} (h : FleetOk t) :
    FleetOk (t.afterOpen b) := by
  simp only [State.afterOpen]
  repeat' split
  all_goals with_reducible repeat first | exact h | apply FleetOk.modBay | apply FleetOk.enterStream

theorem FleetOk.enterOpen {b : BayId} {t : State} (h : FleetOk t) :
    FleetOk (t.enterOpen b) := by
  simp only [State.enterOpen]
  repeat' split
  all_goals with_reducible repeat
      first
        | exact h | apply FleetOk.modBay | apply FleetOk.offerOpen | apply FleetOk.afterOpen

theorem FleetOk.startPass {b : BayId} {t : State} (h : FleetOk t) (f : Pass → Bool) (p : Pass) :
    FleetOk (t.startPass b f p) := by
  simp only [State.startPass]
  with_reducible repeat first | exact h | apply FleetOk.modBay | apply FleetOk.enterOpen

theorem FleetOk.restInDone {b : BayId} {t : State} (h : FleetOk t) :
    FleetOk (t.restInDone b) := by
  simp only [State.restInDone]
  repeat' split
  all_goals with_reducible repeat first | exact h | apply FleetOk.modBay | apply FleetOk.post

theorem FleetOk.admissionRun {b : BayId} {t : State} (h : FleetOk t) :
    FleetOk (t.admissionRun b) := by
  simp only [State.admissionRun]
  repeat' split
  all_goals with_reducible repeat
      first
        | exact h | apply FleetOk.modBay | apply FleetOk.startPass | apply FleetOk.restInDone

theorem FleetOk.completePlanning {b : BayId} {t : State} (h : FleetOk t) (g : Nat) :
    FleetOk (t.completePlanning b g) := by
  unfold State.completePlanning
  extract_lets units s1 plans s2 s3
  have h1 : FleetOk s1 := h.modBay _
  have h2 : FleetOk s2 := h1.counters _
  have h3 : FleetOk s3 := h2.modBound fun _ => ⟨rfl, .inl rfl⟩
  split
  · exact (h3.modBay _).post _ _
  · exact (h3.modBay _).admissionRun

theorem FleetOk.startPlanning {b : BayId} {t : State} (h : FleetOk t) :
    FleetOk (t.startPlanning b) := by
  simp only [State.startPlanning]
  repeat' split
  all_goals with_reducible repeat first | exact h | apply FleetOk.modBay | apply FleetOk.completePlanning

theorem FleetOk.endPass {b : BayId} {t : State} (h : FleetOk t) :
    FleetOk (t.endPass b) := by
  simp only [State.endPass]
  repeat' split
  all_goals with_reducible repeat
      first
        | exact h | apply FleetOk.modBay | apply FleetOk.admissionRun | apply FleetOk.startPlanning

theorem FleetOk.finishOpen {b : BayId} {t : State} (h : FleetOk t) (p : Pass) :
    FleetOk (t.finishOpen b p) := by
  simp only [State.finishOpen, State.finishPhase]
  repeat' split
  all_goals with_reducible repeat
      first
        | exact h | apply FleetOk.modBay | apply FleetOk.afterOpen | apply FleetOk.endPass

theorem FleetOk.continueOpen {b : BayId} {t : State} (h : FleetOk t) :
    FleetOk (t.continueOpen b) := by
  simp only [State.continueOpen]
  repeat' split
  all_goals with_reducible repeat first | exact h | apply FleetOk.offerOpen | apply FleetOk.finishOpen

theorem FleetOk.takeOpen {b : BayId} {t : State} (h : FleetOk t) (a : Nat) (r : Bool) (o : LineOutcome) :
    FleetOk (t.takeOpen b a r o) := by
  simp only [State.takeOpen]
  repeat' split
  all_goals with_reducible repeat
      first
        | exact h | apply FleetOk.modBay | apply FleetOk.faultMember | apply FleetOk.continueOpen

theorem FleetOk.finishRepair {b : BayId} {t : State} (h : FleetOk t) (p : Pass) :
    FleetOk (t.finishRepair b p) := by
  simp only [State.finishRepair, State.finishPhase]
  repeat' split
  all_goals with_reducible repeat first | exact h | apply FleetOk.modBay | apply FleetOk.endPass

theorem FleetOk.leaveRepairMember {b : BayId} {t : State} (h : FleetOk t) :
    FleetOk (t.leaveRepairMember b) := by
  simp only [State.leaveRepairMember]
  repeat' split
  all_goals with_reducible repeat first | exact h | apply FleetOk.modBay | apply FleetOk.finishRepair

theorem FleetOk.repairStep {b : BayId} {t : State} (h : FleetOk t) :
    FleetOk (t.repairStep b) := by
  simp only [State.repairStep]
  repeat' split
  all_goals with_reducible repeat
      first
        | exact h | apply FleetOk.modBay | apply FleetOk.faultMember | apply FleetOk.sendBlock
        | apply FleetOk.leaveRepairMember

theorem FleetOk.countFirstGaps {b : BayId} {t : State} (h : FleetOk t) (p : Pass) (o : LineOutcome) :
    FleetOk (t.countFirstGaps b p o) := by
  simp only [State.countFirstGaps]
  repeat' split
  all_goals with_reducible repeat first | exact h | apply FleetOk.modBay

theorem FleetOk.takeRepairGaps {b : BayId} {t : State} (h : FleetOk t) (a : Nat) (o : LineOutcome) :
    FleetOk (t.takeRepairGaps b a o) := by
  simp only [State.takeRepairGaps]
  repeat' split
  all_goals with_reducible repeat
      first
        | exact h | apply FleetOk.modBay | apply FleetOk.faultMember | apply FleetOk.leaveRepairMember
        | apply FleetOk.repairStep | apply FleetOk.countFirstGaps

theorem FleetOk.finishStream {b : BayId} {t : State} (h : FleetOk t) (p : Pass) :
    FleetOk (t.finishStream b p) := by
  simp only [State.finishStream, State.finishPhase]
  repeat' split
  all_goals with_reducible repeat first | exact h | apply FleetOk.modBay

theorem FleetOk.takeBlockSent {b : BayId} {t : State} (h : FleetOk t) :
    FleetOk (t.takeBlockSent b) := by
  simp only [State.takeBlockSent]
  repeat' split
  all_goals with_reducible repeat
      first
        | exact h | apply FleetOk.modBay | apply FleetOk.sendBlock | apply FleetOk.repairStep
        | apply FleetOk.finishStream

theorem FleetOk.continueCheck {b : BayId} {t : State} (h : FleetOk t) :
    FleetOk (t.continueCheck b) := by
  simp only [State.continueCheck]
  repeat' split
  all_goals with_reducible repeat first | exact h | apply FleetOk.modBay | apply FleetOk.endPass

theorem FleetOk.refetchOrFault {b : BayId} {t : State} (h : FleetOk t) (a : Nat) (r : FaultReason) :
    FleetOk (t.refetchOrFault b a r) := by
  unfold State.refetchOrFault
  split
  · exact h.faultMember _ _ _ _
  · exact h.modBay _

theorem FleetOk.checkMember {b : BayId} {t : State} (h : FleetOk t) (a i : Nat) (o : LineOutcome) :
    FleetOk (t.checkMember b a i o) := by
  cases o with
  | reply r =>
    cases r with
    | digest c => exact FleetOk.ite (h.modBay _) ((h.modBay _).refetchOrFault _ _)
    | reject r =>
      cases r
      case notComplete => exact (h.modBay _).refetchOrFault _ _
      all_goals exact h.faultMember _ _ _ _
    | _ => exact h.faultMember _ _ _ _
  | _ => exact h.faultMember _ _ _ _

theorem FleetOk.takeCheck {b : BayId} {t : State} (h : FleetOk t) (a : Nat) (o : LineOutcome) :
    FleetOk (t.takeCheck b a o) := by
  unfold State.takeCheck
  split
  · exact h
  · exact (h.checkMember a _ o).continueCheck

theorem FleetOk.enterNext {b : BayId} {t : State} (h : FleetOk t) (p : Pass) :
    FleetOk (t.enterNext b p) := by
  simp only [State.enterNext]
  repeat' split
  all_goals with_reducible repeat first | exact h | apply FleetOk.modBay | apply FleetOk.afterOpen

theorem FleetOk.offerNext {b : BayId} {t : State} (h : FleetOk t) (p : Pass) :
    FleetOk (t.offerNext b p) := by
  simp only [State.offerNext]
  repeat' split
  all_goals with_reducible repeat
      first
        | exact h | apply FleetOk.modBay | apply FleetOk.sendBlock | apply FleetOk.offerOpen
        | apply FleetOk.repairStep

theorem FleetOk.resumePass {b : BayId} {t : State} (h : FleetOk t) (p : Pass) :
    FleetOk (t.resumePass b p) := by
  simp only [State.resumePass]
  repeat' split
  all_goals with_reducible repeat
      first
        | exact h | apply FleetOk.modBay | apply FleetOk.enterNext | apply FleetOk.offerNext

theorem FleetOk.holdEmptied {b : BayId} {t : State} (h : FleetOk t) :
    FleetOk (t.holdEmptied b) := by
  simp only [State.holdEmptied]
  repeat' split
  all_goals with_reducible repeat first | exact h | apply FleetOk.admissionRun | apply FleetOk.resumePass

theorem FleetOk.recordSwitch {b : BayId} {t : State} (h : FleetOk t) (w : Switch) :
    FleetOk (t.recordSwitch b w) := by
  simp only [State.recordSwitch]
  repeat' split
  all_goals with_reducible repeat
      first
        | exact h | apply FleetOk.modBay | apply FleetOk.post | exact fun _ => ⟨rfl, .inl rfl⟩
        | apply FleetOk.modBound | apply FleetOk.splitGroup

theorem FleetOk.endSwitch {b : BayId} {t : State} (h : FleetOk t) (w : Switch) :
    FleetOk (t.endSwitch b w) := by
  simp only [State.endSwitch]
  repeat' split
  all_goals with_reducible repeat
      first
        | exact h | apply FleetOk.modBay | apply FleetOk.cutOffBay | apply FleetOk.admissionRun
        | apply FleetOk.startPlanning | apply FleetOk.recordSwitch

theorem FleetOk.continueSwitch {b : BayId} {t : State} (h : FleetOk t) :
    FleetOk (t.continueSwitch b) := by
  simp only [State.continueSwitch]
  repeat' split
  all_goals with_reducible repeat first | exact h | apply FleetOk.modBay | apply FleetOk.endSwitch

theorem FleetOk.failSwitch {b : BayId} {t : State} (h : FleetOk t) (a : Nat) (c : LineCommand) :
    FleetOk (t.failSwitch b a c) := by
  simp only [State.failSwitch]
  with_reducible repeat first | exact h | apply FleetOk.modBay | apply FleetOk.faultUnit

theorem FleetOk.settleRound {b : BayId} {t : State} (h : FleetOk t) :
    FleetOk (t.settleRound b) := by
  simp only [State.settleRound]
  repeat' split
  all_goals with_reducible repeat first | exact h | apply FleetOk.modBay | apply FleetOk.endSwitch

theorem FleetOk.takeSwitch {b : BayId} {t : State} (h : FleetOk t) (a : Nat) (o : LineOutcome) :
    FleetOk (t.takeSwitch b a o) := by
  simp only [State.takeSwitch]
  repeat' split
  all_goals with_reducible repeat
      first
        | exact h | apply FleetOk.modBay | apply FleetOk.continueSwitch | apply FleetOk.failSwitch

theorem FleetOk.confirmMember {b : BayId} {t : State} (h : FleetOk t) (a : Nat) (v : Version) :
    FleetOk (t.confirmMember b a v) := by
  simp only [State.confirmMember]
  with_reducible repeat first | exact h | apply FleetOk.modBay | exact fun _ => ⟨rfl, .inl rfl⟩ | apply FleetOk.modBound

theorem FleetOk.takeConfirm {b : BayId} {t : State} (h : FleetOk t) (a : Nat) (o : LineOutcome) :
    FleetOk (t.takeConfirm b a o) := by
  simp only [State.takeConfirm]
  repeat' split
  all_goals with_reducible repeat
      first
        | exact h | apply FleetOk.modBay | apply FleetOk.continueSwitch | apply FleetOk.failSwitch
        | apply FleetOk.confirmMember

theorem FleetOk.enterAnomaly {b : BayId} {t : State} (h : FleetOk t) (x : BayState) :
    FleetOk (t.enterAnomaly b x) := by
  simp only [State.enterAnomaly]
  with_reducible repeat first | exact h | apply FleetOk.modBay | apply FleetOk.post

theorem FleetOk.endSweep {b : BayId} {t : State} (h : FleetOk t) :
    FleetOk (t.endSweep b) := by
  unfold State.endSweep
  split
  · exact h.enterAnomaly _
  · next fleet _ =>
    have h1 := h.offerFleet (b := b) fleet
    split
    · next e => rw [e] at h1; exact h1.enterAnomaly _
    · next e => rw [e] at h1; exact (h1.modBay _).refreshBound.startPlanning

theorem FleetOk.takeSweep {b : BayId} {t : State} (h : FleetOk t) (a : Nat) (o : LineOutcome) :
    FleetOk (t.takeSweep b a o) := by
  simp only [State.takeSweep]
  repeat' split
  all_goals with_reducible repeat first | exact h | apply FleetOk.modBay | apply FleetOk.endSweep

theorem FleetOk.goOnPlanning {b : BayId} {t : State} (h : FleetOk t) (a : Nat) (o : LineOutcome) :
    FleetOk (t.goOnPlanning b a o) := by
  simp only [State.goOnPlanning]
  repeat' split
  all_goals with_reducible repeat
      first
        | exact h | apply FleetOk.modBay | apply FleetOk.faultUnit | apply FleetOk.completePlanning

theorem FleetOk.restartPlanning {b : BayId} {t : State} (h : FleetOk t) : FleetOk (t.restartPlanning b) :=
  (h.modBay _).startPlanning

theorem FleetOk.takePlanningGaps {b : BayId} {t : State} (h : FleetOk t) (a : Nat) (o : LineOutcome) :
    FleetOk (t.takePlanningGaps b a o) := by
  unfold State.takePlanningGaps
  split
  · exact h.restartPlanning
  · exact h.goOnPlanning a o

theorem FleetOk.handBack {b : BayId} {t : State} (h : FleetOk t) (tr : Transaction) (o : LineOutcome) :
    FleetOk (t.handBack b tr o) := by
  simp only [State.handBack]
  repeat' split
  all_goals with_reducible repeat
      first
        | exact h | apply FleetOk.modBay | apply FleetOk.takeOpen | apply FleetOk.takeRepairGaps
        | apply FleetOk.takeCheck | apply FleetOk.takeSwitch | apply FleetOk.takeConfirm | apply FleetOk.takeSweep
        | apply FleetOk.takePlanningGaps

theorem FleetOk.noReplyAttempt {b : BayId} {t : State} (h : FleetOk t) (tr : Transaction) :
    FleetOk (t.noReplyAttempt b tr) := by
  simp only [State.noReplyAttempt]
  repeat' split
  all_goals with_reducible repeat first | exact h | apply FleetOk.modBay | apply FleetOk.handBack

theorem FleetOk.notReady {b : BayId} {t : State} (h : FleetOk t) (tr : Transaction) :
    FleetOk (t.notReady b tr) := by
  simp only [State.notReady]
  repeat' split
  all_goals with_reducible repeat first | exact h | apply FleetOk.modBay | apply FleetOk.handBack

theorem FleetOk.takeNotice {b : BayId} {t : State} (h : FleetOk t) :
    FleetOk (t.takeNotice b) := by
  simp only [State.takeNotice]
  repeat' split
  all_goals with_reducible repeat first | exact h | apply FleetOk.modBay | apply FleetOk.startPlanning

theorem FleetOk.resetBay {b : BayId} {t : State} (h : FleetOk t) :
    FleetOk (t.resetBay b) := by
  simp only [State.resetBay]
  repeat' split
  all_goals with_reducible repeat first | exact h | apply FleetOk.modBay | apply FleetOk.leaveBus

theorem FleetOk.disableBay {b : BayId} {t : State} (h : FleetOk t) :
    FleetOk (t.disableBay b) := by
  simp only [State.disableBay]
  repeat' split
  all_goals with_reducible repeat first | exact h | apply FleetOk.modBay | apply FleetOk.leaveBus

theorem FleetOk.bayReset {b : BayId} {t : State} (h : FleetOk t) :
    FleetOk (t.bayReset b) := by
  simp only [State.bayReset]
  with_reducible repeat first | exact h | apply FleetOk.modBay | apply FleetOk.resetBay

theorem FleetOk.clearCutoff {b : BayId} {t : State} (h : FleetOk t) :
    FleetOk (t.clearCutoff b) := by
  simp only [State.clearCutoff]
  repeat' split
  all_goals with_reducible repeat
      first
        | exact h | apply FleetOk.modBay | apply FleetOk.unbind | apply FleetOk.deadlineCompare

theorem FleetOk.dropRule {b : BayId} {t : State} (h : FleetOk t) :
    FleetOk (t.dropRule b) := by
  simp only [State.dropRule]
  repeat' split
  all_goals with_reducible repeat first | exact h | apply FleetOk.modBay | apply FleetOk.holdEmptied

theorem FleetOk.dropHold {b : BayId} {t : State} (h : FleetOk t) (p : PortId) :
    FleetOk (State.dropHold p t b) := by
  simp only [State.dropHold]
  repeat' split
  all_goals with_reducible repeat first | exact h | apply FleetOk.modBay | apply FleetOk.holdEmptied




/-- A next state keeps the condition of the fleet table. -/
def KeepsFleet (r : Result) : Prop := ∀ t, r = .next t → FleetOk t

theorem KeepsFleet.next {s : State} (h : FleetOk s) : KeepsFleet (.next s) := by rintro t ⟨⟩; exact h
theorem KeepsFleet.fin {s : State} (h : FleetOk s) : KeepsFleet (finish s) := by
  rintro t ⟨⟩; exact h.congr (arbitrate_fleet s)
theorem KeepsFleet.fault {f : Fault} : KeepsFleet (.fault f) := by rintro t ⟨⟩
theorem FleetOk.modPort {s : State}
    (h : FleetOk s) (p : PortId) (f : Port → Port) : FleetOk (s.modPort p f) := h.congr rfl
theorem FleetOk.respond {s : State}
    (h : FleetOk s) (p : PortId) (st : Status) (b : Body) : FleetOk (s.respond p st b) := h.congr rfl
theorem FleetOk.refuse {s : State}
    (h : FleetOk s) (p : PortId) (st : Status) (b : Body) : FleetOk (s.refuse p st b) := by
  unfold State.refuse; exact h.congr rfl
theorem FleetOk.intake {s : State} (h : FleetOk s) (p : PortId) : FleetOk (s.intake p) := h.congr rfl
theorem FleetOk.endGrant {s : State} (h : FleetOk s) : FleetOk (s.endGrant) := h.congr rfl
theorem FleetOk.store {s : State} (h : FleetOk s) (st : ImageStore) : FleetOk { s with store := st } := h.congr rfl
theorem FleetOk.plans {s : State} (h : FleetOk s) (st : PlanStore) : FleetOk { s with plans := st } := h.congr rfl

theorem KeepsFleet.serve {α : Type} {s : State} {p : PortId} {code : Byte} {roles : List Role} {args : Option α}
    {ac : α → State → Result}
    (h : FleetOk s) (k : ∀ a t, FleetOk t → KeepsFleet (ac a t)) : KeepsFleet (s.serve p code roles args ac) := by
  unfold State.serve
  split
  · exact .next h
  split
  · exact .next (h.refuse _ _ _)
  split
  · exact .next ((h.intake p).respond _ _ _)
  split
  · exact .next ((h.intake p).respond _ _ _)
  · exact k _ _ (h.intake p)
theorem KeepsFleet.withBus {s : State} {p : PortId} {b : BayId} {ac : State → Result}
    (h : FleetOk s) (k : KeepsFleet (ac s)) : KeepsFleet (s.withBus p b ac) := by
  unfold State.withBus
  split
  · exact .next (h.respond _ _ _)
  · exact .next (h.respond _ _ _)
  all_goals exact k

theorem FleetOk.foldl {α : Type} {op : State → α → State}
    (hop : ∀ t a, FleetOk t → FleetOk (op t a)) : ∀ (l : List α) {s : State}, FleetOk s → FleetOk (l.foldl op s) := by
  intro l
  induction l with
  | nil => exact fun h => h
  | cons a l ih => exact fun h => ih (hop _ _ h)

theorem FleetOk.dropUpload {s : State} (h : FleetOk s) (p : PortId) : FleetOk (s.dropUpload p) := by
  unfold State.dropUpload; split
  · exact h
  · exact h.congr rfl

theorem FleetOk.writeChunk {s t : State}
    (h : FleetOk s) {p : PortId} {c : List Byte} (e : s.writeChunk p c = some t) : FleetOk t := by
  unfold State.writeChunk at e
  split at e
  · cases e
  split at e
  · cases e
  · cases e; exact h.congr rfl
theorem FleetOk.completeWrite {s t : State}
    (h : FleetOk s) {p : PortId} (e : s.completeWrite p = some t) : FleetOk t := by
  unfold State.completeWrite at e
  split at e
  · split at e
    · exact h.endGrant.writeChunk e
    · cases e; exact h
  · cases e; exact h
theorem FleetOk.resetBlocks {s : State} (h : FleetOk s) : FleetOk s.resetBlocks := by
  unfold State.resetBlocks
  extract_lets s1 s2 s3
  have h1 : FleetOk s1 := FleetOk.foldl (fun t p k => k.modPort p _) _ h
  have h2 : FleetOk s2 := FleetOk.foldl (fun t p k => k.modPort p _) _ h1
  have h3 : FleetOk s3 := FleetOk.foldl (fun t p k => k.resetBay) _ (h2.congr rfl)
  exact h3.store _
theorem FleetOk.portReset {s : State} (h : FleetOk s) (p : PortId) : FleetOk (s.portReset p) := by
  unfold State.portReset
  exact FleetOk.foldl (fun t b k => k.dropHold p) _ (((h.dropUpload p).modPort p Port.reset).congr rfl)
theorem KeepsFleet.withReset {s : State} (h : FleetOk s) : KeepsFleet s.withReset := by
  unfold State.withReset State.controllerReset
  cases s.writer with
  | none => exact .fin h.resetBlocks
  | some q =>
    dsimp only
    cases hc : s.completeWrite q with
    | none => exact .fault
    | some t => exact .fin ((h.completeWrite hc).respond _ _ _).resetBlocks

theorem FleetOk.imgRetire {s : State} (h : FleetOk s) (p : PortId) (id : Nat) : FleetOk (s.imgRetire p id) := by
  unfold State.imgRetire
  split
  · exact h.respond _ _ _
  split
  · exact h.respond _ _ _
  split
  · exact h.respond _ _ _
  split
  · exact h.respond _ _ _
  · generalize s.store.deleteWhere (fun x => x.id == id) = st
    exact (h.store st).respond _ _ _
theorem FleetOk.imgData {s : State} (h : FleetOk s) (p : PortId) (c : List Byte) : FleetOk (s.imgData p c) := by
  unfold State.imgData
  repeat' split
  all_goals first | exact h.respond _ _ _ | exact h.modPort _ _
theorem FleetOk.imgQuery {s : State} (h : FleetOk s) (p : PortId) (c : ImageSelector) : FleetOk (s.imgQuery p c) := by
  unfold State.imgQuery
  repeat' split
  all_goals exact h.respond _ _ _
theorem FleetOk.planActivate {s : State} (h : FleetOk s) (p : PortId) : FleetOk (s.planActivate p) := by
  unfold State.planActivate
  split
  · exact h.respond _ _ _
  split
  · exact h.respond _ _ _
  split
  · exact h.respond _ _ _
  · generalize s.plans.activated = st
    generalize s.plans.generation + 1 = n
    refine FleetOk.respond ?_ _ _ _
    have k : FleetOk (({ s with plans := st } : State).post .planActivated (.generation n)) := (h.plans st).post _ _
    revert k
    generalize ({ s with plans := st } : State).post .planActivated (.generation n) = u
    exact fun k => FleetOk.foldl (fun t b k => k.modBay _) _ k
theorem FleetOk.imgBegin {s : State} (h : FleetOk s) (p : PortId) (a : BeginArgs) : FleetOk (s.imgBegin p a) := by
  unfold State.imgBegin
  repeat' split
  all_goals first | exact h.respond _ _ _ | exact FleetOk.congr h rfl
theorem FleetOk.imgFinish {s : State} (h : FleetOk s) (p : PortId) : FleetOk (s.imgFinish p) := by
  unfold State.imgFinish
  repeat' split
  all_goals first | exact h.respond _ _ _ | exact FleetOk.congr h rfl

end Sys2Proof
end

