-- ==== Sys2Proof/Laws/Order.lean ====
section
/-! SUPPORT. The free order of the bays visits each bay once, and what a run of bay operations over several bays does. -/

namespace Sys2Proof

open Machine

theorem orderOf_perm (n : Nat) : ∀ (l : List BayId) (k : Nat), l.length = n → (Machine.orderOf n l k).Perm l := by
  induction n with
  | zero => intro l k h; rw [List.length_eq_zero_iff.mp h]; rfl
  | succ n ih =>
    intro l k h
    unfold Machine.orderOf
    have hl : k % l.length < l.length := Nat.mod_lt _ (by omega)
    rw [List.getElem?_eq_getElem hl]
    have e : (l.eraseIdx (k % l.length)).length = n := by rw [List.length_eraseIdx_of_lt hl]; omega
    exact ((ih _ _ e).cons _).trans (List.getElem_cons_eraseIdx_perm hl)

/-- Whatever the free value, every bay acts once. -/
theorem bayOrder_perm (s : State) : s.bayOrder.Perm allBays := Sys2Proof.orderOf_perm 8 allBays _ rfl

theorem mem_allBays (b : BayId) : b ∈ allBays := by fin_cases b <;> decide

theorem mem_bayOrder (s : State) (b : BayId) : b ∈ s.bayOrder := (bayOrder_perm s).mem_iff.mpr (mem_allBays b)

theorem nodup_bayOrder (s : State) : s.bayOrder.Nodup := (bayOrder_perm s).nodup_iff.mpr (by decide)

/-- What operations of several bays leave alone. -/
structure AnyBays (s t : State) : Prop where
  pending : t.pending = s.pending
  freeDraws : t.freeDraws = s.freeDraws
  yardTime : t.yardTime = s.yardTime
  segmentCount : t.store.segmentCount = s.store.segmentCount
  catalogue : t.store.catalogue = s.store.catalogue
  pointer : t.store.pointer = s.store.pointer
  mem : t.store.mem = s.store.mem
  verifier : t.store.verifier = s.store.verifier
  searchFrom : t.store.searchFrom = s.store.searchFrom
  standby : t.plans.standby = s.plans.standby
  active : t.plans.active = s.plans.active
  generation : t.plans.generation = s.plans.generation
  posts : ∃ l : List (EventKind × Subject),
    ∀ p, t.port p = l.foldl (fun q x => Port.post x.1 x.2 q) (s.port p)

theorem OnlyBay.any {b : BayId} {s t : State} (h : OnlyBay b s t) : AnyBays s t :=
  ⟨h.pending, h.freeDraws, h.yardTime, h.segmentCount, h.catalogue, h.pointer, h.mem, h.verifier, h.searchFrom,
    h.standby, h.active, h.generation, h.posts⟩

theorem AnyBays.refl (s : State) : AnyBays s s := (OnlyBay.refl 0 s).any

theorem AnyBays.trans {s t u : State} (h : AnyBays s t) (k : AnyBays t u) : AnyBays s u where
  pending := k.pending.trans h.pending
  freeDraws := k.freeDraws.trans h.freeDraws
  yardTime := k.yardTime.trans h.yardTime
  segmentCount := k.segmentCount.trans h.segmentCount
  catalogue := k.catalogue.trans h.catalogue
  pointer := k.pointer.trans h.pointer
  mem := k.mem.trans h.mem
  verifier := k.verifier.trans h.verifier
  searchFrom := k.searchFrom.trans h.searchFrom
  standby := k.standby.trans h.standby
  active := k.active.trans h.active
  generation := k.generation.trans h.generation
  posts := by
    obtain ⟨l, hl⟩ := h.posts
    obtain ⟨m, hm⟩ := k.posts
    exact ⟨l ++ m, fun p => by rw [hm p, hl p, List.foldl_append]⟩

/-- A run of an operation over several bays: each of them is changed by its own operation alone, from the bay as it stood
before the run. -/
theorem fold_bays {op : State → BayId → State} (hop : ∀ t b, OnlyBay b t (op t b)) :
    ∀ (l : List BayId), l.Nodup → ∀ s : State,
      AnyBays s (l.foldl op s) ∧ (∀ c, c ∉ l → (l.foldl op s).bay c = s.bay c) ∧
      ((s.fleet.map (·.fleet)).Nodup → ((l.foldl op s).fleet.map (·.fleet)).Nodup ∧
        ∀ c, c ∉ l → (l.foldl op s).bound c = s.bound c) ∧
      ∀ b ∈ l, ∃ t, AnyBays s t ∧ t.bay b = s.bay b ∧ (l.foldl op s).bay b = (op t b).bay b ∧
        ((s.fleet.map (·.fleet)).Nodup → t.bound b = s.bound b ∧ (l.foldl op s).bound b = (op t b).bound b) := by
  intro l
  induction l with
  | nil => exact fun _ s => ⟨AnyBays.refl s, fun _ _ => rfl, fun h => ⟨h, fun _ _ => rfl⟩, fun _ h => by cases h⟩
  | cons a rest ih =>
    intro nd s
    obtain ⟨na, nr⟩ := List.nodup_cons.mp nd
    obtain ⟨i1, i2, i3, i4⟩ := ih nr (op s a)
    have h := hop s a
    simp only [List.foldl_cons]
    refine ⟨h.any.trans i1, fun c hc => ?_, fun d => ?_, fun b hb => ?_⟩
    · rw [List.mem_cons, not_or] at hc
      rw [i2 c hc.2, h.others c hc.1]
    · have e := h.buses d
      have f := i3 e.1
      exact ⟨f.1, fun c hc => by
        rw [List.mem_cons, not_or] at hc
        rw [f.2 c hc.2, e.2 c hc.1]⟩
    · rcases List.mem_cons.mp hb with rfl | hb
      · exact ⟨s, AnyBays.refl s, rfl, i2 b na, fun d => ⟨rfl, (i3 (h.buses d).1).2 b na⟩⟩
      · have hne : b ≠ a := fun e => na (e ▸ hb)
        obtain ⟨t, t1, t2, t3, t4⟩ := i4 b hb
        refine ⟨t, h.any.trans t1, t2.trans (h.others b hne), t3, fun d => ?_⟩
        have e := h.buses d
        exact ⟨(t4 e.1).1.trans (e.2 b hne), (t4 e.1).2⟩

/-- Postings leave alone what they leave alone one by one. -/
theorem posts_frame (l : List (EventKind × Subject)) (t : Port) :
    let u := l.foldl (fun q x => Port.post x.1 x.2 q) t
    u.role = t.role ∧ u.framer = t.framer ∧ u.inReset = t.inReset ∧ u.inProgress = t.inProgress ∧
    u.sending = t.sending ∧ u.waiting = t.waiting ∧ u.upload = t.upload ∧ u.write = t.write ∧ u.enable = t.enable := by
  induction l generalizing t with
  | nil => simp
  | cons x rest ih =>
    have h := ih (Port.post x.1 x.2 t)
    have k := post_frame x.1 x.2 t
    simp only [List.foldl_cons] at h ⊢
    obtain ⟨h1, h2, h3, h4, h5, h6, h7, h8, h9⟩ := h
    obtain ⟨k1, k2, k3, k4, k5, k6, k7, k8, k9⟩ := k
    exact ⟨h1.trans k1, h2.trans k2, h3.trans k3, h4.trans k4, h5.trans k5, h6.trans k6, h7.trans k7, h8.trans k8,
      h9.trans k9⟩

/-- A port held in reset sees no posting. -/
theorem posts_inReset (l : List (EventKind × Subject)) {t : Port} (h : t.inReset = true) :
    l.foldl (fun q x => Port.post x.1 x.2 q) t = t := by
  induction l with
  | nil => rfl
  | cons x rest ih => rw [List.foldl_cons, show Port.post x.1 x.2 t = t by simp [Port.post, h], ih]

end Sys2Proof
end

