-- ==== Sys2Proof/Laws/JobEnd.lean ====
section
/-! SUPPORT. What the end of a job, a cutoff, leaving the bus and the bays of a controller reset do to the fleet table,
the ports and the line (R75, R88, R150, R151, R154, R164). -/

namespace Sys2Proof
open Machine

/-- The explicit form of R88 steps 2 and 4 is the model's. -/
theorem endedUnits_eq (units : List JobUnit) : endedUnits units = units.map fun u => u.cutOff.release := by
  refine List.map_congr_left fun x _ => ?_
  obtain ⟨a, i, ka, ks, d, r, pl, g, ha, k, ms, p, gs, mo, rs, ru, f, c, ob⟩ := x
  rcases d with _ | d
  · rfl
  · rcases p with _ | p
    · cases d <;> rfl
    · cases d <;> cases p <;> rfl

theorem unconfirmedOf_release (units : List JobUnit) (sent : List Nat) :
    unconfirmedOf (units.map JobUnit.release) sent = unconfirmedOf units sent := by
  unfold unconfirmedOf
  congr 1
  funext a
  rw [List.find?_map]
  have : ((fun u : JobUnit => u.addr == a) ∘ JobUnit.release) = fun u => u.addr == a := rfl
  rw [this]
  cases units.find? fun u => u.addr == a <;> rfl

theorem switchedOf_release (units : List JobUnit) (members : List Nat) :
    switchedOf (units.map JobUnit.release) members = switchedOf units members := by
  unfold switchedOf
  congr 1
  funext a
  rw [List.any_map]
  rfl

/-- The split list of a bay's bound record once its switch in flight is broken off (R150, R151). -/
def brokenSplits (y : Bay) (splits : List Split) : List Split :=
  match y.switching with
  | none => splits
  | some sw =>
    if sw.group = 0 then splits
    else match y.groupRecord sw.group with
      | none => splits
      | some r => match unconfirmedOf y.units r.sent with
        | [] => dropFromSplit sw.group (switchedOf y.units r.members) splits
        | m :: rest =>
          writeSplit { group := sw.group, images := r.images, members := m :: rest } r.members splits

/-- The group whose split a switch broken off posts. -/
def brokenGroup (y : Bay) : Option Nat :=
  match y.switching with
  | none => none
  | some sw =>
    if sw.group = 0 then none
    else match y.groupRecord sw.group with
      | none => none
      | some r => match unconfirmedOf y.units r.sent with
        | [] => none
        | _ :: _ => some sw.group

theorem groupRecord_modGroup (y : Bay) (g : Nat) (f : GroupRecord → GroupRecord) (h : ∀ r, (f r).group = r.group) :
    (y.modGroup g f).groupRecord g = (y.groupRecord g).map f := by
  unfold Bay.groupRecord Bay.modGroup
  rw [List.find?_map]
  have : ((fun r : GroupRecord => r.group == g) ∘ fun r => if r.group == g then f r else r) =
      fun r => r.group == g := by
    funext r
    simp only [Function.comp]
    split
    · rw [h]
    · rfl
  rw [this]
  cases k : y.groups.find? fun r => r.group == g with
  | none => rfl
  | some r => have := List.find?_some k; simp_all

/-- What breaking off a switch does to the fleet table and the ports. -/
theorem breakOffSwitch_effect (t : State) (b : BayId) :
    (t.breakOffSwitch b).fleet =
      (t.modBound b fun r => { r with splits := brokenSplits (t.bay b) r.splits }).fleet ∧
    (t.breakOffSwitch b).ports = match brokenGroup (t.bay b) with
      | none => t.ports
      | some g => (t.post .groupSplit (.bayGroup b g)).ports := by
  have idm : (t.modBound b fun r => { r with splits := r.splits }).fleet = t.fleet := by
    simp only [State.modBound, ite_self, List.map_id']
  unfold State.breakOffSwitch brokenSplits brokenGroup
  cases (t.bay b).switching with
  | none => exact ⟨idm.symm, rfl⟩
  | some sw =>
    dsimp only
    split
    · exact ⟨idm.symm, rfl⟩
    · unfold State.splitGroup
      simp only [State.bay_modBay_same]
      rw [groupRecord_modGroup (t.bay b) sw.group (fun r => { r with ended := true }) fun _ => rfl]
      cases (t.bay b).groupRecord sw.group with
      | none => exact ⟨idm.symm, rfl⟩
      | some r =>
        simp only [Option.map_some, Bay.modGroup]
        cases unconfirmedOf (t.bay b).units r.sent with
        | nil => exact ⟨rfl, rfl⟩
        | cons m rest => exact ⟨rfl, rfl⟩

/-- The records of a job's end, in the model's words and in the claims'. -/
theorem jobWritten_eq (units : List JobUnit) : BusRecord.jobEnded units = jobWritten units := by
  funext r
  have : staleCount units =
      (units.filter fun x => decide (x.decision = some .flash ∧ x.progress ≠ some .switched)).length := by
    unfold staleCount
    rw [List.countP_eq_length_filter]
    congr 2
    funext x
    by_cases h : x.decision = some .flash <;> by_cases k : x.progress = some .switched <;>
      simp [JobUnit.isFlash, h, k]
  unfold BusRecord.jobEnded jobWritten
  rw [this]
  rfl

/-- A bay with the units of a job's end. -/
def cutBay (y : Bay) : Bay := { y with units := endedUnits y.units }

/-- What the end of a job does to one record. -/
def endedRecord (y : Bay) (r : BusRecord) : BusRecord :=
  BusRecord.jobEnded (endedUnits y.units) { r with splits := brokenSplits (cutBay y) r.splits }

theorem modBound_modBound (t : State) (b : BayId) (f : List Split → List Split) (g : BusRecord → BusRecord) :
    (t.modBound b fun r => { r with splits := f r.splits }).modBound b g =
      t.modBound b fun r => g { r with splits := f r.splits } := by
  simp only [State.modBound, List.map_map]
  congr 1
  refine List.map_congr_left fun r _ => ?_
  simp only [Function.comp]
  by_cases k : (r.atBay == some b) = true
  · rw [if_pos k, if_pos k, if_pos k]
  · rw [if_neg k, if_neg k, if_neg k]

theorem modBound_fleet (s t : State) (b : BayId) (f : BusRecord → BusRecord) (h : s.fleet = t.fleet) :
    (s.modBound b f).fleet = (t.modBound b f).fleet := by
  simp only [State.modBound, h]

theorem jobEnded_effect (t : State) (b : BayId) :
    (jobEnded t b).fleet = (t.modBound b (endedRecord (t.bay b))).fleet ∧
    (jobEnded t b).ports = match brokenGroup (cutBay (t.bay b)) with
      | none => t.ports
      | some g => (t.post .groupSplit (.bayGroup b g)).ports := by
  obtain ⟨e1, e2⟩ := breakOffSwitch_effect (t.modBay b fun y => { y with units := endedUnits (t.bay b).units }) b
  rw [State.bay_modBay_same] at e1 e2
  constructor
  · unfold jobEnded
    dsimp only
    rw [← jobWritten_eq,
      modBound_fleet _ _ _ _ e1, modBound_modBound]
    rfl
  · show ((t.modBay b _).breakOffSwitch b).ports = _
    rw [e2]
    show (match brokenGroup (cutBay (t.bay b)) with | none => _ | some g => _) = _
    cases brokenGroup (cutBay (t.bay b)) <;> rfl

/-- The model's end of a job leaves the fleet table and the ports as the claims say. -/
theorem endJob_effect (t : State) (b : BayId) :
    (t.endJob b).fleet = (jobEnded t b).fleet ∧ (t.endJob b).ports = (jobEnded t b).ports := by
  obtain ⟨u, hu⟩ : ∃ u, u = t.modBay b fun y => { y with units := y.units.map JobUnit.cutOff } := ⟨_, rfl⟩
  obtain ⟨e1, e2⟩ := breakOffSwitch_effect u b
  obtain ⟨f1, f2⟩ := jobEnded_effect t b
  have ub : u.bay b = { t.bay b with units := (t.bay b).units.map JobUnit.cutOff } := by
    rw [hu]; exact State.bay_modBay_same _ _ _
  have rel : endedUnits (t.bay b).units = ((t.bay b).units.map JobUnit.cutOff).map JobUnit.release := by
    rw [endedUnits_eq, List.map_map]; rfl
  have bs : brokenSplits (u.bay b) = brokenSplits (cutBay (t.bay b)) := by
    funext l
    unfold brokenSplits cutBay
    rw [ub]
    simp only [rel, unconfirmedOf_release, switchedOf_release, Bay.groupRecord]
  have bg : brokenGroup (u.bay b) = brokenGroup (cutBay (t.bay b)) := by
    unfold brokenGroup cutBay
    rw [ub]
    simp only [rel, unconfirmedOf_release, Bay.groupRecord]
  have un : ((u.breakOffSwitch b).modBay b fun y => { y with units := y.units.map JobUnit.release }).bay b =
      { (u.breakOffSwitch b).bay b with units := endedUnits (t.bay b).units } := by
    rw [State.bay_modBay_same]
    obtain ⟨g, e⟩ := bay_breakOffSwitch u b
    rw [e, ub, rel]
  have form : t.endJob b = (((u.breakOffSwitch b).modBay b fun y =>
      { y with units := y.units.map JobUnit.release }).modBound b
        (BusRecord.jobEnded (endedUnits (t.bay b).units))).modBay b Bay.dropWork := by
    unfold State.endJob
    simp only [← hu]
    rw [un]
  rw [form, f1, f2]
  constructor
  · show (((u.breakOffSwitch b).modBay b _).modBound b _).fleet = _
    rw [show (((u.breakOffSwitch b).modBay b fun y => { y with units := y.units.map JobUnit.release }).modBound b _).fleet =
        ((u.breakOffSwitch b).modBound b _).fleet from rfl, modBound_fleet _ _ _ _ e1, modBound_modBound, bs]
    exact modBound_fleet _ _ _ _ (by rw [hu]; rfl)
  · show (u.breakOffSwitch b).ports = _
    rw [e2, bg]
    cases brokenGroup (cutBay (t.bay b)) <;> (rw [hu]; rfl)

theorem post_ports {s t : State} (h : s.ports = t.ports) (k : EventKind) (x : Subject) :
    (s.post k x).ports = (t.post k x).ports := by
  simp only [State.post, State.modPort, State.setPort, State.port, h]

/-- What the end of a job does to the fleet table and the ports is decided by these fields. -/
theorem jobEnded_congr {s t : State} {b : BayId} (hu : (s.bay b).units = (t.bay b).units)
    (hg : (s.bay b).groups = (t.bay b).groups) (hw : (s.bay b).switching = (t.bay b).switching)
    (hf : s.fleet = t.fleet) (hp : s.ports = t.ports) :
    (jobEnded s b).fleet = (jobEnded t b).fleet ∧ (jobEnded s b).ports = (jobEnded t b).ports := by
  obtain ⟨e1, e2⟩ := jobEnded_effect s b
  obtain ⟨f1, f2⟩ := jobEnded_effect t b
  have k : endedRecord (s.bay b) = endedRecord (t.bay b) ∧
      brokenGroup (cutBay (s.bay b)) = brokenGroup (cutBay (t.bay b)) := by
    simp only [funext_iff, endedRecord, brokenSplits, brokenGroup, cutBay, hu, hg, hw, Bay.groupRecord]
    exact ⟨fun _ => trivial, trivial⟩
  rw [e1, f1, e2, f2, k.1, k.2]
  refine ⟨modBound_fleet _ _ _ _ hf, ?_⟩
  cases brokenGroup (cutBay (t.bay b)) with
  | none => exact hp
  | some g => exact post_ports hp _ _

/-- The end of a job leaves the plans and the image store alone. -/
theorem endJob_keeps (t : State) (b : BayId) : (t.endJob b).plans = t.plans ∧ (t.endJob b).store = t.store := by
  have h : ∀ (u : State) (g : Nat), (u.splitGroup b g).plans = u.plans ∧ (u.splitGroup b g).store = u.store := by
    intro u g
    unfold State.splitGroup
    dsimp only
    repeat' split
    all_goals exact ⟨rfl, rfl⟩
  have k : ∀ u : State, (u.breakOffSwitch b).plans = u.plans ∧ (u.breakOffSwitch b).store = u.store := by
    intro u
    unfold State.breakOffSwitch
    repeat' split
    all_goals first | exact ⟨rfl, rfl⟩ | exact ⟨(h _ _).1, (h _ _).2⟩
  exact k (t.modBay b fun y => { y with units := y.units.map JobUnit.cutOff })

/-- A cutoff that acts does what the claims say (R164). -/
theorem cutsOff {b : BayId} {s : State} (c : CutoffCause) (h : (s.bay b).cutoff = none) :
    CutsOff b c s (s.cutOffBay b c) := by
  have hb := bay_cutOffBay s b c h
  obtain ⟨t, ht⟩ : ∃ t, t = (s.modBay b fun y => { y with cutoff := some c }).drainLine b := ⟨_, rfl⟩
  have e : s.cutOffBay b c = ((t.endJob b).modBay b fun y => { y with state := .cutoff }).post .bayCutoff (.bay b) := by
    unfold State.cutOffBay
    rw [if_neg (by simp [h])]
    rw [ht]
  have tb : (t.bay b).units = (s.bay b).units ∧ (t.bay b).groups = (s.bay b).groups ∧
      (t.bay b).switching = (s.bay b).switching := by
    rw [ht, bay_drainLine, drainEngine_eq, State.bay_modBay_same]
    exact ⟨rfl, rfl, rfl⟩
  obtain ⟨j1, j2⟩ := endJob_effect t b
  obtain ⟨k1, k2⟩ := jobEnded_congr (s := t) (t := s) tb.1 tb.2.1 tb.2.2 (by rw [ht]; rfl) (by rw [ht]; rfl)
  refine ⟨(OnlyBay.refl b s).cutOffBay c, ?_, ⟨?_, by rw [hb], ?_⟩, quiet_cutOffBay s b c h, ?_, ?_, fun q => ?_⟩
  · rw [hb, endedUnits_eq]
  · rw [hb]; exact drains_drainEngine (s.bay b)
  · rw [e]
    show (t.endJob b).store.granted = _
    rw [(endJob_keeps t b).2, ht]
    rfl
  · rw [e, State.post_plans, State.modBay_plans, (endJob_keeps t b).1, ht]
    rfl
  · rw [e]
    exact j1.trans k1
  · rw [e, port_post, port_post]
    congr 1
    exact State.port_of_ports (j2.trans k2) q

/-- A bay that leaves its bus stops its line. -/
theorem lineStops_leaveBus (s : State) (b : BayId) : LineStops b s (s.leaveBus b) := by
  obtain ⟨y, e, -, -⟩ := bay_leaveBus s b
  refine ⟨by rw [e]; exact drains_drainEngine (s.bay b), by rw [e], ?_⟩
  show ((s.drainLine b).endJobOnce b).store.granted = _
  unfold State.endJobOnce
  split
  · rfl
  · rw [(endJob_keeps _ b).2]; rfl

/-- A change of the bay that leaves its engine and its reader alone keeps the line stopped. -/
theorem lineStops_modBay {b : BayId} {s u : State} (h : LineStops b s u) {f : Bay → Bay}
    (he : (f (u.bay b)).engine = (u.bay b).engine) (hr : (f (u.bay b)).reader = (u.bay b).reader) :
    LineStops b s (u.modBay b f) :=
  ⟨by rw [State.bay_modBay_same, he]; exact h.engine, by rw [State.bay_modBay_same, hr]; exact h.reader, h.granted⟩

/-- A bay that leaves its bus does to the fleet table and the ports what the claims say. -/
theorem leaveBus_effect (s : State) (b : BayId) :
    (s.leaveBus b).fleet = (busLeft s b).fleet ∧ (s.leaveBus b).ports = (busLeft s b).ports := by
  have tb : ((s.drainLine b).bay b).units = (s.bay b).units ∧ ((s.drainLine b).bay b).groups = (s.bay b).groups ∧
      ((s.drainLine b).bay b).switching = (s.bay b).switching ∧ ((s.drainLine b).bay b).state = (s.bay b).state := by
    rw [bay_drainLine, drainEngine_eq]
    exact ⟨rfl, rfl, rfl, rfl⟩
  have k : ((s.drainLine b).endJobOnce b).fleet = (if (s.bay b).state = .cutoff then s else jobEnded s b).fleet ∧
      ((s.drainLine b).endJobOnce b).ports = (if (s.bay b).state = .cutoff then s else jobEnded s b).ports := by
    unfold State.endJobOnce
    rw [tb.2.2.2]
    split
    · exact ⟨rfl, rfl⟩
    · obtain ⟨j1, j2⟩ := endJob_effect (s.drainLine b) b
      obtain ⟨k1, k2⟩ := jobEnded_congr (s := s.drainLine b) (t := s) tb.1 tb.2.1 tb.2.2.1 rfl rfl
      exact ⟨j1.trans k1, j2.trans k2⟩
  unfold State.leaveBus busLeft State.unbind
  exact ⟨modBound_fleet _ _ _ _ k.1, k.2⟩

theorem unconfirmedOf_ne_nil (units : List JobUnit) (sent : List Nat) : unconfirmedOf units sent ≠ [] ↔
    ∃ (m : Nat) (v : JobUnit) (pl : Planned), m ∈ sent ∧ (units.find? fun u => u.addr == m) = some v ∧
      v.progress ≠ some .switched ∧ v.planned = some pl := by
  unfold unconfirmedOf
  rw [Ne, List.filterMap_eq_nil_iff]
  constructor
  · intro h
    by_contra k
    refine h fun m hm => ?_
    split
    · next v hv =>
      split
      · rfl
      · next hs =>
        cases hpl : v.planned with
        | none => rfl
        | some pl => exact absurd ⟨m, v, pl, hm, hv, hs, hpl⟩ k
    · rfl
  · rintro ⟨m, v, pl, hm, hv, hs, hpl⟩ h
    have := h m hm
    rw [hv] at this
    simp [hs, hpl] at this

/-- A switch broken off posts GROUP_SPLIT exactly for a group with a sent member that is not SWITCHED. -/
theorem brokenGroup_iff (y : Bay) (g : Nat) : brokenGroup (cutBay y) = some g ↔ SplitsGroup y g := by
  have hu : ∀ (m : Nat), (cutBay y).unit m = (y.unit m).map fun u => u.cutOff.release := by
    intro m
    unfold Bay.unit cutBay
    rw [endedUnits_eq, List.find?_map]
    congr 2
    funext u
    simp only [Function.comp, JobUnit.release, JobUnit.cutOff]
    repeat' split
    all_goals rfl
  have hp : ∀ u : JobUnit, (u.cutOff.release.progress = some .switched ↔ u.progress = some .switched) ∧
      u.cutOff.release.planned = u.planned := by
    intro u
    unfold JobUnit.cutOff
    split
    · split
      · exact ⟨Iff.rfl, rfl⟩
      · next p _ hp h =>
        refine ⟨⟨fun k => (by cases k), fun k => ?_⟩, rfl⟩
        rw [hp] at k
        cases k
        exact absurd rfl h
    · exact ⟨Iff.rfl, rfl⟩
  have hun : ∀ sent : List Nat, unconfirmedOf (cutBay y).units sent ≠ [] ↔ ∃ (m : Nat) (v : JobUnit) (pl : Planned),
      m ∈ sent ∧ y.unit m = some v ∧ v.progress ≠ some .switched ∧ v.planned = some pl := by
    intro sent
    rw [unconfirmedOf_ne_nil]
    constructor
    · rintro ⟨m, v, pl, hm, hy, hs, hpl⟩
      rw [show ((cutBay y).units.find? fun u => u.addr == m) = (cutBay y).unit m from rfl, hu] at hy
      obtain ⟨w, hw, rfl⟩ := Option.map_eq_some_iff.mp hy
      exact ⟨m, w, pl, hm, hw, fun k => hs ((hp w).1.mpr k), (hp w).2.symm.trans hpl⟩
    · rintro ⟨m, v, pl, hm, hy, hs, hpl⟩
      refine ⟨m, v.cutOff.release, pl, hm, ?_, fun k => hs ((hp v).1.mp k), (hp v).2.trans hpl⟩
      rw [show ((cutBay y).units.find? fun u => u.addr == m) = (cutBay y).unit m from rfl, hu, hy]
      rfl
  unfold brokenGroup SplitsGroup
  show (match y.switching with | none => none | some sw => _) = some g ↔ _
  cases hs : y.switching with
  | none => simp
  | some sw =>
    dsimp only
    by_cases h0 : sw.group = 0
    · rw [if_pos h0]
      constructor
      · intro h; cases h
      · rintro ⟨hg, sw', r, h, h', _⟩
        simp only [Option.some.injEq] at h
        subst h
        exact absurd (h'.symm.trans h0) hg
    · rw [if_neg h0]
      show (match y.groupRecord sw.group with | none => none | some r => _) = some g ↔ _
      cases hr : y.groupRecord sw.group with
      | none =>
        constructor
        · intro h; cases h
        · rintro ⟨hg, sw', r, h, h', h'', _⟩
          simp only [Option.some.injEq] at h
          subst h
          rw [h', h''] at hr; cases hr
      | some r =>
        have k := hun r.sent
        dsimp only
        constructor
        · intro h
          split at h
          · cases h
          · next m rest hm =>
            simp only [Option.some.injEq] at h
            subst h
            exact ⟨h0, sw, r, rfl, rfl, hr, k.mp (by rw [hm]; simp)⟩
        · rintro ⟨hg, sw', r', h, h', h'', h3⟩
          simp only [Option.some.injEq] at h
          subst h
          subst h'
          rw [hr] at h''
          cases h''
          have := k.mpr h3
          split
          · next hn => exact absurd hn this
          · rfl

/-- What a bay that leaves its bus does to one record. -/
def leftRecord (y : Bay) (b : BayId) (r : BusRecord) : BusRecord :=
  if r.atBay = some b then { (if y.state = .cutoff then r else endedRecord y r) with atBay := none } else r

/-- The group whose split a bay that leaves its bus posts. -/
def leftGroup (y : Bay) : Option Nat := if y.state = .cutoff then none else brokenGroup (cutBay y)

theorem busLeft_effect (t : State) (b : BayId) :
    (busLeft t b).fleet = t.fleet.map (leftRecord (t.bay b) b) ∧
    (busLeft t b).ports = match leftGroup (t.bay b) with
      | none => t.ports
      | some g => (t.post .groupSplit (.bayGroup b g)).ports := by
  obtain ⟨e1, e2⟩ := jobEnded_effect t b
  unfold busLeft leftGroup
  by_cases h : (t.bay b).state = .cutoff
  · simp only [if_pos h, State.modBound]
    refine ⟨List.map_congr_left fun r _ => ?_, trivial⟩
    unfold leftRecord
    rw [if_pos h]
    by_cases k : r.atBay = some b <;> simp [k]
  · simp only [if_neg h]
    refine ⟨?_, e2⟩
    rw [modBound_fleet _ _ _ _ e1]
    simp only [State.modBound, List.map_map]
    refine List.map_congr_left fun r _ => ?_
    unfold leftRecord
    rw [if_neg h]
    by_cases k : r.atBay = some b
    · have : (endedRecord (t.bay b) r).atBay = some b := k
      simp [k, this]
    · simp [k]

theorem resetBay_effect (s : State) (b : BayId) :
    ((s.bay b).state = .disabled → (s.resetBay b).fleet = s.fleet ∧ (s.resetBay b).ports = s.ports) ∧
    ((s.bay b).state ≠ .disabled →
      (s.resetBay b).fleet = (busLeft s b).fleet ∧ (s.resetBay b).ports = (busLeft s b).ports) := by
  unfold State.resetBay
  refine ⟨fun h => ?_, fun h => ?_⟩
  · rw [if_pos h]; exact ⟨rfl, rfl⟩
  · rw [if_neg h]; exact leaveBus_effect s b

/-- The records after the bays of a list have left their buses: a record bound to one of them has lost its binding, and
every other is as it was. -/
theorem resetBays_fleet : ∀ (l : List BayId), l.Nodup → ∀ s : State,
    (l.foldl State.resetBay s).fleet.length = s.fleet.length ∧
    ∀ (i : Nat) (r : BusRecord), s.fleet[i]? = some r →
      ((∀ b ∈ l, r.atBay = some b → (s.bay b).state = .disabled) → (l.foldl State.resetBay s).fleet[i]? = some r) ∧
      ∀ b ∈ l, r.atBay = some b → (s.bay b).state ≠ .disabled →
        (l.foldl State.resetBay s).fleet[i]? = some (leftRecord (s.bay b) b r) := by
  intro l
  induction l with
  | nil => exact fun _ s => ⟨rfl, fun i r h => ⟨fun _ => h, fun b hb => by cases hb⟩⟩
  | cons a rest ih =>
    intro nd s
    obtain ⟨na, nr⟩ := List.nodup_cons.mp nd
    obtain ⟨i1, i2⟩ := ih nr (s.resetBay a)
    obtain ⟨d1, d2⟩ := resetBay_effect s a
    obtain ⟨f1, _⟩ := busLeft_effect s a
    have oth : ∀ c, c ∈ rest → (s.resetBay a).bay c = s.bay c := fun c hc =>
      ((OnlyBay.refl a s).resetBay).others c (fun e => na (e ▸ hc))
    rw [List.foldl_cons]
    have len : (s.resetBay a).fleet.length = s.fleet.length := by
      by_cases h : (s.bay a).state = .disabled
      · rw [(d1 h).1]
      · rw [(d2 h).1, f1, List.length_map]
    have get : ∀ (i : Nat) (r : BusRecord), s.fleet[i]? = some r → (s.resetBay a).fleet[i]? = some
        (if (s.bay a).state = .disabled then r else leftRecord (s.bay a) a r) := by
      intro i r hr
      by_cases h : (s.bay a).state = .disabled
      · rw [if_pos h, (d1 h).1, hr]
      · rw [if_neg h, (d2 h).1, f1, List.getElem?_map, hr]; rfl
    have same : ∀ r : BusRecord, r.atBay ≠ some a →
        (if (s.bay a).state = .disabled then r else leftRecord (s.bay a) a r) = r := by
      intro r h
      split
      · rfl
      · unfold leftRecord; rw [if_neg h]
    refine ⟨i1.trans len, fun i r hr => ⟨fun h => ?_, fun b hb hat hs => ?_⟩⟩
    · have e : (if (s.bay a).state = .disabled then r else leftRecord (s.bay a) a r) = r := by
        by_cases ha : r.atBay = some a
        · rw [if_pos (h a (List.mem_cons_self ..) ha)]
        · exact same r ha
      have g := get i r hr
      rw [e] at g
      exact (i2 i r g).1 fun b hb hat => by rw [oth b hb]; exact h b (List.mem_cons_of_mem _ hb) hat
    · rcases List.mem_cons.mp hb with rfl | hb
      · have g := get i r hr
        rw [if_neg hs] at g
        refine (i2 i _ g).1 fun c hc hat' => ?_
        unfold leftRecord at hat'
        rw [if_pos hat] at hat'
        cases hat'
      · have g := get i r hr
        rw [same r (by rw [hat]; intro e; cases e; exact na hb)] at g
        have := (i2 i r g).2 b hb hat (by rw [oth b hb]; exact hs)
        rw [oth b hb] at this
        exact this

/-- The split posted by a bay at a controller reset. -/
def resetGroup (y : Bay) : Option Nat := if y.state = .disabled then none else leftGroup y

/-- The ports after the bays of a list have left their buses, in the order of the list. -/
theorem resetBays_ports : ∀ (l : List BayId), l.Nodup → ∀ (s : State) (q : PortId),
    (l.foldl State.resetBay s).port q =
      (l.filterMap fun b => (resetGroup (s.bay b)).map fun g => (b, g)).foldl
        (fun t x => Port.post .groupSplit (.bayGroup x.1 x.2) t) (s.port q) := by
  intro l
  induction l with
  | nil => exact fun _ s q => rfl
  | cons a rest ih =>
    intro nd s q
    obtain ⟨na, nr⟩ := List.nodup_cons.mp nd
    obtain ⟨d1, d2⟩ := resetBay_effect s a
    obtain ⟨_, f2⟩ := busLeft_effect s a
    have oth : ∀ c, c ∈ rest → (s.resetBay a).bay c = s.bay c := fun c hc =>
      ((OnlyBay.refl a s).resetBay).others c (fun e => na (e ▸ hc))
    rw [List.foldl_cons, ih nr (s.resetBay a) q]
    have e : (rest.filterMap fun b => (resetGroup ((s.resetBay a).bay b)).map fun g => (b, g)) =
        rest.filterMap fun b => (resetGroup (s.bay b)).map fun g => (b, g) :=
      List.filterMap_congr fun b hb => by rw [oth b hb]
    rw [e, List.filterMap_cons]
    unfold resetGroup
    by_cases h : (s.bay a).state = .disabled
    · simp only [if_pos h, Option.map_none]
      rw [State.port_of_ports (d1 h).2 q]
    · simp only [if_neg h]
      have p := (d2 h).2.trans f2
      cases hg : leftGroup (s.bay a) with
      | none => rw [hg] at p; simp only [Option.map_none]; rw [State.port_of_ports p q]
      | some g =>
        rw [hg] at p
        simp only [Option.map_some, List.foldl_cons]
        rw [← port_post, State.port_of_ports p q]
end Sys2Proof
end

