-- ==== Sys2Proof/Laws/Memory.lean ====
section
/-! SUPPORT. Image memory keeps its canonical form, and a read sees the last write. -/

namespace Sys2Proof.Machine

theorem Memory.wf_cons (c : Host.Cell) (m : Memory) :
    Memory.wf (c :: m) = true ↔ c.2 ≠ 0#8 ∧ (∀ d ∈ m, c.1 < d.1) ∧ Memory.wf m = true := by
  induction m generalizing c with
  | nil => simp [Memory.wf]
  | cons d rest ih =>
    have e : Memory.wf (c :: d :: rest) = (c.2 != 0#8 && decide (c.1 < d.1) && Memory.wf (d :: rest)) := rfl
    rw [e]
    simp only [Bool.and_eq_true, bne_iff_ne, ne_eq, decide_eq_true_eq]
    constructor
    · rintro ⟨⟨h1, h2⟩, h3⟩
      refine ⟨h1, fun x hx => ?_, h3⟩
      rcases List.mem_cons.mp hx with rfl | hx
      · exact h2
      · exact h2.trans (((ih d).mp h3).2.1 x hx)
    · rintro ⟨h1, h2, h3⟩
      exact ⟨⟨h1, h2 d (.head _)⟩, h3⟩

theorem Memory.mem_write {a : Nat} {v : Byte} {m : Memory} {d : Host.Cell} (h : d ∈ Memory.write a v m) :
    d = (a, v) ∨ d ∈ m := by
  induction m with
  | nil =>
    unfold Memory.write at h
    split at h <;> simp_all
  | cons c rest ih =>
    unfold Memory.write at h
    split at h <;> [split at h; (split at h <;> [split at h; skip])]
    all_goals simp only [List.mem_cons] at h ⊢
    all_goals tauto

/-- A write keeps the canonical form. -/
theorem Memory.wf_write (a : Nat) (v : Byte) (m : Memory) (h : Memory.wf m = true) :
    Memory.wf (Memory.write a v m) = true := by
  induction m with
  | nil =>
    unfold Memory.write
    split
    · rfl
    · next e => simpa [Memory.wf] using e
  | cons c rest ih =>
    obtain ⟨h1, h2, h3⟩ := (Memory.wf_cons c rest).mp h
    unfold Memory.write
    split
    · next lt =>
      split
      · exact h
      · next e =>
        refine (Memory.wf_cons _ _).mpr ⟨e, fun d hd => ?_, h⟩
        rcases List.mem_cons.mp hd with rfl | hd
        · exact lt
        · exact lt.trans (h2 d hd)
    · next ge =>
      split
      · next e =>
        split
        · exact h3
        · next nz => exact (Memory.wf_cons _ _).mpr ⟨nz, fun d hd => by rw [e]; exact h2 d hd, h3⟩
      · next ne =>
        refine (Memory.wf_cons _ _).mpr ⟨h1, fun d hd => ?_, ih h3⟩
        rcases Memory.mem_write hd with rfl | hd
        · exact Nat.lt_of_le_of_ne (Nat.le_of_not_lt ge) fun x => ne x.symm
        · exact h2 d hd

theorem Memory.read_cons (c : Host.Cell) (m : Memory) (b : Nat) :
    Memory.read (c :: m) b = if c.1 = b then c.2 else Memory.read m b := by
  unfold Memory.read
  simp only [List.find?_cons]
  by_cases e : c.1 = b
  · simp [e]
  · rw [beq_false_of_ne e, if_neg e]

/-- A read of another address sees nothing of a write. -/
theorem Memory.read_write_other {a b : Nat} (v : Byte) (m : Memory) (h : b ≠ a) :
    Memory.read (Memory.write a v m) b = Memory.read m b := by
  induction m with
  | nil =>
    unfold Memory.write
    split
    · rfl
    · simp [Memory.read_cons, h.symm]
  | cons c rest ih =>
    unfold Memory.write
    split
    · split
      · rfl
      · rw [Memory.read_cons]; simp [h.symm]
    · split
      · next e =>
        split
        · rw [Memory.read_cons]; simp [← e, h.symm]
        · rw [Memory.read_cons, Memory.read_cons]; simp [← e, h.symm]
      · rw [Memory.read_cons, Memory.read_cons, ih]

theorem Memory.read_absent {a : Nat} {m : Memory} (h : ∀ d ∈ m, a < d.1) : Memory.read m a = 0#8 := by
  unfold Memory.read
  rw [List.find?_eq_none.mpr fun d hd => by simpa using Nat.ne_of_gt (h d hd)]

/-- A read of the written address sees the written byte. -/
theorem Memory.read_write_self (a : Nat) (v : Byte) (m : Memory) (h : Memory.wf m = true) :
    Memory.read (Memory.write a v m) a = v := by
  induction m with
  | nil =>
    unfold Memory.write
    split
    · next e => rw [e]; rfl
    · simp [Memory.read_cons]
  | cons c rest ih =>
    obtain ⟨_, h2, h3⟩ := (Memory.wf_cons c rest).mp h
    unfold Memory.write
    split
    · next lt =>
      split
      · next e =>
        rw [e]
        refine Memory.read_absent fun d hd => ?_
        rcases List.mem_cons.mp hd with rfl | hd
        · exact lt
        · exact lt.trans (h2 d hd)
      · simp [Memory.read_cons]
    · split
      · next e =>
        split
        · next z => rw [z, e]; exact Memory.read_absent h2
        · simp [Memory.read_cons]
      · next ne => rw [Memory.read_cons, if_neg (fun x => ne x.symm), ih h3]

/-- Writing a chunk keeps the canonical form. -/
theorem ImageStore.writeBytes_wf (st : ImageStore) (e : Entry) (h : Memory.wf st.mem = true) :
    ∀ (l : List Byte) (o : Nat) (m : Memory), st.writeBytes e o l = some m → Memory.wf m = true := by
  intro l
  induction l with
  | nil => intro o m hm; cases hm; exact h
  | cons v rest ih =>
    intro o m hm
    unfold ImageStore.writeBytes at hm
    split at hm
    · next a n _ hn => cases hm; exact Memory.wf_write _ _ _ (ih _ _ hn)
    · cases hm

/-- Writing a chunk changes no address but those of its bytes. -/
theorem ImageStore.writeBytes_other (st : ImageStore) (e : Entry) (b : Nat) :
    ∀ (l : List Byte) (o : Nat) (m : Memory), st.writeBytes e o l = some m →
      (∀ i < l.length, e.address st.segmentCount (o + i) ≠ some b) → Memory.read m b = Memory.read st.mem b := by
  intro l
  induction l with
  | nil => intro o m hm _; cases hm; rfl
  | cons v rest ih =>
    intro o m hm hb
    unfold ImageStore.writeBytes at hm
    split at hm
    · next a n ha hn =>
      cases hm
      rw [Memory.read_write_other _ _ fun e => hb 0 (by simp) (by simp [ha, e])]
      exact ih _ _ hn fun i hi => by rw [show o + 1 + i = o + (i + 1) by omega]; exact hb (i + 1) (by simpa using hi)
    · cases hm

end Sys2Proof.Machine
end

