-- ==== Sys2Proof/Laws/Passes.lean ====
section
/-! SUPPORT. What the operations of a pass, of a switch's end and of a planning's start do, in the terms of the claims: one
lemma for each operation that offers a request, enters a phase, ends a pass or a switch, or starts a planning. -/

namespace Sys2Proof.Machine

/-! ### Bays and units -/

theorem State.modBay_modBay (t : State) (b : BayId) (f g : Bay → Bay) :
    (t.modBay b f).modBay b g = t.modBay b fun y => g (f y) := by
  have h : (t.modBay b f).bay b = f (t.bay b) := State.bay_modBay_same t b f
  simp only [State.bay] at h
  simp only [State.modBay, State.setBay, State.bay] at h ⊢
  rw [h, Vector.set_set]

theorem State.modBay_self (t : State) (b : BayId) : t.modBay b (fun y => y) = t := by
  simp only [State.modBay, State.setBay, State.bay]
  congr 1
  exact Vector.set_getElem_self _

theorem State.modBay_eq (t : State) (b : BayId) {f g : Bay → Bay} (h : f (t.bay b) = g (t.bay b)) :
    t.modBay b f = t.modBay b g := by simp only [State.modBay, h]

theorem Bay.unit_modUnit {y : Bay} {a : Nat} {x : JobUnit} {f : JobUnit → JobUnit} (h : y.unit a = some x)
    (hf : ∀ u, (f u).addr = u.addr) : (y.modUnit a f).unit a = some (f x) := by
  unfold Bay.unit Bay.modUnit at *
  rw [List.find?_map]
  have hx : x.addr = a := by simpa using List.find?_some h
  have : ((fun u : JobUnit => u.addr == a) ∘ fun u => if u.addr == a then f u else u) = fun u => u.addr == a := by
    funext u
    simp only [Function.comp]
    split <;> simp [hf]
  rw [this, h]
  simp [hx]

/-- An offer changes the engine alone. -/
theorem Bay.offer_only (y : Bay) (r : LineRequest) (act : Activity) :
    y.offer r act = { y with engine := (y.offer r act).engine } := by
  unfold Bay.offer
  split <;> rfl

@[simp] theorem Bay.passes_offer (y : Bay) (r : LineRequest) (act : Activity) : (y.offer r act).passes = y.passes := by
  rw [Bay.offer_only]

@[simp] theorem Bay.unit_offer (y : Bay) (r : LineRequest) (act : Activity) (a : Nat) :
    (y.offer r act).unit a = y.unit a := by
  rw [Bay.offer_only]; rfl

end Sys2Proof.Machine

namespace Sys2Proof

open Machine

/-! ### The pass in flight -/

theorem find_between {test : Pass → Bool} {before after : List Pass} {p : Pass} (h : ∀ q ∈ before, test q = false)
    (hp : test p = true) : (before ++ p :: after).find? test = some p := by
  have : before.find? test = none := by simpa using h
  rw [List.find?_append, this]
  simp [hp]

theorem InFlight.currentPass {y : Bay} {before after : List Pass} {p : Pass} (h : InFlight y before p after) :
    y.currentPass = some p := by
  unfold Bay.currentPass
  rw [h.list]
  exact find_between (fun q hq => h.alone q (List.mem_append_left _ hq)) h.flying

theorem InFlight.modPass {y : Bay} {before after : List Pass} {p : Pass} (h : InFlight y before p after)
    (f : Pass → Pass) : y.modPass f = { y with passes := before ++ f p :: after } := by
  have hl : ∀ l : List Pass, (∀ q ∈ l, q.inFlight = false) → l.map (fun q => if q.inFlight then f q else q) = l := by
    intro l hq
    conv_rhs => rw [← List.map_id l]
    refine List.map_congr_left fun q hm => ?_
    simp [hq q hm]
  unfold Bay.modPass
  congr 1
  rw [h.list, List.map_append, List.map_cons, if_pos h.flying,
    hl before fun q hq => h.alone q (List.mem_append_left _ hq),
    hl after fun q hq => h.alone q (List.mem_append_right _ hq)]

theorem InFlight.put {y z : Bay} {before after : List Pass} {p q : Pass} (h : InFlight y before p after)
    (hz : z.passes = before ++ q :: after) (hq : q.inFlight = true) : InFlight z before q after :=
  ⟨hz, hq, h.alone⟩

/-! ### Offers -/

/-- On a line that is not free an offered request waits (R70). -/
theorem offer_waits {y : Bay} (h : ¬LineFree y) (r : LineRequest) (act : Activity) :
    (y.offer r act).engine = { y.engine with offered := some (r, act) } := by
  unfold Bay.offer
  exact congrArg Bay.engine (if_neg (by simpa [LineFree] using h))

/-- On a free line an offered request is sent at once (R70). -/
theorem sends_offer {y : Bay} (h : LineFree y) (r : LineRequest) (act : Activity) : Sends (y.offer r act) r act := by
  unfold Bay.offer
  rw [if_pos (by simp [h.1, h.2])]
  exact ⟨rfl, _, rfl, rfl, rfl, rfl, rfl, rfl, rfl⟩

/-- Sending a block changes the engine and the reader alone. -/
theorem sendsBlock {t : State} {b : BayId} {before after : List Pass} {p : Pass} {a n : Nat}
    (h : InFlight (t.bay b) before p after) (hi : (t.bay b).engine.state = .idle)
    (hw : p.wanted (t.store.blocksOf p.image) = some (a, n)) :
    SendsBlock t (t.sendBlock b) b a p.image n ∧ t.sendBlock b = t.modBay b fun y =>
      { y with engine := ((t.sendBlock b).bay b).engine, reader := ((t.sendBlock b).bay b).reader } := by
  have self : t = t.modBay b fun y => { y with engine := (t.bay b).engine, reader := (t.bay b).reader } := by
    conv_lhs => rw [← State.modBay_self t b]
    exact State.modBay_eq _ _ rfl
  unfold State.sendBlock
  simp only [h.currentPass, hw, hi]
  split
  · next k data hbuf =>
    split
    · next hk =>
      subst hk
      refine ⟨⟨fun d hd => ?_, fun hn => ?_⟩, ?_⟩
      · rw [hbuf] at hd
        cases hd
        rw [State.bay_modBay_same]
        split
        · exact ⟨rfl, _, rfl, rfl, rfl, rfl, rfl, rfl, rfl⟩
        · exact ⟨rfl, _, rfl, rfl, rfl, rfl, rfl, rfl, rfl⟩
      · rw [hbuf] at hn; cases hn
      · refine State.modBay_eq _ _ ?_
        rw [State.bay_modBay_same]
        split <;> rfl
    · next hk =>
      refine ⟨⟨fun d hd => ?_, fun hn => ?_⟩, ?_⟩
      · rw [hbuf] at hd
        cases hd
        exact absurd rfl hk
      · rw [hbuf] at hn; cases hn
      · refine State.modBay_eq _ _ ?_
        rw [State.bay_modBay_same]
        rfl
  · next hbuf =>
    split
    · next ho =>
      refine ⟨⟨fun d hd => ?_, fun _ hn => ?_⟩, self⟩
      · rw [hbuf] at hd; cases hd
      · rw [ho] at hn; cases hn
    · refine ⟨⟨fun d hd => ?_, fun _ _ => ?_⟩, ?_⟩
      · rw [hbuf] at hd; cases hd
      · rw [State.bay_modBay_same]
        exact ⟨rfl, rfl⟩
      · refine State.modBay_eq _ _ ?_
        rw [State.bay_modBay_same]
        rfl

theorem offersOpen {t : State} {b : BayId} {before after : List Pass} {p : Pass}
    (h : InFlight (t.bay b) before p after) (hl : LineFree (t.bay b)) :
    OffersOpen t (t.offerOpen b) b before p after := by
  intro d rest v pl e htodo hv hpl he
  unfold State.offerOpen
  simp only [h.currentPass, htodo, hv, he, hpl]
  rw [State.bay_modBay_same]
  refine ⟨State.modBay_eq _ _ ?_, ?_⟩
  · rw [Bay.offer_only, h.modPass]; rfl
  · have hk : (v.kind == some .resume) = decide (v.kind = some .resume) := by
      rcases v.kind with _ | k
      · rfl
      · cases k <;> rfl
    rw [hk]
    refine sends_offer ?_ _ _
    exact hl

theorem offersGaps {t : State} {b : BayId} {before after : List Pass} {p : Pass}
    (h : InFlight (t.bay b) before p after) (hl : LineFree (t.bay b)) :
    OffersGaps t (t.modBay b Bay.nextRepairMember) b before p after := by
  intro d rest htodo
  rw [State.bay_modBay_same]
  have h2 : InFlight (((t.bay b).modPass fun q =>
      { q with todo := rest, repairMember := some d, toSend := [], firstGaps := true }).modUnit d fun u =>
        { u with progress := some .repairing }) before
      { p with todo := rest, repairMember := some d, toSend := [], firstGaps := true } after :=
    h.put (by rw [h.modPass]; rfl) h.flying
  have e : (t.bay b).nextRepairMember = (((t.bay b).modPass fun q =>
      { q with todo := rest, repairMember := some d, toSend := [], firstGaps := true }).modUnit d fun u =>
        { u with progress := some .repairing }).offer (.gaps d) .pass := by
    unfold Bay.nextRepairMember
    simp only [h.currentPass, htodo]
    unfold Bay.offerGaps
    simp only [h2.currentPass]
  refine ⟨State.modBay_eq _ _ ?_, ?_⟩
  · rw [e, Bay.offer_only, h.modPass]; rfl
  · rw [e]
    refine sends_offer ?_ _ _
    exact hl

theorem offersCheck {t : State} {b : BayId} {before after : List Pass} {p : Pass}
    (h : InFlight (t.bay b) before p after) (hl : LineFree (t.bay b)) :
    OffersCheck t (t.modBay b Bay.offerCheck) b before p after := by
  intro d rest htodo
  have e : (t.bay b).offerCheck = (((t.bay b).modPass fun q => { q with todo := rest }).modUnit d fun u =>
      { u with progress := some .checking }).offer (.check d) .pass := by
    unfold Bay.offerCheck
    simp only [h.currentPass, htodo]
  rw [State.bay_modBay_same]
  refine ⟨State.modBay_eq _ _ ?_, ?_⟩
  · rw [e, Bay.offer_only, h.modPass]; rfl
  · rw [e]
    refine sends_offer ?_ _ _
    exact hl

/-! ### Entering a phase -/

theorem membersWhere_eq (t : State) (b : BayId) (p : Pass) (test : JobUnit → Bool) :
    (t.bay b).membersWhere p.members test = membersThat t b p test := by
  unfold Bay.membersWhere membersThat
  refine List.filter_congr fun m _ => ?_
  cases (t.bay b).unit m <;> rfl

theorem streams_eq (v : JobUnit) : v.streams = decide (v.kind ≠ some .checkOnly ∧ v.isFaulted = false) := by
  unfold JobUnit.streams
  rcases v.kind with _ | k
  · cases v.isFaulted <;> rfl
  · cases k <;> cases v.isFaulted <;> rfl

theorem OffersCheck.congr {t u : State} {b : BayId} {before after : List Pass} {p : Pass} {l : List Pass}
    (h : OffersCheck (t.modBay b fun y => { y with passes := l }) u b before p after) :
    OffersCheck t u b before p after := by
  intro d rest htodo
  obtain ⟨h1, h2⟩ := h d rest htodo
  rw [State.modBay_modBay] at h1
  exact ⟨h1, h2⟩

theorem OffersGaps.congr {t u : State} {b : BayId} {before after : List Pass} {p : Pass} {l : List Pass}
    (h : OffersGaps (t.modBay b fun y => { y with passes := l }) u b before p after) :
    OffersGaps t u b before p after := by
  intro d rest htodo
  obtain ⟨h1, h2⟩ := h d rest htodo
  rw [State.modBay_modBay] at h1
  exact ⟨h1, h2⟩

theorem entersCheck {t : State} {b : BayId} {before after : List Pass} {p : Pass}
    (h : InFlight (t.bay b) before p after) (hl : LineFree (t.bay b)) :
    EntersCheck t (t.modBay b Bay.enterCheck) b before p after := by
  have e : t.modBay b Bay.enterCheck = (t.modBay b fun y => { y with passes := before ++ { p with
      phase := .checking, phaseComplete := false, refetched := 0
      todo := membersThat t b p fun v => !v.isFaulted } :: after }).modBay b Bay.offerCheck := by
    rw [State.modBay_modBay]
    refine State.modBay_eq _ _ ?_
    unfold Bay.enterCheck
    rw [h.modPass, membersWhere_eq]
  rw [e]
  refine OffersCheck.congr (offersCheck ?_ ?_)
  · rw [State.bay_modBay_same]; exact h.put rfl rfl
  · rw [State.bay_modBay_same]; exact hl

theorem entersRepair {t : State} {b : BayId} {before after : List Pass} {p : Pass}
    (h : InFlight (t.bay b) before p after) (hl : LineFree (t.bay b)) :
    EntersRepair t (t.modBay b Bay.enterRepair) b before p after := by
  have e : t.modBay b Bay.enterRepair = (t.modBay b fun y => { y with passes := before ++ { p with
      phase := .repairing, phaseComplete := false, repairMember := none, toSend := [], answered := 0, missingSum := 0
      todo := membersThat t b p fun v => decide (v.kind ≠ some .checkOnly ∧ v.isFaulted = false) } :: after }).modBay b
        Bay.nextRepairMember := by
    rw [State.modBay_modBay]
    refine State.modBay_eq _ _ ?_
    unfold Bay.enterRepair
    rw [h.modPass, membersWhere_eq, funext streams_eq]
  rw [e]
  refine OffersGaps.congr (offersGaps ?_ ?_)
  · rw [State.bay_modBay_same]; exact h.put rfl rfl
  · rw [State.bay_modBay_same]; exact hl

theorem streamAddress_eq (l : List Nat) : streamAddress l = match l with
    | [] => none
    | [a] => some a
    | _ :: _ :: _ => some 31 := by
  unfold streamAddress
  rcases l with _ | ⟨a, _ | ⟨c, l⟩⟩ <;> rfl

/-- Entering STREAM on a free line, once the choice of blocks has been made. -/
theorem enterStream_eq {t : State} {b : BayId} {before after : List Pass} {p : Pass}
    (h : InFlight (t.bay b) before p after) :
    t.enterStream b = (t.modBay b fun y => { y with passes := before ++ { p with
      phase := .streaming, phaseComplete := false, nextBlock := 0, streamed := 0, activeTime := 0
      streamAddr := streamAddress (membersThat t b p fun v => decide (v.kind ≠ some .checkOnly ∧ v.isFaulted = false)) } ::
        after }).sendBlock b := by
  unfold State.enterStream
  congr 1
  refine State.modBay_eq _ _ ?_
  rw [h.modPass, membersWhere_eq, funext streams_eq]

theorem entersStream {t : State} {b : BayId} {before after : List Pass} {p : Pass}
    (h : InFlight (t.bay b) before p after) (hl : LineFree (t.bay b)) :
    EntersStream t ((t.modBay b fun z => z.modPass fun q =>
      { q with choice := if q.choice = some .fromMissing then some .fromB else q.choice }).enterStream b) b before p
      after := by
  obtain ⟨q, hq⟩ : ∃ q : Pass, q = { p with
    choice := if p.choice = some .fromMissing then some .fromB else p.choice } := ⟨_, rfl⟩
  obtain ⟨t1, ht1⟩ : ∃ t1, t1 = t.modBay b fun z => { z with passes := before ++ q :: after } := ⟨_, rfl⟩
  have e1 : (t.modBay b fun z => z.modPass fun q =>
      { q with choice := if q.choice = some .fromMissing then some .fromB else q.choice }) = t1 := by
    rw [ht1, hq]
    refine State.modBay_eq _ _ ?_
    rw [h.modPass]
  have b1 : t1.bay b = { t.bay b with passes := before ++ q :: after } := by rw [ht1, State.bay_modBay_same]
  have h1 : InFlight (t1.bay b) before q after := by
    rw [b1]
    exact h.put rfl (by rw [hq]; exact h.flying)
  have hm : membersThat t1 b q (fun v => decide (v.kind ≠ some .checkOnly ∧ v.isFaulted = false)) =
      membersThat t b p fun v => decide (v.kind ≠ some .checkOnly ∧ v.isFaulted = false) := by
    unfold membersThat
    rw [b1, hq]
    rfl
  rw [e1, enterStream_eq h1, hm]
  obtain ⟨ms, hms⟩ : ∃ ms, ms = membersThat t b p fun v => decide (v.kind ≠ some .checkOnly ∧ v.isFaulted = false) :=
    ⟨_, rfl⟩
  rw [← hms]
  obtain ⟨r, hr⟩ : ∃ r : Pass, r = { q with
    phase := .streaming, phaseComplete := false, nextBlock := 0, streamed := 0, activeTime := 0
    streamAddr := streamAddress ms } := ⟨_, rfl⟩
  obtain ⟨t2, ht2⟩ : ∃ t2, t2 = t1.modBay b fun y => { y with passes := before ++ r :: after } := ⟨_, rfl⟩
  rw [← hr, ← ht2]
  have b2 : t2.bay b = { t.bay b with passes := before ++ r :: after } := by rw [ht2, State.bay_modBay_same, b1]
  have h2 : InFlight (t2.bay b) before r after := by
    rw [b2]
    exact h.put rfl (by rw [hr]; rfl)
  have st : t2.store = t.store := by rw [ht2, ht1]; rfl
  have ps : t2.ports = t.ports := by rw [ht2, ht1]; rfl
  have hi : (t2.bay b).engine.state = .idle := by rw [b2]; exact hl.1
  have hro : t2.readOutstanding b = t.readOutstanding b := by unfold State.readOutstanding; rw [b2, st]
  have key : (t2.sendBlock b = t2.modBay b fun y =>
        { y with engine := ((t2.sendBlock b).bay b).engine, reader := ((t2.sendBlock b).bay b).reader }) ∧
      ∀ a : Nat, streamAddress ms = some a → 0 < t.store.blocksOf p.image →
        SendsBlock t2 (t2.sendBlock b) b a p.image 0 := by
    cases hw : r.wanted (t2.store.blocksOf r.image) with
    | none =>
      have e : t2.sendBlock b = t2 := by unfold State.sendBlock; simp only [h2.currentPass, hw]
      rw [e]
      refine ⟨?_, fun a ha hb => ?_⟩
      · conv_lhs => rw [← State.modBay_self t2 b]
        exact State.modBay_eq _ _ rfl
      have : r.wanted (t2.store.blocksOf r.image) = some (a, 0) := by
        rw [st, hr, hq]
        simp [Pass.wanted, ha, hb]
      rw [hw] at this; cases this
    | some an =>
      obtain ⟨a, n⟩ := an
      obtain ⟨k1, k2⟩ := sendsBlock h2 hi hw
      refine ⟨k2, fun c hc hb => ?_⟩
      have : r.wanted (t2.store.blocksOf r.image) = some (c, 0) := by
        rw [st, hr, hq]
        simp [Pass.wanted, hc, hb]
      rw [hw] at this
      cases this
      have : r.image = p.image := by rw [hr, hq]
      rw [this] at k1
      exact k1
  obtain ⟨k1, k2⟩ := key
  refine ⟨?_, fun a ha hb => ?_⟩
  · obtain ⟨en, hen⟩ : ∃ en, en = ((t2.sendBlock b).bay b).engine := ⟨_, rfl⟩
    obtain ⟨rd, hrd⟩ : ∃ rd, rd = ((t2.sendBlock b).bay b).reader := ⟨_, rfl⟩
    rw [← hen, ← hrd] at k1 ⊢
    rw [k1, ht2, ht1, State.modBay_modBay, State.modBay_modBay]
    refine State.modBay_eq _ _ ?_
    rw [hr, hq, hms]
    exact streamAddress_eq _ ▸ rfl
  · obtain ⟨s1, s2⟩ := k2 a (by rw [streamAddress_eq, hms]; exact ha) hb
    rw [b2] at s1 s2
    exact ⟨s1, fun hn ho => s2 hn (hro.trans ho)⟩

/-- OPEN has finished and the next phase is entered. -/
theorem followsOpen {t : State} {b : BayId} {before after : List Pass} {p : Pass}
    (h : InFlight (t.bay b) before p after) (hl : LineFree (t.bay b)) : FollowsOpen t (t.afterOpen b) b before p after := by
  have lv : (t.bay b).unitsAt ((t.bay b).membersWhere p.members fun u => !u.isFaulted) =
      (t.bay b).units.filter fun v => decide (v.addr ∈ membersThat t b p fun u => !u.isFaulted) := by
    rw [membersWhere_eq]
    unfold Bay.unitsAt
    refine List.filter_congr fun v _ => ?_
    simp
  have c1 : (((t.bay b).unitsAt ((t.bay b).membersWhere p.members fun u => !u.isFaulted)).all fun u =>
      u.kind == some .checkOnly) = true ↔ ∀ v ∈ (t.bay b).units, v.addr ∈ membersThat t b p (fun u => !u.isFaulted) →
        v.kind = some .checkOnly := by
    rw [lv]; simp [or_iff_not_imp_left]
  have c2 : (((t.bay b).unitsAt ((t.bay b).membersWhere p.members fun u => !u.isFaulted)).any fun u =>
      u.kind == some .fresh) = false ↔ ∀ v ∈ (t.bay b).units, v.addr ∈ membersThat t b p (fun u => !u.isFaulted) →
        v.kind ≠ some .fresh := by
    rw [lv]; simp
  unfold FollowsOpen State.afterOpen
  simp only [h.currentPass]
  refine ⟨fun k => ?_, fun k m => ?_, fun k m => ?_⟩
  · rw [if_pos (c1.mpr k)]
    exact entersCheck h hl
  · rw [if_neg (fun hc => k (c1.mp hc)), if_pos (by simp only [m.1, c2.mpr m.2]; rfl)]
    have e : (t.modBay b fun z => (z.modPass fun q => { q with sampleDue := false }).enterRepair) =
        (t.modBay b fun z => { z with passes := before ++ { p with sampleDue := false } :: after }).modBay b
          Bay.enterRepair := by
      rw [State.modBay_modBay]
      refine State.modBay_eq _ _ ?_
      rw [h.modPass]
    have h1 : InFlight ((t.modBay b fun z => { z with passes := before ++ { p with sampleDue := false } :: after }).bay b)
        before { p with sampleDue := false } after := by
      rw [State.bay_modBay_same]
      exact h.put rfl h.flying
    have hm : membersThat (t.modBay b fun z => { z with passes := before ++ { p with sampleDue := false } :: after }) b
        { p with sampleDue := false } (fun v => decide (v.kind ≠ some .checkOnly ∧ v.isFaulted = false)) =
        membersThat t b p fun v => decide (v.kind ≠ some .checkOnly ∧ v.isFaulted = false) := by
      unfold membersThat
      rw [State.bay_modBay_same]
      rfl
    rw [e]
    have := entersRepair h1 (by rw [State.bay_modBay_same]; exact hl)
    rw [EntersRepair, hm] at this
    exact OffersGaps.congr this
  · rw [if_neg (fun hc => k (c1.mp hc)), if_neg]
    · exact entersStream h hl
    · intro hc
      simp only [Bool.and_eq_true, decide_eq_true_eq, Bool.not_eq_true'] at hc
      exact m ⟨hc.1, c2.mp hc.2⟩

/-! ### The end of a pass and of a phase -/

theorem endsPass {t : State} {b : BayId} {before after : List Pass} {p : Pass}
    (h : InFlight (t.bay b) before p after) : EndsPass t (t.endPass b) b before p after := by
  have e : (t.modBay b fun y => y.modPass fun p =>
      { p with phase := .ended, phaseComplete := false, streamAddr := none, repairMember := none, todo := [],
               toSend := [] }) = t.modBay b fun y => { y with passes := before ++ { p with
        phase := .ended, phaseComplete := false, streamAddr := none, repairMember := none, todo := [], toSend := [] } ::
          after } := by
    refine State.modBay_eq _ _ ?_
    rw [h.modPass]
  unfold EndsPass State.endPass
  simp only [e]
  have r : ((t.modBay b fun y => { y with passes := before ++ { p with
      phase := .ended, phaseComplete := false, streamAddr := none, repairMember := none, todo := [], toSend := [] } ::
        after }).bay b).replanPending = (t.bay b).replanPending := by rw [State.bay_modBay_same]
  rw [r]
  exact ⟨fun k => by rw [if_pos k], fun k => by rw [k]; rfl⟩

theorem allFaulted_iff {y : Bay} {p : Pass} :
    y.allFaulted p = true ↔ ∀ v ∈ y.units, v.addr ∈ p.members → v.isFaulted = true := by
  unfold Bay.allFaulted Bay.unitsAt
  simp [or_iff_not_imp_left]

/-- The choice that ends OPEN or REPAIR. -/
theorem finishesPhase {t u : State} {b : BayId} {before after : List Pass} {p : Pass} {next : State → State} {goesOn : Prop}
    (h : InFlight (t.bay b) before p after) (hn : (t.bay b).held = false → u = next t → goesOn)
    (hu : u = if (t.bay b).allFaulted p then t.endPass b else t.finishPhase b next) :
    FinishesPhase t u b before p after goesOn := by
  refine ⟨fun k => ?_, fun k => ⟨fun hh => ?_, fun hh => ?_⟩⟩
  · rw [hu, if_pos (allFaulted_iff.mpr k)]
    exact endsPass h
  all_goals rw [if_neg fun hc => k (allFaulted_iff.mp hc)] at hu
  · rw [hu, State.finishPhase, if_pos hh]
    refine State.modBay_eq _ _ ?_
    rw [h.modPass]
  · refine hn hh ?_
    rw [hu, State.finishPhase, hh]
    rfl

theorem finishesOpen {t : State} {b : BayId} {before after : List Pass} {p : Pass}
    (h : InFlight (t.bay b) before p after) (hl : LineFree (t.bay b)) :
    FinishesPhase t (t.finishOpen b p) b before p after (FollowsOpen t (t.finishOpen b p) b before p after) :=
  finishesPhase h (fun _ hu => by rw [hu]; exact followsOpen h hl) rfl

theorem leavesMember {t : State} {b : BayId} {before after : List Pass} {p : Pass}
    (h : InFlight (t.bay b) before p after) (hl : LineFree (t.bay b)) :
    LeavesMember t (t.leaveRepairMember b) b before p after := by
  obtain ⟨q, hq⟩ : ∃ q : Pass, q = { p with repairMember := none, toSend := [] } := ⟨_, rfl⟩
  obtain ⟨t1, ht1⟩ : ∃ t1, t1 = t.modBay b fun y => { y with passes := before ++ q :: after } := ⟨_, rfl⟩
  have b1 : t1.bay b = { t.bay b with passes := before ++ q :: after } := by rw [ht1, State.bay_modBay_same]
  have h1 : InFlight (t1.bay b) before q after := by
    rw [b1]
    exact h.put rfl (by rw [hq]; exact h.flying)
  have e : (t.modBay b fun y => y.modPass fun p => { p with repairMember := none, toSend := [] }) = t1 := by
    rw [ht1, hq]
    refine State.modBay_eq _ _ ?_
    rw [h.modPass]
  have hu : t.leaveRepairMember b = match p.todo with
      | [] => t1.finishRepair b q
      | _ :: _ => if (t.bay b).held then t1 else t1.modBay b Bay.nextRepairMember := by
    unfold State.leaveRepairMember
    simp only [e, h1.currentPass, hq]
    have : (t1.bay b).held = (t.bay b).held := by rw [b1]; rfl
    exact this ▸ rfl
  have l1 : LineFree (t1.bay b) := by rw [b1]; exact hl
  unfold LeavesMember
  rw [← hq]
  refine ⟨fun ht => ⟨fun hh => ?_, fun hh => ?_⟩, fun ht => ?_⟩
  · cases hc : p.todo with
    | nil => exact absurd hc ht
    | cons d rest => rw [hu, hc]; dsimp only; rw [if_pos hh, ht1]
  · cases hc : p.todo with
    | nil => exact absurd hc ht
    | cons d rest =>
      rw [hu, hc]
      dsimp only
      rw [hh]
      have k := offersGaps h1 l1
      rw [ht1] at k ⊢
      exact OffersGaps.congr k
  · rw [hu, ht]
    dsimp only
    have hm : ∀ test, membersThat t1 b q test = membersThat t b q test := by
      intro test
      unfold membersThat
      rw [b1]
      rfl
    have k := finishesPhase (u := t1.finishRepair b q) (next := fun s => s.modBay b Bay.enterCheck)
      (goesOn := EntersCheck t1 (t1.finishRepair b q) b before q after) h1
      (fun _ hu => by rw [hu]; exact entersCheck h1 l1) rfl
    have ex : ∀ z : Pass, (t1.modBay b fun y => { y with passes := before ++ z :: after }) =
        t.modBay b fun y => { y with passes := before ++ z :: after } := by
      intro z
      rw [ht1, State.modBay_modBay]
    unfold FinishesPhase EndsPass at k ⊢
    rw [ex, ex] at k
    have hh : (t1.bay b).held = (t.bay b).held := by rw [b1]; rfl
    have hr : (t1.bay b).replanPending = (t.bay b).replanPending := by rw [b1]
    have hv : (t1.bay b).units = (t.bay b).units := by rw [b1]
    rw [hh, hr, hv] at k
    refine ⟨k.1, fun kl => ⟨(k.2 kl).1, fun kh => ?_⟩⟩
    have := (k.2 kl).2 kh
    rw [EntersCheck, hm, ht1] at this
    rw [ht1]
    exact OffersCheck.congr this

theorem repairStep_nil {t : State} {b : BayId} {before after : List Pass} {p : Pass} {a : Nat}
    (h : InFlight (t.bay b) before p after) (hm : p.repairMember = some a) (hs : p.toSend = []) :
    t.repairStep b = if (t.bay b).held then t else t.modBay b fun y => y.offer (.gaps a) .pass := by
  have e : t.modBay b Bay.offerGaps = t.modBay b fun y => y.offer (.gaps a) .pass := by
    refine State.modBay_eq _ _ ?_
    unfold Bay.offerGaps
    simp only [h.currentPass, hm]
  unfold State.repairStep
  simp only [h.currentPass, hm, hs, e]

theorem repairStep_cons {t : State} {b : BayId} {before after : List Pass} {p : Pass} {a : Nat} {r : Range}
    {rest : List Range} (h : InFlight (t.bay b) before p after) (hm : p.repairMember = some a)
    (hs : p.toSend = r :: rest) :
    t.repairStep b =
      if 2 * t.store.blocksOf p.image < (t.bay b).repairSentTo a + 1 then
        (t.faultMember b a .gapsLimit .block (some r.first)).leaveRepairMember b
      else
        let t1 := t.modBay b fun y => { y with passes := before ++ { p with nextBlock := r.first } :: after }
        if (t.bay b).held then t1 else t1.sendBlock b := by
  have e : (t.modBay b fun z => z.modPass fun q => { q with nextBlock := r.first }) =
      t.modBay b fun y => { y with passes := before ++ { p with nextBlock := r.first } :: after } := by
    refine State.modBay_eq _ _ ?_
    rw [h.modPass]
  unfold State.repairStep
  simp only [h.currentPass, hm, hs, e]

/-- A pass in REPAIR goes on with its repair member. -/
theorem goesOnRepairing {t : State} {b : BayId} {before after : List Pass} {p : Pass} {a : Nat}
    (h : InFlight (t.bay b) before p after) (hl : LineFree (t.bay b)) (hp : p.phase = .repairing)
    (hm : p.repairMember = some a) : GoesOnRepairing t (t.repairStep b) b a before p after := by
  refine ⟨fun hs => ?_, fun r rest hs => ?_⟩
  · rw [repairStep_nil h hm hs]
    refine ⟨fun hh => if_pos hh, fun hh => ?_⟩
    rw [if_neg (by simp [hh]), State.bay_modBay_same]
    exact ⟨sends_offer hl _ _, State.modBay_eq _ _ (Bay.offer_only _ _ _)⟩
  · rw [repairStep_cons h hm hs]
    refine ⟨fun hle => ?_, fun hlt => ?_⟩
    · rw [if_neg (by omega)]
      refine ⟨fun hh => if_pos hh, fun hh => ?_⟩
      rw [if_neg (by simp [hh])]
      obtain ⟨t1, ht1⟩ : ∃ t1, t1 = t.modBay b fun y =>
        { y with passes := before ++ { p with nextBlock := r.first } :: after } := ⟨_, rfl⟩
      rw [← ht1]
      have b1 : t1.bay b = { t.bay b with passes := before ++ { p with nextBlock := r.first } :: after } := by
        rw [ht1, State.bay_modBay_same]
      have h1 : InFlight (t1.bay b) before { p with nextBlock := r.first } after := by
        rw [b1]
        exact h.put rfl h.flying
      obtain ⟨⟨k1, k2⟩, k3⟩ := sendsBlock (a := a) (n := r.first) h1 (by rw [b1]; exact hl.1)
        (by simp [Pass.wanted, hp, hm, hs])
      have hro : t1.readOutstanding b = t.readOutstanding b := by
        unfold State.readOutstanding
        rw [b1, ht1]
        rfl
      rw [b1] at k1 k2
      rw [hro] at k2
      obtain ⟨u, hu⟩ : ∃ u, u = t1.sendBlock b := ⟨_, rfl⟩
      rw [← hu] at k1 k2 k3 ⊢
      rw [ht1, State.modBay_modBay] at k3
      exact ⟨⟨k1, k2⟩, k3⟩
    · rw [if_pos hlt]
      have fw : ∀ z : Bay, z.passes = (t.bay b).passes → (z.flagGroupOf a).passes = (t.bay b).passes ∧
          (z.flagGroupOf a).engine = z.engine := by
        intro z hz
        unfold Bay.flagGroupOf
        repeat' split
        all_goals exact ⟨hz, rfl⟩
      have fb : ((t.faultMember b a .gapsLimit .block (some r.first)).bay b).passes = (t.bay b).passes ∧
          ((t.faultMember b a .gapsLimit .block (some r.first)).bay b).engine = (t.bay b).engine := by
        unfold State.faultMember State.faultUnit
        rw [State.bay_modBay_same, State.bay_post, State.bay_modBay_same]
        exact fw _ rfl
      refine leavesMember (h.put (fb.1.trans h.list) h.flying) ?_
      unfold LineFree
      rw [fb.2]
      exact hl

/-- The bookkeeping of a member's first GAPS outcome changes the pass in flight and, with the last member concerned, the
gap ratio (R123). -/
theorem countFirstGaps_eq {t : State} {b : BayId} {before after : List Pass} {p : Pass} (out : LineOutcome)
    (h : InFlight (t.bay b) before p after) :
    t.countFirstGaps b p out = t.modBay b fun y => { y with
      passes := before ++ gapsCounted p out :: after
      gapRatio := if p.firstGaps = true ∧ p.sampleDue = true ∧ p.todo = [] ∧ (gapsCounted p out).answered ≠ 0 then
          smooth y.gapRatio (gapSample (gapsCounted p out).missingSum (t.store.blocksOf p.image)
            (gapsCounted p out).answered)
        else y.gapRatio } := by
  unfold State.countFirstGaps gapsCounted
  cases hf : p.firstGaps with
  | false =>
    have e : t = t.modBay b fun y => { y with passes := before ++ p :: after, gapRatio := y.gapRatio } := by
      conv_lhs => rw [← State.modBay_self t b]
      refine State.modBay_eq _ _ ?_
      rw [← h.list]
    simp only [Bool.false_eq_true, false_and, if_false, if_true]
    exact e
  | true =>
    simp only [if_true, true_and, Bool.true_eq_false, if_false]
    refine State.modBay_eq _ _ ?_
    cases hd : p.sampleDue with
    | false =>
      rcases out with (⟨_⟩ | _ | ⟨ranges, more⟩ | _ | _ | _) | _ | _ <;>
        simp [hd, h.modPass, rangesTotal]
    | true =>
      cases ht : p.todo with
      | cons d rest =>
        rcases out with (⟨_⟩ | _ | ⟨ranges, more⟩ | _ | _ | _) | _ | _ <;>
          simp [hd, ht, h.modPass, rangesTotal]
      | nil =>
        rcases out with (⟨_⟩ | _ | ⟨ranges, more⟩ | _ | _ | _) | _ | _ <;>
          simp [ht, h.modPass, rangesTotal, Bay.takeGapSample] <;> split <;> simp_all

/-! ### Resuming -/

theorem sends_start (y : Bay) (r : LineRequest) (act : Activity) : Sends (y.startFrame r act) r act :=
  ⟨rfl, _, rfl, rfl, rfl, rfl, rfl, rfl, rfl⟩

theorem resumes {t : State} {b : BayId} {before after : List Pass} {p : Pass}
    (h : InFlight (t.bay b) before p after) (hh : (t.bay b).held = false) :
    Resumes t (t.holdEmptied b) b before p after := by
  have e : t.holdEmptied b = t.resumePass b p := by unfold State.holdEmptied; rw [h.currentPass]
  rw [e]
  refine ⟨fun hc hl => ?_, fun hc => ⟨fun hs => ?_, fun hs => ⟨fun hp => ?_, fun hp => ?_⟩, fun r act hs ho => ?_, fun hl => ?_⟩⟩
  · have k : t.resumePass b p = t.enterNext b p := by unfold State.resumePass; rw [hc]; rfl
    rw [k]
    refine ⟨fun hp => ?_, fun hp => ?_, fun hp => ?_⟩
    · unfold State.enterNext
      rw [hp]
      exact followsOpen h hl
    · unfold State.enterNext
      rw [hp]
      exact entersRepair h hl
    · unfold State.enterNext
      rw [hp]
      exact entersCheck h hl
  · unfold State.resumePass
    simp only [hc]
    rcases hs with hs | hs <;> rw [hs] <;> rfl
  · unfold State.resumePass
    simp only [hc, hs, hp]
    rfl
  · unfold State.resumePass
    simp only [hc, hs, hp]
    rfl
  · have k : t.resumePass b p = t.modBay b Bay.takeOffered := by
      unfold State.resumePass
      simp only [hc, hs, ho]
      rfl
    rw [k, State.bay_modBay_same]
    unfold Bay.takeOffered
    simp only [hs, ho, hh]
    rw [if_neg (by simp)]
    refine ⟨sends_start _ _ _, rfl, State.modBay_eq _ _ ?_⟩
    simp only [hs, ho, hh]
    rw [if_neg (by simp)]
    rfl
  · have k : t.resumePass b p = t.offerNext b p := by
      unfold State.resumePass
      simp only [hc, hl.1, hl.2]
      rfl
    rw [k]
    refine ⟨fun hp => ?_, fun hp a ha hn => ?_, fun hp => ⟨fun hm => ?_, fun a hm => ?_⟩, fun hp => ?_⟩
    all_goals
      unfold State.offerNext
      rw [hp]
      dsimp only
    · exact offersOpen h hl
    · exact sendsBlock (a := a) (n := p.nextBlock) h hl.1 (by simp [Pass.wanted, hp, ha, hn])
    · rw [hm]
      exact offersGaps h hl
    · rw [hm]
      exact goesOnRepairing h hl hp hm
    · exact offersCheck h hl

/-- A bay is held exactly while a member stands in its hold set. -/
theorem held_iff_holds (y : Bay) :
    y.held = true ↔ y.holds ≠ { sp0 := false, sp1 := false, sp2 := false, rule := false } := by
  rcases h : y.holds with ⟨a, b, c, d⟩
  simp only [Bay.held, h, HoldSet.isEmpty]
  cases a <;> cases b <;> cases c <;> cases d <;> simp

/-- A port stands in a hold set exactly when removing it changes the set. -/
theorem holdSet_has_iff (h : HoldSet) (p : PortId) : h.has p = true ↔ h.put p false ≠ h := by
  rcases h with ⟨a, b, c, d⟩
  fin_cases p <;> cases a <;> cases b <;> cases c <;> simp [HoldSet.has, HoldSet.put]

theorem holdEmptied {t : State} {b : BayId} (hh : (t.bay b).held = false) : HoldEmptied t (t.holdEmptied b) b := by
  refine ⟨fun hp => ?_, fun before after p hf => resumes hf hh⟩
  have : (t.bay b).currentPass = none := by simpa [Bay.currentPass] using hp
  unfold State.holdEmptied
  rw [this]

/-- A port reset takes the port's hold from the bays as the claims say, in whatever order. -/
theorem dropsHolds (p : PortId) : ∀ (l : List BayId) (t : State), DropsHolds p l t (l.foldl (State.dropHold p) t) := by
  intro l
  induction l with
  | nil => exact fun t => rfl
  | cons b rest ih =>
    intro t
    refine ⟨State.dropHold p t b, ?_⟩
    intro left dropped empties
    have db : dropped.bay b = { t.bay b with holds := left } := State.bay_modBay_same _ _ _
    have e : State.dropHold p t b =
        if (t.bay b).holds.has p then (if (dropped.bay b).held then dropped else dropped.holdEmptied b) else t := rfl
    have hi : (dropped.bay b).held = true ↔ left ≠ { sp0 := false, sp1 := false, sp2 := false, rule := false } := by
      rw [held_iff_holds, db]
    refine ⟨fun h => ?_, fun h => ?_, ih _⟩
    · rw [e]
      by_cases hp : (t.bay b).holds.has p = true
      · rw [if_pos hp, if_pos (hi.mpr fun k => h ⟨(holdSet_has_iff _ _).mp hp, k⟩)]
      · rw [if_neg hp]
        have same : left = (t.bay b).holds := by
          by_contra k
          exact hp ((holdSet_has_iff _ _).mpr k)
        conv_lhs => rw [← State.modBay_self t b]
        refine State.modBay_eq _ _ ?_
        rw [same]
    · have nh : ¬(dropped.bay b).held = true := fun k => hi.mp k h.2
      rw [e, if_pos ((holdSet_has_iff _ _).mpr h.1), if_neg nh]
      exact holdEmptied (by simpa using nh)

/-! ### The end of a switch -/

theorem carries_iff {y : Bay} {members : List Nat} : y.holdAfterSwitch members = true ↔
    ∃ m ∈ members, ∃ v ∈ y.units, v.addr = m ∧ v.progress = some .switched ∧ v.holdAfter = true := by
  unfold Bay.holdAfterSwitch Bay.unitsAt
  simp only [List.any_eq_true, List.mem_filter, Bool.and_eq_true, beq_iff_eq, List.contains_iff_mem]
  constructor
  · rintro ⟨v, ⟨h1, h2⟩, h3, h4⟩
    exact ⟨v.addr, h2, v, h1, rfl, h3, h4⟩
  · rintro ⟨m, h1, v, h2, rfl, h3, h4⟩
    exact ⟨v, ⟨h2, h1⟩, h3, h4⟩

/-- Recording a switch changes at most the switch-group records of the bay. -/
theorem recordSwitch_bay (s : State) (b : BayId) (sw : Switch) :
    ∃ g, (s.recordSwitch b sw).bay b = { s.bay b with groups := g } := by
  unfold State.recordSwitch
  dsimp only
  split
  · split <;> exact ⟨_, rfl⟩
  · split
    · rw [State.bay_post, State.bay_modBound, State.bay_modBay_same]
      exact ⟨_, rfl⟩
    · rw [bay_splitGroup, State.bay_modBay_same]
      exact ⟨_, rfl⟩

theorem endsSwitch {t : State} {b : BayId} {sw : Switch} : EndsSwitch t (t.endSwitch b sw) b sw := by
  obtain ⟨g, hg⟩ := recordSwitch_bay t b sw
  have ho := OnlyBay.recordSwitch (OnlyBay.refl b t) sw
  obtain ⟨hs, hhs⟩ : ∃ hs, hs = if (t.bay b).holdAfterSwitch sw.members then
      { (t.bay b).holds with rule := true } else (t.bay b).holds := ⟨_, rfl⟩
  obtain ⟨e, he⟩ : ∃ e, e = (t.recordSwitch b sw).modBay b fun y =>
      { y with holds := hs, switching := none, state := .transferring } := ⟨_, rfl⟩
  have e2 : e = (t.recordSwitch b sw).modBay b fun y =>
      { y with holds := if y.holdAfterSwitch sw.members then { y.holds with rule := true } else y.holds
               switching := none, state := .transferring } := by
    rw [he]
    refine State.modBay_eq _ _ ?_
    rw [hg, hhs]
    rfl
  have eb : e.bay b = { t.bay b with groups := g, holds := hs, switching := none, state := .transferring } := by
    rw [he, State.bay_modBay_same, hg]
  have ey : e.yardTime = t.yardTime := by rw [he]; exact ho.yardTime
  have unf : t.endSwitch b sw = match (t.bay b).pendingCutoff with
      | some cause => e.cutOffBay b cause
      | none =>
        if (t.bay b).config.mode = .stop && (t.bay b).deadlineCondition t.yardTime then e.cutOffBay b .deadline
        else if (t.bay b).replanPending then e.startPlanning b
        else e.admissionRun b := by
    unfold State.endSwitch
    simp only [← e2, eb, ey]
    rfl
  refine ⟨e, hs, fun k => ?_, fun k => ?_, he, fun cause hc hw => ?_, fun hp hd => ⟨fun hr => ?_, fun hr => ?_⟩⟩
  · rw [hhs, if_pos (carries_iff.mpr k)]
  · rw [hhs, if_neg fun h => k (carries_iff.mp h)]
  · have hu : t.endSwitch b sw = e.cutOffBay b cause := by
      rw [unf]
      rcases hw with hw | ⟨hw, ⟨hm, hd⟩, rfl⟩
      · rw [hw]
      · rw [hw]
        simp only [hm, hd]
        rfl
    rw [hu]
    exact cutsOff cause (by rw [eb]; exact hc)
  all_goals
    rw [unf, hp]
    have : ((t.bay b).config.mode = .stop && (t.bay b).deadlineCondition t.yardTime) = false := by
      rw [Bool.eq_false_iff]
      intro k
      simp only [Bool.and_eq_true, decide_eq_true_eq] at k
      exact hd k
    simp only [this, hr]
    rfl

/-! ### The start of a planning -/

theorem gapsListOf_eq (t : State) (b : BayId) : gapsListOf (plannedUnits t b) = resumeUnits t b := by
  unfold gapsListOf resumeUnits
  congr 1
  refine List.filter_congr fun x _ => ?_
  have h1 : x.isFlash = decide (x.decision = some .flash) := by
    unfold JobUnit.isFlash
    rcases x.decision with _ | d
    · rfl
    · cases d <;> rfl
  have h2 : (x.kind == some MemberKind.resume) = decide (x.kind = some .resume) := by
    rcases x.kind with _ | k
    · rfl
    · cases k <;> rfl
  rw [h1, h2, Bool.decide_and]

theorem planned_eq (generation : Nat) (units : List JobUnit) : BusRecord.planned generation units = fun r =>
    { r with
      evaluated := if generation = 0 then r.evaluated else some generation
      stale := (units.filter fun x => decide (x.decision = some .flash)).length
      slots := r.slots.map fun sl => match units.find? fun x => decide (x.addr = sl.addr) with
        | some x => { sl with censusRule := if x.decision = some .census then x.rule else none }
        | none => sl } := by
  funext r
  unfold BusRecord.planned
  congr 1
  · rw [List.countP_eq_length_filter]
    congr 1
    refine List.filter_congr fun x _ => ?_
    unfold JobUnit.isFlash
    rcases x.decision with _ | d
    · rfl
    · cases d <;> rfl

theorem completesPlanning (b : BayId) (t : State) (generation : Nat) :
    PlanningCompletes b t (t.completePlanning b generation) generation := by
  obtain ⟨d, hd⟩ : ∃ d : State, d = (({ t with plans := { t.plans with
      counters := countMatches (t.bay b).units t.plans.counters } } : State).modBay b fun y => { y with
        state := if formPasses (t.bay b).units = [] then .done else .transferring
        passes := formPasses (t.bay b).units, groups := formGroups (t.bay b).units, planning := none }).modBound b
      (BusRecord.planned generation (t.bay b).units) := ⟨_, rfl⟩
  have st : ∀ (f g : Bay → Bay) (c : Vector Nat 64) (k : BusRecord → BusRecord),
      (({ t.modBay b f with plans := { (t.modBay b f).plans with counters := c } } : State).modBound b k).modBay b g =
        (({ t with plans := { t.plans with counters := c } } : State).modBay b fun y => g (f y)).modBound b k := by
    intro f g c k
    calc _ = (({ (t.modBay b f).modBay b g with plans := { t.plans with counters := c } } : State).modBound b k) := rfl
      _ = _ := by rw [State.modBay_modBay]; rfl
  refine ⟨d, countMatches (t.bay b).units t.plans.counters, fun i => ?_, ?_, ?_⟩
  · show (countMatches (t.bay b).units t.plans.counters)[i] = _
    unfold countMatches
    simp only [Fin.getElem_fin, Vector.getElem_ofFn, List.countP_eq_length_filter]
    congr 3
    exact List.filter_congr fun x _ => beq_eq_decide _ _
  · rw [hd]
    exact planned_eq _ _ ▸ rfl
  · unfold State.completePlanning
    by_cases hf : formPasses (t.bay b).units = []
    · rw [if_pos (by simp [hf]), if_pos hf, hd]
      refine congrArg (fun s : State => s.post .bayDone (.bay b)) ((st _ _ _ _).trans ?_)
      simp only [if_pos hf, State.modBay_plans]
    · rw [if_neg (by simp [hf]), if_neg hf, hd]
      refine congrArg (fun s : State => s.admissionRun b) ((st _ _ _ _).trans ?_)
      simp only [if_neg hf, State.modBay_plans]

theorem planningStarts (b : BayId) (t : State) : PlanningStarts b t (t.startPlanning b) := by
  obtain ⟨t1, ht1⟩ : ∃ t1 : State, t1 = t.modBay b fun y => { y with
    state := .planning, units := plannedUnits t b, passes := [], groups := [], replanPending := false } := ⟨_, rfl⟩
  have e : t.startPlanning b = match resumeUnits t b with
      | [] => t1.completePlanning b t.plans.generation
      | a :: rest => t1.modBay b fun y =>
        Bay.offer { y with planning := some { generation := t.plans.generation, gapsList := rest } } (.gaps a)
          .planning := by
    rw [← gapsListOf_eq, ht1]
    rfl
  refine ⟨(OnlyBay.refl b t).startPlanning, fun a rest h => ?_, fun h => ?_⟩
  · rw [e, h, ht1]
    dsimp only
    rw [State.bay_modBay_same, State.bay_modBay_same]
    refine ⟨?_, ?_, ?_, ?_, ?_, rfl, rfl, rfl, ?_, fun hl => ?_, fun hl => ?_⟩
    iterate 6 rw [Bay.offer_only]
    · refine sends_offer ?_ _ _
      exact hl
    · refine (offer_waits ?_ _ _).trans rfl
      exact hl
  · rw [e, h]
    obtain ⟨x, counters, h1, h2, h3⟩ := completesPlanning b t1 t.plans.generation
    have b1 : (t1.bay b).units = plannedUnits t b := by rw [ht1, State.bay_modBay_same]
    have pl : t1.plans = t.plans := by rw [ht1]; rfl
    rw [b1] at h1 h2 h3
    rw [pl] at h1
    unfold PlanningCompletes
    rw [State.bay_modBay_same]
    refine ⟨x, counters, h1, ?_, h3⟩
    rw [h2, ht1]
    refine congrArg (fun s : State => s.modBound b _) ?_
    calc _ = ({ (t.modBay b fun y => { y with
          state := .planning, units := plannedUnits t b, passes := [], groups := []
          replanPending := false }).modBay b (fun y => { y with
        state := if formPasses (plannedUnits t b) = [] then .done else .transferring
        passes := formPasses (plannedUnits t b), groups := formGroups (plannedUnits t b), planning := none }) with
        plans := { t.plans with counters := counters } } : State) := rfl
      _ = ({ (t.modBay b fun y => { y with units := plannedUnits t b, replanPending := false }).modBay b (fun y => { y with
        state := if formPasses (plannedUnits t b) = [] then .done else .transferring
        passes := formPasses (plannedUnits t b), groups := formGroups (plannedUnits t b), planning := none }) with
        plans := { t.plans with counters := counters } } : State) := by rw [State.modBay_modBay, State.modBay_modBay]
      _ = _ := rfl

end Sys2Proof
end

