-- ==== Sys2Proof/Laws/Store.lean ====
section
/-! SUPPORT. The catalogue, position by position, the entries that it holds, the taking of segments, and the bytes of an
image. -/

namespace Sys2Proof.Machine

theorem mapPositions_get (st : ImageStore) (f : Option Entry → Option Entry) (i : Fin 32) :
    (st.mapPositions f).catalogue[i] = f st.catalogue[i] := by
  simp [ImageStore.mapPositions]

theorem deleteWhere_get (st : ImageStore) (test : Entry → Bool) (i : Fin 32) :
    (st.deleteWhere test).catalogue[i] = match st.catalogue[i] with
      | some e => if test e then none else some e
      | none => none := mapPositions_get _ _ _

theorem modEntry_get (st : ImageStore) (id : Nat) (f : Entry → Entry) (i : Fin 32) :
    (st.modEntry id f).catalogue[i] = match st.catalogue[i] with
      | some e => if e.id == id then some (f e) else some e
      | none => none := mapPositions_get _ _ _

theorem mem_entries (st : ImageStore) (e : Entry) : e ∈ st.entries ↔ ∃ i : Fin 32, st.catalogue[i] = some e := by
  simp only [ImageStore.entries, List.mem_filterMap, id_eq, exists_eq_right]
  rw [Vector.mem_toList_iff, Vector.mem_iff_getElem]
  exact ⟨fun ⟨i, h, k⟩ => ⟨⟨i, h⟩, k⟩, fun ⟨i, k⟩ => ⟨i.val, i.isLt, k⟩⟩

/-- The entry with an id, when one is found. -/
theorem find_some {st : ImageStore} {id : Nat} {e : Entry} (h : st.find id = some e) : e ∈ st.entries ∧ e.id = id :=
  ⟨List.mem_of_find?_eq_some h, by simpa using List.find?_some h⟩

theorem find_none {st : ImageStore} {id : Nat} : st.find id = none ↔ ∀ e ∈ st.entries, e.id ≠ id := by
  simp [ImageStore.find]

/-- The entries after each position has been changed by a map. -/
theorem entries_mapPositions (st : ImageStore) (f : Option Entry → Option Entry) (hf : f none = none) :
    (st.mapPositions f).entries = st.entries.filterMap fun e => f (some e) := by
  have h : (st.mapPositions f).catalogue.toList = st.catalogue.toList.map f := by
    refine List.ext_getElem (by simp) fun i h1 h2 => ?_
    simp [ImageStore.mapPositions]
  simp only [ImageStore.entries, h, List.filterMap_map]
  generalize st.catalogue.toList = l
  induction l with
  | nil => rfl
  | cons x rest ih =>
    have ih' : List.filterMap (fun x => f x) rest =
        List.filterMap (fun e => f (some e)) (List.filterMap (fun x => x) rest) := ih
    cases x with
    | none => simpa [hf] using ih'
    | some e => simp [List.filterMap_cons, ih']

theorem entries_deleteWhere (st : ImageStore) (test : Entry → Bool) :
    (st.deleteWhere test).entries = st.entries.filter fun e => !test e := by
  rw [ImageStore.deleteWhere, entries_mapPositions _ _ rfl, ← List.filterMap_eq_filter]
  congr 1
  funext e
  cases h : test e <;> simp [Option.guard, h]

theorem entries_modEntry (st : ImageStore) (id : Nat) (f : Entry → Entry) :
    (st.modEntry id f).entries = st.entries.map fun e => if e.id == id then f e else e := by
  rw [ImageStore.modEntry, entries_mapPositions _ _ rfl, ← List.filterMap_eq_map]
  congr 1
  funext e
  dsimp only [Function.comp]
  split <;> rfl

/-! ### Segments and bytes of a sound store -/

/-- Taking free segments is a filter of the map as the scan meets it (R43). -/
theorem takeFree_spec (owned : List Nat) (count : Nat) : ∀ (fuel seg need : Nat), seg < count →
    takeFree owned count fuel seg need =
      (((List.range fuel).map fun i => (seg + i) % count).filter fun x => !owned.contains x).take need := by
  intro fuel
  induction fuel with
  | zero => intro seg need _; simp [takeFree]
  | succ n ih =>
    intro seg need h
    cases need with
    | zero => simp [takeFree]
    | succ m =>
      have hr : (List.range (n+1)).map (fun i => (seg + i) % count) =
          seg :: (List.range n).map fun i => ((seg + 1) % count + i) % count := by
        rw [List.range_succ_eq_map]
        simp only [List.map_cons, Nat.add_zero, Nat.mod_eq_of_lt h, List.map_map, List.cons.injEq, true_and]
        refine List.map_congr_left fun i _ => ?_
        simp only [Function.comp, Nat.succ_eq_add_one]
        rw [Nat.mod_add_mod]; congr 1; omega
      have hlt : (seg + 1) % count < count := Nat.mod_lt _ (by omega)
      rw [hr, takeFree]
      by_cases c : owned.contains seg = true
      · rw [if_pos c, ih _ _ hlt, List.filter_cons_of_neg (by simpa using c)]
      · rw [if_neg c, ih _ _ hlt, List.filter_cons_of_pos (by simpa using c), List.take_succ_cons]

/-- No more segments are owned than the map has. -/
theorem owned_length_le {st : ImageStore} (h : StoreOk st) : st.owned.length ≤ st.segmentCount := by
  have : st.owned ⊆ List.range st.segmentCount := fun x hx => List.mem_range.mpr (h.inMap x hx)
  have := (h.once.subperm this).length_le
  simpa using this

/-- The scan meets as many free segments as the free-segment count says (R40). -/
theorem free_filter_length {st : ImageStore} (h : StoreOk st) :
    (((List.range st.segmentCount).map fun i => (st.pointer + i) % st.segmentCount).filter fun x => !st.owned.contains x).length = st.freeCount := by
  have hp : ((List.range st.segmentCount).map fun i => (st.pointer + i) % st.segmentCount).Perm (List.range st.segmentCount) := by
    have hn : ((List.range st.segmentCount).map fun i => (st.pointer + i) % st.segmentCount).Nodup := by
      refine List.Nodup.map_on ?_ List.nodup_range
      intro x hx y hy e
      rw [List.mem_range] at hx hy
      have hp := h.pointer
      rcases Nat.lt_or_ge (st.pointer + x) st.segmentCount with a | a <;> rcases Nat.lt_or_ge (st.pointer + y) st.segmentCount with b | b
      · rw [Nat.mod_eq_of_lt a, Nat.mod_eq_of_lt b] at e; omega
      · rw [Nat.mod_eq_of_lt a, Nat.mod_eq_sub_mod b, Nat.mod_eq_of_lt (by omega)] at e; omega
      · rw [Nat.mod_eq_of_lt b, Nat.mod_eq_sub_mod a, Nat.mod_eq_of_lt (by omega)] at e; omega
      · rw [Nat.mod_eq_sub_mod b, Nat.mod_eq_of_lt (a := st.pointer + y - st.segmentCount) (by omega), Nat.mod_eq_sub_mod a, Nat.mod_eq_of_lt (by omega)] at e; omega
    refine (List.subperm_of_subset hn ?_).perm_of_length_le (by simp)
    intro x hx
    obtain ⟨i, _, rfl⟩ := List.mem_map.mp hx
    exact List.mem_range.mpr (Nat.mod_lt _ (by have := h.pointer; omega))
  rw [(hp.filter _).length_eq]
  have h1 : ((List.range st.segmentCount).filter fun x => st.owned.contains x).Perm st.owned := by
    refine (List.perm_ext_iff_of_nodup (List.nodup_range.filter _) h.once).mpr fun x => ?_
    simp only [List.mem_filter, List.mem_range, List.contains_iff_mem]
    exact ⟨fun k => k.2, fun k => ⟨h.inMap x k, k⟩⟩
  have h2 := List.length_eq_length_filter_add (l := List.range st.segmentCount) (fun x => st.owned.contains x)
  rw [h1.length_eq, List.length_range] at h2
  simp only [ImageStore.freeCount]
  omega

/-- The entries after an empty position has taken one. -/
theorem entries_set (st : ImageStore) (pos : Fin 32) (e : Entry) (h : st.catalogue[pos] = none) :
    (({ st with catalogue := st.catalogue.set pos.val (some e) pos.isLt } : ImageStore).entries).Perm (e :: st.entries) := by
  simp only [ImageStore.entries, Vector.toList_set]
  have hl : pos.val < st.catalogue.toList.length := by simp
  have hg : st.catalogue.toList[pos.val] = none := by simpa using h
  generalize st.catalogue.toList = l at hl hg
  have hp : (l.set pos.val (some e)).Perm (some e :: l.eraseIdx pos.val) := by
    rw [List.set_eq_take_append_cons_drop, if_pos hl, List.eraseIdx_eq_take_drop_succ]
    exact List.perm_middle
  have hq : l.Perm (none :: l.eraseIdx pos.val) := by
    rw [← hg]; exact (List.getElem_cons_eraseIdx_perm hl).symm
  have h1 := hp.filterMap id
  have h2 := hq.filterMap id
  simp only [List.filterMap_cons, id_eq] at h1 h2
  exact h1.trans (h2.symm.cons e)

/-- The lowest empty position. -/
theorem emptyPosition_some (st : ImageStore) (pos : Fin 32) (h : st.catalogue[pos] = none)
    (k : ∀ i : Fin 32, i < pos → st.catalogue[i] ≠ none) : st.emptyPosition = some pos.val := by
  simp only [ImageStore.emptyPosition]
  rw [List.findIdx?_eq_some_iff_getElem]
  refine ⟨by simp, by simpa using h, fun j hj => ?_⟩
  have hj' : j < 32 := by omega
  have := k ⟨j, hj'⟩ hj
  simpa using this

/-- A full catalogue has no empty position. -/
theorem emptyPosition_none (st : ImageStore) (h : ∀ i : Fin 32, st.catalogue[i] ≠ none) : st.emptyPosition = none := by
  simp only [ImageStore.emptyPosition, List.findIdx?_eq_none_iff]
  intro x hx
  rw [Vector.mem_toList_iff, Vector.mem_iff_getElem] at hx
  obtain ⟨i, hi, rfl⟩ := hx
  have k : st.catalogue[i] ≠ none := h ⟨i, hi⟩
  cases e : st.catalogue[i] with
  | none => exact absurd e k
  | some _ => rfl

/-- The segments of an entry of a sound store (R40). -/
theorem entry_segments {st : ImageStore} (h : StoreOk st) {e : Entry} (he : e ∈ st.entries) :
    e.segments.Nodup ∧ (∀ x ∈ e.segments, x < st.segmentCount) ∧ e.segments.length = (e.length + 65535) / 65536 := by
  have sub : e.segments.Sublist st.owned := by
    unfold ImageStore.owned
    generalize st.entries = l at he
    induction l with
    | nil => cases he
    | cons a rest ih =>
      rcases List.mem_cons.mp he with rfl | he
      · exact List.sublist_append_left _ _
      · exact (ih he).trans (List.sublist_append_right _ _)
  exact ⟨h.once.sublist sub, fun x hx => h.inMap x (sub.subset hx), by have := h.sizes e he; simpa [Entry.segmentNeed, ceilDiv] using this⟩

/-- Every byte of an image has a place in image memory (R42). -/
theorem address_of {st : ImageStore} (h : StoreOk st) {e : Entry} (he : e ∈ st.entries) {o : Nat} (ho : o < e.length) :
    ∃ seg, e.segments[o / 65536]? = some seg ∧ e.address st.segmentCount o = some (seg * 65536 + o % 65536) := by
  obtain ⟨_, h2, h3⟩ := entry_segments h he
  have hl : o / 65536 < e.segments.length := by rw [h3]; omega
  refine ⟨e.segments[o / 65536], List.getElem?_eq_getElem hl, ?_⟩
  unfold Entry.address
  rw [List.getElem?_eq_getElem hl]
  simp [h2 _ (List.getElem_mem hl)]

/-- No two bytes of an image share a place. -/
theorem address_inj {st : ImageStore} (h : StoreOk st) {e : Entry} (he : e ∈ st.entries) {o o' x : Nat}
    (h1 : e.address st.segmentCount o = some x) (h2 : e.address st.segmentCount o' = some x) : o = o' := by
  have key : ∀ o x, e.address st.segmentCount o = some x → ∃ seg, e.segments[o / 65536]? = some seg ∧ x = seg * 65536 + o % 65536 := by
    intro o x hx
    unfold Entry.address at hx
    split at hx
    · next seg hseg =>
      split at hx
      · exact ⟨seg, hseg, by simpa using hx.symm⟩
      · cases hx
    · cases hx
  obtain ⟨a, a1, a2⟩ := key o x h1
  obtain ⟨b, b1, b2⟩ := key o' x h2
  have e1 : a = b := by omega
  subst e1
  have := (List.nodup_iff_injective_get.mp (entry_segments h he).1)
  obtain ⟨l1, g1⟩ := List.getElem?_eq_some_iff.mp a1
  obtain ⟨l2, g2⟩ := List.getElem?_eq_some_iff.mp b1
  have : (⟨o / 65536, l1⟩ : Fin _) = ⟨o' / 65536, l2⟩ := this (by simp [g1, g2])
  have : o / 65536 = o' / 65536 := congrArg Fin.val this
  omega

/-- What writing a chunk does to image memory (R47). -/
theorem writeBytes_spec {st : ImageStore} (h : StoreOk st) {e : Entry} (he : e ∈ st.entries) :
    Memory.wf st.mem = true → ∀ (chunk : List Byte) (o : Nat), o + chunk.length ≤ e.length → ∃ m, st.writeBytes e o chunk = some m ∧
      (∀ i v, chunk[i]? = some v → ∃ seg, e.segments[(o + i) / 65536]? = some seg ∧
        e.address st.segmentCount (o + i) = some (seg * 65536 + (o + i) % 65536) ∧
        Memory.read m (seg * 65536 + (o + i) % 65536) = v) ∧
      (∀ x : Nat, (∀ i < chunk.length, e.address st.segmentCount (o + i) ≠ some x) →
        Memory.read m x = Memory.read st.mem x) ∧ Memory.wf m = true := by
  intro hw chunk
  induction chunk with
  | nil => intro o _; exact ⟨st.mem, rfl, by simp, fun _ _ => rfl, hw⟩
  | cons v rest ih =>
    intro o ho
    simp only [List.length_cons] at ho
    obtain ⟨m, hm, m1, m2, m3⟩ := ih (o + 1) (by omega)
    obtain ⟨seg, s1, s2⟩ := address_of h he (o := o) (by omega)
    refine ⟨Memory.write (seg * 65536 + o % 65536) v m, ?_, ?_, ?_, Memory.wf_write _ _ _ m3⟩
    · simp only [ImageStore.writeBytes, s2, hm]
    · intro i w hi
      cases i with
      | zero =>
        simp only [List.getElem?_cons_zero, Option.some.injEq] at hi
        subst hi
        exact ⟨seg, s1, s2, Memory.read_write_self _ _ _ m3⟩
      | succ i =>
        simp only [List.getElem?_cons_succ] at hi
        obtain ⟨sg, t1, t2, t3⟩ := m1 i w hi
        rw [show o + 1 + i = o + (i + 1) by omega] at t1 t2 t3
        refine ⟨sg, t1, t2, ?_⟩
        rw [Memory.read_write_other]
        · exact t3
        · intro eq
          rw [eq] at t2
          have := address_inj h he t2 s2
          omega
    · intro x hx
      have h0 := hx 0 (by simp)
      rw [Nat.add_zero, s2] at h0
      rw [Memory.read_write_other _ _ (by intro eq; exact h0 (by rw [eq]))]
      refine m2 x fun i hi => ?_
      have := hx (i + 1) (by simp; omega)
      rwa [show o + (i + 1) = o + 1 + i by omega] at this

/-- Deleting entries changes the catalogue alone. -/
theorem exists_cat_delete (st : ImageStore) (test : Entry → Bool) : ∃ cat, st.deleteWhere test = { st with catalogue := cat } ∧
    ∀ i : Fin 32, cat[i] = match st.catalogue[i] with
      | some e => if test e then none else some e
      | none => none := ⟨_, rfl, fun i => deleteWhere_get st test i⟩

/-- Changing an entry changes the catalogue alone. -/
theorem exists_cat_mod (st : ImageStore) (id : Nat) (f : Entry → Entry) : ∃ cat, st.modEntry id f = { st with catalogue := cat } ∧
    ∀ i : Fin 32, cat[i] = match st.catalogue[i] with
      | some e => if e.id == id then some (f e) else some e
      | none => none := ⟨_, rfl, fun i => modEntry_get st id f i⟩

/-- What it means that the active plan references an image (R29). -/
theorem references_iff (pl : PlanStore) (id : Nat) : pl.references id = true ↔
    ∃ (i : Fin 64) (r : Rule), pl.active[i] = some r ∧ r.action ≠ .census ∧ r.image = some id := by
  simp only [PlanStore.references, List.any_eq_true]
  constructor
  · rintro ⟨x, hx, h⟩
    rw [Vector.mem_toList_iff, Vector.mem_iff_getElem] at hx
    obtain ⟨i, hi, rfl⟩ := hx
    split at h
    · next r e => exact ⟨⟨i, hi⟩, r, e, by simpa [Rule.references] using h⟩
    · cases h
  · rintro ⟨i, r, e, h⟩
    refine ⟨some r, ?_, by simpa [Rule.references] using h⟩
    rw [Vector.mem_toList_iff, ← e]; exact Vector.getElem_mem _

/-- The use count reads the bays alone. -/
theorem useCount_congr {s t : State} (h : t.bays = s.bays) (id : Nat) : t.useCount id = s.useCount id := by
  simp only [State.useCount, State.bay_of_bays h]

/-- An entry is found by its id at its position. -/
theorem find_of_pos {st : ImageStore} (hs : StoreOk st) {pos : Fin 32} {e : Entry} (h : st.catalogue[pos] = some e) :
    st.find e.id = some e ∧ st.positionOf e.id = some pos.val := by
  have inj : ∀ x ∈ st.entries, x.id = e.id → x = e := fun x hx hid =>
    List.inj_on_of_nodup_map hs.ids hx ((mem_entries st e).mpr ⟨pos, h⟩) hid
  constructor
  · cases hf : st.find e.id with
    | none => exact absurd rfl (find_none.mp hf e ((mem_entries st e).mpr ⟨pos, h⟩))
    | some x =>
      obtain ⟨h1, h2⟩ := find_some hf
      rw [inj x h1 h2]
  · simp only [ImageStore.positionOf]
    rw [List.findIdx?_eq_some_iff_getElem]
    have h' : st.catalogue[pos.val] = some e := h
    refine ⟨by simp, by simp [h'], fun j hj => ?_⟩
    have hj' : j < 32 := by omega
    simp only [Vector.getElem_toList]
    cases hx : st.catalogue[j] with
    | none => simp
    | some x =>
      simp only [beq_iff_eq]
      intro hid
      have hm : x ∈ st.entries := (mem_entries st x).mpr ⟨⟨j, hj'⟩, hx⟩
      have := inj x hm hid
      subst this
      -- two positions with the same entry contradict the distinct ids
      have hnd := hs.ids
      simp only [ImageStore.entries] at hnd
      have key : ∀ (l : List (Option Entry)) (a b : Nat) (ha : a < l.length) (hb : b < l.length), a < b → l[a] = some x → l[b] = some x →
          ¬ ((l.filterMap id).map (·.id)).Nodup := by
        intro l
        induction l with
        | nil => intro a b ha; simp at ha
        | cons y rest ih =>
          intro a b ha hb hab h1 h2 hn
          cases a with
          | zero =>
            simp only [List.getElem_cons_zero] at h1
            subst h1
            obtain ⟨b, rfl⟩ : ∃ c, b = c + 1 := ⟨b - 1, by omega⟩
            simp only [List.getElem_cons_succ] at h2
            simp only [List.filterMap_cons, id_eq, List.map_cons, List.nodup_cons] at hn
            refine hn.1 (List.mem_map.mpr ⟨x, ?_, rfl⟩)
            rw [List.mem_filterMap]
            exact ⟨some x, h2 ▸ List.getElem_mem _, rfl⟩
          | succ a =>
            obtain ⟨b, rfl⟩ : ∃ c, b = c + 1 := ⟨b - 1, by omega⟩
            simp only [List.getElem_cons_succ] at h1 h2
            refine ih a b (by simpa using ha) (by simpa using hb) (by omega) h1 h2 ?_
            cases y with
            | none => simpa using hn
            | some y => simp only [List.filterMap_cons, id_eq, List.map_cons, List.nodup_cons] at hn; exact hn.2
      exact key st.catalogue.toList j pos.val (by simp; omega) (by simp) hj (by simpa using hx) (by simpa using h') hnd

/-- What reading a run of image bytes gives. -/
theorem readBytes_spec {st : ImageStore} (h : StoreOk st) {e : Entry} (he : e ∈ st.entries) :
    ∀ (n o : Nat), o + n ≤ e.length → ∃ bytes, st.readBytes e o n = some bytes ∧ bytes.length = n ∧
      ∀ i v, bytes[i]? = some v → ∃ x, e.address st.segmentCount (o + i) = some x ∧ Memory.read st.mem x = v := by
  intro n
  induction n with
  | zero => intro o _; exact ⟨[], rfl, rfl, by simp⟩
  | succ n ih =>
    intro o ho
    obtain ⟨bytes, b1, b2, b3⟩ := ih (o + 1) (by omega)
    obtain ⟨seg, s1, s2⟩ := address_of h he (o := o) (by omega)
    refine ⟨Memory.read st.mem (seg * 65536 + o % 65536) :: bytes, by simp only [ImageStore.readBytes, s2, b1], by simp [b2], fun i v hi => ?_⟩
    cases i with
    | zero =>
      simp only [List.getElem?_cons_zero, Option.some.injEq] at hi
      exact ⟨_, s2, hi⟩
    | succ i =>
      simp only [List.getElem?_cons_succ] at hi
      obtain ⟨x, h1, h2⟩ := b3 i v hi
      exact ⟨x, by rwa [show o + 1 + i = o + (i + 1) by omega] at h1, h2⟩

end Sys2Proof.Machine
end

