-- ==== Sys2Proof/Machine/CabinUnit.lean ====
section
/-! DEFINITION. What a cabin unit does with the commands of a bay line (R64 to R69). Units are partners of the part, not
the part: nothing of them is in State, and no command of the table moves them (notes/assumptions/22.md). -/

namespace Sys2Proof.Machine

/-- A cabin unit as section 4.3 sees it. `received` lists the blocks that its standby bank holds, `length` and
`blocks` are those of the last OPEN with the resume flag clear (notes/assumptions/39.md), `computed` says that a
digest computation has finished. `foreignImage` says that the received image carries a target other than the unit: R68
does not say how the unit finds it in the content, and here it is a flag given with the unit, as `locked` is, that no
OPEN or BLOCK changes. DESIGN CHOICE, unsafe (notes/assumptions/38.md). -/
structure CabinUnit where
  addr : Nat
  identity : Identity
  length : Nat
  blocks : Nat
  received : List (Nat × List Byte)
  inGroup : Bool
  erasing : Bool
  locked : Bool
  computing : Bool
  computed : Bool
  restarting : Bool
  foreignImage : Bool
  deriving DecidableEq, Repr

/-- A unit's answer; none when it stays silent. -/
abbrev UnitAnswer := Option Reply × CabinUnit

/-- The standby bank names an image (R66, R67). -/
def CabinUnit.namesImage (u : CabinUnit) : Bool := u.identity.standbyImage != 0

/-- The unit holds a block of its standby image. -/
def CabinUnit.holds (u : CabinUnit) (n : Nat) : Bool := u.received.any fun x => x.1 == n

/-- Every block of the standby image has been received (R66). -/
def CabinUnit.complete (u : CabinUnit) : Bool := (List.range u.blocks).all u.holds

/-- Takes the new image id and version, BLANK, with an empty record of received blocks (R65 rows 5 and 6). That a digest
computation ends with it is a DESIGN CHOICE, unsafe (notes/assumptions/35.md). -/
def CabinUnit.prepare (u : CabinUnit) (image : Nat) (version : Version) (length blocks : Nat) : CabinUnit :=
  { u with
    identity := { u.identity with standbyImage := image, standbyVersion := version, standbyState := .blank }
    length := length, blocks := blocks, received := [], computing := false, computed := false }

/-- OPEN (R65). `erased` says that the erasure which this OPEN needs has finished when the unit answers. Row 3 says that the
bank is kept, and not whether the length and the block count of such an OPEN replace the former ones; here they do not:
DESIGN CHOICE, unsafe (notes/assumptions/39.md). -/
def CabinUnit.takeOpen (u : CabinUnit) (image : Nat) (version : Version) (length blocks : Nat)
    (join resume erased : Bool) : UnitAnswer :=
  let v := { u with inGroup := false }
  if u.locked then (some (.reject .bankLocked), v)
  else if u.identity.capacity < ceilDiv length 65536 then (some (.reject .tooLarge), v)
  else if resume then
    if u.identity.standbyImage = image && u.identity.standbyVersion = version &&
        u.identity.standbyState != .blank then (some .ok, { v with inGroup := join })
    else (some (.reject .mismatch), v)
  else if erased then
    (some .ok, { v.prepare image version length blocks with erasing := false, inGroup := join })
  else (some .notReady, { v.prepare image version length blocks with erasing := true })

/-- BLOCK (R66): never answered. A block that is written cancels a digest computation that runs, or that has ended and not
been reported, and the next CHECK starts it anew. R66 and R68 are silent on it: DESIGN CHOICE, unsafe
(notes/assumptions/35.md). A locked bank is written too; R66 is silent on it: DESIGN CHOICE, unsafe
(notes/assumptions/40.md). -/
def CabinUnit.takeBlock (u : CabinUnit) (number : Nat) (data : List Byte) : CabinUnit :=
  if u.erasing || !u.namesImage || u.blocks ≤ number then u
  else
    let v := { u with received := (u.received.filter fun x : Nat × List Byte => x.1 != number) ++ [(number, data)]
                      computing := false, computed := false }
    { v with identity := { v.identity with standbyState := if v.complete then .complete else .partlyReceived } }

/-- Adds a missing block number to ranges that are being gathered, newest range first. -/
def gather (ranges : List Range) (n : Nat) : List Range :=
  match ranges with
  | r :: rest => if r.first + r.count = n then { r with count := r.count + 1 } :: rest
      else { first := n, count := 1 } :: r :: rest
  | [] => [{ first := n, count := 1 }]

/-- The missing blocks of the standby image as ascending ranges (R67). -/
def CabinUnit.missing (u : CabinUnit) : List Range :=
  (((List.range u.blocks).filter fun n => !u.holds n).foldl gather []).reverse

/-- GAPS (R67). -/
def CabinUnit.takeGaps (u : CabinUnit) : Reply :=
  if !u.namesImage then .reject .mismatch
  else .gaps (u.missing.take 8) (decide (8 < u.missing.length))

/-- The bytes of the standby bank in block order. -/
def CabinUnit.bank (u : CabinUnit) : List Byte :=
  (List.range u.blocks).flatMap fun n => match u.received.find? fun x => x.1 == n with
    | some x => x.2
    | none => []

/-- CHECK (R68). The CHECK that starts a computation is always answered NOT-READY: R68 does not say how soon a digest can
be finished, and no unit here finishes one within that reply. DESIGN CHOICE, unsafe (notes/assumptions/37.md). Whether
the image is foreign is a flag given with the unit (notes/assumptions/38.md). -/
def CabinUnit.takeCheck (u : CabinUnit) : UnitAnswer :=
  let v := { u with inGroup := false }
  if u.locked then (some (.reject .bankLocked), v)
  else if !u.namesImage then (some (.reject .mismatch), v)
  else if !u.complete then (some (.reject .notComplete), v)
  else if u.foreignImage then (some (.reject .wrongClass), v)
  else if u.computed || u.identity.standbyState == .verified then
    (some (.digest (crc32 (u.bank.take u.length))),
      { v with computing := false, computed := true, identity := { v.identity with standbyState := .verified } })
  else (some .notReady, { v with computing := true })

/-- SWITCH (R69). -/
def CabinUnit.takeSwitch (u : CabinUnit) : UnitAnswer :=
  if u.locked then (some (.reject .bankLocked), u)
  else if u.identity.standbyState != .verified then (some (.reject .notVerified), u)
  else (some .ok, { u with restarting := true })

/-- The end of a restart (R69): the banks have changed places, or the new firmware has failed to start. What becomes of a
digest computation is a DESIGN CHOICE, unsafe (notes/assumptions/35.md). -/
def CabinUnit.restarted (u : CabinUnit) (started : Bool) : CabinUnit :=
  let v := { u with restarting := false, inGroup := false }
  if started then
    { v with
      identity := { v.identity with active := u.identity.standbyVersion, standbyImage := 0
                                    standbyVersion := Version.zero, standbyState := .blank }
      length := 0, blocks := 0, received := [], computing := false, computed := false }
  else v

/-- The end of a digest computation (R68), an event of its own (notes/assumptions/37.md). -/
def CabinUnit.digestDone (u : CabinUnit) : CabinUnit := if u.computing then { u with computed := true } else u

/-- The unit's answer to a request frame on its line (R60, R61, R64 to R69). -/
def CabinUnit.answer (u : CabinUnit) (r : LineRequest) (erased : Bool) : UnitAnswer :=
  if u.restarting then (none, u)
  else match r with
    | .block a number data => if a = u.addr || (a = 31 && u.inGroup) then (none, u.takeBlock number data) else (none, u)
    | .identify a => if a = u.addr then (some (.identity u.identity), u) else (none, u)
    | .openBank a image version length blocks join resume =>
      if a = u.addr then u.takeOpen image version length blocks join resume erased else (none, u)
    | .gaps a => if a = u.addr then (some u.takeGaps, u) else (none, u)
    | .check a => if a = u.addr then u.takeCheck else (none, u)
    | .switch a => if a = u.addr then u.takeSwitch else (none, u)

end Sys2Proof.Machine
end

