-- ==== Sys2Proof/Tests/Slice0.lean ====
section
/-! SUPPORT. Tests of one command each on small states, with expected results taken from the examples and tables of
spec/; the ill-formed term of each well-formedness check; and, for each statement with hypotheses, a concrete state that
meets them, clause by clause at the boundary values (`witness_<the statement's name>`). -/

namespace Sys2Proof.Tests

open Sys2Proof.Machine

/-! ### Small states -/

/-- The part right after reset with bay 0 as given. -/
def at0 (y : Bay) : State := State.reset.setBay 0 y

/-- A bay right after reset. -/
abbrev bay : Bay := Bay.powerOn

/-- The part right after reset with a port as given. -/
def onPort (p : PortId) (f : Port → Port) : State := State.reset.modPort p f

/-- An image of three blocks, READY in segment 0. -/
def image : Entry :=
  { id := 301, version := ⟨3, 3, 0⟩, cls := 3, length := 600, crc := 0x5E0A17C3#32, state := .ready, pinned := false,
    segments := [0], uploadPort := none }

/-- A state whose catalogue holds the images given, from position 0 on. -/
def withImages (es : List Entry) (s : State) : State :=
  { s with store := { s.store with catalogue := Vector.ofFn fun i => es[i.val]? } }

/-- A validator's identity. -/
def validator : Identity :=
  { cls := 3, revision := 0x0301#16, serial := 120455, fleet := 0, active := ⟨3, 2, 0⟩, standbyImage := 0,
    standbyVersion := Version.zero, standbyState := .blank, capacity := 32 }

/-- The identity of bus 4127's gateway. -/
def gateway : Identity := { validator with cls := 1, serial := 70400, fleet := 4127, active := ⟨2, 4, 0⟩ }

/-- A validator decided FLASH 301 in group 1. -/
def member (a : Nat) (p : Progress) : JobUnit :=
  { JobUnit.create a validator with
    decision := some .flash, rule := some 0, planned := some { image := 301, version := ⟨3, 3, 0⟩ }, group := 1
    kind := some .fresh, progress := some p, claim := some 301, openedBlocks := some 3 }

/-- A pass over members of group 1. -/
def pass (phase : Phase) (members todo : List Nat) : Pass :=
  { Pass.form 301 1 0 members with phase := phase, todo := todo }

/-- The switch-group record of group 1. -/
def group (members : List Nat) : GroupRecord :=
  { group := 1, members := members, images := [301], faulted := false, ended := false, sent := [] }

/-- A transaction with its first attempt's reply awaited. -/
def asked (r : LineRequest) (act : Activity) : Transaction :=
  { request := r, activity := act, retries := 0, polls := 0, speed := 1, started := true, drained := false }

/-- A bay awaiting the reply to a request. -/
def awaiting (tr : Transaction) (y : Bay) : Bay :=
  { y with engine := { y.engine with state := .awaiting, transaction := some tr } }

/-- A bay sending the frame of a request. -/
def sending (tr : Transaction) (y : Bay) : Bay :=
  { y with engine := { y.engine with state := .sending, transaction := some tr } }

/-- A bay held by port SP1. -/
def heldBy1 (y : Bay) : Bay := { y with holds := { y.holds with sp1 := true } }

/-- A bus record bound to bay 0, or to none. -/
def busAt (fleet : Nat) (b : Option BayId) : BusRecord :=
  { fleet := fleet, atBay := b, lastVisit := 0, evaluated := none, stale := 0, slots := [], splits := [] }

/-- The reply frame of a unit. -/
def replyOf (a : Nat) (code : Byte) (body : List Byte) : List Byte := lineFrame 0x3C#8 a code body

/-- Port SP0 uploading the image, the cursor as given. -/
def uploading (cursor : Nat) : State :=
  (withImages [{ image with state := .loading, uploadPort := some 0 }] State.reset).modPort 0 fun t =>
    { t with upload := some { image := 301, cursor := cursor } }

/-- A state in which the arbiter carries out an access. -/
def granting (g : Grant) (s : State) : State := { s with store := { s.store with granted := some g } }

/-- A bay in a state. -/
def inState (st : BayState) : Bay := { bay with state := st, cutoff := if st = .cutoff then some .departNow else none }

/-- A bay with one pass, in the state that the pass needs. -/
def flying (p : Pass) (units : List JobUnit) : Bay := { inState .transferring with passes := [p], units := units }

/-- A confirmation round of units 3 and 4 with their deadlines. -/
def round (polls : List Poll) : Bay :=
  { inState .switching with
    units := [member 3 .confirming, member 4 .confirming], groups := [group [3, 4]]
    switching := some { group := 1, members := [3, 4], todo := [], polls := polls, soloSent := [] } }

/-- A confirmation round in which unit 3 is SWITCHED, unit 4 is not, and an IDENTIFY to unit 4 is on the line. -/
def breaking : Bay :=
  awaiting (asked (.identify 4) .confirm) { round [⟨4, 15000, 0⟩] with
    units := [member 3 .switched, member 4 .confirming], groups := [{ group [3, 4] with sent := [3, 4] }] }

/-- The part with that round at bay 0, whose record is bound. -/
def breakingAt0 : State := { at0 breaking with fleet := [busAt 4127 (some 0)] }

/-- The reply of a unit on the line of bay 0. -/
def heard (a : Nat) (code : Byte) (body : List Byte) : Instr := .replyReceived 0 (replyOf a code body)

/-- The identity of a gateway or of a validator as a DATA reply carries it (section 1.3). -/
def identityBody (i : Identity) : List Byte :=
  toBytes 1 i.cls ++ toBytes 2 i.revision.toNat ++ toBytes 4 i.serial ++ toBytes 2 i.fleet ++ versionBytes i.active ++
    toBytes 2 i.standbyImage ++ versionBytes i.standbyVersion ++ [0x00#8] ++ toBytes 2 i.capacity

/-! ### Conditions of the statements, checked state by state -/

theorem storeOk_of {l : List State} (h : ∀ u ∈ l, u.store.pointer < u.store.segmentCount ∧
    (∀ seg ∈ u.store.owned, seg < u.store.segmentCount) ∧ u.store.owned.Nodup ∧
    (∀ e ∈ u.store.entries, e.segments.length = e.segmentNeed) ∧ (u.store.entries.map (·.id)).Nodup) :
    ∀ u ∈ l, StoreOk u.store :=
  fun u hu => ⟨(h u hu).1, (h u hu).2.1, (h u hu).2.2.1, (h u hu).2.2.2.1, (h u hu).2.2.2.2⟩

theorem fleetOk_of {l : List State} (h : ∀ u ∈ l, (u.fleet.map (·.fleet)).Nodup ∧ u.fleet.length ≤ 256 ∧
    ∀ b : BayId, (u.fleet.countP fun r => r.atBay == some b) ≤ 1) : ∀ u ∈ l, FleetOk u :=
  fun u hu => ⟨(h u hu).1, (h u hu).2.1, (h u hu).2.2⟩

theorem inFlight_of {l : List (Bay × Pass)} (h : ∀ e ∈ l, e.1.passes = [e.2] ∧ e.2.inFlight = true) :
    ∀ e ∈ l, InFlight e.1 [] e.2 [] :=
  fun e he => ⟨(h e he).1, (h e he).2, nofun⟩

/-- Broken off, that round splits its group. -/
theorem breaking_splits : SplitsGroup breaking 1 :=
  ⟨by decide, _, { group [3, 4] with sent := [3, 4] }, rfl, rfl, rfl, 4, member 4 .confirming, _, by decide, rfl,
    by decide, rfl⟩

/-- A bay whose cutoff flag fits its state and that is idle if it is stopped is sound. -/
theorem bayOk_of {y : Bay} (flag : y.cutoff.isSome = true ↔ y.state = .cutoff)
    (quiet : stoppedState y.state = false ∨
      (y.passes = [] ∧ y.switching = none ∧ y.engine.offered = none ∧ y.engine.state = .idle)) : BayOk y := by
  refine ⟨flag, fun h => ?_⟩
  rcases quiet with k | ⟨h1, h2, h3, h4⟩
  · rw [h] at k
    cases k
  · exact ⟨h1, h2, h3, fun k => absurd h4 k⟩

theorem breaking_ok : BayOk breaking := bayOk_of (by decide) (by decide)

/-- A transaction of bay 0 that a command is to end, with its outcome. -/
structure Ending where
  start : State
  transaction : Transaction
  outcome : LineOutcome
  command : Instr

/-- The command ends the transaction with the outcome. -/
abbrev Ending.Holds (e : Ending) : Prop := EndsWith e.start 0 e.transaction e.outcome e.command

/-- The reply that a command brings is judged as the one given. -/
def Ending.judged (e : Ending) (r : Reply) : Bool :=
  match e.command with
  | .replyReceived b frame =>
    b == 0 && judgeReply e.transaction.request (e.start.gapsBound 0 e.transaction.request.addr) frame == some r
  | _ => false

/-- `Ending.Holds`, as a check. -/
def Ending.fits (e : Ending) : Bool :=
  decide (Awaits e.start 0 e.transaction) && match e.outcome with
    | .reply r => r != .notReady && e.judged r
    | .noReply => decide ((e.start.bay 0).config.retries < e.transaction.retries + 1) &&
        (e.command == .replyTimeout 0 || e.command == .replyCharacterTimeout 0)
    | .notReadyLimit => decide ((e.start.bay 0).config.notReadyLimit < e.transaction.polls + 1) && e.judged .notReady

theorem Ending.judged_frame {e : Ending} {r : Reply} (h : e.judged r = true) : ∃ frame,
    e.command = .replyReceived 0 frame ∧
    judgeReply e.transaction.request (e.start.gapsBound 0 e.transaction.request.addr) frame = some r := by
  unfold Ending.judged at h
  split at h
  · next b frame hc =>
    simp only [Bool.and_eq_true, beq_iff_eq] at h
    exact ⟨frame, by rw [hc, h.1], h.2⟩
  · cases h

theorem ends_of {l : List Ending} (h : l.all Ending.fits = true) : ∀ e ∈ l, e.Holds := by
  intro e he
  have k := List.all_eq_true.mp h e he
  unfold Ending.fits at k
  rw [Bool.and_eq_true, decide_eq_true_eq] at k
  obtain ⟨k1, k2⟩ := k
  refine ⟨k1, ?_⟩
  revert k2
  cases e.outcome with
  | reply r =>
    intro k2
    simp only [Bool.and_eq_true, bne_iff_ne] at k2
    exact ⟨k2.1, Ending.judged_frame k2.2⟩
  | noReply =>
    intro k2
    simp only [Bool.and_eq_true, Bool.or_eq_true, decide_eq_true_eq, beq_iff_eq] at k2
    exact ⟨k2.1, k2.2.elim .inl fun c => .inr (.inl c)⟩
  | notReadyLimit =>
    intro k2
    simp only [Bool.and_eq_true, decide_eq_true_eq] at k2
    exact ⟨k2.1, Ending.judged_frame k2.2⟩

/-! ### Check functions and frames -/

/-- A TIME_READ answered at yard time 4,700,000 (0x47B760): sync 0x5A, status 0x00, length 8, the count, the CRC. -/
theorem test_time_response_frame :
    (({ kind := .answer, status := .ok, body := .time 4700000 } : Response).frame.map fun l => l.take 12) =
      some [0x5A#8, 0x00#8, 0x00#8, 0x08#8, 0x00#8, 0x00#8, 0x00#8, 0x00#8, 0x00#8, 0x47#8, 0xB7#8, 0x60#8] := by decide

/-- A BUSY that refuses an IMG_DATA frame (0x11): status 0x02, length 1, the code. -/
theorem test_busy_response_frame :
    (({ kind := .refusal, status := .busy, body := .code 0x11#8 } : Response).frame.map fun l => l.take 5) =
      some [0x5A#8, 0x02#8, 0x00#8, 0x01#8, 0x11#8] := by decide

/-- R62: the CRC-16 of the nine ASCII bytes of the text 123456789. -/
theorem test_crc16_check :
    crc16 [0x31#8, 0x32#8, 0x33#8, 0x34#8, 0x35#8, 0x36#8, 0x37#8, 0x38#8, 0x39#8] = 0x29B1#16 := by
  decide +kernel

/-- R51: the CRC-32 of the same text. -/
theorem test_crc32_check :
    crc32 [0x31#8, 0x32#8, 0x33#8, 0x34#8, 0x35#8, 0x36#8, 0x37#8, 0x38#8, 0x39#8] = 0xCBF43926#32 := by
  decide +kernel

/-- Section 11.2: sync, code, two length bytes, body, CRC-16, written out for TIME_READ, IMG_RETIRE and UNHOLD. The CRC
bytes were calculated apart from the model by R62. -/
theorem test_decode_frames :
    decodeFrame 1 [0xA5#8, 0x01#8, 0x00#8, 0x00#8, 0xFB#8, 0xAC#8] = some (.timeRead 1 []) ∧
    decodeFrame 0 [0xA5#8, 0x14#8, 0x00#8, 0x02#8, 0x01#8, 0x2D#8, 0x34#8, 0xCE#8] =
      some (.imgRetire 0 [0x01#8, 0x2D#8]) ∧
    decodeFrame 2 [0xA5#8, 0x48#8, 0x00#8, 0x02#8, 0x03#8, 0x01#8, 0x29#8, 0x5B#8] =
      some (.unholdRule 2 [0x03#8, 0x01#8]) ∧
    decodeFrame 2 [0xA5#8, 0x48#8, 0x00#8, 0x02#8, 0x03#8, 0x01#8, 0x29#8, 0x5A#8] =
      some (.frameCrcError 2 0x48#8 [0x03#8, 0x01#8] 0x295A#16) ∧
    decodeFrame 0 [0xA5#8, 0x11#8, 0x04#8, 0x4D#8] = some (.frameLengthError 0 0x11#8 1101#16) := by
  decide +kernel

/-- Section 4.2.1: the IDENTIFY frame to line address 4. -/
theorem test_identify_frame :
    (LineRequest.identify 4).frame = [0xC3#8, 0x04#8, 0x10#8, 0x00#8, 0x00#8, 0x0D#8, 0x52#8] := by
  decide +kernel

/-- R4: an identity record of class 0, of serial 0, of capacity 0 or above 256 or of standby state 4 is malformed. -/
theorem test_identity_malformed :
    let body := fun (cls serial state : Byte) (cap : Nat) =>
      [cls, 0x03#8, 0x01#8, 0x00#8, 0x00#8, 0x00#8, serial] ++ List.replicate 12 0x00#8 ++ [state] ++ toBytes 2 cap
    (readIdentity (body 0x03#8 0x05#8 0x00#8 32)).isSome = true ∧ readIdentity (body 0x00#8 0x05#8 0x00#8 32) = none ∧
    readIdentity (body 0x03#8 0x00#8 0x00#8 32) = none ∧ readIdentity (body 0x03#8 0x05#8 0x04#8 32) = none ∧
    readIdentity (body 0x03#8 0x05#8 0x00#8 0) = none ∧ readIdentity (body 0x03#8 0x05#8 0x00#8 257) = none := by
  decide +kernel

/-! ### The checks on a command -/

/-- A body of 1,101 bytes is no request; one of 1,100 bytes is (R173). -/
theorem test_ill_formed_body :
    (Instr.imgData 0 (List.replicate 1101 0x00#8)).wellFormed = false ∧
    (Instr.imgData 0 (List.replicate 1100 0x00#8)).wellFormed = true := by
  decide +kernel

/-- A frame of a bay line has 7 to 279 characters (R61). -/
theorem test_ill_formed_reply :
    (Instr.replyReceived 0 (List.replicate 6 0x00#8)).wellFormed = false ∧
    (Instr.replyReceived 0 (List.replicate 280 0x00#8)).wellFormed = false := by
  decide +kernel

/-- A line address of a unit is 1 to 16. -/
theorem test_ill_formed_deadline :
    (Instr.confirmationDeadline 0 0).wellFormed = false ∧ (Instr.confirmationDeadline 0 17).wellFormed = false := by
  decide

/-- A frame with the right CRC is no CRC error; a length of 1,100 is no length error; NOP's code is known. -/
theorem test_ill_formed_frame :
    (Instr.frameCrcError 0 0x01#8 [] 0xFBAC#16).wellFormed = false ∧
    (Instr.frameLengthError 0 0x11#8 1100#16).wellFormed = false ∧
    (Instr.unknownRequest 0 0x00#8 []).wellFormed = false ∧
    (Instr.unknownRequest 0 0x51#8 (List.replicate 1101 0x00#8)).wellFormed = false ∧
    (Instr.busyFrame 0 0x00#8 (List.replicate 1101 0x00#8)).wellFormed = false := by
  decide +kernel

/-- The two settings of BAY_ENABLE and the two forms of UNHOLD are told apart by their second byte. -/
theorem test_ill_formed_setting :
    (Instr.bayEnableOff 2 [0x00#8, 0x01#8]).wellFormed = false ∧
    (Instr.bayEnableOn 2 [0x00#8, 0x00#8]).wellFormed = false ∧
    (Instr.unholdOwn 1 [0x00#8, 0x01#8]).wellFormed = false ∧
    (Instr.unholdRule 2 [0x00#8]).wellFormed = false := by
  decide

/-! ### Examples of spec/ -/

/-- Section 3.11: the twenty segments of image 301, and the pointer after them. -/
theorem test_reserve_example :
    let owner := fun (id : Nat) (segs : List Nat) => { image with id := id, segments := segs }
    let st := { (withImages [owner 220 [1015, 1020], owner 410 [0, 1, 2, 3]] State.reset).store with pointer := 1012 }
    st.reserve 20 = [1012, 1013, 1014, 1016, 1017, 1018, 1019, 1021, 1022, 1023, 4, 5, 6, 7, 8, 9, 10, 11, 12, 13] ∧
    pointerAfter 1024 1012 (st.reserve 20) = 14 ∧
    (owner 301 (st.reserve 20)).address 1024 700000 = some (4 * 65536 + 44640) := by
  decide +kernel

/-- A rule of the plan of section 2.13. -/
def rule (action : RuleAction) (cls : Nat) (revision care : BitVec 16) (img : Option Nat) (g : Nat)
    (prereq : Option Prereq) : Rule :=
  { action := action, cls := cls, revision := revision, careMask := care, serialKind := .any, low := 0, high := 0,
    image := img, allowDowngrade := false, group := g, prereq := prereq }

/-- The first four rules of generation 12 (section 2.13). -/
def plan12 : List (Option Rule) :=
  [some (rule .flash 3 0x0300#16 0xFF00#16 (some 301) 1 (some { cls := 2, minimum := ⟨5, 2, 0⟩ })),
   some (rule .flash 2 0#16 0#16 (some 220) 1 none), some (rule .census 4 0#16 0#16 none 0 none),
   some (rule .flash 7 0#16 0#16 (some 410) 0 none)]

/-- The images of section 2.13. -/
def images12 (id : Nat) : Option Entry :=
  if id = 301 then some { image with length := 20 * 65536 }
  else if id = 220 then some { image with id := 220, version := ⟨5, 2, 0⟩, cls := 2, length := 10 * 65536 }
  else if id = 410 then some { image with id := 410, version := ⟨4, 0, 1⟩, cls := 7, length := 12 * 65536 }
  else if id = 515 then some { image with id := 515, version := ⟨2, 0, 0⟩, cls := 5, length := 6 * 65536 }
  else none

/-- The units of bus 4127 (section 2.13), with the bank capacity of unit 2. -/
def bus4127 (capacity2 : Nat) : List JobUnit :=
  let u := fun (a cls : Nat) (rev : BitVec 16) (v : Version) (cap : Nat) =>
    JobUnit.create a { validator with cls := cls, revision := rev, active := v, capacity := cap }
  [u 1 1 0x0203#16 ⟨2, 4, 0⟩ 8, u 2 2 0x0110#16 ⟨5, 1, 7⟩ capacity2, u 3 3 0x0301#16 ⟨3, 2, 0⟩ 32,
   u 4 3 0x0301#16 ⟨3, 2, 0⟩ 32, u 5 3 0x0302#16 ⟨3, 2, 0⟩ 32, u 6 4 0#16 ⟨1, 9, 2⟩ 8, u 7 7 0#16 ⟨4, 0, 1⟩ 16]

/-- Section 2.13: the decisions, deciding rules and groups of bus 4127. -/
theorem test_decide_bus_4127 :
    (decideUnits plan12 images12 (bus4127 16)).map (fun u => (u.decision, u.rule, u.group)) =
      (some .noRule, none, 0) :: (some .flash, some 1, 1) :: List.replicate 3 (some .flash, some 0, 1) ++
        [(some .census, some 2, 0), (some .current, some 3, 0)] := by
  decide +kernel

/-- Section 2.14: a failed prerequisite spreads. -/
theorem test_prerequisite_spreads :
    (decideUnits (plan12 ++ [some (rule .flash 5 0#16 0#16 (some 515) 1 (some { cls := 3, minimum := ⟨3, 3, 0⟩ }))])
        images12 (bus4127 8 ++ [JobUnit.create 8 { validator with cls := 5, active := ⟨1, 4, 0⟩, capacity := 8 }])).map
      (·.decision) =
      [some .noRule, some .bankTooSmall, some .prereqWait, some .prereqWait, some .prereqWait, some .census,
       some .current, some .prereqWait] := by
  decide +kernel

/-- Section 7.8: the needs of passes A and B, and the learned R and L between them. -/
theorem test_admission_example :
    let y := { bay with gapRatio := 13, units := [member 3 .pending, member 4 .pending, member 5 .pending] }
    let p := { pass .waiting [3, 4, 5] [] with streamed := 5120, activeTime := 140000, answered := 3, missingSum := 400 }
    passEstimate y y.units 3 5120 = 151868 ∧ passNeed y p 5120 = 196868 ∧ (y.takeRateSample p).rate = 9541 ∧
    (y.takeGapSample p 5120).gapRatio = 12 ∧
    passNeed { y with rate := 9541, gapRatio := 12 } (pass .waiting [3] []) 2560 = 89309 := by
  decide +kernel

/-- Section 11.8: an early IMG_QUERY is answered BUSY with body 0x17. -/
theorem test_early_frame :
    exec (.busyFrame 0 0x17#8 [0x00#8, 0x01#8, 0x2D#8]) (onPort 0 fun t => { t with inProgress := true }) =
      .next ((onPort 0 fun t => { t with inProgress := true }).refuse 0 .busy (.code 0x17#8)) := rfl

/-- Section 1.8: the record of bus 2088 loses its split entry when units 4 and 6 have left it. -/
theorem test_split_entry_leaves :
    dropFromSplit 2 [4, 6] [{ group := 2, images := [512], members := [⟨4, ⟨6, 0, 1⟩⟩, ⟨6, ⟨6, 0, 1⟩⟩] }] = [] := by
  decide

/-- R65, R66: a unit with a bank too small refuses an OPEN. -/
theorem test_cabin_unit_too_large :
    let u : CabinUnit :=
      { addr := 3, identity := { validator with capacity := 1 }, length := 0, blocks := 0, received := []
        inGroup := false, erasing := false, locked := false, computing := false, computed := false
        restarting := false, foreignImage := false }
    (u.takeOpen 301 ⟨3, 3, 0⟩ 65537 257 false false true).1 = some (.reject .tooLarge) := by
  decide +kernel

/-- R95: a unit of class 1 at an address other than 1 keeps no fleet number in its job unit record. -/
theorem test_gateway_elsewhere :
    (match exec (heard 2 0x21#8 (identityBody gateway))
        (at0 (awaiting (asked (.identify 2) .sweep) { inState .enumerating with units := [] })) with
      | .next t => (t.bay 0).units.map fun u => (u.addr, u.identity.cls, u.identity.fleet)
      | _ => []) = [(2, 1, 0)] := by
  decide +kernel

/-- R28, R107: the last GAPS outcome of a planning whose generation has passed plans anew: no counter rises for the plan
of before, and the notice that waits is taken. -/
theorem test_stale_planning :
    let s : State := { at0 (awaiting (asked (.gaps 3) .planning)
      { inState .planning with
        units := [member 3 .pending], notices := 1, planning := some { generation := 0, gapsList := [] } }) with
      plans := { PlanStore.powerOn with generation := 1 } }
    (match exec (heard 3 0x21#8 [0x00#8, 0x00#8]) s with
      | .next t => some ((t.bay 0).state, (t.bay 0).notices, (t.bay 0).units.map (·.decision), t.plans.counters[0])
      | _ => none) = some (.done, 0, [some .noRule], 0) := by
  decide +kernel

/-- R137: once a notice has dropped the waiting refetch pass of unit 5, the refetch pass of unit 3 stands right after the
pass in flight. -/
theorem test_refetch_after_notice :
    let current := { pass .checking [3, 4] [4] with refetched := 1 }
    let y := { inState .transferring with
      notices := 1, units := [member 3 .checking, member 4 .receiving, member 5 .pending]
      passes := [current, { pass .waiting [5] [] with group := 0 }, pass .ended [6] []] }
    (match exec (.activationNotice 0) (withImages [image] (at0 (awaiting (asked (.check 3) .pass) y))) with
      | .next t => match exec (heard 3 0x22#8 (toBytes 4 0x5E0A17C4)) t with
        | .next u => (u.bay 0).passes.map fun q => (q.phase, q.members)
        | _ => []
      | _ => []) = [(.checking, [4]), (.waiting, [3]), (.ended, [6])] := by
  decide +kernel

/-- R131: a CHECK answered NOT-READY under a hold goes on polling; a hold that comes in POLL_WAIT withholds its re-send. -/
theorem test_held_poll :
    let y := flying (pass .checking [3] []) [member 3 .checking]
    let tr := asked (.check 3) .pass
    let waits := fun parked : Bool => { y with engine := { bay.engine with
      state := .pollWait, transaction := some tr, pollHeld := parked } }
    let after := fun (c : Instr) (z : Bay) => match exec c (at0 z) with
      | .next t => ((t.bay 0).engine.state, (t.bay 0).engine.pollHeld)
      | _ => (.idle, false)
    after (heard 3 0x23#8 []) (heldBy1 (awaiting tr y)) = (.pollWait, false) ∧
    after (.pollIntervalEnd 0) (heldBy1 (waits false)) = (.sending, false) ∧
    after (.hold 1 [0x00#8]) (waits false) = (.pollWait, true) ∧
    after (.pollIntervalEnd 0) (heldBy1 (waits true)) = (.pollWait, true) := by
  decide +kernel

/-- The host's reading of the table: no row gives bits, so no word is a command, and a step from reset idles. -/
theorem test_fetch_word : State.reset.withFetchWord 32 0 = State.reset ∧ step State.reset = .next State.reset :=
  ⟨rfl, rfl⟩

/-! ### Witnesses: the machine and the ports -/

theorem witness_StepRunsFrontCommand :
    ({ State.reset with pending := [.verifyReadDone] } : State).pending = .verifyReadDone :: [] ∧
    State.reset.pending = [] := by
  decide +kernel

theorem witness_AnswersTouchOneLink :
    let r : Response := { kind := .refusal, status := .busy, body := .none }
    (State.reset.port 0).sending = none ∧ ((onPort 0 fun t => { t with sending := some r }).port 0).sending ≠ none ∧
    (∃ q ∈ ((onPort 0 fun t => { t with waiting := [r] }).port 0).waiting, q.kind = .refusal) ∧
    ∀ q ∈ (State.reset.port 0).waiting, q.kind ≠ .refusal := by
  decide +kernel

theorem witness_RequestChecks :
    let discarding := onPort 1 fun t => { t with framer := .discard }
    let busy := onPort 1 fun t => { t with inProgress := true }
    (Instr.planClear 1 []).request = some (1, 0x20#8, []) ∧ (Instr.planClear 1 []).wellFormed = true ∧
    (discarding.port 1).hears = false ∧ (busy.port 1).hears = true ∧ (busy.port 1).inProgress = true ∧
    (State.reset.port 1).hears = true ∧ (State.reset.port 1).inProgress = false ∧
    (State.reset.port 1).role ∉ (Instr.planClear 1 []).permitted ∧
    Accepts State.reset 0 (Instr.planClear 0 [0x00#8]).permitted ∧ (Instr.planClear 0 [0x00#8]).argsFit = false ∧
    (Instr.jobQuery 1 [0x07#8, 0x10#8]).isQuery = true ∧
    Accepts State.reset 1 (Instr.jobQuery 1 [0x07#8, 0x10#8]).permitted ∧
    (Instr.jobQuery 1 [0x07#8, 0x10#8]).argsFit = true := by
  decide +kernel

theorem witness_NopAnswers :
    (State.reset.port 2).hears = true ∧ (State.reset.port 2).inProgress = false ∧ [0x00#8] ≠ ([] : List Byte) ∧
    ((onPort 2 fun t => { t with sending := some { kind := .answer, status := .ok, body := .none } }).port 2).sending =
      some { kind := .answer, status := .ok, body := .none } := by
  decide +kernel

theorem witness_TimeAndEventsRequests :
    Accepts State.reset 0 namedRoles ∧ Accepts State.reset 1 namedRoles ∧ Accepts State.reset 2 namedRoles ∧
    parseKinds [0x7F#8, 0xFF#8] = some 0x7FFF#16 ∧ parseKinds [0x00#8, 0x00#8] = some 0#16 := by
  decide +kernel

theorem witness_PostingCounts :
    ((onPort 0 fun t => { t with inReset := true }).port 0).inReset = true ∧ (State.reset.port 0).inReset = false ∧
    EventKind.bayAttached.number = 0 ∧ EventKind.busEvicted.number = 14 := by
  decide +kernel

theorem witness_ResponsesAndRefusals :
    let answering := fun k => onPort 2 fun t => { t with sending := some { kind := k, status := .ok, body := .none } }
    (State.reset.port 2).sending = none ∧ Accepts State.reset 2 [.service] ∧
    ((answering .answer).port 2).sending = some { kind := .answer, status := .ok, body := .none } ∧
    ((answering .refusal).port 2).sending = some { kind := .refusal, status := .ok, body := .none } ∧
    ((answering .resetAnswer).port 2).sending = some { kind := .resetAnswer, status := .ok, body := .none } ∧
    Accepts (answering .refusal) 2 [.service] ∧ ((answering .refusal).port 2).sending ≠ none ∧
    (State.reset.port 0).hears = true ∧ crc16 (frameInner 0x01#8 []) ≠ 0xFBAD#16 ∧ 1100 < (1101#16).toNat ∧
    ((onPort 0 fun t => { t with inProgress := true }).port 0).inProgress = true ∧
    (State.reset.port 0).inProgress = false ∧ 0x05#8 ∉ requestCodes ∧ 0x51#8 ∉ requestCodes ∧
    ((onPort 0 fun t => { t with framer := .discard }).port 0).framer = .discard := by
  decide +kernel

theorem witness_PortResetClears :
    let due := onPort 2 fun t =>
      { t with inProgress := true, sending := some { kind := .resetAnswer, status := .ok, body := .none } }
    let e := { image with state := .loading, uploadPort := some 0 }
    let t := granting (.portWrite 0 [0xAB#8, 0x00#8]) (uploading 598)
    let streams := heldBy1 (flying { pass .streaming [3] [] with streamAddr := some 3 } [member 3 .receiving])
    let both := { streams with holds := { streams.holds with rule := true } }
    (∀ s ∈ [State.reset, due], ∀ p chunk, s.store.granted ≠ some (.portWrite p chunk)) ∧
    (∀ e ∈ [(streams, streams.passes.headD (pass .opening [] []))], InFlight e.1 [] e.2 []) ∧
    (∀ y ∈ [streams, heldBy1 (inState .done)], y.holds.put 1 false ≠ y.holds ∧
      y.holds.put 1 false = { sp0 := false, sp1 := false, sp2 := false, rule := false }) ∧
    both.holds.put 1 false ≠ { sp0 := false, sp1 := false, sp2 := false, rule := false } ∧
    (∀ q ∈ (inState .done).passes, q.inFlight = false) ∧ (inState .done).holds.put 1 false = (inState .done).holds ∧
    (State.reset.port 0).inReset = false ∧ (State.reset.port 0).resetDue = false ∧ (due.port 2).inReset = false ∧
    (due.port 2).resetDue = true ∧ t.store.granted = some (.portWrite 0 [0xAB#8, 0x00#8]) ∧
    (t.port 0).upload = some { image := 301, cursor := 598 } ∧ t.store.find 301 = some e ∧
    (t.store.writeBytes e 598 [0xAB#8, 0x00#8]).isSome = true ∧ (t.port 0).inReset = false ∧
    ((onPort 0 fun t => { t with inReset := true }).port 0).inReset = true := by
  refine ⟨fun s h p chunk => ?_, inFlight_of (by decide +kernel), by decide +kernel⟩
  rcases List.mem_pair.mp h with rfl | rfl <;> exact nofun

theorem witness_ControllerResetLeaves :
    let s : State := { at0 { bay with state := .disabled } with fleet := [busAt 4127 (some 1), busAt 65535 none] }
    let due := onPort 2 fun t =>
      { t with inProgress := true, sending := some { kind := .resetAnswer, status := .ok, body := .none } }
    let waits := onPort 0 fun t => { t with inProgress := true, write := some [0x00#8] }
    let refuses := waits.modPort 0 fun t =>
      { t with sending := some { kind := .refusal, status := .busy, body := .code 0x11#8 } }
    let t := granting (.portWrite 0 [0xAB#8, 0x00#8]) (uploading 598)
    (∀ u ∈ [s, due, waits, refuses, breakingAt0], FleetOk u) ∧ SplitsGroup breaking 1 ∧ BayOk breaking ∧
    (∀ u ∈ [s, due, waits, refuses, breakingAt0], u.writer = none) ∧ breaking.state ∉ [BayState.disabled, .cutoff] ∧
    breakingAt0.fleet[0]? = some (busAt 4127 (some 0)) ∧ breaking.engine.state = .awaiting ∧
    breaking.engine.transaction = some (asked (.identify 4) .confirm) ∧ s.fleet[1]? = some (busAt 65535 none) ∧
    (s.bay 0).state = .disabled ∧ (s.bay 1).state ≠ .disabled ∧ (∀ b : BayId, (s.bay b).switching = none) ∧
    (due.port 2).sendsReset = true ∧ (waits.port 0).write ≠ none ∧ (waits.port 0).sending = none ∧
    (refuses.port 0).write ≠ none ∧ (refuses.port 0).sending ≠ none ∧
    t.store.granted = some (.portWrite 0 [0xAB#8, 0x00#8]) ∧ (t.port 0).upload = some { image := 301, cursor := 598 } ∧
    (t.store.find 301).bind (fun e => t.store.writeBytes e 598 [0xAB#8, 0x00#8]) ≠ none :=
  ⟨fleetOk_of (by decide +kernel), breaking_splits, breaking_ok, by decide +kernel⟩

/-! ### Witnesses: the image store -/

/-- IMG_BEGIN of image `id` with a length. -/
def begin (id length : Nat) : BeginArgs :=
  { id := id, version := ⟨255, 255, 65535⟩, cls := 31, length := length, crc := 0#32, pinned := true }

theorem witness_ImgBeginReserves :
    let one := { State.reset with store := { State.reset.store with segmentCount := 1 } }
    let full := withImages ((List.range 32).map fun i => { image with id := i + 1, segments := [i] }) State.reset
    (∀ u ∈ [State.reset, uploading 0, full, one], StoreOk u.store) ∧
    Accepts State.reset 0 [.image] ∧ parseBegin (begin 1 1).body = some (begin 1 1) ∧
    parseBegin (begin 65535 16777216).body = some (begin 65535 16777216) ∧
    Accepts (uploading 0) 0 [.image] ∧ ((uploading 0).port 0).upload ≠ none ∧
    (State.reset.port 0).upload = none ∧ (withImages [image] State.reset).store.find 301 ≠ none ∧
    full.store.find 33 = none ∧ (∀ i : Fin 32, full.store.catalogue[i] ≠ none) ∧
    one.store.find 1 = none ∧ one.store.catalogue[(0 : Fin 32)] = none ∧
    one.store.freeCount < (65537 + 65535) / 65536 ∧ (65536 + 65535) / 65536 ≤ one.store.freeCount :=
  ⟨storeOk_of (by decide +kernel), by decide +kernel⟩

theorem witness_UploadRequests :
    let e := { image with state := .loading, uploadPort := some 0 }
    (∀ u ∈ [uploading 600], StoreOk u.store) ∧
    Accepts State.reset 0 [.image] ∧ (State.reset.port 0).upload = none ∧ Accepts (uploading 599) 0 [.image] ∧
    ((uploading 599).port 0).upload = some { image := 301, cursor := 599 } ∧
    (uploading 599).store.find 301 = some e ∧ 599 + [0x00#8].length ≤ e.length ∧
    ((uploading 600).port 0).upload = some { image := 301, cursor := 600 } ∧
    (uploading 600).store.find 301 = some e ∧ e.length < 600 + [0x00#8].length ∧
    599 < e.length ∧ e.length ≤ 600 :=
  ⟨storeOk_of (by decide +kernel), by decide +kernel⟩

theorem witness_UploadWriteAdvances :
    let t := granting (.portWrite 0 [0xAB#8, 0x00#8]) (uploading 598)
    (∀ u ∈ [t], StoreOk u.store) ∧ Memory.wf t.store.mem = true ∧
    t.store.granted = some (.portWrite 0 [0xAB#8, 0x00#8]) ∧ (t.port 0).upload = some { image := 301, cursor := 598 } ∧
    t.store.find 301 = some { image with state := .loading, uploadPort := some 0 } ∧ 598 + 2 ≤ image.length :=
  ⟨storeOk_of (by decide +kernel), by decide +kernel⟩

theorem witness_ImgRetireAndPurge :
    let has := fun e : Entry => withImages [e] State.reset
    let claimed := (has image).setBay 0 { bay with units := [member 3 .verified] }
    let planned : State := { has image with plans := { PlanStore.powerOn with
      active := Vector.ofFn fun i => (plan12[i.val]?).join } }
    (∃ (i : Fin 64) (r : Rule), planned.plans.active[i] = some r ∧ r.action ≠ .census ∧ r.image = some 301) ∧
    (∀ (i : Fin 64) (r : Rule), (has image).plans.active[i] = some r → r.image = some 301 → r.action = .census) ∧
    Accepts (has image) 0 [.image, .service] ∧ parseImageId [0x01#8, 0x2D#8] = some 301 ∧
    State.reset.store.find 301 = none ∧ (has image).store.find 301 = some image ∧ image.state = .ready ∧
    (has { image with state := .verifying }).store.find 301 = some { image with state := .verifying } ∧
    claimed.store.find 301 = some image ∧ claimed.useCount 301 = 1 ∧ (has image).useCount 301 = 0 ∧
    (has { image with pinned := true }).store.find 301 = some { image with pinned := true } := by
  refine ⟨⟨0, _, rfl, by decide, rfl⟩, fun i r h => ?_, by decide +kernel⟩
  have e : ∀ j : Fin 64, (withImages [image] State.reset).plans.active[j] = none := by decide +kernel
  cases (e i).symm.trans h

theorem witness_ImgPinAndQuery :
    let s := withImages [image] State.reset
    (∀ u ∈ [s], StoreOk u.store) ∧ Accepts s 0 [.image, .service] ∧ Accepts s 1 namedRoles ∧
    parsePin [0x01#8, 0x2D#8, 0x01#8] = some (301, true) ∧ s.store.find 301 ≠ none ∧ s.store.find 302 = none ∧
    parsePin [0x01#8, 0x2E#8, 0x00#8] = some (302, false) ∧
    parseImageQuery [0x01#8, 0x00#8, 0x1F#8] = some (.byPosition 31) ∧ s.store.catalogue[(31 : Fin 32)] = none ∧
    parseImageQuery [0x01#8, 0x00#8, 0x00#8] = some (.byPosition 0) ∧ s.store.catalogue[(0 : Fin 32)] = some image ∧
    parseImageQuery [0x00#8, 0x01#8, 0x2D#8] = some (.byId image.id) ∧
    parseImageQuery [0x00#8, 0x01#8, 0x2E#8] = some (.byId 302) ∧ image.state ≠ .loading ∧
    ((uploading 5).port 0).upload = some { image := 301, cursor := 5 } :=
  ⟨storeOk_of (by decide +kernel), by decide +kernel⟩

theorem witness_VerifyReadCompletes :
    let e := { image with length := 1025, state := .verifying }
    let s := withImages [e] State.reset
    let at' := fun (offset : Nat) (live : Bool) => ({ s with store := { s.store with
      granted := some (.verifyRead live), verifier := { queue := [301], offset := offset, crc := 0xFFFFFFFF#32 } } } : State)
    (∀ u ∈ [at' 0 true, at' 1024 true], StoreOk u.store) ∧
    (at' 0 false).store.granted = some (.verifyRead false) ∧ (at' 0 true).store.granted = some (.verifyRead true) ∧
    (at' 0 true).store.verifier.queue = 301 :: [] ∧ (at' 0 true).store.find 301 = some e ∧
    0 + min 1024 (e.length - 0) < e.length ∧ 1024 + min 1024 (e.length - 1024) = e.length :=
  ⟨storeOk_of (by decide +kernel), by decide +kernel⟩

theorem witness_ArbiterGrantsNext :
    let s := at0 { bay with reader := { waiting := some { image := 301, block := 2 }, buffer := none } }
    let t : State := { s with store := { s.store with searchFrom := 1 } }
    t.store.granted = none ∧ t.accessAt ((t.store.searchFrom + 11) % 12) = some (.bayRead 0 301 2 true) ∧
    (∀ j < 11, t.accessAt ((t.store.searchFrom + j) % 12) = none) ∧ (∀ i < 12, State.reset.accessAt i = none) ∧
    ({ s with store := { s.store with granted := some (.verifyRead true) } } : State).store.granted ≠ none := by
  decide +kernel

/-! ### Witnesses: plans and the fleet table -/

theorem witness_PlanClearEmpties : Accepts State.reset 0 [.image] := by
  decide +kernel

theorem witness_PlanPutAndQuery :
    Accepts State.reset 0 [.image] ∧ Accepts State.reset 1 namedRoles ∧
    parsePutRule [0x3F#8, 0x00#8] = some (63, none) ∧
    parsePutRule (putRuleBody 0 (some (rule .flashHold 31 0xFFFF#16 0xFFFF#16 (some 65535) 7 none))) =
      some (0, some (rule .flashHold 31 0xFFFF#16 0xFFFF#16 (some 65535) 7 none)) ∧
    parsePlanQuery [0x00#8, 0x3F#8] = some (false, 63) ∧ parsePlanQuery [0x01#8, 0x00#8] = some (true, 0) := by
  decide +kernel

/-- A state with one FLASH rule for image 301 in standby slot 63. -/
def standbyRule (cls : Nat) (s : State) : State :=
  { s with plans := { s.plans with
    standby := Vector.ofFn fun i => if i.val = 63 then some (rule .flash cls 0#16 0#16 (some 301) 0 none) else none } }

theorem witness_PlanActivateChecks :
    let at' := fun g s => ({ s with plans := { s.plans with generation := g } } : State)
    let imageOk := fun (s : State) (i : Fin 64) (test : Entry → Rule → Prop) => ∀ r : Rule,
      s.plans.standby[i] = some r → r.action ≠ .census →
      ∃ (id : Nat) (e : Entry), r.image = some id ∧ s.store.find id = some e ∧ test e r
    let s := fun cls => withImages [image] (standbyRule cls State.reset)
    Accepts (s 3) 0 [.image] ∧ 4294967295 ≤ (at' 4294967295 (s 3)).plans.generation ∧
    (at' 4294967294 (s 3)).plans.generation < 4294967295 ∧
    (¬imageOk (standbyRule 3 State.reset) 63 fun e _ => e.state = .ready) ∧
    (∀ j : Fin 64, j < 63 → imageOk (standbyRule 3 State.reset) j fun e _ => e.state = .ready) ∧
    (∀ i : Fin 64, imageOk (s 3) i fun e _ => e.state = .ready) ∧
    (¬imageOk (s 4) 63 fun e r => e.cls = r.cls) ∧ ∀ i : Fin 64, imageOk (s 3) i fun e r => e.cls = r.cls := by
  have empty : ∀ (cls : Nat) (u : State) (i : Fin 64), i ≠ 63 → (standbyRule cls u).plans.standby[i] = none := by
    intro cls u i h
    have : i.val ≠ 63 := fun k => h (Fin.ext k)
    simp [standbyRule, this]
  have last : ∀ (cls : Nat) (u : State), (standbyRule cls u).plans.standby[(63 : Fin 64)] =
      some (rule .flash cls 0#16 0#16 (some 301) 0 none) := fun cls u => by simp [standbyRule]
  have found : (withImages [image] State.reset).store.find 301 = some image := by decide +kernel
  have missing : State.reset.store.find 301 = none := by decide +kernel
  refine ⟨by decide +kernel, by decide, by decide, fun h => ?_, fun j hj r hr => ?_, fun i r hr _ => ?_, fun h => ?_,
    fun i r hr _ => ?_⟩
  · obtain ⟨id, e, h1, h2, _⟩ := h _ (last 3 _) (by decide)
    cases h1
    exact absurd (h2.symm.trans missing) (by simp)
  · rw [empty _ _ _ (by rintro rfl; exact absurd hj (by decide))] at hr
    cases hr
  · by_cases k : i = 63
    · subst k
      cases (last 3 State.reset).symm.trans hr
      exact ⟨301, image, rfl, found, rfl⟩
    · cases (empty 3 State.reset i k).symm.trans hr
  · obtain ⟨id, e, h1, h2, h3⟩ := h _ (last 4 State.reset) (by decide)
    cases h1
    cases h2.symm.trans found
    exact absurd h3 (by decide)
  · by_cases k : i = 63
    · subst k
      cases (last 3 State.reset).symm.trans hr
      exact ⟨301, image, rfl, found, rfl⟩
    · cases (empty 3 State.reset i k).symm.trans hr

theorem witness_RuleMatches :
    let inside := { rule .flash 3 0x0300#16 0xFF00#16 (some 301) 1 none with serialKind := .inside, low := 5, high := 9 }
    let outside := { inside with serialKind := .outside }
    inside.matchesUnit { validator with serial := 9 } = true ∧
    inside.matchesUnit { validator with serial := 10 } = false ∧
    outside.matchesUnit { validator with serial := 10 } = true ∧ inside.low = outside.low ∧ inside.high = outside.high ∧
    firstMatch validator 0 plan12 = some (0, rule .flash 3 0x0300#16 0xFF00#16 (some 301) 1
      (some { cls := 2, minimum := ⟨5, 2, 0⟩ })) := by
  decide +kernel

theorem witness_DecisionsOfAPlan :
    let r := rule .flash 3 0#16 0#16 (some 301) 0 none
    let x := JobUnit.create 3 validator
    let knows := fun (v : Version) (st : StandbyState) => { x with
      decision := some .flash, planned := some { image := 301, version := ⟨3, 3, 0⟩ }
      knownStandby := { image := 301, version := v, state := st } }
    firstMatch x.identity 0 [none] = none ∧ firstMatch x.identity 0 [none, some r] = some (1, r) ∧
    r.action ≠ .census ∧ r.image = some 301 ∧ images12 301 ≠ none ∧
    firstMatch x.identity 0 [some { r with action := .census }] = some (0, { r with action := .census }) ∧
    (∀ st ∈ [StandbyState.blank, .partlyReceived, .complete, .verified],
      (knows ⟨3, 3, 0⟩ st).decision = some .flash ∧
      (knows ⟨3, 3, 0⟩ st).planned = some { image := 301, version := ⟨3, 3, 0⟩ }) ∧
    (knows ⟨3, 2, 9⟩ .complete).knownStandby.version ≠ ⟨3, 3, 0⟩ ∧ x.decision ≠ some .flash ∧
    image.version = ⟨3, 3, 0⟩ ∧ image.version ≠ ⟨3, 3, 1⟩ ∧ r.allowDowngrade = false ∧
    imageDecision r image ⟨3, 3, 1⟩ 1 = .downgradeBlocked ∧ 0 < (image.length + 65535) / 65536 ∧
    (image.length + 65535) / 65536 ≤ 1 ∧ (bus4127 16).length ≤ 16 := by
  decide +kernel

theorem witness_FleetRequestsAndBinding :
    let s : State := { State.reset with fleet := [busAt 1 (some 0), busAt 65535 none] }
    let full : State := { State.reset with fleet := (List.range 256).map fun i => busAt (i + 1) none }
    (∀ u ∈ [s, full], FleetOk u) ∧ full.fleet.length = 256 ∧ s.fleet.length < 256 ∧ Accepts s 1 namedRoles ∧
    Accepts s 2 [.service] ∧ parseFleet [0x00#8, 0x01#8] = some 1 ∧ parseFleet [0xFF#8, 0xFF#8] = some 65535 ∧
    (∀ r ∈ s.fleet, r.fleet ≠ 2) ∧ (∀ r ∈ full.fleet, r.fleet ≠ 257) ∧ busAt 1 (some 0) ∈ s.fleet ∧
    busAt 65535 none ∈ s.fleet ∧ (busAt 1 (some 0)).atBay ≠ some 1 :=
  ⟨fleetOk_of (by decide +kernel), by decide +kernel⟩

/-! ### Witnesses: requests to a bay -/

theorem inState_ok (st : BayState) : BayOk (inState st) := by
  cases st <;> exact bayOk_of (by decide) (by decide)

/-- A bay in a state under a departure, with its cutoff time. -/
def leaving (st : BayState) (mode : DeadlineMode) (d : Time) : Bay :=
  { inState st with
    departure := some d, cutoffTime := some (cutoffFor d 300000), config := { BayConfig.default with mode := mode } }

theorem leaving_ok (st : BayState) (mode : DeadlineMode) (d : Time) : BayOk (leaving st mode d) :=
  bayOk_of (inState_ok st).flag (.inr ⟨rfl, rfl, rfl, rfl⟩)

theorem witness_BayReports :
    let s : State := { at0 { bay with
      state := .transferring, units := [member 3 .receiving, member 16 .verified], passes := [pass .streaming [3] []] }
      with fleet := [busAt 4127 (some 0)] }
    (∀ u ∈ [s], FleetOk u) ∧ Accepts s 1 namedRoles ∧ parseBay [0x00#8] = some 0 ∧ parseBay [0x07#8] = some 7 ∧
    parseJobQuery [0x00#8, 0x01#8] = some (0, 1) ∧ parseJobQuery [0x00#8, 0x10#8] = some (0, 16) ∧
    (∀ u ∈ (s.bay 0).units, u.addr ≠ 1) ∧ member 16 .verified ∈ (s.bay 0).units ∧
    ((s.bay 0).units.map (·.addr)).Nodup ∧ (∃ r ∈ s.fleet, r.atBay = some 0) ∧
    (∀ r ∈ s.fleet, r.atBay ≠ some 7) ∧ (s.bay 7).passes = [] :=
  ⟨fleetOk_of (by decide +kernel), by decide +kernel⟩

theorem witness_StopReasonRanks :
    let noTime := { inState .done with units := [member 3 .deferredNoTime] }
    Accepts State.reset 1 namedRoles ∧ parseBay [0x00#8] = some 0 ∧
    ((at0 (inState .disabled)).bay 0).state = .disabled ∧ ((at0 (inState .cutoff)).bay 0).state ≠ .disabled ∧
    ((at0 (inState .cutoff)).bay 0).cutoff = some .departNow ∧ ((at0 (heldBy1 noTime)).bay 0).cutoff = none ∧
    ((at0 (heldBy1 noTime)).bay 0).holds ≠ { sp0 := false, sp1 := false, sp2 := false, rule := false } ∧
    ((at0 noTime).bay 0).holds = { sp0 := false, sp1 := false, sp2 := false, rule := false } ∧
    ((at0 noTime).bay 0).state = .done ∧
    (∃ u ∈ ((at0 noTime).bay 0).units, u.progress = some .deferredNoTime) ∧
    (State.reset.bay 0).state ≠ .done := by
  decide +kernel

theorem witness_BayConfigStores :
    let c := fun mode => { BayConfig.default with guardTime := 3600000, filterLength := 15, mode := mode }
    (∀ st, BayOk (inState st)) ∧ (∀ st mode d, BayOk (leaving st mode d)) ∧
    DepartureOk (leaving .done .stop 3600000) ∧
    Accepts State.reset 2 [.service] ∧ parseConfig (configBody 7 (c .stop)) = some (7, c .stop) ∧
    parseConfig (configBody 0 (c .warn)) = some (0, c .warn) ∧
    (∀ st ∈ [BayState.disabled, .enumerating, .planning, .transferring, .switching],
      ((at0 (inState st)).bay 0).state = st) ∧
    (∀ st ∈ [BayState.empty, .anonymous, .duplicate, .done, .cutoff],
      ((at0 (leaving st .warn 3600000)).bay 0).state = st) ∧
    ({ leaving .done .stop 3600001 with cutoffTime := some 1 } : Bay).deadlineCondition 0 = false ∧
    ({ leaving .done .stop 3600000 with cutoffTime := some 0 } : Bay).deadlineCondition 0 = true ∧
    (leaving .done .stop 3600000).warned = false :=
  ⟨inState_ok, leaving_ok, rfl, by decide +kernel⟩

theorem witness_BayEnableAndReset :
    (∀ st, BayOk (inState st)) ∧ Accepts State.reset 2 [.service] ∧ parseBayWith 0 [0x07#8, 0x00#8] = some 7 ∧
    parseBayWith 1 [0x00#8, 0x01#8] = some 0 ∧ parseBay [0x07#8] = some 7 ∧
    ((at0 (inState .disabled)).bay 0).state = .disabled ∧ BayOk breaking ∧ SplitsGroup breaking 1 ∧
    (breakingAt0.bay 0).state ≠ .disabled ∧ breakingAt0.bound 0 = some (busAt 4127 (some 0)) :=
  ⟨inState_ok, by decide +kernel, by decide +kernel, by decide +kernel, by decide +kernel, by decide +kernel, breaking_ok,
    breaking_splits, by decide +kernel⟩

theorem witness_Departures :
    (∀ st, BayOk (inState st)) ∧ (∀ st mode d, BayOk (leaving st mode d)) ∧
    Accepts State.reset 1 [.dispatch, .service] ∧ Accepts State.reset 2 [.dispatch, .service] ∧
    parseDepartSet (departSetBody 7 18446744073709551614) = some (7, 18446744073709551614) ∧
    parseDepartSet (departSetBody 0 0) = some (0, 0) ∧ parseBay [0x00#8] = some 0 ∧
    (∀ st ∈ [BayState.disabled, .empty, .anonymous, .transferring, .switching, .done, .cutoff],
      ((at0 (inState st)).bay 0).state = st ∧ (inState st).departure = none ∧ (leaving st .stop 5).departure ≠ none) ∧
    State.reset.yardTime < 300001 - (inState .done).config.guardTime ∧
    300000 - (inState .done).config.guardTime ≤ State.reset.yardTime ∧ (inState .done).config.mode = .stop ∧
    (inState .done).switching = none ∧ (leaving .done .warn 0).config.mode = .warn ∧
    (leaving .done .warn 0).departure = some 0 ∧ (leaving .done .warn 0).warned = false ∧
    ({ leaving .done .warn 0 with warned := true } : Bay).warned = true :=
  ⟨inState_ok, leaving_ok, by decide +kernel⟩

theorem witness_DepartNowCuts :
    let busy := { inState .transferring with
      passes := [pass .streaming [3] []], units := [member 3 .receiving, member 4 .switched] }
    (∀ st, BayOk (inState st)) ∧ BayOk busy ∧ Accepts State.reset 1 [.dispatch, .service] ∧
    parseBay [0x00#8] = some 0 ∧
    busy.state ∈ [BayState.enumerating, .planning, .anonymous, .duplicate, .transferring, .done] ∧
    ({ at0 busy with fleet := [busAt 4127 (some 0)] } : State).bound 0 = some (busAt 4127 (some 0)) :=
  ⟨inState_ok, bayOk_of (by decide) (by decide), by decide +kernel⟩

theorem witness_HoldAndUnhold :
    let s := at0 (heldBy1 (inState .planning))
    let t := at0 { heldBy1 (inState .planning) with holds := { sp0 := false, sp1 := true, sp2 := false, rule := true } }
    let ready := fun p : Pass => { p with phaseComplete := true }
    let repairs := fun toSend => { pass .repairing [3] [] with repairMember := some 3, toSend := toSend }
    let tr := asked (.check 3) .pass
    let polls := fun ended : Bool => { flying (pass .checking [3] []) [] with
      engine := { bay.engine with state := .pollWait, transaction := some tr, pollEnded := ended, pollHeld := true } }
    let free := [pass .opening [3] [3], { pass .streaming [3] [] with streamAddr := some 3 }, pass .repairing [3] [3],
      repairs [], repairs [{ first := 0, count := 1 }], pass .checking [3] [3], ready (pass .opening [3] []),
      ready (pass .streaming [3] []), ready (pass .repairing [3] [])]
    let bays := free.map (flying · [member 3 .receiving]) ++ [sending tr (flying (pass .checking [3] []) []),
      awaiting tr (flying (pass .checking [3] []) []), polls false, polls true,
      { flying (pass .checking [3] []) [] with engine := { bay.engine with offered := some (.check 3, .pass) } }]
    (∀ e ∈ bays.map fun y => (heldBy1 y, y.passes.headD (pass .opening [] [])), InFlight e.1 [] e.2 []) ∧
    (∀ y ∈ bays, HoldSet.none = (heldBy1 y).holds.put 1 false ∧ (heldBy1 y).holds ≠ HoldSet.none) ∧
    Accepts s 1 namedRoles ∧ Accepts s 2 [.service] ∧ parseBay [0x00#8] = some 0 ∧
    parseBayWith 0 [0x00#8, 0x00#8] = some 0 ∧ parseBayWith 1 [0x00#8, 0x01#8] = some 0 ∧
    ((at0 (inState .disabled)).bay 0).state = .disabled ∧ (s.bay 0).state ≠ .disabled ∧ (s.bay 0).held = true ∧
    (polls false).state ≠ .disabled ∧ (polls false).held = false ∧ (polls false).engine.state = .pollWait ∧
    HoldSet.none ≠ (s.bay 0).holds ∧ HoldSet.none = (s.bay 0).holds.put 1 false ∧
    (t.bay 0).holds.put 1 false ≠ (t.bay 0).holds ∧ (t.bay 0).holds.put 1 false ≠ HoldSet.none ∧
    ({ (t.bay 0).holds with rule := false } : HoldSet) ≠ (t.bay 0).holds ∧
    (State.reset.bay 0).holds = (State.reset.bay 0).holds.put 1 false ∧ (s.bay 0).holds.rule = false ∧
    (∀ q ∈ (s.bay 0).passes, q.inFlight = false) ∧ (s.bay 0).state ∉ [BayState.transferring, .done] :=
  ⟨inFlight_of (by decide +kernel), by decide +kernel⟩

theorem witness_CutoffClearRestarts :
    let present := fun y : Bay => { y with presentFilter := { y.presentFilter with value := true } }
    let ignited := { present (inState .cutoff) with
      cutoff := some .ignition, ignitionFilter := { value := true, run := 0, accepted := false } }
    let drains := fun st : EngineState => { present (inState .cutoff) with engine := { bay.engine with
      state := st, transaction := some { asked (.check 3) .pass with drained := true } } }
    (∀ st, BayOk (inState st)) ∧ (∀ st mode d, BayOk (leaving st mode d)) ∧ BayOk ignited ∧ (∀ st, BayOk (drains st)) ∧
    Accepts State.reset 1 [.dispatch, .service] ∧ parseBay [0x00#8] = some 0 ∧ (inState .cutoff).lineBusy = false ∧
    (drains .awaiting).lineBusy = true ∧ (drains .pollWait).lineBusy = false ∧ (drains .pollWait).engine.state ≠ .idle ∧
    ignited.config.ignitionCutoff = true ∧ (present (inState .cutoff)).presentFilter.value = true ∧
    (inState .cutoff).cutoff ≠ some .ignition ∧ (inState .cutoff).engine.state = .idle ∧
    (leaving .cutoff .stop 300000).deadlineCondition 0 = true ∧ (leaving .cutoff .stop 300000).config.mode = .stop ∧
    (leaving .cutoff .stop 300001).deadlineCondition 0 = false ∧ (leaving .cutoff .warn 300000).config.mode = .warn ∧
    (leaving .cutoff .warn 300000).deadlineCondition 0 = true ∧ (leaving .cutoff .warn 300000).warned = false := by
  refine ⟨inState_ok, leaving_ok, bayOk_of (by decide) (by decide),
    fun st => ⟨iff_of_true rfl rfl, fun _ => ⟨rfl, rfl, rfl, fun _ tr h => ?_⟩⟩, by decide +kernel⟩
  cases h
  rfl

/-! ### Witnesses: the clock and the sense lines -/

theorem witness_TickAdvances :
    let streams := { inState .transferring with passes := [pass .streaming [3] []] }
    State.reset.yardTime < 18446744073709551615 ∧
    18446744073709551615 ≤ ({ State.reset with yardTime := 18446744073709551615 } : State).yardTime ∧
    (inState .disabled).state = .disabled ∧ streams.state ≠ .disabled ∧ (heldBy1 streams).held = true ∧
    (∃ q ∈ (heldBy1 streams).passes, q.inFlight = true) ∧ (heldBy1 streams).engine.state = .idle ∧
    (awaiting (asked (.check 3) .pass) (heldBy1 streams)).engine.state ≠ .idle ∧ streams.held = false := by
  decide +kernel

theorem witness_AttachAndDetach :
    let ignited := { bay with ignitionFilter := { value := true, run := 0, accepted := false } }
    BayOk breaking ∧ SplitsGroup breaking 1 ∧ breaking.state ≠ .empty ∧ breaking.state ≠ .disabled ∧
    breakingAt0.bound 0 = some (busAt 4127 (some 0)) ∧ bay.state = .empty ∧ bay.cutoff = none ∧
    ignited.config.ignitionCutoff = true ∧ ignited.ignitionFilter.value = true ∧
    ¬(bay.ignitionFilter.value = true ∧ bay.config.ignitionCutoff = true) ∧
    bay.engine.state = .idle ∧ bay.engine.offered = none ∧
    (awaiting { asked (.check 3) .pass with drained := true } bay).engine.state ≠ .idle ∧
    (inState .disabled).state = .disabled :=
  ⟨breaking_ok, breaking_splits, by decide +kernel⟩

theorem witness_IgnitionChanges :
    let on := fun y : Bay => { y with ignitionFilter := { value := true, run := 0, accepted := false } }
    let present := fun y : Bay => { y with presentFilter := { value := true, run := 0, accepted := false } }
    SplitsGroup breaking 1 ∧ (present breaking).state ≠ .disabled ∧ (on bay).ignitionFilter.value = true ∧
    breakingAt0.bound 0 = some (busAt 4127 (some 0)) ∧
    (on bay).presentFilter.value = false ∧ (on (present bay)).presentFilter.value = true ∧
    bay.ignitionFilter.value = false ∧ bay.presentFilter.value = false ∧
    (present (inState .cutoff)).cutoff ≠ none ∧ (present breaking).config.ignitionCutoff = true ∧
    (present breaking).cutoff = none ∧ (present breaking).ignitionFilter.value = false ∧
    (present breaking).presentFilter.value = true :=
  ⟨breaking_splits, by decide +kernel⟩

theorem witness_DeadlineReachedActs :
    (∀ st mode d, BayOk (leaving st mode d)) ∧ ¬(leaving .done .stop 300001).cutoffTime = some 0 ∧
    (leaving .done .stop 300000).departure = some 300000 ∧ (leaving .done .stop 300000).cutoffTime = some 0 ∧
    0 ≤ State.reset.yardTime ∧ (leaving .switching .stop 0).state = .switching ∧
    (leaving .cutoff .stop 0).state ∈ [BayState.disabled, .empty, .cutoff] ∧
    (leaving .done .stop 0).state ∈
      [BayState.enumerating, .planning, .anonymous, .duplicate, .transferring, .done] ∧
    (leaving .done .warn 0).config.mode = .warn ∧ (leaving .done .warn 0).warned = false :=
  ⟨leaving_ok, by decide⟩

theorem witness_ActivationNoticeTaken :
    let noticed := fun st => { inState st with notices := 1, units := [JobUnit.create 3 validator] }
    let busy := { noticed .transferring with
      passes := [{ pass .checking [3] [] with refetched := 1 }, pass .waiting [4] []] }
    let partly := { validator with standbyImage := 301, standbyVersion := ⟨3, 3, 0⟩, standbyState := .partlyReceived }
    let plans := fun st (tr : Transaction) => { awaiting tr (noticed .planning) with
      units := [JobUnit.create 3 partly], engine := { bay.engine with state := st, transaction := some tr } }
    let s := fun y => ({ withImages [image] (at0 y) with plans := { PlanStore.powerOn with
      active := Vector.ofFn fun i => if i.val = 0 then some (rule .flash 3 0#16 0#16 (some 301) 0 none) else none } } : State)
    let tr := asked (.gaps 3) .planning
    (∀ y ∈ [plans .awaiting tr, plans .sending tr, plans .sending { tr with started := false }],
      resumeUnits (s y) 0 = [3] ∧ y.state = .planning ∧ 0 < y.notices ∧ y.engine.offered = none) ∧
    (plans .awaiting tr).engine.transaction = some tr ∧ tr.started = true ∧
    bay.notices = 0 ∧ 0 < (noticed .done).notices ∧
    (noticed .cutoff).state ∈ [BayState.disabled, .empty, .enumerating, .anonymous, .duplicate, .cutoff] ∧
    (noticed .switching).state = .switching ∧ busy.state = .transferring ∧ 0 < busy.notices ∧
    (∃ q ∈ busy.passes, q.inFlight = true) ∧ busy.replanPending = false ∧
    ({ busy with replanPending := true } : Bay).replanPending = true ∧ (noticed .planning).state = .planning ∧
    (∀ q ∈ (noticed .transferring).passes, q.inFlight = false) ∧
    (∃ x ∈ (decideUnits plan12 images12 [JobUnit.create 3 partly,
        JobUnit.create 2 { validator with cls := 2, active := ⟨5, 2, 0⟩ }]).map JobUnit.startServing,
      x.decision = some .flash ∧ x.kind = some .resume) ∧
    ∀ x ∈ (decideUnits [] (fun _ => none) [JobUnit.create 3 validator]).map JobUnit.startServing,
      x.decision ≠ some .flash := by
  decide +kernel

/-! ### Witnesses: the bay line -/

theorem witness_FrameSentEnds :
    let sw : Switch := { group := 1, members := [3], todo := [], polls := [], soloSent := [] }
    let tr := { asked (.switch 3) .switch with started := false }
    let y := { sending tr (inState .switching) with switching := some sw, groups := [group [3]] }
    let out := asked (.block 31 0 []) .pass
    let waits := { sending { out with drained := true } (inState .cutoff) with
      engine := { (sending { out with drained := true } (inState .cutoff)).engine with
        offered := some (.identify 1, .sweep) } }
    (inState .done).engine.state ≠ .sending ∧ y.engine.state = .sending ∧ y.engine.transaction = some tr ∧
    tr.request.command ≠ .block ∧ tr.request = .switch 3 ∧ tr.started = false ∧ y.switching = some sw ∧ sw.group ≠ 0 ∧
    ({ sw with group := 0 } : Switch).group = 0 ∧ (asked (.switch 3) .switch).started = true ∧
    out.request.command = .block ∧ { out with drained := true }.drained = true ∧
    (sending { out with drained := true } (inState .cutoff)).engine.offered = none ∧
    waits.engine.offered = some (.identify 1, .sweep) ∧ waits.held = false ∧
    (heldBy1 (flying (pass .repairing [3] []) [])).held = true := by
  decide

theorem witness_BlockSentAdvances :
    let tr := asked (.block 31 1 []) .pass
    let mid := { pass .streaming [3, 4] [] with nextBlock := 1, streamAddr := some 31 }
    let y := fun p => sending tr (flying p [member 3 .receiving])
    let last := { mid with nextBlock := 2, streamed := 63, activeTime := 1 }
    let read := { y mid with reader := { waiting := none, buffer := some (2, List.replicate 256 0x00#8) } }
    let repairs := fun count => { pass .repairing [3, 4] [4] with
      repairMember := some 3, nextBlock := 1, toSend := [{ first := 1, count := count }] }
    let r := fun (count sent : Nat) => sending tr (flying (repairs count)
      [{ member 3 .repairing with repairSent := sent }, member 4 .receiving])
    (∀ e ∈ [(y mid, mid), (y last, last), (r 1 0, repairs 1), (r 2 4, repairs 2), (heldBy1 (r 2 5), repairs 2)],
      InFlight e.1 [] e.2 []) ∧
    (y mid).engine.state = .sending ∧ (y mid).engine.transaction = some tr ∧ tr.request.command = .block ∧
    tr.drained = false ∧ mid.phase = .streaming ∧
    (withImages [image] (at0 (y mid))).store.find mid.image = some image ∧ mid.nextBlock < image.blocks ∧
    mid.nextBlock + 1 < image.blocks ∧ last.nextBlock + 1 = image.blocks ∧ 64 ≤ last.streamed + 1 ∧
    mid.streamed + 1 < 64 ∧ (heldBy1 (y mid)).held = true ∧ read.held = false ∧ mid.streamAddr = some 31 ∧
    read.reader.buffer = some (mid.nextBlock + 1, List.replicate 256 0x00#8) ∧ (y mid).reader.buffer = none ∧
    (r 1 0).engine.offered = none ∧ (repairs 1).phase = .repairing ∧ (repairs 1).repairMember = some 3 ∧
    (r 2 5).unit 3 = some { member 3 .repairing with repairSent := 5 } ∧
    4 + 1 + 1 ≤ 2 * image.blocks ∧ 2 * image.blocks < 5 + 1 + 1 ∧ (heldBy1 (r 2 5)).held = true :=
  ⟨inFlight_of (by decide +kernel), by decide +kernel⟩

theorem witness_AttemptsEnd :
    let tr := { asked (.check 3) .pass with retries := 2, polls := 599 }
    let s := at0 (awaiting tr (flying (pass .checking [3] []) [member 3 .checking]))
    EndsSilent s 0 tr (.replyTimeout 0) ∧ NoReplyIn s 0 tr (replyOf 4 0x23#8 []) ∧
    (State.reset.bay 0).engine.state ≠ .awaiting ∧ Awaits s 0 tr ∧ tr.retries + 1 ≤ (s.bay 0).config.retries ∧
    judgeReply tr.request (s.gapsBound 0 tr.request.addr) (replyOf 3 0x23#8 []) = some .notReady ∧
    tr.polls + 1 ≤ (s.bay 0).config.notReadyLimit ∧
    ((at0 (awaiting { tr with drained := true } (inState .cutoff))).bay 0).engine.transaction =
      some { tr with drained := true } :=
  ⟨.inl rfl, by decide +kernel, by decide +kernel⟩

theorem witness_PollsAndConfirmation :
    let tr := asked (.check 3) .pass
    let polled := fun y : Bay => { y with engine := { y.engine with state := .pollWait, transaction := some tr } }
    let parked := fun y : Bay => { polled y with engine := { (polled y).engine with pollHeld := true } }
    let due : List Poll := [⟨3, 15000, 0⟩, ⟨4, 15000, 0⟩]
    let past : List Poll := [⟨3, 0, 0⟩, ⟨4, 15000, 0⟩]
    (inState .done).engine.state ≠ .pollWait ∧ (polled (inState .transferring)).engine.state = .pollWait ∧
    (polled (inState .transferring)).engine.transaction = some tr ∧ tr.activity = .pass ∧
    (heldBy1 (parked (inState .transferring))).held = true ∧ (parked (inState .transferring)).engine.pollHeld = true ∧
    (heldBy1 (polled (inState .transferring))).held = true ∧ (polled (inState .transferring)).engine.pollHeld = false ∧
    (polled (inState .transferring)).held = false ∧
    (inState .done).switching = none ∧ (∀ q ∈ [Poll.mk 3 15000 1], (0 : Time) < q.due) ∧
    (round due).engine.state = .idle ∧ (round due).engine.offered = none ∧
    (∀ r ∈ due, r ≠ ⟨3, 15000, 0⟩ → (0 : Time) < r.due ∨ ((0 : Time) = r.due ∧ 3 < r.addr)) ∧
    (∀ r ∈ past, r.addr = 3 → r = ⟨3, 0, 0⟩) ∧ (round past).unit 3 = some (member 3 .confirming) ∧
    (0 : Time) < (Poll.mk 3 15000 0).deadline ∧ (Poll.mk 3 0 0).deadline ≤ (0 : Time) ∧
    (∃ r ∈ past, r.addr ≠ 3) ∧ (∀ r ∈ [Poll.mk 3 0 0], r.addr = 3) ∧ (round past).engine.transaction = none ∧
    (awaiting (asked (.identify 3) .confirm) (round past)).engine.transaction = some (asked (.identify 3) .confirm) := by
  decide

theorem witness_BlockReadStartsFrame :
    let granted := fun (k : Nat) (live : Bool) (y : Bay) => granting (.bayRead 0 301 k live) (withImages [image] (at0 y))
    let streams := { pass .streaming [3] [] with streamAddr := some 3, nextBlock := 2 }
    let repairs := { pass .repairing [3] [] with repairMember := some 3, toSend := [{ first := 1, count := 2 }] }
    let lasts := fun rest => { repairs with toSend := { first := 1, count := 1 } :: rest }
    let limited := { member 3 .repairing with repairSent := 5 }
    let held := heldBy1 (sending (asked (.block 3 1 []) .pass) (flying streams [member 3 .receiving]))
    let s := granted 2 true (flying streams [member 3 .receiving])
    let t := granted 1 true (flying repairs [member 3 .repairing])
    (∀ image k live, State.reset.store.granted ≠ some (.bayRead 0 image k live)) ∧
    (∀ u ∈ [s, t, granted 2 true held], StoreOk u.store) ∧
    (∀ e ∈ [(s.bay 0, streams), (t.bay 0, repairs), (held, streams),
        (flying (lasts [{ first := 2, count := 1 }]) [limited], lasts [{ first := 2, count := 1 }]),
        (flying (lasts []) [member 3 .repairing], lasts [])], InFlight e.1 [] e.2 []) ∧
    held.held = true ∧ held.paused = false ∧ held.engine.state ≠ .idle ∧
    (flying (lasts []) [limited]).repairSentTo 3 + 2 = 2 * image.blocks + 1 ∧
    s.store.granted = some (.bayRead 0 301 2 true) ∧ (granted 2 false bay).store.granted = some (.bayRead 0 301 2 false) ∧
    ((granted 2 true (heldBy1 (flying streams []))).bay 0).paused = true ∧ (s.bay 0).paused = false ∧
    s.store.find 301 = some image ∧ streams.image = 301 ∧
    (sending (asked (.block 3 1 []) .pass) (flying streams [])).engine.state ≠ .idle ∧
    (s.bay 0).engine.state = .idle ∧ streams.phase = .streaming ∧ streams.streamAddr = some 3 ∧
    streams.nextBlock = 2 ∧ 2 < image.blocks ∧ ¬2 + 1 < image.blocks ∧ repairs.phase = .repairing ∧
    repairs.toSend = { first := 1, count := 2 } :: [] ∧ (t.bay 0).repairSentTo 3 + 2 ≤ 2 * image.blocks :=
  ⟨nofun, storeOk_of (by decide +kernel), inFlight_of (by decide +kernel), by decide +kernel⟩

/-! ### Witnesses: outcomes of transactions -/

theorem witness_SweepBuildsUnits :
    let s := fun (a : Nat) (units : List JobUnit) (fleet : List BusRecord) =>
      ({ at0 (awaiting (asked (.identify a) .sweep) { inState .enumerating with units := units }) with
        fleet := fleet } : State)
    let silent := { asked (.identify 16) .sweep with retries := 3 }
    let found := [JobUnit.create 1 gateway]
    let old := Slot.ofUnit (JobUnit.create 1 gateway)
    let former := { busAt 4127 none with
      slots := [old, { Slot.ofUnit (JobUnit.create 16 validator) with serial := 5, lastDecision := some .current }]
      splits := [{ group := 1, images := [301], members := [⟨1, ⟨2, 4, 0⟩⟩, ⟨16, ⟨3, 3, 0⟩⟩] }] }
    (∀ e ∈ [(⟨s 1 [] [], asked (.identify 1) .sweep, .reply (.identity gateway),
          heard 1 0x21#8 (identityBody gateway)⟩ : Ending),
        ⟨at0 (awaiting silent { inState .enumerating with units := found }), silent, .noReply, .replyTimeout 0⟩,
        ⟨s 16 found [busAt 4127 (some 1)], asked (.identify 16) .sweep, .reply (.identity validator),
          heard 16 0x21#8 (identityBody validator)⟩,
        ⟨s 16 found [former], asked (.identify 16) .sweep, .reply (.identity validator),
          heard 16 0x21#8 (identityBody validator)⟩], e.Holds) ∧
    (∀ u ∈ [s 16 found [busAt 4127 (some 1)], s 16 found [former]], FleetOk u) ∧
    (found.find? fun x => decide (x.addr = 1)) = some (JobUnit.create 1 gateway) ∧ gateway.cls = 1 ∧
    gateway.fleet ≠ 0 ∧ ((s 1 [] []).bay 0).engine.offered = none ∧
    (∃ r ∈ (s 16 found [busAt 4127 (some 1)]).fleet, r.fleet = 4127 ∧ r.atBay ≠ none ∧ r.atBay ≠ some 0) ∧
    (∀ r ∈ (s 16 found [former]).fleet, r.fleet = 4127 → r.atBay = none ∨ r.atBay = some 0) ∧
    (([] : List JobUnit).find? fun x => decide (x.addr = 1)) = none :=
  ⟨ends_of (by decide +kernel), fleetOk_of (by decide +kernel), by decide +kernel⟩

theorem witness_MemberFaults :
    let y := { inState .transferring with
      units := [member 3 .receiving, member 4 .verified, { member 5 .verified with group := 0 }], groups := [group [3, 4]] }
    ((at0 y).bay 0).unit 3 = some (member 3 .receiving) ∧ y.groupRecord 1 = some (group [3, 4]) ∧
    4 ∈ (group [3, 4]).members ∧ 5 ∉ (group [3, 4]).members := by
  decide +kernel

theorem witness_OpenOutcomes :
    let r := fun resume => LineRequest.openBank 3 301 ⟨3, 3, 0⟩ 600 3 true resume
    let s := fun (tr : Transaction) (p : Pass) (second : JobUnit) =>
      withImages [image] (at0 (awaiting tr { flying p [member 3 .opening, second] with groups := [group [3, 4]] }))
    let tr := asked (r false) .pass
    let resumes := asked (r true) .pass
    let silent := { tr with retries := 3 }
    let slow := { tr with polls := 600 }
    let more := pass .opening [3, 4] [4]
    let last := pass .opening [3, 4] []
    let only := pass .opening [3] []
    let gone := member 4 (.faulted .noReply)
    let started := member 4 .pending
    let hold := fun u : State => u.modBay 0 heldBy1
    let checked := withImages [image] (at0 (awaiting tr (flying only [{ member 3 .opening with kind := some .checkOnly }])))
    let missing := { only with choice := some .fromMissing }
    let resumed := withImages [image] (at0 (awaiting tr (flying missing [{ member 3 .opening with kind := some .resume }])))
    (∀ e ∈ [(⟨s tr more started, tr, .reply .ok, heard 3 0x20#8 []⟩ : Ending),
        ⟨hold (s tr more started), tr, .reply .ok, heard 3 0x20#8 []⟩,
        ⟨s resumes more started, resumes, .reply (.reject .mismatch), heard 3 0x24#8 [0x03#8]⟩,
        ⟨hold (s resumes more started), resumes, .reply (.reject .mismatch), heard 3 0x24#8 [0x03#8]⟩,
        ⟨s tr more started, tr, .reply (.reject .tooLarge), heard 3 0x24#8 [0x01#8]⟩,
        ⟨s silent more started, silent, .noReply, .replyCharacterTimeout 0⟩,
        ⟨hold (s slow more started), slow, .notReadyLimit, heard 3 0x23#8 []⟩,
        ⟨s tr last gone, tr, .reply .ok, heard 3 0x20#8 []⟩, ⟨hold (s tr last gone), tr, .reply .ok, heard 3 0x20#8 []⟩,
        ⟨s silent last gone, silent, .noReply, .replyTimeout 0⟩, ⟨s tr only gone, tr, .reply .ok, heard 3 0x20#8 []⟩,
        ⟨checked, tr, .reply .ok, heard 3 0x20#8 []⟩, ⟨resumed, tr, .reply .ok, heard 3 0x20#8 []⟩], e.Holds) ∧
    (∀ e ∈ [((s tr more started).bay 0, more), ((s tr last gone).bay 0, last), ((hold (s tr last gone)).bay 0, last),
        ((s tr only gone).bay 0, only), (checked.bay 0, only), (resumed.bay 0, missing)], InFlight e.1 [] e.2 []) ∧
    ((s tr more started).bay 0).unit 3 = some (member 3 .opening) ∧ ((s tr more started).bay 0).unit 4 = some started ∧
    (s tr more started).store.find 301 = some image ∧ ((s tr more started).bay 0).engine.offered = none ∧
    ((s tr more started).bay 0).held = false ∧ ((hold (s tr more started)).bay 0).held = true ∧
    ((s tr more started).bay 0).groupRecord 1 = some (group [3, 4]) ∧
    3 ∉ more.todo ∧ more.todo ≠ [] ∧ last.todo = [] ∧ 3 ∈ last.members ∧ only.members = [3] ∧
    missing.choice = some .fromMissing ∧ only.choice ≠ some .fromMissing ∧
    (member 3 .opening).kind ≠ some .checkOnly ∧ (member 3 .opening).isFaulted = false ∧ gone.isFaulted = true ∧
    (member 3 .opening).planned = some { image := 301, version := ⟨3, 3, 0⟩ } :=
  ⟨ends_of (by decide +kernel), inFlight_of (by decide +kernel), by decide +kernel⟩

theorem witness_RepairGapsOutcomes :
    let p := { pass .repairing [3, 4] [4] with repairMember := some 3, firstGaps := true, sampleDue := true }
    let last := { p with todo := [] }
    let s := fun (q : Pass) (tr : Transaction) (sent : Nat) (second : Progress) => withImages [image]
      (at0 (awaiting tr (flying q [{ member 3 .repairing with repairSent := sent }, member 4 second])))
    let hold := fun u : State => u.modBay 0 heldBy1
    let tr := asked (.gaps 3) .pass
    let silent := { tr with retries := 3 }
    let some1 := LineOutcome.reply (.gaps [{ first := 2, count := 1 }] false)
    let none0 := LineOutcome.reply (.gaps [] false)
    let one := heard 3 0x21#8 [0x01#8, 0x00#8, 0x00#8, 0x02#8, 0x00#8, 0x00#8, 0x00#8, 0x01#8]
    let empty := heard 3 0x21#8 [0x00#8, 0x00#8]
    (∀ e ∈ [(⟨s p tr 5 .receiving, tr, some1, one⟩ : Ending), ⟨hold (s p tr 5 .receiving), tr, some1, one⟩,
        ⟨s p tr 6 .receiving, tr, some1, one⟩, ⟨hold (s p tr 6 .receiving), tr, some1, one⟩,
        ⟨s last tr 5 .receiving, tr, some1, one⟩, ⟨s last tr 6 (.faulted .noReply), tr, some1, one⟩,
        ⟨s p tr 0 .receiving, tr, none0, empty⟩, ⟨hold (s p tr 0 .receiving), tr, none0, empty⟩,
        ⟨s last tr 0 .receiving, tr, none0, empty⟩, ⟨hold (s last tr 0 .receiving), tr, none0, empty⟩,
        ⟨s p tr 0 .receiving, tr, .reply (.reject .mismatch), heard 3 0x24#8 [0x03#8]⟩,
        ⟨hold (s p tr 0 .receiving), tr, .reply (.reject .mismatch), heard 3 0x24#8 [0x03#8]⟩,
        ⟨s last silent 0 .receiving, silent, .noReply, .replyTimeout 0⟩,
        ⟨s last silent 0 (.faulted .noReply), silent, .noReply, .replyTimeout 0⟩], e.Holds) ∧
    (∀ e ∈ [((s p tr 5 .receiving).bay 0, p), ((hold (s p tr 6 .receiving)).bay 0, p),
        ((s last tr 0 .receiving).bay 0, last), ((hold (s last tr 0 .receiving)).bay 0, last)], InFlight e.1 [] e.2 []) ∧
    p.phase = .repairing ∧ p.repairMember = some 3 ∧ p.todo ≠ [] ∧ last.todo = [] ∧ 3 ∈ last.members ∧
    ((hold (s p tr 5 .receiving)).bay 0).held = true ∧ ((s p tr 5 .receiving).bay 0).held = false ∧
    ((s p tr 5 .receiving).bay 0).engine.offered = none ∧ ((s p tr 5 .receiving).bay 0).reader.buffer = none ∧
    (s p tr 5 .receiving).readOutstanding 0 = false ∧
    ((s p tr 5 .receiving).bay 0).unit 3 = some { member 3 .repairing with repairSent := 5 } ∧
    (member 3 .repairing).isFaulted = false ∧ 5 + 1 ≤ 2 * (s p tr 5 .receiving).store.blocksOf p.image ∧
    2 * (s p tr 6 .receiving).store.blocksOf p.image < 6 + 1 :=
  ⟨ends_of (by decide +kernel), inFlight_of (by decide +kernel), by decide +kernel⟩

theorem witness_CheckOutcomes :
    let s := fun (todo : List Nat) (tr : Transaction) (refetched : Bool) => withImages [image]
      (at0 { flying (pass .checking [3, 4] todo)
          [{ member 3 .checking with refetchUsed := refetched }, member 4 .receiving] with
        engine := { bay.engine with state := .awaiting, transaction := some tr }, groups := [group [3, 4]] })
    let hold := fun u : State => u.modBay 0 heldBy1
    let mark := fun u : State => u.modBay 0 fun y => { y with groups := [{ group [3, 4] with faulted := true }] }
    let tr := asked (.check 3) .pass
    let silent := { tr with retries := 3 }
    let slow := { tr with polls := 600 }
    let right := heard 3 0x22#8 (toBytes 4 0x5E0A17C3)
    let same := LineOutcome.reply (.digest image.crc)
    let other := LineOutcome.reply (.digest 0x5E0A17C4#32)
    (∀ e ∈ [(⟨s [4] tr false, tr, same, right⟩ : Ending), ⟨mark (s [4] tr false), tr, same, right⟩,
        ⟨s [] tr false, tr, same, right⟩, ⟨mark (s [] tr false), tr, same, right⟩,
        ⟨hold (s [4] tr false), tr, same, right⟩, ⟨hold (s [] tr false), tr, same, right⟩,
        ⟨s [4] tr false, tr, other, heard 3 0x22#8 (toBytes 4 0x5E0A17C4)⟩,
        ⟨s [] tr true, tr, other, heard 3 0x22#8 (toBytes 4 0x5E0A17C4)⟩,
        ⟨s [] tr false, tr, .reply (.reject .notComplete), heard 3 0x24#8 [0x04#8]⟩,
        ⟨s [4] tr true, tr, .reply (.reject .notComplete), heard 3 0x24#8 [0x04#8]⟩,
        ⟨hold (s [4] tr false), tr, .reply (.reject .bankLocked), heard 3 0x24#8 [0x06#8]⟩,
        ⟨s [] silent false, silent, .noReply, .replyTimeout 0⟩,
        ⟨s [4] slow false, slow, .notReadyLimit, heard 3 0x23#8 []⟩], e.Holds) ∧
    (∀ e ∈ [((s [4] tr false).bay 0, pass .checking [3, 4] [4]), ((mark (s [] tr false)).bay 0, pass .checking [3, 4] []),
        ((hold (s [] tr false)).bay 0, pass .checking [3, 4] [])], InFlight e.1 [] e.2 []) ∧
    ((s [4] tr false).bay 0).unit 3 = some (member 3 .checking) ∧ (s [4] tr false).store.find 301 = some image ∧
    ((s [4] tr false).bay 0).engine.offered = none ∧ ((s [] tr false).bay 0).replanPending = false ∧
    ((hold (s [4] tr false)).bay 0).held = true ∧ ((s [4] tr false).bay 0).held = false ∧
    ((s [4] tr false).bay 0).groupRecord 1 = some (group [3, 4]) ∧ (group [3, 4]).faulted = false ∧
    ((mark (s [4] tr false)).bay 0).groupRecord 1 = some { group [3, 4] with faulted := true } ∧
    (member 3 .checking).planned = some { image := 301, version := ⟨3, 3, 0⟩ } :=
  ⟨ends_of (by decide +kernel), inFlight_of (by decide +kernel), by decide +kernel⟩

theorem witness_PlanningGapsTaken :
    let s := fun (rest : List Nat) (tr : Transaction) => ({ withImages [image] (at0 (awaiting tr
      { inState .planning with
        units := [member 3 .pending, member 4 .pending], planning := some { generation := 0, gapsList := rest } })) with
      fleet := [busAt 4127 (some 0)] } : State)
    let hold := fun u : State => u.modBay 0 heldBy1
    let later := fun u : State => { u with plans := { u.plans with generation := 1 } }
    let tr := asked (.gaps 3) .planning
    let silent := { tr with retries := 3 }
    let none0 := LineOutcome.reply (.gaps [] false)
    let empty := heard 3 0x21#8 [0x00#8, 0x00#8]
    (∀ e ∈ [(⟨s [4] tr, tr, none0, empty⟩ : Ending), ⟨s [4] tr, tr, .reply (.reject .mismatch), heard 3 0x24#8 [0x03#8]⟩,
        ⟨s [4] tr, tr, .reply (.reject .tooLarge), heard 3 0x24#8 [0x01#8]⟩,
        ⟨s [4] silent, silent, .noReply, .replyTimeout 0⟩, ⟨s [] tr, tr, none0, empty⟩,
        ⟨hold (s [] tr), tr, none0, empty⟩, ⟨s [] tr, tr, .reply (.reject .mismatch), heard 3 0x24#8 [0x03#8]⟩,
        ⟨s [] silent, silent, .noReply, .replyTimeout 0⟩, ⟨later (s [] tr), tr, none0, empty⟩,
        ⟨later (s [4] tr), tr, none0, empty⟩], e.Holds) ∧
    ((s [4] tr).bay 0).unit 3 = some (member 3 .pending) ∧
    ((s [4] tr).bay 0).planning = some { generation := 0, gapsList := 4 :: [] } ∧ (s [4] tr).plans.generation = 0 ∧
    ((s [] tr).bay 0).planning = some { generation := 0, gapsList := [] } ∧ (later (s [] tr)).plans.generation ≠ 0 ∧
    ((hold (s [] tr)).bay 0).held = true ∧ ((s [4] tr).bay 0).engine.offered = none ∧
    (s [] tr).bound 0 = some (busAt 4127 (some 0)) :=
  ⟨ends_of (by decide +kernel), by decide +kernel⟩

theorem witness_SwitchOutcomes :
    let sw := fun (todo : List Nat) (polls : List Poll) =>
      ({ group := 1, members := [3, 4], todo := todo, polls := polls, soloSent := [] } : Switch)
    let s := fun (tr : Transaction) (w : Switch) => at0 (awaiting tr
      { round [] with units := [member 3 .switching, member 4 .switching], switching := some w })
    let solo : Switch := { group := 0, members := [3], todo := [], polls := [], soloSent := [3] }
    let tr := asked (.switch 3) .switch
    let silent := { tr with retries := 3 }
    let refused := LineOutcome.reply (.reject .notVerified)
    (∀ e ∈ [(⟨s tr (sw [] []), tr, .reply .ok, heard 3 0x20#8 []⟩ : Ending),
        ⟨s tr (sw [4] []), tr, refused, heard 3 0x24#8 [0x05#8]⟩,
        ⟨s tr (sw [] [Poll.mk 4 1 1]), tr, refused, heard 3 0x24#8 [0x05#8]⟩,
        ⟨s silent (sw [4] []), silent, .noReply, .replyTimeout 0⟩,
        ⟨s tr (sw [] []), tr, refused, heard 3 0x24#8 [0x05#8]⟩,
        ⟨s silent solo, silent, .noReply, .replyTimeout 0⟩], e.Holds) ∧
    ((s tr (sw [4] [])).bay 0).switching = some (sw [4] []) ∧ (sw [4] []).todo ≠ [] ∧ solo.todo = [] ∧
    (∃ q ∈ (sw [] [Poll.mk 4 1 1]).polls, q.addr ≠ 3) ∧ (∀ q ∈ solo.polls, q.addr = 3) ∧
    ((s tr (sw [4] [])).bay 0).unit 3 = some (member 3 .switching) ∧
    ((s tr (sw [4] [])).bay 0).engine.offered = none ∧
    (0 : Time) < 0 + ((s tr (sw [] [])).bay 0).config.pollInterval :=
  ⟨ends_of (by decide +kernel), by decide +kernel⟩

theorem witness_ConfirmationOutcomes :
    let updated := { validator with active := ⟨3, 3, 0⟩ }
    let s := fun (tr : Transaction) (polls : List Poll) (y : Bay → Bay) => at0 (y (awaiting tr (round polls)))
    let tr := asked (.identify 3) .confirm
    let silent := { tr with retries := 3 }
    let two := fun d : Time => [Poll.mk 3 d 0, Poll.mk 4 15000 0]
    let one := [Poll.mk 3 1 0]
    let cut := fun y : Bay => { y with pendingCutoff := some .deadline }
    let due := fun y : Bay => { y with departure := some 300000, cutoffTime := some 0 }
    let replan := fun y : Bay => { y with replanPending := true }
    let holdAfter := fun y : Bay => { y with units := [{ member 3 .confirming with holdAfter := true }, member 4 .switched] }
    let yes := LineOutcome.reply (.identity updated)
    let heardYes := heard 3 0x21#8 (identityBody updated)
    let no := LineOutcome.reply (.identity validator)
    let heardNo := heard 3 0x21#8 (identityBody validator)
    (∀ e ∈ [(⟨s silent (two 1) id, silent, .noReply, .replyTimeout 0⟩ : Ending),
        ⟨s silent (two 0) id, silent, .noReply, .replyTimeout 0⟩, ⟨s tr (two 1) id, tr, yes, heardYes⟩,
        ⟨s tr (two 1) id, tr, no, heardNo⟩, ⟨s tr one id, tr, yes, heardYes⟩, ⟨s tr one id, tr, no, heardNo⟩,
        ⟨s tr one heldBy1, tr, yes, heardYes⟩, ⟨s tr one cut, tr, yes, heardYes⟩, ⟨s tr one due, tr, no, heardNo⟩,
        ⟨s tr one replan, tr, yes, heardYes⟩, ⟨s tr one holdAfter, tr, yes, heardYes⟩], e.Holds) ∧
    (0 : Time) < 1 ∧ updated.serial = (member 3 .confirming).identity.serial ∧ validator.active ≠ ⟨3, 3, 0⟩ ∧
    ((s tr (two 1) id).bay 0).unit 3 = some (member 3 .confirming) ∧
    (member 3 .confirming).planned = some { image := 301, version := ⟨3, 3, 0⟩ } ∧
    (∀ r ∈ two 1, r.addr = 3 → r = Poll.mk 3 1 0) ∧ ((two 1).filter fun r => decide (r.addr ≠ 3)) ≠ [] ∧
    (one.filter fun r => decide (r.addr ≠ 3)) = [] ∧ (((round []).units.map (·.addr)).Nodup) ∧
    (heldBy1 (round [])).held = true ∧ (round []).cutoff = none ∧ (cut (round [])).pendingCutoff = some .deadline ∧
    (round []).pendingCutoff = none ∧ (round []).replanPending = false ∧ (replan (round [])).replanPending = true ∧
    (round []).deadlineCondition 0 = false ∧ (due (round [])).deadlineCondition 0 = true ∧
    (due (round [])).config.mode = .stop ∧
    ∃ v ∈ (holdAfter (round [])).units, v.addr = 3 ∧ v.holdAfter = true :=
  ⟨ends_of (by decide +kernel), by decide +kernel⟩

theorem witness_SplitEntryWritten :
    let s := fun p : Progress => ({ at0 { round [] with
        units := [member 3 .switched, member 4 p], groups := [{ group [3, 4] with sent := [3, 4] }] } with
      fleet := [busAt 4127 (some 0)] } : State)
    let missed := fun (p : Progress) (m : Unconfirmed) => m.addr ∈ [3, 4] ∧ ∃ (v : JobUnit) (pl : Planned),
      ((s p).bay 0).unit m.addr = some v ∧ v.progress ≠ some .switched ∧ v.planned = some pl ∧ m.version = pl.version
    (∀ m ∈ [3, 4], ∃ v : JobUnit, ((s .switched).bay 0).unit m = some v ∧ v.progress = some .switched) ∧
    ¬(∀ m ∈ [3, 4], ∃ v : JobUnit, ((s .confirming).bay 0).unit m = some v ∧ v.progress = some .switched) ∧
    missed .confirming ⟨4, ⟨3, 3, 0⟩⟩ ∧ (∀ u ∈ [s .confirming], FleetOk u) ∧
    ((s .confirming).bay 0).groupRecord 1 = some { group [3, 4] with sent := [3, 4] } ∧
    (s .confirming).bound 0 = some (busAt 4127 (some 0)) := by
  refine ⟨fun m h => ?_, fun h => ?_, ⟨by decide, member 4 .confirming, _, by decide +kernel, by decide, rfl, rfl⟩,
    fleetOk_of (by decide +kernel), by decide +kernel⟩
  · rcases List.mem_pair.mp h with rfl | rfl
    · exact ⟨member 3 .switched, by decide +kernel, by decide⟩
    · exact ⟨member 4 .switched, by decide +kernel, by decide⟩
  · obtain ⟨v, h1, h2⟩ := h 4 (by decide)
    have e : Option.map (·.progress) (some v) = some (some .confirming) := by
      rw [← h1]
      decide +kernel
    rw [Option.map_some, h2] at e
    exact absurd e (by decide)

/-! ### Witnesses: admission, frames and the whole part -/

theorem witness_AdmissionArithmetic :
    let resumed := { member 4 .pending with kind := some .resume, missing := some 7 }
    let checked := { member 5 .pending with kind := some .checkOnly }
    (∀ u ∈ [checked], u.kind = some .checkOnly) ∧ ¬(∀ u ∈ [resumed, checked], u.kind = some .checkOnly) ∧
    (∀ u ∈ [resumed, checked], u.kind = some .checkOnly ∨ (u.kind = some .resume ∧ u.missing ≠ none)) ∧
    ¬(∀ u ∈ [member 3 .pending], u.kind = some .checkOnly ∨ (u.kind = some .resume ∧ u.missing ≠ none)) ∧
    1 ≤ bay.rate ∧ bay.rate ≤ 60000 ∧ bay.gapRatio ≤ 255 := by
  decide

theorem witness_AdmissionRunOrder :
    let held := heldBy1 (inState .done)
    let ready := { inState .transferring with units := [member 3 .verified], groups := [group [3]] }
    let late := { ready with cutoffTime := some 14999 }
    let waits := { inState .done with units := [member 3 .pending], passes := [pass .waiting [3] []] }
    held.held = true ∧ ready.held = false ∧ (∀ q ∈ ready.passes, q.inFlight = false) ∧ ready.switching = none ∧
    ready.replanPending = false ∧ ready.state = .transferring ∧
    ready.switchTries = [] ++ { group := 1, members := [3] } :: [] ∧
    { ready with cutoffTime := some 15000 }.fits 0 (1 * ready.config.tSwitch) = true ∧
    late.fits 0 (1 * late.config.tSwitch) = false ∧ ready.engine.state = .idle ∧ ready.engine.offered = none ∧
    (ready.units.map (·.addr)).Pairwise (· < ·) ∧ (ready.groups.map (·.group)).Pairwise (· < ·) ∧
    (∀ r ∈ ready.groups, 1 ≤ r.group) ∧ waits.switchTries = [] ∧
    (waits.passes.filter fun q => decide (q.phase = .waiting)) = [] ++ pass .waiting [3] [] :: [] ∧
    waits.fits 0 (passNeed waits (pass .waiting [3] []) 3) = true ∧
    { waits with cutoffTime := some 0 }.fits 0 (passNeed waits (pass .waiting [3] []) 3) = false := by
  decide +kernel

theorem witness_PassesFormed :
    let units := [member 3 .pending, member 4 (.faulted .noReply)]
    (units.map (·.addr)).Pairwise (· < ·) ∧ (∀ u ∈ units, u.group ≤ 7) ∧
    (∀ u ∈ units, u.decision = some .flash → u.planned ≠ none ∧ ∃ n < 64, u.rule = some n) ∧
    (formPasses units).length = 1 ∧ (formGroups units).length = 1 := by
  refine ⟨by decide, by decide, fun u h _ => ?_, by decide, by decide⟩
  rcases List.mem_pair.mp h with rfl | rfl <;> exact ⟨by decide, 0, by decide, rfl⟩

theorem witness_DecodeEncodeAgree :
    (Instr.imgData 0 (List.replicate 1100 0x00#8)).request = some (0, 0x11#8, List.replicate 1100 0x00#8) ∧
    (Instr.imgData 0 (List.replicate 1100 0x00#8)).wellFormed = true ∧
    (Instr.frameCrcError 0 0x01#8 [] 0xFBAD#16).wellFormed = true ∧
    (Instr.frameLengthError 0 0x11#8 1101#16).wellFormed = true ∧
    (decodeFrame 1 [0xA5#8, 0x01#8, 0x00#8, 0x00#8, 0xFB#8, 0xAC#8]).isSome = true := by
  decide +kernel

theorem witness_LayoutsRead :
    (rule .flashHold 31 0xFFFF#16 0xFFFF#16 (some 65535) 7 (some { cls := 31, minimum := ⟨255, 255, 65535⟩ })).wellFormed =
      true ∧
    (rule .census 1 0#16 0#16 none 0 none).wellFormed = true ∧ (begin 65535 16777216).id ≤ 65535 ∧
    (begin 65535 16777216).version.build ≤ 65535 ∧ (begin 65535 16777216).cls ≤ 31 ∧
    (begin 65535 16777216).length ≤ 16777216 ∧ 1 ≤ (begin 1 1).length ∧ BayConfig.default.inRange = true ∧
    (List.replicate 272 0x00#8).length ≤ 272 := by
  decide +kernel

theorem witness_EveryCommandCompletes : UploadsOk { at0 (inState .done) with pending := [.verifyReadDone] } := by
  let s : State := { at0 (inState .done) with pending := [.verifyReadDone] }
  have e : ∀ q : PortId, (s.port q).upload = none ∧ (s.port q).write = none := by decide
  refine ⟨fun p => ?_, storeOk_of (l := [s]) (by decide +kernel) s (List.mem_singleton.mpr rfl),
    ⟨fun p c h => ?_, fun p _ c _ h => ?_, nofun, by decide⟩,
    ⟨fun p chunk h => ?_, fun p chunk h => (nomatch h), nofun⟩⟩
  · fin_cases p <;> exact ⟨by decide, by decide, by decide, by decide, by decide⟩
  · cases (e p).1.symm.trans h
  · cases (e p).1.symm.trans h
  · rcases h with h | h
    · cases (e p).2.symm.trans h
    · cases h

theorem witness_StepKeepsInvariant :
    let s : State := { at0 (inState .done) with pending := [.verifyReadDone] }
    step s = .next (at0 (inState .done)) ∧ PartOk s ∧ FleetOk s ∧ UploadsOk s := by
  refine ⟨rfl, ⟨by decide, fun p => ?_, fun b => ?_, fun b => ?_⟩, ⟨by decide, by decide, by decide⟩,
    witness_EveryCommandCompletes⟩
  · fin_cases p <;> exact ⟨by decide, by decide, by decide, by decide⟩
  · fin_cases b <;> rfl
  · fin_cases b <;> exact bayOk_of (by decide) (by decide)

theorem witness_BayEventsStayAtTheirBay :
    (Instr.presentRise 7).bayEvent = some 7 ∧ (Instr.activationNotice 0).bayEvent = some 0 := by
  decide

theorem witness_CommandsKeepEntries :
    let s := (withImages [image] State.reset).setBay 0 { bay with units := [member 3 .pending] }
    StagesOk s ∧ (∀ u ∈ [s, uploading 0], StoreOk u.store) ∧ exec .verifyReadDone s = .next s ∧
    s.store.catalogue[(0 : Fin 32)] = some image ∧ image.state = .ready ∧ 0 < s.useCount image.id ∧
    (uploading 0).store.catalogue[(0 : Fin 32)] = some { image with state := .loading, uploadPort := some 0 } := by
  have e : ∀ q : PortId, (State.reset.port q).upload = none := by decide
  refine ⟨⟨fun p c h => ?_, fun p _ c _ h => ?_, nofun, by decide⟩, storeOk_of (by decide +kernel), rfl,
    by decide +kernel⟩ <;> cases (e p).symm.trans h

end Sys2Proof.Tests
end

/-! SUPPORT. Matching rules against units (R22, R23), and the proofs of the statements about release plans. -/

section

namespace Sys2Proof

open Machine

/-! ### Matching (R22) -/

/-- Comparing two words under a mask compares exactly the bits that the mask selects. -/
theorem and_eq_and_iff_getLsbD {w : Nat} (x y mask : BitVec w) :
    x &&& mask = y &&& mask ↔ ∀ k : Nat, mask.getLsbD k = true → x.getLsbD k = y.getLsbD k := by
  constructor
  · intro h k hk
    simpa [hk] using congrArg (BitVec.getLsbD · k) h
  · intro h
    refine BitVec.eq_of_getLsbD_eq fun k _ => ?_
    cases hk : mask.getLsbD k with
    | false => simp [hk]
    | true => simp [hk, h k hk]

theorem serialOk_of_any {r : Rule} (h : r.serialKind = .any) (serial : Nat) : r.serialOk serial = true := by
  simp [Rule.serialOk, h]

theorem serialOk_of_equal {r : Rule} (h : r.serialKind = .equal) (serial : Nat) :
    r.serialOk serial = true ↔ serial = r.low := by
  simp [Rule.serialOk, h]

theorem serialOk_of_inside {r : Rule} (h : r.serialKind = .inside) (serial : Nat) :
    r.serialOk serial = true ↔ r.low ≤ serial ∧ serial ≤ r.high := by
  simp [Rule.serialOk, h]

theorem serialOk_of_outside {r : Rule} (h : r.serialKind = .outside) (serial : Nat) :
    r.serialOk serial = true ↔ serial < r.low ∨ serial > r.high := by
  simp [Rule.serialOk, h]

/-- A rule matches a unit when class, revision under the care mask and serial condition all do. -/
theorem matchesUnit_iff (r : Rule) (i : Identity) : r.matchesUnit i = true ↔ i.cls = r.cls ∧
    (∀ k : Nat, r.careMask.getLsbD k = true → i.revision.getLsbD k = r.revision.getLsbD k) ∧
    r.serialOk i.serial = true := by
  simp only [Rule.matchesUnit, Bool.and_eq_true, beq_iff_eq, and_eq_and_iff_getLsbD, and_assoc]

/-- OUTSIDE is the complement of INSIDE over the same bounds. -/
theorem serialOk_inside_eq_not_outside {a b : Rule} (serial : Nat) (ha : a.serialKind = .inside)
    (hb : b.serialKind = .outside) (low : a.low = b.low) (high : a.high = b.high) :
    a.serialOk serial = !b.serialOk serial := by
  rw [Bool.eq_iff_iff, Bool.not_eq_true', ← Bool.not_eq_true, serialOk_of_inside ha, serialOk_of_outside hb, low, high]
  omega

/-! ### The first matching rule (R23) -/

/-- A slot is passed over, being empty or holding a rule that does not match, or it holds a rule that matches. -/
theorem slot_skipped_or_matches (i : Identity) (slot : Option Rule) :
    (∀ q, slot = some q → q.matchesUnit i = false) ∨ ∃ q, slot = some q ∧ q.matchesUnit i = true := by
  cases slot with
  | none => exact .inl nofun
  | some q => cases h : q.matchesUnit i <;> simp [h]

/-- A slot that is empty or holds a rule that does not match is passed over. -/
theorem firstMatch_cons_of_not_matches {i : Identity} {slot : Option Rule}
    (h : ∀ q, slot = some q → q.matchesUnit i = false) (start : Nat) (rest : List (Option Rule)) :
    firstMatch i start (slot :: rest) = firstMatch i (start + 1) rest := by
  cases slot with
  | none => rfl
  | some q => simp [firstMatch, h q rfl]

/-- A rule that matches decides, whatever stands in the slots after it. -/
theorem firstMatch_cons_of_matches {i : Identity} {q : Rule} (h : q.matchesUnit i = true) (start : Nat)
    (rest : List (Option Rule)) : firstMatch i start (some q :: rest) = some (start, q) := by
  simp [firstMatch, h]

/-- The slot reported is never below the first one looked at. -/
theorem start_le_of_firstMatch_eq_some {i : Identity} {plan : List (Option Rule)} {start n : Nat} {r : Rule}
    (h : firstMatch i start plan = some (n, r)) : start ≤ n := by
  induction plan generalizing start with
  | nil => simp [firstMatch] at h
  | cons slot rest ih =>
    obtain skip | ⟨q, rfl, hq⟩ := slot_skipped_or_matches i slot
    · rw [firstMatch_cons_of_not_matches skip] at h
      exact Nat.le_of_succ_le (ih h)
    · rw [firstMatch_cons_of_matches hq] at h
      cases h
      exact Nat.le_refl _

/-- The rule found stands in the slot reported, it matches, and no rule in a lower slot does; slots are counted from
`start`. -/
theorem firstMatch_eq_some_iff (i : Identity) (r : Rule) (plan : List (Option Rule)) (start n : Nat) :
    firstMatch i start plan = some (start + n, r) ↔ plan[n]? = some (some r) ∧ r.matchesUnit i = true ∧
      ∀ (m : Nat) (q : Rule), m < n → plan[m]? = some (some q) → q.matchesUnit i = false := by
  induction plan generalizing start n with
  | nil => simp [firstMatch]
  | cons slot rest ih =>
    obtain skip | ⟨q, rfl, hq⟩ := slot_skipped_or_matches i slot
    · rw [firstMatch_cons_of_not_matches skip]
      cases n with
      | zero =>
        constructor
        · intro h
          exact absurd (start_le_of_firstMatch_eq_some h) (by omega)
        · rintro ⟨here, hr, -⟩
          simp [skip r (by simpa using here)] at hr
      | succ n =>
        rw [show start + (n + 1) = start + 1 + n by omega, ih]
        simp only [List.getElem?_cons_succ]
        refine and_congr_right fun _ => and_congr_right fun _ => ⟨fun lower m q hm hq => ?_, fun lower m q hm hq => ?_⟩
        · cases m with
          | zero => exact skip q (by simpa using hq)
          | succ m => exact lower m q (by omega) (by simpa using hq)
        · exact lower (m + 1) q (by omega) (by simpa using hq)
    · rw [firstMatch_cons_of_matches hq]
      cases n with
      | zero => simpa using fun h : q = r => h ▸ hq
      | succ n =>
        constructor
        · intro h
          simp at h
        · rintro ⟨-, -, lower⟩
          simp [lower 0 q (by omega) rfl] at hq

/-- Settles O22: class, revision and serial by `matchesUnit_iff` and the serial condition kind by kind, the lowest slot
by `firstMatch_eq_some_iff`; the fields that take no part are not read at all. -/
theorem ruleMatches : Obligations.RuleMatches := by
  intro r i
  refine ⟨?_, fun a b serial ha hb low high => serialOk_inside_eq_not_outside serial ha hb low high,
    fun _ _ _ _ _ => rfl, fun plan n => ?_⟩
  · rw [matchesUnit_iff]
    refine and_congr_right fun _ => and_congr_right fun _ => ?_
    cases kind : r.serialKind with
    | any => exact iff_true_intro (serialOk_of_any kind i.serial)
    | equal => exact serialOk_of_equal kind i.serial
    | inside => exact serialOk_of_inside kind i.serial
    | outside => exact serialOk_of_outside kind i.serial
  · simpa using firstMatch_eq_some_iff i r plan 0 n

/-! ### PLAN_CLEAR (R31) -/

theorem exec_planClear (p : PortId) (body : List Byte) (s : State) :
    exec (.planClear p body) s = execPlanClear p body s := rfl

/-- An accepted PLAN_CLEAR replaces the standby plan by 64 empty slots and answers OK. -/
theorem execPlanClear_of_accepts {s : State} {p : PortId} (h : Accepts s p [.image]) :
    execPlanClear p [] s = .next (({ s.intake p with plans :=
      { s.plans with standby := Vector.replicate 64 none } } : State).respond p .ok .none) :=
  serve_accepts h 0x20#8 () _

/-- Settles O19: the standby plan written is the one of 64 empty slots, and neither the intake nor the answer touches the
plans. -/
theorem planClearEmpties : Obligations.PlanClearEmpties := by
  intro s p accepted
  refine ⟨Vector.replicate 64 none, _, rfl, ?_, fun i => ?_, rfl, rfl⟩
  · rw [exec_planClear, execPlanClear_of_accepts accepted]
  · exact Vector.getElem_replicate i.isLt

end Sys2Proof

end

/-! SUPPORT. The stop reason of a bay by its rank (R171), and the proof of the statement about it. -/

section

namespace Sys2Proof

open Machine

/-! ### The ranks of the stop reason (R171) -/

theorem hasNoTime_iff (y : Bay) :
    y.hasNoTime = true ↔ ∃ u ∈ y.units, u.progress = some .deferredNoTime := by
  simp only [Bay.hasNoTime, List.any_eq_true, beq_iff_eq]

/-- Rank 1. -/
theorem stopReason_of_disabled {y : Bay} (state : y.state = .disabled) : y.stopReason = .disabled := by
  simp [Bay.stopReason, state]

/-- Rank 2. -/
theorem stopReason_of_cutoff {y : Bay} {c : CutoffCause} (state : y.state ≠ .disabled) (flag : y.cutoff = some c) :
    y.stopReason = .cutoff c := by
  simp [Bay.stopReason, state, flag]

/-- Rank 3. -/
theorem stopReason_of_held {y : Bay} (state : y.state ≠ .disabled) (flag : y.cutoff = none) (held : y.held = true) :
    y.stopReason = .hold := by
  simp [Bay.stopReason, state, flag, held]

/-- Ranks 4 and 5: with none of the conditions above, deferral for lack of time decides. -/
theorem stopReason_of_not_held {y : Bay} (state : y.state ≠ .disabled) (flag : y.cutoff = none)
    (held : y.held = false) :
    y.stopReason = if y.state = .done ∧ y.hasNoTime = true then .noTime else .unstopped := by
  simp [Bay.stopReason, state, flag, held]

/-! ### BAY_STATUS (R91) -/

theorem exec_bayStatus (p : PortId) (body : List Byte) (s : State) :
    exec (.bayStatus p body) s = execBayStatus p body s := rfl

/-- An accepted BAY_STATUS answers OK with the report of the state in which the request has been taken. -/
theorem execBayStatus_of_accepts {s : State} {p : PortId} {body : List Byte} {b : BayId}
    (accepted : Accepts s p namedRoles) (parsed : parseBay body = some b) :
    execBayStatus p body s = .next (answered s p .ok (.bay ((s.intake p).bayReport b))) := by
  rw [execBayStatus, parsed, serve_accepts accepted, answered]

/-- Taking a request changes no bay, so the stop reason reported is the one before the request. -/
theorem bayReport_intake_stopReason (s : State) (p : PortId) (b : BayId) :
    ((s.intake p).bayReport b).stopReason = (s.bay b).stopReason := rfl

/-- Settles O26: BAY_STATUS reports `Bay.stopReason` of the bay, and a lemma for each rank says what that is when no
condition of a higher rank holds. -/
theorem stopReasonRanks : Obligations.StopReasonRanks := by
  intro s p body b accepted parsed
  refine ⟨(s.intake p).bayReport b, (exec_bayStatus p body s).trans (execBayStatus_of_accepts accepted parsed), ?_⟩
  rw [bayReport_intake_stopReason, ← held_iff_holds, ← hasNoTime_iff]
  refine ⟨stopReason_of_disabled, fun state _ flag => stopReason_of_cutoff state flag,
    fun state flag => ⟨stopReason_of_held state flag, fun holds => ?_⟩⟩
  have held : (s.bay b).held = false := by
    rw [← Bool.not_eq_true, held_iff_holds]
    exact not_not_intro holds
  rw [stopReason_of_not_held state flag held]
  exact ⟨fun deferred => if_pos deferred, fun kept => if_neg kept⟩

end Sys2Proof

end

/-! SUPPORT. A request refused for its arguments (R177), the end of a response (R175, R176), and the proof of the
statement about NOP (R179). -/

section

namespace Sys2Proof

open Machine

/-! ### The argument check (R177, R178) -/

theorem parseEmpty_nil : parseEmpty [] = some () := rfl

theorem parseEmpty_of_ne_nil {body : List Byte} (h : body ≠ []) : parseEmpty body = none := by
  simp [parseEmpty, h]

/-- A request that fails its argument check is taken and answered BAD_ARG. -/
theorem serve_badArg {α : Type} {s : State} {p : PortId} {roles : List Role} (h : Accepts s p roles) (code : Byte)
    (act : α → State → Result) : s.serve p code roles none act = .next (answered s p .badArg .none) := by
  obtain ⟨hears, free, role⟩ := h
  simp [State.serve, hears, free, role, answered]

/-! ### The responses of a port (R175, R176) -/

theorem produce_of_sending_none {t : Port} (h : t.sending = none) (r : Response) :
    Port.produce r t = { t with sending := some r } := by
  simp [Port.produce, h]

theorem produce_of_sending_ne_none {t : Port} (h : t.sending ≠ none) (r : Response) :
    Port.produce r t = { t with waiting := t.waiting ++ [r] } := by
  obtain ⟨q, hq⟩ := Option.ne_none_iff_exists'.mp h
  simp [Port.produce, hq]

/-- The response of a request that is answered at once goes out when the line is free. -/
theorem port_answered_of_sending_none {s : State} {p : PortId} (h : (s.port p).sending = none) (st : Status)
    (r : Body) : (answered s p st r).port p = { s.port p with
      inProgress := true, framer := .hunt, sending := some { kind := .answer, status := st, body := r } } :=
  (port_answered s p st r).trans
    (produce_of_sending_none (t := { s.port p with inProgress := true, framer := .hunt }) h _)

/-- The response goes behind those produced earlier when the line is taken (R176). -/
theorem port_answered_of_sending_ne_none {s : State} {p : PortId} (h : (s.port p).sending ≠ none) (st : Status)
    (r : Body) : (answered s p st r).port p = { s.port p with
      inProgress := true, framer := .hunt
      waiting := (s.port p).waiting ++ [{ kind := .answer, status := st, body := r }] } :=
  (port_answered s p st r).trans
    (produce_of_sending_ne_none (t := { s.port p with inProgress := true, framer := .hunt }) h _)

/-- A request answered at once leaves its request-in-progress flag set (R175). -/
theorem answered_inProgress (s : State) (p : PortId) (st : Status) (r : Body) :
    ((answered s p st r).port p).inProgress = true := by
  obtain ⟨-, -, -, flag, -⟩ := produce_frame { kind := .answer, status := st, body := r }
    { s.port p with inProgress := true, framer := .hunt }
  rw [port_answered, flag]

theorem exec_responseSent (p : PortId) (s : State) : exec (.responseSent p) s = execResponseSent p s := rfl

/-- The end of an answer clears the flag and sends the next response that waits. -/
theorem execResponseSent_of_answer {s : State} {p : PortId} {r : Response} (h : (s.port p).sending = some r)
    (kind : r.kind = .answer) : execResponseSent p s = .next (s.modPort p Port.answered) := by
  simp [execResponseSent, h, kind]

/-! ### NOP (R179) -/

theorem exec_nop (p : PortId) (body : List Byte) (s : State) : exec (.nop p body) s = execNop p body s := rfl

theorem execNop_nil {s : State} {p : PortId} (accepted : Accepts s p anyRole) :
    execNop p [] s = .next (answered s p .ok .none) := by
  rw [execNop, parseEmpty_nil, serve_accepts accepted, answered]

theorem execNop_of_ne_nil {s : State} {p : PortId} {body : List Byte} (accepted : Accepts s p anyRole)
    (h : body ≠ []) : execNop p body s = .next (answered s p .badArg .none) := by
  rw [execNop, parseEmpty_of_ne_nil h, serve_badArg accepted]

/-- Settles O6: a port of any role accepts NOP (`accepts_any`), its argument check passes on the empty body only, taking
and answering a request touch the port's link alone, and the end of the answer is `Port.answered`. -/
theorem nopAnswers : Obligations.NopAnswers := by
  intro s p hears free
  have accepted : Accepts s p anyRole := accepts_any hears free
  refine ⟨(exec_nop p [] s).trans (execNop_nil accepted),
    fun body filled => (exec_nop p body s).trans (execNop_of_ne_nil accepted filled),
    OnlyLink.answered s p .ok .none, answered_inProgress s p .ok .none, ?_, fun u sending => ?_⟩
  · by_cases line : (s.port p).sending = none
    · exact .inl ⟨line, port_answered_of_sending_none line .ok .none⟩
    · exact .inr ⟨line, port_answered_of_sending_ne_none line .ok .none⟩
  · refine ⟨u.modPort p Port.answered, (exec_responseSent p u).trans (execResponseSent_of_answer sending rfl), ?_⟩
    rw [State.port_modPort_same]
    exact ⟨rfl, rfl, rfl⟩

end Sys2Proof

end

/-! SUPPORT. What an operation of one bay keeps (`BayStep`: the frame, the soundness of the bay, the fleet table), said
once for each bay event, and the proof of the statement that a bay event acts at its bay alone. -/

section

namespace Sys2Proof

open Machine

/-! ### A step of one bay -/

/-- An operation of bay `b`: it touches nothing outside the bay but what `OnlyBay` allows, and keeps the bay sound and the
fleet table's condition. -/
structure BayStep (b : BayId) (s t : State) : Prop where
  only : OnlyBay b s t
  good : BayGood (s.bay b) → BayGood (t.bay b)
  fleet : FleetOk s → FleetOk t

theorem BayStep.refl (b : BayId) (s : State) : BayStep b s s := ⟨OnlyBay.refl b s, id, id⟩

theorem BayStep.trans {b : BayId} {s t u : State} (h : BayStep b s t) (k : BayStep b t u) : BayStep b s u :=
  ⟨h.only.trans k.only, k.good ∘ h.good, k.fleet ∘ h.fleet⟩

/-- A change of the bay's own record that keeps it sound. -/
theorem BayStep.modBay {b : BayId} {s : State} {f : Bay → Bay} (h : BayGood (s.bay b) → BayGood (f (s.bay b))) :
    BayStep b s (s.modBay b f) :=
  ⟨(OnlyBay.refl b s).modBay f, fun g => by rw [State.bay_modBay_same]; exact h g, fun g => g.modBay f⟩

theorem BayStep.post (b : BayId) (s : State) (k : EventKind) (x : Subject) : BayStep b s (s.post k x) :=
  ⟨(OnlyBay.refl b s).post k x, id, fun g => g.post k x⟩

theorem BayStep.unbind (b : BayId) (s : State) : BayStep b s (s.unbind b) :=
  ⟨(OnlyBay.refl b s).unbind, id, FleetOk.unbind⟩

theorem BayStep.cutOffBay (b : BayId) (s : State) (c : CutoffCause) : BayStep b s (s.cutOffBay b c) :=
  ⟨(OnlyBay.refl b s).cutOffBay c, good_cutOff c, fun g => g.cutOffBay c⟩

theorem BayStep.takeCutoff (b : BayId) (s : State) (c : CutoffCause) : BayStep b s (s.takeCutoff b c) :=
  ⟨(OnlyBay.refl b s).takeCutoff c, fun g => good_takeCutoff g c, fun g => g.takeCutoff c⟩

theorem BayStep.deadlineCompare (b : BayId) (s : State) : BayStep b s (s.deadlineCompare b) :=
  ⟨(OnlyBay.refl b s).deadlineCompare, good_deadline, FleetOk.deadlineCompare⟩

theorem BayStep.admissionRun (b : BayId) (s : State) : BayStep b s (s.admissionRun b) :=
  ⟨(OnlyBay.refl b s).admissionRun, good_admission, FleetOk.admissionRun⟩

theorem BayStep.takeNotice (b : BayId) (s : State) : BayStep b s (s.takeNotice b) :=
  ⟨(OnlyBay.refl b s).takeNotice, good_notice, FleetOk.takeNotice⟩

theorem BayStep.disableBay (b : BayId) (s : State) : BayStep b s (s.disableBay b) :=
  ⟨(OnlyBay.refl b s).disableBay, good_disableBay, FleetOk.disableBay⟩

theorem BayStep.resetBay (b : BayId) (s : State) : BayStep b s (s.resetBay b) :=
  ⟨(OnlyBay.refl b s).resetBay, good_resetBay, FleetOk.resetBay⟩

theorem BayStep.bayReset (b : BayId) (s : State) : BayStep b s (s.bayReset b) :=
  ⟨(OnlyBay.refl b s).bayReset, good_bayReset, FleetOk.bayReset⟩

theorem BayStep.dropRule (b : BayId) (s : State) : BayStep b s (s.dropRule b) :=
  ⟨(OnlyBay.refl b s).dropRule, good_dropRule, FleetOk.dropRule⟩

theorem BayStep.dropHold (p : PortId) (b : BayId) (s : State) : BayStep b s (State.dropHold p s b) :=
  ⟨(OnlyBay.refl b s).dropHold p, good_dropHold p, fun g => g.dropHold p⟩

/-! ### Which changes of a bay's record keep it sound -/

/-- A change in service that leaves the standing values and keeps the bay in service. -/
theorem good_inService {y z : Bay} (serves : y.state.inService = true) (h : BayGood y) (standing : z.standing = y.standing)
    (state : z.state = y.state) : BayGood z :=
  good_keeps h ⟨standing, fun k => state ▸ k⟩ serves

/-- A bay with an undrained transaction on its line, or a switch in flight, is in service: a stopped bay is quiet. -/
theorem inService_of_undrained {y : Bay} (h : BayGood y) {tr : Transaction} (busy : y.engine.state ≠ .idle)
    (outstanding : y.engine.transaction = some tr) (undrained : tr.drained = false) : y.state.inService = true := by
  rcases inService_or y.state with serves | stops
  · exact serves
  · exact absurd ((h.1.quiet stops).drained busy tr outstanding) (by simp [undrained])

theorem inService_of_switching {y : Bay} (h : BayGood y) (flight : y.switching ≠ none) : y.state.inService = true := by
  rcases inService_or y.state with serves | stops
  · exact serves
  · exact absurd (h.1.quiet stops).switching flight

/-- A re-send on a quiet line keeps what the line carries drained. -/
theorem good_resend {y : Bay} (h : BayGood y) {f : Transaction → Transaction} (keeps : ∀ t, (f t).drained = t.drained)
    (busy : y.engine.state ≠ .idle) : BayGood (y.resend f) := by
  refine good_mod h (standing_resend y f) (state_resend y f) fun _ quiet =>
    ⟨quiet.passes, quiet.switching, quiet.offered, fun _ tr carried => ?_⟩
  obtain ⟨old, outstanding, rfl⟩ := Option.map_eq_some_iff.mp carried
  exact (keeps old).trans (quiet.drained busy old outstanding)

/-- The poll round offers nothing at a bay with no switch. -/
theorem good_pollDue {y : Bay} (h : BayGood y) (now : Time) : BayGood (y.pollDue now) := by
  refine good_mod h (standing_pollDue y now) (state_pollDue y now) fun _ quiet => ?_
  simpa [Bay.pollDue, quiet.switching] using quiet

/-! ### What a line event hands on -/

theorem BayStep.handBack {b : BayId} {s : State} {tr : Transaction} (busy : (s.bay b).engine.state ≠ .idle)
    (outstanding : (s.bay b).engine.transaction = some tr) (undrained : tr.drained = false) (out : LineOutcome) :
    BayStep b s (s.handBack b tr out) :=
  ⟨(OnlyBay.refl b s).handBack tr out,
    fun g => good_handBack g (inService_of_undrained g busy outstanding undrained) tr out, fun g => g.handBack tr out⟩

theorem BayStep.noReplyAttempt {b : BayId} {s : State} {tr : Transaction} (busy : (s.bay b).engine.state ≠ .idle)
    (outstanding : (s.bay b).engine.transaction = some tr) : BayStep b s (s.noReplyAttempt b tr) := by
  unfold State.noReplyAttempt
  split
  case isTrue => exact .modBay good_endDrain
  case isFalse undrained =>
    split
    · exact .modBay fun g => good_resend g (fun _ => rfl) busy
    · exact .handBack busy outstanding (by simpa using undrained) _

theorem BayStep.notReady {b : BayId} {s : State} {tr : Transaction} (busy : (s.bay b).engine.state ≠ .idle)
    (outstanding : (s.bay b).engine.transaction = some tr) (undrained : tr.drained = false) :
    BayStep b s (s.notReady b tr) := by
  unfold State.notReady
  split
  · exact .modBay fun g => good_inService (inService_of_undrained g busy outstanding undrained) g rfl rfl
  · exact .handBack busy outstanding undrained _

/-- A BLOCK frame is out: the transaction ends, and the pass goes on (R74). -/
theorem BayStep.takeBlockSent {b : BayId} {s : State} {tr : Transaction} (busy : (s.bay b).engine.state ≠ .idle)
    (outstanding : (s.bay b).engine.transaction = some tr) (undrained : tr.drained = false) :
    BayStep b s ((s.modBay b Bay.endTransaction).takeBlockSent b) := by
  refine ⟨((OnlyBay.refl b s).modBay _).takeBlockSent, fun g => ?_, fun g => (g.modBay _).takeBlockSent⟩
  have ended : Keeps (s.bay b) ((s.modBay b Bay.endTransaction).bay b) :=
    Keeps.modBay (Keeps.refl _) fun y => ⟨standing_endTransaction y, fun k => (state_endTransaction y).symm ▸ k⟩
  exact good_keeps g (Keeps.takeBlockSent ended) (inService_of_undrained g busy outstanding undrained)

/-- A member that is past its deadline fails its switch, and the round goes on (R148). -/
theorem BayStep.confirmationDeadline {b : BayId} {s : State} (flight : (s.bay b).switching ≠ none) (addr : Nat) :
    BayStep b s ((s.failSwitch b addr .identify).settleRound b) :=
  ⟨((OnlyBay.refl b s).failSwitch _ _).settleRound,
    fun g => good_settle g (Keeps.failSwitch (Keeps.refl _) _ _) (inService_of_switching g flight),
    fun g => (g.failSwitch _ _).settleRound⟩

theorem switching_of_deadlineOf {y : Bay} {a : Nat} {d : Time} (h : y.deadlineOf a = some d) : y.switching ≠ none := by
  intro none
  simp [Bay.deadlineOf, none] at h

/-- An accepted PRESENT fall: the bay leaves its bus and is EMPTY (R89). -/
theorem BayStep.detach (b : BayId) (s : State) : BayStep b s ((s.leaveBus b).modBay b fun y =>
    { y with presentFilter := Filter.taken false, holds := { y.holds with rule := false }, state := .empty }) := by
  refine ⟨(OnlyBay.refl b s).leaveBus.modBay _, fun g => ?_, fun g => g.leaveBus.modBay _⟩
  rw [State.bay_modBay_same]
  exact good_leave g (fun y =>
    { y with presentFilter := Filter.taken false, holds := { y.holds with rule := false }, state := .empty })
    (fun _ => ⟨rfl, rfl, rfl, rfl, rfl, rfl, fun e => nomatch e⟩) rfl

/-- The sweep of an EMPTY bay begins (R85). -/
theorem BayStep.beginSweep {b : BayId} {s : State} (empty : (s.bay b).state ≠ .cutoff) :
    BayStep b s (s.modBay b Bay.beginSweep) := by
  refine .modBay fun g => good_enter ?_ ?_ ?_
  · exact (congrArg (·.2.2) (standing_beginSweep (s.bay b))).trans (no_cutoff g empty)
  · simp [Bay.beginSweep, Bay.enterSweep, BayState.inService]
  · have same := settings_of_standing (standing_beginSweep (s.bay b))
    have departure : (s.bay b).beginSweep.departure = (s.bay b).departure := congrArg (·.departure) same
    have cutoffTime : (s.bay b).beginSweep.cutoffTime = (s.bay b).cutoffTime := congrArg (·.cutoffTime) same
    have config : (s.bay b).beginSweep.config = (s.bay b).config := congrArg (·.config) same
    unfold DepartureOk
    rw [departure, cutoffTime, config]
    exact g.2

/-! ### The bay events -/

/-- A command of a bay ends in a step of that bay, after which the arbiter may grant an access (R58). -/
def ActsAt (b : BayId) (s : State) (r : Result) : Prop :=
  ∃ u : State, BayStep b s u ∧ (r = .next u ∨ r = .next u.arbitrate)

theorem ActsAt.next {b : BayId} {s u : State} (h : BayStep b s u) : ActsAt b s (.next u) := ⟨u, h, .inl rfl⟩

theorem ActsAt.finish {b : BayId} {s u : State} (h : BayStep b s u) : ActsAt b s (finish u) := ⟨u, h, .inr rfl⟩

theorem ActsAt.idle (b : BayId) (s : State) : ActsAt b s (.next s) := .next (.refl b s)

theorem ActsAt.after {b : BayId} {s t : State} {r : Result} (h : BayStep b s t) (k : ActsAt b t r) : ActsAt b s r :=
  have ⟨u, step, ends⟩ := k
  ⟨u, h.trans step, ends⟩

theorem actsAt_presentRise (b : BayId) (s : State) : ActsAt b s (execPresentRise b s) := by
  unfold execPresentRise
  split
  case isFalse => exact .idle b s
  case isTrue empty =>
    refine .after ((BayStep.modBay (f := fun y => { y with presentFilter := Filter.taken true }) fun g =>
      good_plain g rfl rfl rfl rfl rfl rfl rfl rfl).trans (.post b _ .bayAttached (.bay b))) ?_
    dsimp only
    split
    · exact .finish (.cutOffBay b _ _)
    · exact .finish (.beginSweep (by simp [empty]))

theorem actsAt_detach (b : BayId) (s : State) : ActsAt b s (execDetach b s) := by
  unfold execDetach
  split
  · exact .idle b s
  · exact .finish ((BayStep.detach b s).trans (.post b _ _ _))

theorem BayStep.ignitionTaken (b : BayId) (s : State) (value : Bool) :
    BayStep b s (s.modBay b fun z => { z with ignitionFilter := Filter.taken value }) :=
  .modBay fun g => good_plain g rfl rfl rfl rfl rfl rfl rfl rfl

theorem actsAt_ignitionRise (b : BayId) (s : State) : ActsAt b s (execIgnitionRise b s) := by
  unfold execIgnitionRise
  dsimp only
  split
  · exact .idle b s
  · refine .after (.ignitionTaken b s true) ?_
    split
    · refine .after (.post b _ .ignitionChange (.bay b)) ?_
      split
      · exact .finish (.cutOffBay b _ _)
      · exact .finish (.refl b _)
    · exact .finish (.refl b _)

theorem actsAt_ignitionFall (b : BayId) (s : State) : ActsAt b s (execIgnitionFall b s) := by
  unfold execIgnitionFall
  dsimp only
  split
  · exact .idle b s
  · refine .after (.ignitionTaken b s false) ?_
    split
    · exact .finish (.post b _ _ _)
    · exact .finish (.refl b _)

theorem actsAt_frameSent (b : BayId) (s : State) : ActsAt b s (execFrameSent b s) := by
  unfold execFrameSent
  refine .after (.modBay good_startLine) ?_
  generalize s.modBay b Bay.startLine = t
  unfold State.frameSent
  dsimp only
  split
  case h_2 => exact .idle b t
  case h_1 tr sends outstanding =>
    have busy : (t.bay b).engine.state ≠ .idle := by simp [sends]
    split
    · split
      case isTrue => exact .finish (.modBay good_endDrain)
      case isFalse undrained => exact .finish (.takeBlockSent busy outstanding (by simpa using undrained))
    · exact .finish (.modBay fun g => good_of g rfl rfl rfl rfl rfl fun quiet =>
        ⟨quiet.passes, quiet.switching, quiet.offered, fun _ => quiet.drained busy⟩)

theorem actsAt_replyReceived (b : BayId) (frame : List Byte) (s : State) :
    ActsAt b s (execReplyReceived b frame s) := by
  unfold execReplyReceived
  dsimp only
  split
  case h_2 => exact .idle b s
  case h_1 tr awaits outstanding =>
    have busy : (s.bay b).engine.state ≠ .idle := by simp [awaits]
    split
    case isTrue => exact .finish (.modBay good_endDrain)
    case isFalse undrained =>
      have undrained : tr.drained = false := by simpa using undrained
      split
      · exact .finish (.noReplyAttempt busy outstanding)
      · exact .finish (.notReady busy outstanding undrained)
      · exact .finish (.handBack busy outstanding undrained _)

theorem actsAt_replyAbsent (b : BayId) (s : State) : ActsAt b s (s.replyAbsent b) := by
  unfold State.replyAbsent
  split
  case h_1 tr awaits outstanding => exact .finish (.noReplyAttempt (by simp [awaits]) outstanding)
  case h_2 => exact .idle b s

theorem actsAt_pollIntervalEnd (b : BayId) (s : State) : ActsAt b s (execPollIntervalEnd b s) := by
  unfold execPollIntervalEnd
  dsimp only
  split
  case h_2 => exact .idle b s
  case h_1 tr polls outstanding =>
    split
    · exact .finish (.modBay fun g => good_of g rfl rfl rfl rfl rfl fun quiet =>
        ⟨quiet.passes, quiet.switching, quiet.offered, quiet.drained⟩)
    · exact .finish (.modBay fun g => good_resend g (fun _ => rfl) (by simp [polls]))

theorem actsAt_confirmationDeadline (b : BayId) (addr : Nat) (s : State) :
    ActsAt b s (execConfirmationDeadline b addr s) := by
  unfold execConfirmationDeadline
  split
  case h_1 => exact .idle b s
  case h_2 d member =>
    split
    · exact .finish (.confirmationDeadline (switching_of_deadlineOf member) addr)
    · exact .idle b s

theorem actsAt_activationNotice (b : BayId) (s : State) : ActsAt b s (execActivationNotice b s) := by
  unfold execActivationNotice
  split
  · exact .idle b s
  · exact .finish (BayStep.trans (.modBay fun g => good_plain g rfl rfl rfl rfl rfl rfl rfl rfl) (.takeNotice b _))

/-- Every bay event and bay line event is a step of its bay. -/
theorem actsAt_bayEvent {i : Instr} {b : BayId} (h : i.bayEvent = some b) (s : State) : ActsAt b s (exec i s) := by
  cases i <;> simp only [Instr.bayEvent, Option.some.injEq, reduceCtorEq] at h <;> subst h
  case presentRise b => exact actsAt_presentRise b s
  case detach b => exact actsAt_detach b s
  case ignitionRise b => exact actsAt_ignitionRise b s
  case ignitionFall b => exact actsAt_ignitionFall b s
  case deadlineReached b => exact .finish (.deadlineCompare b s)
  case frameSent b => exact actsAt_frameSent b s
  case replyReceived b frame => exact actsAt_replyReceived b frame s
  case replyTimeout b => exact actsAt_replyAbsent b s
  case replyCharacterTimeout b => exact actsAt_replyAbsent b s
  case pollIntervalEnd b => exact actsAt_pollIntervalEnd b s
  case confirmPollDue b => exact .finish (.modBay fun g => good_pollDue g _)
  case confirmationDeadline b addr => exact actsAt_confirmationDeadline b addr s
  case activationNotice b => exact actsAt_activationNotice b s

/-- Settles O58: each bay event is a step of its bay (`actsAt_bayEvent`). -/
theorem bayEventsStayAtTheirBay : Obligations.BayEventsStayAtTheirBay := by
  intro i b s event
  obtain ⟨u, step, ends⟩ := actsAt_bayEvent event s
  exact ⟨u, step.only, ends⟩

end Sys2Proof

end

/-! SUPPORT. The invariant of uploads and verification (`UploadsOk`) under each operation on the ports' links, on the
arbiter and on the image store. A request in progress whose answer has not been produced is `Taken`. -/

section

namespace Sys2Proof

open Machine

/-! ### The responses of one link -/

theorem LinkOk.congr {t u : Port} (h : LinkOk t) (sending : u.sending = t.sending) (waiting : u.waiting = t.waiting)
    (inProgress : u.inProgress = t.inProgress) (inReset : u.inReset = t.inReset) : LinkOk u := by
  have answers : u.answers = t.answers := by rw [Port.answers, Port.answers, sending, waiting]
  exact ⟨answers ▸ h.one, fun some => inProgress ▸ h.asked (answers ▸ some), fun none => waiting ▸ h.order (sending ▸ none),
    waiting ▸ h.refusals, fun held => by rw [sending, inProgress]; exact h.held (inReset ▸ held)⟩

/-- Producing a response adds it to those that the port sends or that wait. -/
theorem responses_produce {t : Port} (h : t.sending = none → t.waiting = []) (r : Response) :
    (Port.produce r t).sending.toList ++ (Port.produce r t).waiting = t.sending.toList ++ t.waiting ++ [r] := by
  rcases produce_order r t with ⟨line, sending, waiting⟩ | ⟨q, line, sending, waiting⟩
  · simp [sending, waiting, line, h line]
  · simp [sending, waiting, line]

theorem answers_produce {t : Port} (h : t.sending = none → t.waiting = []) (r : Response) :
    (Port.produce r t).answers = t.answers + if r.kind = .refusal then 0 else 1 := by
  unfold Port.answers
  rw [responses_produce h, List.countP_append]
  by_cases kind : r.kind = .refusal <;> simp [kind]

/-- The response of the request in progress, not answered yet, is produced (R175, R176). -/
theorem LinkOk.produce {t : Port} (h : LinkOk t) {r : Response} (kind : r.kind ≠ .refusal) (asked : t.inProgress = true)
    (unanswered : t.answers = 0) : LinkOk (Port.produce r t) := by
  have answers := answers_produce h.order r
  obtain ⟨-, -, inReset, inProgress, -⟩ := produce_frame r t
  have free : t.inReset ≠ true := fun held => by simp [(h.held held).2] at asked
  refine ⟨by simp [answers, unanswered, kind], fun _ => inProgress.trans asked, fun none => ?_, ?_,
    fun held => absurd (inReset ▸ held) free⟩
  · rcases produce_order r t with ⟨-, sending, -⟩ | ⟨q, -, sending, -⟩ <;> simp [sending] at none
  · rcases produce_order r t with ⟨-, -, waiting⟩ | ⟨q, -, -, waiting⟩ <;> rw [waiting]
    · exact h.refusals
    · simpa [List.countP_append, kind] using h.refusals

/-- A refusal that is produced with none waiting (R176). -/
theorem LinkOk.produceRefusal {t : Port} (h : LinkOk t) {r : Response} (kind : r.kind = .refusal)
    (free : t.inReset = false) (none : ∀ q ∈ t.waiting, q.kind ≠ .refusal) : LinkOk (Port.produce r t) := by
  have answers : (Port.produce r t).answers = t.answers := by simp [answers_produce h.order, kind]
  obtain ⟨-, -, inReset, inProgress, -⟩ := produce_frame r t
  refine ⟨answers ▸ h.one, fun some => inProgress.trans (h.asked (answers ▸ some)), fun none => ?_, ?_,
    fun held => by simp [inReset, free] at held⟩
  · rcases produce_order r t with ⟨-, sending, -⟩ | ⟨q, -, sending, -⟩ <;> simp [sending] at none
  · have zero : t.waiting.countP (fun q => q.kind == .refusal) = 0 := by simpa [List.countP_eq_zero] using none
    rcases produce_order r t with ⟨-, -, waiting⟩ | ⟨q, -, -, waiting⟩ <;> rw [waiting]
    · exact h.refusals
    · simp [List.countP_append, zero, kind]

/-- The responses left when the one on the line has been sent (R176). -/
theorem responses_sent {t : Port} {r : Response} (h : t.sending = some r) :
    t.sending.toList ++ t.waiting = r :: (t.sent.sending.toList ++ t.sent.waiting) := by
  cases waiting : t.waiting <;> simp [Port.sent, h, waiting]

theorem answers_sent {t : Port} {r : Response} (h : t.sending = some r) :
    t.answers = t.sent.answers + if r.kind = .refusal then 0 else 1 := by
  unfold Port.answers
  rw [responses_sent h, List.countP_cons]
  by_cases kind : r.kind = .refusal <;> simp [kind]

theorem LinkOk.sent {t : Port} (h : LinkOk t) {r : Response} (line : t.sending = some r) : LinkOk t.sent := by
  have answers := answers_sent line
  refine ⟨(by omega : t.sent.answers ≤ t.answers).trans h.one, fun some => h.asked (by omega), fun none => ?_, ?_,
    fun held => absurd (h.held held).1 (by simp [line])⟩
  · have waiting : t.waiting = [] := List.head?_eq_none_iff.mp none
    simp [Port.sent, waiting]
  · exact (List.tail_sublist t.waiting).countP_le.trans h.refusals

/-- The answer on the line has been sent: no other answer is left, and the request is no longer in progress (R175). -/
theorem LinkOk.answered {t : Port} (h : LinkOk t) {r : Response} (line : t.sending = some r) (kind : r.kind ≠ .refusal) :
    LinkOk t.answered := by
  have none : t.sent.answers = 0 := by
    have := answers_sent line
    have := h.one
    simp only [kind, if_false] at *
    omega
  obtain ⟨one, -, order, refusals, held⟩ := h.sent line
  exact ⟨one, fun some => absurd (show 0 < t.sent.answers from some) (by omega), order, refusals,
    fun inReset => ⟨(held inReset).1, rfl⟩⟩

theorem LinkOk.reset (t : Port) : LinkOk t.reset :=
  ⟨by simp [Port.reset, Port.answers], fun some => by simp [Port.reset, Port.answers] at some, fun _ => rfl,
    by simp [Port.reset], fun _ => ⟨rfl, rfl⟩⟩

/-! ### States alike for uploads and verification -/

/-- Two states alike in all that the invariant of uploads and verification reads; a grant may have ended. -/
structure SameUploads (s t : State) : Prop where
  ports : ∀ p, (t.port p).sending = (s.port p).sending ∧ (t.port p).waiting = (s.port p).waiting ∧
    (t.port p).inProgress = (s.port p).inProgress ∧ (t.port p).inReset = (s.port p).inReset ∧
    (t.port p).upload = (s.port p).upload ∧ (t.port p).write = (s.port p).write
  segmentCount : t.store.segmentCount = s.store.segmentCount
  catalogue : t.store.catalogue = s.store.catalogue
  pointer : t.store.pointer = s.store.pointer
  queue : t.store.verifier.queue = s.store.verifier.queue
  writes : ∀ p chunk, t.store.granted = some (.portWrite p chunk) → s.store.granted = some (.portWrite p chunk)
  verifies : t.store.granted = some (.verifyRead true) → s.store.granted = some (.verifyRead true)

theorem entries_congr {st su : ImageStore} (h : su.catalogue = st.catalogue) : su.entries = st.entries := by
  rw [ImageStore.entries, ImageStore.entries, h]

theorem find_congr {st su : ImageStore} (h : su.catalogue = st.catalogue) (id : Nat) : su.find id = st.find id := by
  rw [ImageStore.find, ImageStore.find, entries_congr h]

theorem StoreOk.congr {st su : ImageStore} (h : StoreOk st) (segmentCount : su.segmentCount = st.segmentCount)
    (catalogue : su.catalogue = st.catalogue) (pointer : su.pointer = st.pointer) : StoreOk su := by
  have entries := entries_congr catalogue
  have owned : su.owned = st.owned := by rw [ImageStore.owned, ImageStore.owned, entries]
  exact ⟨by rw [segmentCount, pointer]; exact h.pointer, by rw [owned, segmentCount]; exact h.inMap,
    by rw [owned]; exact h.once,
    entries ▸ h.sizes, entries ▸ h.ids⟩

theorem answers_congr {t u : Port} (sending : u.sending = t.sending) (waiting : u.waiting = t.waiting) :
    u.answers = t.answers := by rw [Port.answers, Port.answers, sending, waiting]

theorem UploadsOk.same {s t : State} (h : UploadsOk s) (k : SameUploads s t) : UploadsOk t := by
  have entries := entries_congr k.catalogue
  have upload : ∀ p, (t.port p).upload = (s.port p).upload := fun p => (k.ports p).2.2.2.2.1
  refine ⟨fun p => ?_, h.store.congr k.segmentCount k.catalogue k.pointer, ⟨fun p c => ?_, fun p q c d => ?_, ?_, ?_⟩,
    ⟨fun p chunk writes => ?_, fun p chunk granted => ?_, fun granted => ?_⟩⟩
  · obtain ⟨sending, waiting, inProgress, inReset, -⟩ := k.ports p
    exact (h.links p).congr sending waiting inProgress inReset
  · rw [upload p, entries]; exact h.stages.uploads p c
  · rw [upload p, upload q]; exact h.stages.single p q c d
  · rw [k.queue, entries]; exact h.stages.queue
  · rw [k.queue]; exact h.stages.once
  · obtain ⟨sending, waiting, inProgress, -, -, write⟩ := k.ports p
    rw [inProgress, answers_congr sending waiting, upload p]
    simp only [find_congr k.catalogue]
    exact h.access.writes p chunk (writes.imp (write ▸ ·) (k.writes p chunk))
  · obtain ⟨-, -, -, -, -, write⟩ := k.ports p
    rw [write]; exact h.access.single p chunk (k.writes p chunk granted)
  · rw [k.queue]; exact h.access.verifies (k.verifies granted)

theorem SameUploads.trans {s t u : State} (h : SameUploads s t) (k : SameUploads t u) : SameUploads s u where
  ports p :=
    have ⟨h1, h2, h3, h4, h5, h6⟩ := h.ports p
    have ⟨k1, k2, k3, k4, k5, k6⟩ := k.ports p
    ⟨k1.trans h1, k2.trans h2, k3.trans h3, k4.trans h4, k5.trans h5, k6.trans h6⟩
  segmentCount := k.segmentCount.trans h.segmentCount
  catalogue := k.catalogue.trans h.catalogue
  pointer := k.pointer.trans h.pointer
  queue := k.queue.trans h.queue
  writes p chunk granted := h.writes p chunk (k.writes p chunk granted)
  verifies granted := h.verifies (k.verifies granted)

/-- The marking of a bay's read as discarded makes no write and no verification read. -/
theorem forget_eq_some {b : BayId} {g : Option Grant} {x : Grant} (notRead : ∀ c i k l, x ≠ .bayRead c i k l)
    (h : g.map (Grant.forget b) = some x) : g = some x := by
  cases g with
  | none => exact h
  | some g =>
    cases g with
    | bayRead c i k l => exact absurd (Option.some.inj h).symm (notRead _ _ _ _)
    | portWrite q chunk => exact h
    | verifyRead live => exact h

theorem SameUploads.onlyBay {b : BayId} {s t : State} (h : OnlyBay b s t) : SameUploads s t where
  ports p := by
    obtain ⟨l, posted⟩ := h.posts
    obtain ⟨-, -, inReset, inProgress, sending, waiting, upload, write, -⟩ := posts_frame l (s.port p)
    rw [posted p]
    exact ⟨sending, waiting, inProgress, inReset, upload, write⟩
  segmentCount := h.segmentCount
  catalogue := h.catalogue
  pointer := h.pointer
  queue := by rw [h.verifier]
  writes p chunk granted := by
    rcases h.granted with same | forgotten
    · rwa [same] at granted
    · exact forget_eq_some (fun _ _ _ _ => nofun) (forgotten ▸ granted)
  verifies granted := by
    rcases h.granted with same | forgotten
    · rwa [same] at granted
    · exact forget_eq_some (fun _ _ _ _ => nofun) (forgotten ▸ granted)

theorem SameUploads.of_eq {s t : State} (ports : t.ports = s.ports) (store : t.store = s.store) : SameUploads s t := by
  have port := State.port_of_ports ports
  refine ⟨fun p => ?_, ?_, ?_, ?_, ?_, fun p chunk => ?_, ?_⟩
  · rw [port]; exact ⟨rfl, rfl, rfl, rfl, rfl, rfl⟩
  all_goals rw [store]
  all_goals exact id

theorem SameUploads.endGrant (s : State) : SameUploads s s.endGrant where
  ports _ := ⟨rfl, rfl, rfl, rfl, rfl, rfl⟩
  segmentCount := rfl
  catalogue := rfl
  pointer := rfl
  queue := rfl
  writes _ _ := nofun
  verifies := nofun

/-- A change of a port outside its link, its upload and its write. -/
theorem SameUploads.modPort {s : State} {p : PortId} {f : Port → Port} (keeps : ∀ t, (f t).sending = t.sending ∧
    (f t).waiting = t.waiting ∧ (f t).inProgress = t.inProgress ∧ (f t).inReset = t.inReset ∧ (f t).upload = t.upload ∧
    (f t).write = t.write) : SameUploads s (s.modPort p f) where
  ports q := by
    by_cases same : q = p
    · subst same; rw [State.port_modPort_same]; exact keeps _
    · rw [State.port_modPort_other _ _ same]; exact ⟨rfl, rfl, rfl, rfl, rfl, rfl⟩
  segmentCount := rfl
  catalogue := rfl
  pointer := rfl
  queue := rfl
  writes _ _ := id
  verifies := id

/-! ### The link of one port -/

/-- Another link at one port, which still answers for the write of that port. -/
theorem UploadsOk.link {p : PortId} {s t : State} (h : UploadsOk s) (store : t.store = s.store)
    (others : ∀ q, q ≠ p → t.port q = s.port q) (upload : (t.port p).upload = (s.port p).upload)
    (write : (t.port p).write = (s.port p).write) (link : LinkOk (t.port p))
    (open' : ∀ chunk, (s.port p).write = some chunk ∨ s.store.granted = some (.portWrite p chunk) →
      (t.port p).inProgress = true ∧ (t.port p).answers = 0) : UploadsOk t := by
  have uploads : ∀ q, (t.port q).upload = (s.port q).upload := fun q => by
    by_cases same : q = p
    · subst same; exact upload
    · rw [others q same]
  have writes : ∀ q, (t.port q).write = (s.port q).write := fun q => by
    by_cases same : q = p
    · subst same; exact write
    · rw [others q same]
  refine ⟨fun q => ?_, store ▸ h.store, ⟨fun q c => ?_, fun q r c d => ?_, ?_, ?_⟩,
    ⟨fun q chunk waits => ?_, fun q chunk granted => ?_, fun granted => ?_⟩⟩
  · by_cases same : q = p
    · subst same; exact link
    · rw [others q same]; exact h.links q
  · rw [uploads q, store]; exact h.stages.uploads q c
  · rw [uploads q, uploads r]; exact h.stages.single q r c d
  · rw [store]; exact h.stages.queue
  · rw [store]; exact h.stages.once
  · rw [writes q, store] at waits
    obtain ⟨asked, unanswered, within⟩ := h.access.writes q chunk waits
    rw [uploads q, store]
    by_cases same : q = p
    · subst same
      obtain ⟨asked, unanswered⟩ := open' chunk waits
      exact ⟨asked, unanswered, within⟩
    · rw [others q same]
      exact ⟨asked, unanswered, within⟩
  · rw [writes q]; exact h.access.single q chunk (store ▸ granted)
  · rw [store]; exact h.access.verifies (store ▸ granted)

theorem UploadsOk.onlyLink {p : PortId} {s t : State} (h : UploadsOk s) (k : OnlyLink p s t) (link : LinkOk (t.port p))
    (open' : ∀ chunk, (s.port p).write = some chunk ∨ s.store.granted = some (.portWrite p chunk) →
      (t.port p).inProgress = true ∧ (t.port p).answers = 0) : UploadsOk t :=
  h.link k.store k.others k.upload k.write link open'

theorem OnlyLink.refuse (s : State) (p : PortId) (st : Status) (body : Body) : OnlyLink p s (s.refuse p st body) := by
  refine OnlyLink.modPort s p _ fun t => ?_
  split
  · exact ⟨rfl, rfl, rfl, rfl, rfl, rfl, rfl⟩
  · obtain ⟨role, -, inReset, -, upload, write, events, enable, attention⟩ :=
      produce_frame { kind := .refusal, status := st, body := body } t
    exact ⟨role, inReset, upload, write, events, enable, attention⟩

/-- The port after a refusal: one that waits keeps a second one from being sent (R176). -/
theorem port_refuse (s : State) (p : PortId) (st : Status) (body : Body) : (s.refuse p st body).port p =
    if (s.port p).waiting.any fun r => r.kind == .refusal then s.port p
    else (s.port p).produce { kind := .refusal, status := st, body := body } :=
  State.port_modPort_same s p _

theorem UploadsOk.refuse {s : State} (h : UploadsOk s) {p : PortId} (free : (s.port p).inReset = false) (st : Status)
    (body : Body) : UploadsOk (s.refuse p st body) := by
  have link := h.links p
  refine h.onlyLink (OnlyLink.refuse s p st body) ?_ fun chunk writes => ?_
  · rw [port_refuse]
    split
    case isTrue => exact link
    case isFalse none => exact link.produceRefusal rfl free (by simpa using none)
  · obtain ⟨asked, unanswered, -⟩ := h.access.writes p chunk writes
    rw [port_refuse]
    split
    · exact ⟨asked, unanswered⟩
    · obtain ⟨-, -, -, inProgress, -⟩ := produce_frame { kind := .refusal, status := st, body := body } (s.port p)
      rw [inProgress, answers_produce link.order]
      exact ⟨asked, by simpa using unanswered⟩

/-! ### A request taken and not answered yet -/

/-- A port's request is in progress, its answer has not been produced, and no write of it waits or is carried out. -/
structure Taken (p : PortId) (s : State) : Prop where
  ok : UploadsOk s
  asked : (s.port p).inProgress = true
  unanswered : (s.port p).answers = 0
  unwritten : (s.port p).write = none
  ungranted : ∀ chunk, s.store.granted ≠ some (.portWrite p chunk)

theorem hears_iff (t : Port) : t.hears = true ↔ t.inReset = false ∧ t.framer ≠ .discard := by simp [Port.hears]

/-- With no request in progress nothing is answered, and no write of the port is under way. -/
theorem idle_of_free {s : State} (h : UploadsOk s) {p : PortId} (free : (s.port p).inProgress = false) :
    (s.port p).answers = 0 ∧ (s.port p).write = none ∧ ∀ chunk, s.store.granted ≠ some (.portWrite p chunk) := by
  have busy : ∀ chunk, ¬((s.port p).write = some chunk ∨ s.store.granted = some (.portWrite p chunk)) :=
    fun chunk writes => by simp [(h.access.writes p chunk writes).1] at free
  refine ⟨?_, ?_, fun chunk granted => busy chunk (.inr granted)⟩
  · by_contra some
    simp [(h.links p).asked (Nat.pos_of_ne_zero some)] at free
  · cases write : (s.port p).write with
    | none => rfl
    | some chunk => exact absurd (.inl write) (busy chunk)

theorem Taken.intake {s : State} (h : UploadsOk s) {p : PortId} (hears : (s.port p).hears = true)
    (free : (s.port p).inProgress = false) : Taken p (s.intake p) := by
  obtain ⟨unanswered, unwritten, ungranted⟩ := idle_of_free h free
  obtain ⟨inReset, -⟩ := (hears_iff _).mp hears
  have port := port_intake_same s p
  refine ⟨h.onlyLink (OnlyLink.intake s p) ?_ fun chunk writes => ?_, by rw [port], by rw [port]; exact unanswered,
    by rw [port]; exact unwritten, ungranted⟩
  · rw [port]
    have link := h.links p
    exact ⟨link.one, fun _ => rfl, link.order, link.refusals, fun held => by simp [inReset] at held⟩
  · exact absurd writes (by simp [unwritten, ungranted])

theorem Taken.same {p : PortId} {s t : State} (h : Taken p s) (k : SameUploads s t) : Taken p t := by
  obtain ⟨sending, waiting, inProgress, -, -, write⟩ := k.ports p
  exact ⟨h.ok.same k, inProgress.trans h.asked, (answers_congr sending waiting).trans h.unanswered, write.trans h.unwritten,
    fun chunk granted => h.ungranted chunk (k.writes p chunk granted)⟩

/-- The request's answer is produced, of whatever kind but a refusal. -/
theorem Taken.produce {p : PortId} {s : State} (h : Taken p s) {r : Response} (kind : r.kind ≠ .refusal) :
    UploadsOk (s.modPort p (Port.produce r)) := by
  refine h.ok.onlyLink (OnlyLink.modPort s p _ fun t => ?_) ?_ fun chunk writes =>
    absurd writes (by simp [h.unwritten, h.ungranted])
  · obtain ⟨role, -, inReset, -, upload, write, events, enable, attention⟩ := produce_frame r t
    exact ⟨role, inReset, upload, write, events, enable, attention⟩
  · rw [State.port_modPort_same]
    exact (h.ok.links p).produce kind h.asked h.unanswered

theorem Taken.respond {p : PortId} {s : State} (h : Taken p s) (st : Status) (body : Body) :
    UploadsOk (s.respond p st body) := h.produce nofun

/-! ### The arbiter (R58) -/

/-- The arbiter grants an access that waits, or leaves the state as it is. -/
theorem arbitrate_grants (s : State) : s.arbitrate = s ∨ ∃ i g n, s.store.granted = none ∧ s.accessAt i = some g ∧
    s.arbitrate = { s.clearAccess g with store := { s.store with granted := some g, searchFrom := n } } := by
  unfold State.arbitrate
  split
  case h_1 => exact .inl rfl
  case h_2 free =>
    split
    case h_1 => exact .inl rfl
    case h_2 i _ =>
      split
      case h_1 => exact .inl rfl
      case h_2 g waits => exact .inr ⟨i, g, (i + 1) % 12, free, waits, by cases g <;> rfl⟩

/-- What waits at a place of the ring: a bay's read, a port's chunk, or a verification read with an image queued. -/
theorem accessAt_eq_some {s : State} {i : Nat} {g : Grant} (h : s.accessAt i = some g) :
    (∃ b image block, g = .bayRead b image block true) ∨
    (∃ p chunk, g = .portWrite p chunk ∧ (s.port p).write = some chunk) ∨
    g = .verifyRead true ∧ s.store.verifier.queue ≠ [] := by
  unfold State.accessAt at h
  split at h
  · split at h
    · exact .inl ⟨_, _, _, (Option.some.inj h).symm⟩
    · exact nomatch h
  · split at h
    · split at h
      case h_1 chunk waits => exact .inr (.inl ⟨_, chunk, (Option.some.inj h).symm, waits⟩)
      case h_2 => exact nomatch h
    · split at h
      · exact nomatch h
      case isFalse queued => exact .inr (.inr ⟨(Option.some.inj h).symm, by simpa using queued⟩)

/-- A port's waiting chunk is granted (R58). -/
theorem UploadsOk.grantWrite {s : State} (h : UploadsOk s) {p : PortId} {chunk : List Byte}
    (waits : (s.port p).write = some chunk) (n : Nat) : UploadsOk { s.modPort p (fun t => { t with write := none }) with
      store := { s.store with granted := some (.portWrite p chunk), searchFrom := n } } := by
  have same : ∀ q, q ≠ p → (s.modPort p fun t => { t with write := none }).port q = s.port q := fun q other =>
    State.port_modPort_other s _ other
  have at' : (s.modPort p fun t => { t with write := none }).port p = { s.port p with write := none } :=
    State.port_modPort_same s p _
  have upload : ∀ q, ((s.modPort p fun t => { t with write := none }).port q).upload = (s.port q).upload := fun q => by
    by_cases e : q = p
    · subst e; rw [at']
    · rw [same q e]
  refine ⟨fun q => ?_, h.store.congr rfl rfl rfl, ⟨fun q c => ?_, fun q r c d => ?_, h.stages.queue, h.stages.once⟩,
    ⟨fun q chunk' writes => ?_, fun q chunk' granted => ?_, nofun⟩⟩
  · show LinkOk ((s.modPort p fun t => { t with write := none }).port q)
    by_cases e : q = p
    · subst e; rw [at']; exact (h.links q).congr rfl rfl rfl rfl
    · rw [same q e]; exact h.links q
  · show ((s.modPort p fun t => { t with write := none }).port q).upload = some c → _
    rw [upload q]; exact h.stages.uploads q c
  · show ((s.modPort p fun t => { t with write := none }).port q).upload = some c →
      ((s.modPort p fun t => { t with write := none }).port r).upload = some d → _
    rw [upload q, upload r]; exact h.stages.single q r c d
  · change ((s.modPort p fun t => { t with write := none }).port q).write = some chunk' ∨
      some (Grant.portWrite p chunk) = some (.portWrite q chunk') at writes
    show ((s.modPort p fun t => { t with write := none }).port q).inProgress = true ∧
      ((s.modPort p fun t => { t with write := none }).port q).answers = 0 ∧
      ∃ c e, ((s.modPort p fun t => { t with write := none }).port q).upload = some c ∧ s.store.find c.image = some e ∧
        c.cursor + chunk'.length ≤ e.length
    by_cases e : q = p
    · subst e
      rw [at'] at writes ⊢
      obtain ⟨-, rfl⟩ : q = q ∧ chunk = chunk' := by simpa using writes
      exact h.access.writes q chunk (.inl waits)
    · rw [same q e] at writes ⊢
      refine h.access.writes q chunk' (writes.imp_right fun granted => ?_)
      simp only [Option.some.injEq, Grant.portWrite.injEq] at granted
      exact absurd granted.1.symm e
  · simp only [Option.some.injEq, Grant.portWrite.injEq] at granted
    obtain ⟨rfl, rfl⟩ := granted
    show ((s.modPort p fun t => { t with write := none }).port p).write = none
    rw [at']

theorem UploadsOk.arbitrate {s : State} (h : UploadsOk s) : UploadsOk s.arbitrate := by
  rcases arbitrate_grants s with same | ⟨i, g, n, free, waits, granted⟩
  · rw [same]; exact h
  · rw [granted]
    rcases accessAt_eq_some waits with ⟨b, image, block, rfl⟩ | ⟨p, chunk, rfl, write⟩ | ⟨rfl, queued⟩
    · exact h.same ⟨fun _ => ⟨rfl, rfl, rfl, rfl, rfl, rfl⟩, rfl, rfl, rfl, rfl, fun _ _ => nofun, nofun⟩
    · exact h.grantWrite write n
    · refine ⟨h.links, h.store.congr rfl rfl rfl,
        ⟨h.stages.uploads, h.stages.single, h.stages.queue, h.stages.once⟩,
        ⟨fun p chunk writes => ?_, fun _ _ => nofun, fun _ => queued⟩⟩
      exact h.access.writes p chunk (writes.imp_right nofun)

/-! ### The image store -/

/-- In a sound store an entry is found by its id. -/
theorem find_iff {st : ImageStore} (h : StoreOk st) (id : Nat) (e : Entry) :
    st.find id = some e ↔ e ∈ st.entries ∧ e.id = id := by
  refine ⟨find_some, fun ⟨mem, named⟩ => ?_⟩
  obtain ⟨pos, at'⟩ := (mem_entries st e).mp mem
  exact named ▸ (find_of_pos h at').1

theorem entry_unique {st : ImageStore} (h : StoreOk st) {e x : Entry} (he : e ∈ st.entries) (hx : x ∈ st.entries)
    (same : e.id = x.id) : e = x := List.inj_on_of_nodup_map h.ids he hx same

/-- A change of the catalogue's positions changes nothing else of the store. -/
theorem mapPositions_rest (st : ImageStore) (f : Option Entry → Option Entry) :
    (st.mapPositions f).segmentCount = st.segmentCount ∧ (st.mapPositions f).pointer = st.pointer ∧
    (st.mapPositions f).mem = st.mem ∧ (st.mapPositions f).verifier = st.verifier ∧
    (st.mapPositions f).granted = st.granted ∧ (st.mapPositions f).searchFrom = st.searchFrom := by
  unfold ImageStore.mapPositions
  exact ⟨rfl, rfl, rfl, rfl, rfl, rfl⟩

theorem deleteWhere_rest (st : ImageStore) (test : Entry → Bool) :
    (st.deleteWhere test).segmentCount = st.segmentCount ∧ (st.deleteWhere test).pointer = st.pointer ∧
    (st.deleteWhere test).mem = st.mem ∧ (st.deleteWhere test).verifier = st.verifier ∧
    (st.deleteWhere test).granted = st.granted ∧ (st.deleteWhere test).searchFrom = st.searchFrom := mapPositions_rest st _

theorem modEntry_rest (st : ImageStore) (id : Nat) (f : Entry → Entry) :
    (st.modEntry id f).segmentCount = st.segmentCount ∧ (st.modEntry id f).pointer = st.pointer ∧
    (st.modEntry id f).mem = st.mem ∧ (st.modEntry id f).verifier = st.verifier ∧
    (st.modEntry id f).granted = st.granted ∧ (st.modEntry id f).searchFrom = st.searchFrom := mapPositions_rest st _

/-- Deleting entries keeps a store sound. -/
theorem StoreOk.deleteWhere {st : ImageStore} (h : StoreOk st) (test : Entry → Bool) : StoreOk (st.deleteWhere test) := by
  have entries := entries_deleteWhere st test
  have sub : (st.deleteWhere test).entries.Sublist st.entries := by
    rw [entries]; exact List.filter_sublist
  have owned : (st.deleteWhere test).owned.Sublist st.owned := sub.flatMap _
  obtain ⟨segmentCount, pointer, -⟩ := deleteWhere_rest st test
  exact ⟨by rw [segmentCount, pointer]; exact h.pointer,
    fun seg mem => by rw [segmentCount]; exact h.inMap seg (owned.subset mem), h.once.sublist owned,
    fun e mem => h.sizes e (sub.subset mem), h.ids.sublist (sub.map _)⟩

/-- Changing an entry's state, pin or port keeps a store sound. -/
theorem StoreOk.modEntry {st : ImageStore} (h : StoreOk st) (id : Nat) {f : Entry → Entry}
    (keeps : ∀ e, (f e).id = e.id ∧ (f e).length = e.length ∧ (f e).segments = e.segments) : StoreOk (st.modEntry id f) := by
  have entries := entries_modEntry st id f
  have same : ∀ e, (if e.id == id then f e else e).id = e.id ∧ (if e.id == id then f e else e).length = e.length ∧
      (if e.id == id then f e else e).segments = e.segments := fun e => by
    split
    · exact keeps e
    · exact ⟨rfl, rfl, rfl⟩
  have owned : (st.modEntry id f).owned = st.owned := by
    rw [ImageStore.owned, entries, List.flatMap_map]
    exact List.flatMap_congr fun e _ => (same e).2.2
  obtain ⟨segmentCount, pointer, -⟩ := modEntry_rest st id f
  refine ⟨by rw [segmentCount, pointer]; exact h.pointer, by rw [owned, segmentCount]; exact h.inMap,
    by rw [owned]; exact h.once,
    fun e mem => ?_, ?_⟩
  · rw [entries] at mem
    obtain ⟨x, old, rfl⟩ := List.mem_map.mp mem
    have sizes := h.sizes x old
    rwa [(same x).2.2, Entry.segmentNeed, (same x).2.1]
  · rw [entries, List.map_map]
    exact (List.map_congr_left fun e _ => (same e).1) ▸ h.ids

/-- Another catalogue that keeps what the uploads, the waiting chunks and the verification queue read of their entries. -/
theorem UploadsOk.restore {s t : State} (h : UploadsOk s) (ports : t.ports = s.ports) (store : StoreOk t.store)
    (queue : t.store.verifier.queue = s.store.verifier.queue) (granted : t.store.granted = s.store.granted)
    (keeps : ∀ e ∈ s.store.entries, e.state = .loading ∨ e.state = .verifying →
      ∃ x ∈ t.store.entries, x.id = e.id ∧ x.state = e.state ∧ x.length = e.length) : UploadsOk t := by
  have port := fun p => State.port_of_ports ports p
  refine ⟨fun p => port p ▸ h.links p, store, ⟨fun p c upload => ?_, fun p q c d => ?_, fun id queued => ?_, ?_⟩,
    ⟨fun p chunk writes => ?_, fun p chunk writes => ?_, fun verifies => ?_⟩⟩
  · obtain ⟨e, mem, named, loading⟩ := h.stages.uploads p c (port p ▸ upload)
    obtain ⟨x, mem, same, state, -⟩ := keeps e mem (.inl loading)
    exact ⟨x, mem, same.trans named, state.trans loading⟩
  · rw [port p, port q]; exact h.stages.single p q c d
  · obtain ⟨e, mem, named, verifying⟩ := h.stages.queue id (queue ▸ queued)
    obtain ⟨x, mem, same, state, -⟩ := keeps e mem (.inr verifying)
    exact ⟨x, mem, same.trans named, state.trans verifying⟩
  · exact queue ▸ h.stages.once
  · rw [port p, granted] at writes
    obtain ⟨asked, unanswered, c, e, upload, found, fits⟩ := h.access.writes p chunk writes
    obtain ⟨y, ymem, named, loading⟩ := h.stages.uploads p c upload
    obtain rfl : e = y := Option.some.inj (found.symm.trans ((find_iff h.store _ _).mpr ⟨ymem, named⟩))
    obtain ⟨x, mem, same, -, length⟩ := keeps e ymem (.inl loading)
    rw [port p]
    exact ⟨asked, unanswered, c, x, upload, (find_iff store _ _).mpr ⟨mem, same.trans named⟩, length ▸ fits⟩
  · rw [port p]; exact h.access.single p chunk (granted ▸ writes)
  · rw [queue]; exact h.access.verifies (granted ▸ verifies)

theorem Taken.restore {p : PortId} {s t : State} (h : Taken p s) (ports : t.ports = s.ports) (store : StoreOk t.store)
    (queue : t.store.verifier.queue = s.store.verifier.queue) (granted : t.store.granted = s.store.granted)
    (keeps : ∀ e ∈ s.store.entries, e.state = .loading ∨ e.state = .verifying →
      ∃ x ∈ t.store.entries, x.id = e.id ∧ x.state = e.state ∧ x.length = e.length) : Taken p t := by
  have port := State.port_of_ports ports p
  exact ⟨h.ok.restore ports store queue granted keeps, port ▸ h.asked, port ▸ h.unanswered, port ▸ h.unwritten,
    granted ▸ h.ungranted⟩

end Sys2Proof

end

/-! SUPPORT. What a command keeps: the clock, the plans and the conditions of the part and of the fleet table (`Sound`),
the catalogue (`Calm`), and the invariant of uploads and verification; said for every command but the ones that reset
the part, count its time, handle images or edit plans. -/

section

namespace Sys2Proof

open Machine

/-! ### The event state of a port -/

theorem count_add (e : EventEntry) (x : Subject) : (e.add x).count ≤ 255 ∧ ((e.add x).count = 0 ↔ (e.add x).subject = none) := by
  simp [EventEntry.add]

theorem PortOk.congr {t u : Port} (h : PortOk t) (events : u.events = t.events) (enable : u.enable = t.enable)
    (attention : u.attention = t.attention) (inReset : u.inReset = true → t.inReset = true) : PortOk u := by
  refine ⟨by rw [attention, events, enable]; exact h.line, by rw [events]; exact h.counts, by rw [events]; exact h.subjects,
    fun held => by rw [events, enable]; exact h.inReset (inReset held)⟩

theorem PortOk.post {t : Port} (h : PortOk t) (k : EventKind) (x : Subject) : PortOk (Port.post k x t) := by
  unfold Port.post
  split
  case isTrue => exact h
  case isFalse free =>
    have entry : ∀ i : Fin 15, (t.events.set k.number.val (t.events[k.number].add x) k.number.isLt)[i] =
        if k.number = i then t.events[k.number].add x else t.events[i] := fun i => by
      simp [Vector.getElem_set, Fin.ext_iff]
    refine ⟨rfl, fun i => ?_, fun i => ?_, fun held => absurd held free⟩
    · show (t.events.set k.number.val (t.events[k.number].add x) k.number.isLt)[i].count ≤ 255
      rw [entry]; split
      · exact (count_add _ _).1
      · exact h.counts i
    · show (t.events.set k.number.val (t.events[k.number].add x) k.number.isLt)[i].count = 0 ↔
        (t.events.set k.number.val (t.events[k.number].add x) k.number.isLt)[i].subject = none
      rw [entry]; split
      · exact (count_add _ _).2
      · exact h.subjects i

theorem PortOk.posts {t : Port} (h : PortOk t) (l : List (EventKind × Subject)) :
    PortOk (l.foldl (fun q x => Port.post x.1 x.2 q) t) := by
  induction l generalizing t with
  | nil => exact h
  | cons x rest ih => exact ih (h.post x.1 x.2)

/-! ### What most commands keep -/

/-- The queue, yard time and the plans stay as they are, and the conditions of the part and of the fleet table are kept. -/
structure Sound (s t : State) : Prop where
  pending : t.pending = s.pending
  yardTime : t.yardTime = s.yardTime
  standby : t.plans.standby = s.plans.standby
  active : t.plans.active = s.plans.active
  generation : t.plans.generation = s.plans.generation
  part : PartOk s → PartOk t
  fleet : FleetOk s → FleetOk t

theorem Sound.refl (s : State) : Sound s s := ⟨rfl, rfl, rfl, rfl, rfl, id, id⟩

theorem Sound.trans {s t u : State} (h : Sound s t) (k : Sound t u) : Sound s u :=
  ⟨k.pending.trans h.pending, k.yardTime.trans h.yardTime, k.standby.trans h.standby, k.active.trans h.active,
    k.generation.trans h.generation, k.part ∘ h.part, k.fleet ∘ h.fleet⟩

theorem PartOk.bay {s : State} (h : PartOk s) (b : BayId) : BayGood (s.bay b) := ⟨h.bays b, h.departures b⟩

theorem PartOk.of {s : State} (memory : Memory.wf s.store.mem = true) (ports : ∀ p, PortOk (s.port p))
    (bays : ∀ b, BayGood (s.bay b)) : PartOk s := ⟨memory, ports, fun b => (bays b).2, fun b => (bays b).1⟩

theorem Sound.bayStep {b : BayId} {s t : State} (h : BayStep b s t) : Sound s t := by
  refine ⟨h.only.pending, h.only.yardTime, h.only.standby, h.only.active, h.only.generation, fun part => ?_, h.fleet⟩
  refine PartOk.of (h.only.mem ▸ part.memory) (fun p => ?_) fun c => ?_
  · obtain ⟨l, posted⟩ := h.only.posts
    exact posted p ▸ (part.ports p).posts l
  · by_cases same : c = b
    · subst same; exact h.good (part.bay c)
    · exact h.only.others c same ▸ part.bay c

/-- A change of one port that keeps its event state sound. -/
theorem Sound.modPort {s : State} {p : PortId} {f : Port → Port} (h : PortOk (s.port p) → PortOk (f (s.port p))) :
    Sound s (s.modPort p f) := by
  refine ⟨rfl, rfl, rfl, rfl, rfl, fun part => PartOk.of part.memory (fun q => ?_) part.bay, fun g => g.modPort p f⟩
  by_cases same : q = p
  · subst same; rw [State.port_modPort_same]; exact h (part.ports q)
  · rw [State.port_modPort_other _ _ same]; exact part.ports q

theorem Sound.onlyLink {p : PortId} {s t : State} (h : OnlyLink p s t) : Sound s t := by
  refine ⟨h.pending, h.yardTime, by rw [h.plans], by rw [h.plans], by rw [h.plans], fun part => ?_, fun g => g.congr h.fleet⟩
  refine PartOk.of (h.store ▸ part.memory) (fun q => ?_) fun c => State.bay_of_bays h.bays c ▸ part.bay c
  by_cases same : q = p
  · subst same; exact (part.ports q).congr h.events h.enable h.attention fun held => h.inReset ▸ held
  · exact h.others q same ▸ part.ports q

theorem Sound.respond (s : State) (p : PortId) (st : Status) (body : Body) : Sound s (s.respond p st body) :=
  .onlyLink (OnlyLink.respond s p st body)

theorem Sound.arbitrate (s : State) : Sound s s.arbitrate := by
  refine ⟨arbitrate_pending s, arbitrate_yardTime s, by rw [arbitrate_plans], by rw [arbitrate_plans],
    by rw [arbitrate_plans], fun part => ?_, fun g => g.congr (arbitrate_fleet s)⟩
  refine PartOk.of (arbitrate_mem s ▸ part.memory) (fun p => ?_) fun b => ?_
  · rcases port_arbitrate s p with same | same <;> rw [same]
    · exact part.ports p
    · exact (part.ports p).congr rfl rfl rfl id
  · rcases bay_arbitrate s b with same | same <;> rw [same]
    · exact part.bay b
    · exact good_plain (part.bay b) rfl rfl rfl rfl rfl rfl rfl rfl

/-- Another image store with its memory in canonical form. -/
theorem Sound.store {s : State} {st : ImageStore} (h : Memory.wf s.store.mem = true → Memory.wf st.mem = true) :
    Sound s { s with store := st } :=
  ⟨rfl, rfl, rfl, rfl, rfl, fun part => ⟨h part.memory, part.ports, part.departures, part.bays⟩, fun g => g.store st⟩

/-- A command that keeps the clock, the plans, the conditions of the part and of the fleet table, and the catalogue. -/
structure Calm (s t : State) : Prop where
  sound : Sound s t
  catalogue : t.store.catalogue = s.store.catalogue

theorem Calm.refl (s : State) : Calm s s := ⟨.refl s, rfl⟩

theorem Calm.trans {s t u : State} (h : Calm s t) (k : Calm t u) : Calm s u :=
  ⟨h.sound.trans k.sound, k.catalogue.trans h.catalogue⟩

theorem Calm.bayStep {b : BayId} {s t : State} (h : BayStep b s t) : Calm s t := ⟨.bayStep h, h.only.catalogue⟩

theorem Calm.onlyLink {p : PortId} {s t : State} (h : OnlyLink p s t) : Calm s t := ⟨.onlyLink h, by rw [h.store]⟩

theorem Calm.modPort {s : State} {p : PortId} {f : Port → Port} (h : PortOk (s.port p) → PortOk (f (s.port p))) :
    Calm s (s.modPort p f) := ⟨.modPort h, rfl⟩

theorem Calm.arbitrate (s : State) : Calm s s.arbitrate := ⟨.arbitrate s, arbitrate_catalogue s⟩

/-! ### Commands that go on -/

/-- The command goes on to a next state in a relation to the state before, and keeps the invariant of uploads and
verification. -/
def GoesBy (R : State → State → Prop) (s : State) (r : Result) : Prop :=
  ∃ t, r = .next t ∧ R s t ∧ (UploadsOk s → UploadsOk t)

/-- What a request does once it has been taken: it goes on, and keeps the invariant with its request not answered
yet. -/
def ServesBy (R : State → State → Prop) (p : PortId) (s : State) (r : Result) : Prop :=
  ∃ t, r = .next t ∧ R s t ∧ (Taken p s → UploadsOk t)

/-- A relation that a change of one port's link does not disturb. -/
structure LinkClosed (R : State → State → Prop) : Prop where
  link : ∀ {p s t}, OnlyLink p s t → R s t
  after : ∀ {p s t u}, OnlyLink p s t → R t u → R s u

theorem ServesBy.next {R : State → State → Prop} {p : PortId} {s t : State} (rel : R s t)
    (uploads : Taken p s → UploadsOk t) : ServesBy R p s (.next t) := ⟨t, rfl, rel, uploads⟩

/-- A request answered with no other effect. -/
theorem ServesBy.answer {R : State → State → Prop} (closed : LinkClosed R) (p : PortId) (s : State) (st : Status)
    (body : Body) : ServesBy R p s (.next (s.respond p st body)) :=
  .next (closed.link (OnlyLink.respond s p st body)) fun taken => taken.respond st body

/-- A request frame: not heard, refused, or taken (R175, R177). -/
theorem GoesBy.serve {R : State → State → Prop} {α : Type} {s : State} {p : PortId} {code : Byte} {roles : List Role}
    {args : Option α} {act : α → State → Result} (closed : LinkClosed R)
    (h : ∀ a t, (t.port p).inReset = false → ServesBy R p t (act a t)) : GoesBy R s (s.serve p code roles args act) := by
  unfold State.serve
  split
  · exact ⟨s, rfl, closed.link (p := p) ⟨rfl, rfl, rfl, rfl, rfl, rfl, rfl, fun _ _ => rfl, rfl, rfl, rfl, rfl, rfl, rfl, rfl⟩,
      id⟩
  case isFalse hears =>
    have hears : (s.port p).hears = true := by simpa using hears
    split
    · exact ⟨_, rfl, closed.link (OnlyLink.refuse s p _ _), fun ok => ok.refuse ((hears_iff _).mp hears).1 _ _⟩
    case isFalse free =>
      have free : (s.port p).inProgress = false := by simpa using free
      have served : ∀ r, ServesBy R p (s.intake p) r → GoesBy R s r := fun r ⟨t, ends, rel, uploads⟩ =>
        ⟨t, ends, closed.after (OnlyLink.intake s p) rel, fun ok => uploads (Taken.intake ok hears free)⟩
      split
      · exact served _ (.answer closed p _ _ _)
      · split
        · exact served _ (.answer closed p _ _ _)
        · exact served _ (h _ _ (by rw [port_intake_same]; exact ((hears_iff _).mp hears).1))

/-! ### Commands that go on calmly -/

theorem Calm.linkClosed : LinkClosed Calm := ⟨Calm.onlyLink, fun link calm => (Calm.onlyLink link).trans calm⟩

/-- The command goes on to a next state that is calm and keeps the invariant of uploads and verification. -/
abbrev Goes : State → Result → Prop := GoesBy Calm

theorem Goes.next {s t : State} (calm : Calm s t) (uploads : UploadsOk s → UploadsOk t) : Goes s (.next t) :=
  ⟨t, rfl, calm, uploads⟩

theorem Goes.idle (s : State) : Goes s (.next s) := .next (.refl s) id

theorem Goes.actsAt {b : BayId} {s : State} {r : Result} (h : ActsAt b s r) : Goes s r := by
  obtain ⟨u, step, ends | ends⟩ := h
  · exact ⟨u, ends, .bayStep step, fun ok => ok.same (.onlyBay step.only)⟩
  · exact ⟨_, ends, (Calm.bayStep step).trans (.arbitrate u), fun ok => (ok.same (.onlyBay step.only)).arbitrate⟩

abbrev Serves : PortId → State → Result → Prop := ServesBy Calm

theorem Serves.next {p : PortId} {s t : State} (calm : Calm s t) (uploads : Taken p s → UploadsOk t) :
    Serves p s (.next t) := ⟨t, rfl, calm, uploads⟩

theorem Serves.respond {b : BayId} {p : PortId} {s t : State} (h : BayStep b s t) (st : Status) (body : Body) :
    Serves p s (.next (t.respond p st body)) :=
  .next ((Calm.bayStep h).trans (.onlyLink (OnlyLink.respond t p st body)))
    fun taken => (taken.same (.onlyBay h.only)).respond st body

theorem Serves.answer (p : PortId) (s : State) (st : Status) (body : Body) : Serves p s (.next (s.respond p st body)) :=
  ServesBy.answer Calm.linkClosed p s st body

theorem Serves.finish {b : BayId} {p : PortId} {s t : State} (h : BayStep b s t) (st : Status) (body : Body) :
    Serves p s (finish (t.respond p st body)) :=
  .next (((Calm.bayStep h).trans (.onlyLink (OnlyLink.respond t p st body))).trans (.arbitrate _))
    fun taken => ((taken.same (.onlyBay h.only)).respond st body).arbitrate

theorem Goes.serve {α : Type} {s : State} {p : PortId} {code : Byte} {roles : List Role} {args : Option α}
    {act : α → State → Result} (h : ∀ a t, (t.port p).inReset = false → Serves p t (act a t)) :
    Goes s (s.serve p code roles args act) := GoesBy.serve Calm.linkClosed h

/-! ### The requests that only read -/

theorem serves_withBus {p : PortId} {b : BayId} {s : State} {act : State → Result} (h : Serves p s (act s)) :
    Serves p s (s.withBus p b act) := by
  unfold State.withBus
  split
  · exact .answer p s _ _
  · exact .answer p s _ _
  all_goals exact h

theorem serves_imgQuery (p : PortId) (s : State) (sel : ImageSelector) : Serves p s (.next (s.imgQuery p sel)) := by
  cases sel with
  | byId id => simp only [State.imgQuery]; split <;> exact .answer p s _ _
  | byPosition pos => simp only [State.imgQuery]; split <;> exact .answer p s _ _

theorem goes_nop (p : PortId) (body : List Byte) (s : State) : Goes s (execNop p body s) :=
  .serve fun _ t _ => .answer p t _ _

theorem goes_timeRead (p : PortId) (body : List Byte) (s : State) : Goes s (execTimeRead p body s) :=
  .serve fun _ t _ => .answer p t _ _

theorem goes_evtRead (p : PortId) (body : List Byte) (s : State) : Goes s (execEvtRead p body s) :=
  .serve fun _ t _ => .answer p t _ _

theorem goes_imgQuery (p : PortId) (body : List Byte) (s : State) : Goes s (execImgQuery p body s) :=
  .serve fun sel t _ => serves_imgQuery p t sel

theorem goes_planQuery (p : PortId) (body : List Byte) (s : State) : Goes s (execPlanQuery p body s) :=
  .serve fun _ t _ => .answer p t _ _

theorem goes_fleetQuery (p : PortId) (body : List Byte) (s : State) : Goes s (execFleetQuery p body s) := by
  unfold execFleetQuery
  refine .serve fun fleet t _ => ?_
  split <;> exact .answer p t _ _

theorem goes_fitQuery (p : PortId) (body : List Byte) (s : State) : Goes s (execFitQuery p body s) := by
  unfold execFitQuery
  refine .serve fun fleet t _ => ?_
  split <;> exact .answer p t _ _

theorem goes_bayStatus (p : PortId) (body : List Byte) (s : State) : Goes s (execBayStatus p body s) :=
  .serve fun _ t _ => .answer p t _ _

theorem goes_jobQuery (p : PortId) (body : List Byte) (s : State) : Goes s (execJobQuery p body s) := by
  unfold execJobQuery
  refine .serve fun a t _ => ?_
  split <;> exact .answer p t _ _

/-! ### The requests of the bay engines -/

/-- A new configuration record recomputes C from D (R80). -/
theorem good_configure (c : BayConfig) {y : Bay} (h : BayGood y) : BayGood (y.configure c) := by
  refine ⟨⟨h.1.flag, fun stops => (h.1.quiet stops).congr rfl rfl rfl⟩, ?_⟩
  cases departure : y.departure with
  | none => simpa [DepartureOk, Bay.configure, departure] using h.2
  | some d => simp [DepartureOk, Bay.configure, departure]

theorem serves_bayConfig (p : PortId) (b : BayId) (c : BayConfig) (s : State) :
    Serves p s (match (s.bay b).state with
      | .disabled => .next (s.respond p .disabled .none)
      | .enumerating | .planning | .transferring | .switching => .next (s.respond p .bayActive .none)
      | .empty | .anonymous | .duplicate | .done | .cutoff =>
        finish (((s.modBay b (Bay.configure c)).deadlineCompare b).respond p .ok (.config c))) := by
  have step : BayStep b s ((s.modBay b (Bay.configure c)).deadlineCompare b) :=
    (BayStep.modBay (good_configure c)).trans (.deadlineCompare b _)
  cases (s.bay b).state <;> first | exact .answer p s _ _ | exact .finish step _ _

/-- A disabled bay that is enabled is EMPTY, with nothing under way (R82). -/
theorem BayStep.enable {b : BayId} {s : State} (disabled : (s.bay b).state = .disabled) :
    BayStep b s (s.modBay b fun y =>
      { y with state := .empty, presentFilter := Filter.start, ignitionFilter := Filter.start }) := by
  refine .modBay fun g => ⟨⟨?_, fun _ => (g.1.quiet (by rw [disabled]; rfl)).congr rfl rfl rfl⟩, g.2⟩
  simp [no_cutoff g (by simp [disabled])]

theorem BayStep.setDeparture (b : BayId) (s : State) (d : Time) : BayStep b s (s.modBay b (Bay.setDeparture d)) :=
  .modBay fun g => ⟨⟨g.1.flag, fun stops => (g.1.quiet stops).congr rfl rfl rfl⟩, rfl⟩

theorem BayStep.clearDeparture (b : BayId) (s : State) :
    BayStep b s (s.modBay b fun y => { y with departure := none, cutoffTime := none, warned := false }) :=
  .modBay fun g => ⟨⟨g.1.flag, fun stops => (g.1.quiet stops).congr rfl rfl rfl⟩, rfl⟩

/-- A cutoff flag is set in CUTOFF alone, so what clears it acts there. -/
theorem BayStep.clearCutoff {b : BayId} {s : State} (flag : (s.bay b).cutoff.isSome = true) :
    BayStep b s (s.clearCutoff b) :=
  ⟨(OnlyBay.refl b s).clearCutoff, fun g => good_clearCutoff g (g.1.flag.mp flag), FleetOk.clearCutoff⟩

theorem goes_bayConfig (p : PortId) (body : List Byte) (s : State) : Goes s (execBayConfig p body s) := by
  unfold execBayConfig
  exact .serve fun a t _ => serves_bayConfig p a.1 a.2 t

theorem goes_bayEnableOff (p : PortId) (body : List Byte) (s : State) : Goes s (execBayEnableOff p body s) :=
  .serve fun b t _ => .finish (.disableBay b t) _ _

theorem goes_bayEnableOn (p : PortId) (body : List Byte) (s : State) : Goes s (execBayEnableOn p body s) := by
  unfold execBayEnableOn
  refine .serve fun b t _ => ?_
  split
  case isTrue disabled => exact .respond (.enable disabled) _ _
  case isFalse => exact .answer p t _ _

theorem goes_bayReset (p : PortId) (body : List Byte) (s : State) : Goes s (execBayReset p body s) :=
  .serve fun b t _ => .finish (.bayReset b t) _ _

theorem goes_departSet (p : PortId) (body : List Byte) (s : State) : Goes s (execDepartSet p body s) :=
  .serve fun a t _ => serves_withBus
    (.finish (((BayStep.setDeparture a.1 t a.2).trans (.deadlineCompare a.1 _)).trans (.admissionRun a.1 _)) _ _)

theorem goes_departClear (p : PortId) (body : List Byte) (s : State) : Goes s (execDepartClear p body s) := by
  unfold execDepartClear
  refine .serve fun b t _ => serves_withBus ?_
  split
  · exact .answer p t _ _
  · exact .finish ((BayStep.clearDeparture b t).trans (.admissionRun b _)) _ _

theorem goes_departNow (p : PortId) (body : List Byte) (s : State) : Goes s (execDepartNow p body s) :=
  .serve fun b t _ => serves_withBus (.finish (.takeCutoff b t _) _ _)

theorem goes_hold (p : PortId) (body : List Byte) (s : State) : Goes s (execHold p body s) := by
  unfold execHold
  refine .serve fun b t _ => ?_
  split
  · exact .answer p t _ _
  · exact .respond (b := b) (.modBay (good_addHold p)) _ _

theorem goes_unholdOwn (p : PortId) (body : List Byte) (s : State) : Goes s (execUnholdOwn p body s) :=
  .serve fun b t _ => .finish (.dropHold p b t) _ _

theorem goes_unholdRule (p : PortId) (body : List Byte) (s : State) : Goes s (execUnholdRule p body s) :=
  .serve fun b t _ => .finish (.dropRule b t) _ _

theorem goes_cutoffClear (p : PortId) (body : List Byte) (s : State) : Goes s (execCutoffClear p body s) := by
  unfold execCutoffClear
  refine .serve fun b t _ => ?_
  split
  · exact .answer p t _ _
  split
  · exact .answer p t _ _
  case isFalse flag =>
    split
    · exact .answer p t _ _
    split
    · exact .answer p t _ _
    · exact .finish (.clearCutoff (by simpa [← Option.isSome_iff_ne_none] using flag)) _ _

/-! ### The requests of the event block, of the fleet table and of an upload's chunk -/

/-- The line of a port that is not held in reset follows a change of its events and its enable set (R184). -/
theorem serves_events {p : PortId} {s : State} {f : Port → Port} (st : Status) (body : Body)
    (good : PortOk (s.port p) → PortOk (f (s.port p))) (keeps : ∀ t, (f t).sending = t.sending ∧
      (f t).waiting = t.waiting ∧ (f t).inProgress = t.inProgress ∧ (f t).inReset = t.inReset ∧
      (f t).upload = t.upload ∧ (f t).write = t.write) :
    Serves p s (.next ((s.modPort p f).respond p st body)) :=
  .next ((Calm.modPort good).trans (.onlyLink (OnlyLink.respond _ p st body)))
    fun taken => (taken.same (.modPort keeps)).respond st body

theorem acknowledge_get (kinds : BitVec 16) (events : Vector EventEntry 15) (k : Fin 15) :
    (acknowledge kinds events)[k] = if kinds.getLsbD k.val then EventEntry.clear else events[k] := by
  simp [acknowledge]

theorem PortOk.acknowledge {t : Port} (h : PortOk t) (kinds : BitVec 16) :
    PortOk (Port.withAttention { t with events := acknowledge kinds t.events }) := by
  refine ⟨rfl, fun k => ?_, fun k => ?_, fun held => ⟨fun k => ?_, (h.inReset held).2⟩⟩
  · show (Machine.acknowledge kinds t.events)[k].count ≤ 255
    rw [acknowledge_get]; split
    · exact Nat.zero_le _
    · exact h.counts k
  · show (Machine.acknowledge kinds t.events)[k].count = 0 ↔ (Machine.acknowledge kinds t.events)[k].subject = none
    rw [acknowledge_get]; split
    · exact ⟨fun _ => rfl, fun _ => rfl⟩
    · exact h.subjects k
  · show (Machine.acknowledge kinds t.events)[k].count = 0
    rw [acknowledge_get]; split
    · rfl
    · exact (h.inReset held).1 k

theorem goes_evtAck (p : PortId) (body : List Byte) (s : State) : Goes s (execEvtAck p body s) :=
  .serve fun kinds _ _ => serves_events _ _ (fun good => good.acknowledge kinds) fun _ => ⟨rfl, rfl, rfl, rfl, rfl, rfl⟩

theorem goes_evtMask (p : PortId) (body : List Byte) (s : State) : Goes s (execEvtMask p body s) :=
  .serve fun _ _ free => serves_events _ _
    (fun good => ⟨rfl, good.counts, good.subjects, fun held => absurd held (by simp [Port.withAttention, free])⟩)
    fun _ => ⟨rfl, rfl, rfl, rfl, rfl, rfl⟩

/-- A chunk that fits waits at the arbiter with its request not answered yet (R47). -/
theorem Taken.write {p : PortId} {s : State} (h : Taken p s) {c : Upload} {chunk : List Byte}
    (upload : (s.port p).upload = some c) (fits : c.cursor + chunk.length ≤ s.store.lengthOf c.image) :
    UploadsOk (s.modPort p fun t => { t with write := some chunk }) := by
  have port : (s.modPort p fun t => { t with write := some chunk }).port p = { s.port p with write := some chunk } :=
    State.port_modPort_same s p _
  have other : ∀ q, q ≠ p → (s.modPort p fun t => { t with write := some chunk }).port q = s.port q := fun q ne =>
    State.port_modPort_other s _ ne
  have uploads : ∀ q, ((s.modPort p fun t => { t with write := some chunk }).port q).upload = (s.port q).upload := by
    intro q
    by_cases same : q = p
    · rw [same, port]
    · rw [other q same]
  obtain ⟨e, mem, named, -⟩ := h.ok.stages.uploads p c upload
  have found : s.store.find c.image = some e := (find_iff h.ok.store _ _).mpr ⟨mem, named⟩
  refine ⟨fun q => ?_, h.ok.store, ⟨fun q d => ?_, fun q r d d' => ?_, h.ok.stages.queue, h.ok.stages.once⟩,
    ⟨fun q chunk' writes => ?_, fun q chunk' granted => ?_, h.ok.access.verifies⟩⟩
  · by_cases same : q = p
    · subst same; rw [port]; exact (h.ok.links q).congr rfl rfl rfl rfl
    · rw [other q same]; exact h.ok.links q
  · rw [uploads]; exact h.ok.stages.uploads q d
  · rw [uploads, uploads]; exact h.ok.stages.single q r d d'
  · by_cases same : q = p
    · subst same
      rw [port] at writes ⊢
      rcases writes with waits | granted
      · obtain rfl : chunk = chunk' := Option.some.inj waits
        refine ⟨h.asked, h.unanswered, c, e, upload, found, ?_⟩
        rwa [ImageStore.lengthOf, found] at fits
      · exact absurd granted (h.ungranted chunk')
    · rw [other q same] at writes ⊢
      exact h.ok.access.writes q chunk' writes
  · have ne : q ≠ p := fun same => h.ungranted chunk' (same ▸ granted)
    rw [other q ne]; exact h.ok.access.single q chunk' granted

theorem goes_imgData (p : PortId) (body : List Byte) (s : State) : Goes s (execImgData p body s) := by
  unfold execImgData
  refine .serve fun chunk t _ => ?_
  unfold State.imgData
  split
  · exact .finish (BayStep.refl 0 t) _ _
  case h_2 c upload =>
    split
    · exact .finish (BayStep.refl 0 t) _ _
    case isFalse fits =>
      exact .next ((Calm.modPort fun good => good.congr rfl rfl rfl id).trans (.arbitrate _))
        fun taken => (taken.write upload (by omega)).arbitrate

/-- Deleting an unbound record touches the fleet table alone (R17). -/
theorem Calm.forget (s : State) (test : BusRecord → Bool) : Calm s { s with fleet := s.fleet.filter test } :=
  ⟨⟨rfl, rfl, rfl, rfl, rfl, fun part => ⟨part.memory, part.ports, part.departures, part.bays⟩,
    fun g => g.sub List.filter_sublist⟩, rfl⟩

theorem goes_fleetForget (p : PortId) (body : List Byte) (s : State) : Goes s (execFleetForget p body s) := by
  unfold execFleetForget
  refine .serve fun fleet t _ => ?_
  split
  · exact .answer p t _ _
  split
  · exact .answer p t _ _
  · have same : SameUploads t { t with fleet := t.fleet.filter fun q => q.fleet != fleet } := .of_eq rfl rfl
    exact .next ((Calm.forget t _).trans (.onlyLink (OnlyLink.respond _ p _ _))) fun taken => (taken.same same).respond _ _

/-- Producing a response leaves the event state of its port alone. -/
theorem PortOk.produce {t : Port} (h : PortOk t) (r : Response) : PortOk (Port.produce r t) := by
  obtain ⟨-, -, inReset, -, -, -, events, enable, attention⟩ := produce_frame r t
  exact h.congr events enable attention fun held => inReset ▸ held

theorem goes_yardReset (p : PortId) (body : List Byte) (s : State) : Goes s (execYardReset p body s) := by
  unfold execYardReset
  exact .serve fun _ t _ => .next (.modPort fun good => good.produce _) fun taken => taken.produce nofun

/-! ### Frames that a port refuses -/

theorem goes_unknownRequest (p : PortId) (code : Byte) (body : List Byte) (s : State) :
    Goes s (execUnknownRequest p code body s) := by
  unfold execUnknownRequest
  split
  · exact .idle s
  case isFalse taken =>
    have hears : (s.port p).hears = true := by simp only [Bool.or_eq_true, not_or] at taken; simpa using taken.2
    split
    · exact .next (.onlyLink (OnlyLink.refuse s p _ _)) fun ok => ok.refuse ((hears_iff _).mp hears).1 _ _
    case isFalse free =>
      exact .next (.onlyLink (OnlyLink.answered s p _ _)) fun ok =>
        (Taken.intake ok hears (by simpa using free)).respond _ _

theorem goes_busyFrame (p : PortId) (code : Byte) (body : List Byte) (s : State) :
    Goes s (execBusyFrame p code body s) := by
  unfold execBusyFrame
  split
  case isTrue busy =>
    have hears : (s.port p).hears = true := (Bool.and_eq_true _ _ ▸ busy).1
    exact .next (.onlyLink (OnlyLink.refuse s p _ _)) fun ok => ok.refuse ((hears_iff _).mp hears).1 _ _
  case isFalse => exact .idle s

/-- The framer's state is read by no invariant. -/
theorem goes_framer (p : PortId) (f : Framer) (s : State) :
    Calm s (s.modPort p fun t => { t with framer := f }) ∧ SameUploads s (s.modPort p fun t => { t with framer := f }) :=
  ⟨.modPort fun good => good.congr rfl rfl rfl id, .modPort fun _ => ⟨rfl, rfl, rfl, rfl, rfl, rfl⟩⟩

/-- A faulty frame leaves the framer in a state and is answered FRAME_ERROR (R173, R174). -/
theorem goes_frameError {p : PortId} {s : State} (hears : (s.port p).hears = true) (f : Framer) :
    Goes s (.next ((s.modPort p fun t => { t with framer := f }).refuse p .frameError .none)) := by
  obtain ⟨calm, same⟩ := goes_framer p f s
  refine .next (calm.trans (.onlyLink (OnlyLink.refuse _ p _ _))) fun ok => (ok.same same).refuse ?_ _ _
  rw [State.port_modPort_same]
  exact ((hears_iff _).mp hears).1

theorem goes_frameCrcError (p : PortId) (code : Byte) (body : List Byte) (crc : BitVec 16) (s : State) :
    Goes s (execFrameCrcError p code body crc s) := by
  unfold execFrameCrcError
  split
  · exact .idle s
  case isFalse faulty => exact goes_frameError (by simp only [Bool.or_eq_true, not_or] at faulty; simpa using faulty.1) _

theorem goes_frameLengthError (p : PortId) (code : Byte) (length : BitVec 16) (s : State) :
    Goes s (execFrameLengthError p code length s) := by
  unfold execFrameLengthError
  split
  · exact .idle s
  case isFalse faulty => exact goes_frameError (by simp only [Bool.or_eq_true, not_or] at faulty; simpa using faulty.1) _

theorem goes_frameCharacterTimeout (p : PortId) (s : State) : Goes s (execFrameCharacterTimeout p s) := by
  unfold execFrameCharacterTimeout
  split
  · exact .idle s
  case isFalse hears => exact goes_frameError (by simpa using hears) _

theorem goes_discardQuiet (p : PortId) (s : State) : Goes s (execDiscardQuiet p s) := by
  unfold execDiscardQuiet
  split
  · exact .next (goes_framer p .hunt s).1 fun ok => ok.same (goes_framer p .hunt s).2
  · exact .idle s

/-- A port that is released has nothing to send and nothing pending (R180). -/
theorem goes_portResetRelease (p : PortId) (s : State) : Goes s (execPortResetRelease p s) := by
  unfold execPortResetRelease
  split
  case isFalse => exact .idle s
  case isTrue held =>
    refine .next (.modPort fun good => good.congr rfl rfl rfl nofun) fun ok => ?_
    have link := ok.links p
    have idle := idle_of_free ok (link.held held).2
    refine ok.link (p := p) rfl (fun q ne => State.port_modPort_other s _ ne) ?_ ?_ ?_ fun chunk writes =>
      absurd writes (by simp [idle])
    all_goals rw [State.port_modPort_same]
    exact ⟨link.one, link.asked, link.order, link.refusals, nofun⟩

/-! ### All of them -/

/-- The commands that reset the part, count its time, complete an access to image memory, edit the catalogue, or edit the
plans. -/
def Instr.special : Instr → Bool
  | .powerOnReset _ _ _ _ | .yardTimeTick _ _ | .blockReadDone _ | .uploadWriteDone _ | .verifyReadDone | .responseSent _
  | .portReset _ | .controllerReset _ | .imgBegin _ _ | .imgFinish _ _ | .imgAbandon _ _ | .imgRetire _ _ | .imgPurge _ _
  | .imgPin _ _ | .planClear _ _ | .planPutRule _ _ | .planActivate _ _ => true
  | .presentRise _ | .detach _ | .ignitionRise _ | .ignitionFall _ | .deadlineReached _ | .frameSent _
  | .replyReceived _ _ | .replyTimeout _ | .replyCharacterTimeout _ | .pollIntervalEnd _ | .confirmPollDue _
  | .confirmationDeadline _ _ | .activationNotice _ | .frameCrcError _ _ _ _ | .frameLengthError _ _ _
  | .frameCharacterTimeout _ | .discardQuiet _ | .busyFrame _ _ _ | .unknownRequest _ _ _ | .portResetRelease _ | .nop _ _
  | .timeRead _ _ | .evtRead _ _ | .evtAck _ _ | .evtMask _ _ | .imgData _ _ | .imgQuery _ _ | .planQuery _ _
  | .fleetQuery _ _ | .fitQuery _ _ | .fleetForget _ _ | .bayStatus _ _ | .bayConfig _ _ | .bayEnableOff _ _
  | .bayEnableOn _ _ | .bayReset _ _ | .departSet _ _ | .departClear _ _ | .departNow _ _ | .hold _ _ | .unholdOwn _ _
  | .unholdRule _ _ | .cutoffClear _ _ | .jobQuery _ _ | .yardReset _ _ => false

/-- Every other command of a port goes on calmly. -/
theorem goes_of_port {i : Instr} (plain : i.special = false) (event : i.bayEvent = none) (s : State) :
    Goes s (exec i s) := by
  cases i <;> simp only [Instr.special, Instr.bayEvent, reduceCtorEq] at plain event
  case frameCrcError p code body crc => exact goes_frameCrcError p code body crc s
  case frameLengthError p code length => exact goes_frameLengthError p code length s
  case frameCharacterTimeout p => exact goes_frameCharacterTimeout p s
  case discardQuiet p => exact goes_discardQuiet p s
  case busyFrame p code body => exact goes_busyFrame p code body s
  case unknownRequest p code body => exact goes_unknownRequest p code body s
  case portResetRelease p => exact goes_portResetRelease p s
  case nop p body => exact goes_nop p body s
  case timeRead p body => exact goes_timeRead p body s
  case evtRead p body => exact goes_evtRead p body s
  case evtAck p body => exact goes_evtAck p body s
  case evtMask p body => exact goes_evtMask p body s
  case imgData p body => exact goes_imgData p body s
  case imgQuery p body => exact goes_imgQuery p body s
  case planQuery p body => exact goes_planQuery p body s
  case fleetQuery p body => exact goes_fleetQuery p body s
  case fitQuery p body => exact goes_fitQuery p body s
  case fleetForget p body => exact goes_fleetForget p body s
  case bayStatus p body => exact goes_bayStatus p body s
  case bayConfig p body => exact goes_bayConfig p body s
  case bayEnableOff p body => exact goes_bayEnableOff p body s
  case bayEnableOn p body => exact goes_bayEnableOn p body s
  case bayReset p body => exact goes_bayReset p body s
  case departSet p body => exact goes_departSet p body s
  case departClear p body => exact goes_departClear p body s
  case departNow p body => exact goes_departNow p body s
  case hold p body => exact goes_hold p body s
  case unholdOwn p body => exact goes_unholdOwn p body s
  case unholdRule p body => exact goes_unholdRule p body s
  case cutoffClear p body => exact goes_cutoffClear p body s
  case jobQuery p body => exact goes_jobQuery p body s
  case yardReset p body => exact goes_yardReset p body s


/-- Every other command goes on calmly. -/
theorem goes_of_not_special {i : Instr} (h : i.special = false) (s : State) : Goes s (exec i s) := by
  cases event : i.bayEvent with
  | some b => exact .actsAt (actsAt_bayEvent event s)
  | none => exact goes_of_port h event s

end Sys2Proof

end

/-! SUPPORT. The requests that edit the catalogue or the plans: what they keep of the entries in use, and the invariant
of uploads and verification. -/

section

namespace Sys2Proof

open Machine

/-! ### Entries in use -/

/-- A READY or BROKEN entry on which a job unit holds a claim stays in its position, pinned or not. -/
def KeepsInUse (s t : State) : Prop := ∀ (pos : Fin 32) (e : Entry), StoreOk s.store → StagesOk s →
  s.store.catalogue[pos] = some e → e.state = .ready ∨ e.state = .broken → 0 < s.useCount e.id →
  ∃ pinned : Bool, t.store.catalogue[pos] = some { e with pinned := pinned }

/-- A LOADING or VERIFYING entry stays in its position with its content. -/
def KeepsStages (s t : State) : Prop := ∀ (pos : Fin 32) (e : Entry), StoreOk s.store → StagesOk s →
  s.store.catalogue[pos] = some e → e.state = .loading ∨ e.state = .verifying →
  ∃ e' : Entry, t.store.catalogue[pos] = some e' ∧
    e' = { e with state := e'.state, pinned := e'.pinned, uploadPort := e'.uploadPort }

theorem KeepsInUse.of_eq {s t : State} (h : t.store.catalogue = s.store.catalogue) : KeepsInUse s t :=
  fun _ e _ _ held _ _ => ⟨e.pinned, by rw [h]; exact held⟩

theorem KeepsStages.of_eq {s t : State} (h : t.store.catalogue = s.store.catalogue) : KeepsStages s t :=
  fun _ e _ _ held _ => ⟨e, by rw [h]; exact held, rfl⟩

/-- A state alike in its store, its bays and its upload contexts. -/
structure SameEntries (s t : State) : Prop where
  store : t.store = s.store
  bays : t.bays = s.bays
  uploads : ∀ p, (t.port p).upload = (s.port p).upload

theorem SameEntries.onlyLink {p : PortId} {s t : State} (h : OnlyLink p s t) : SameEntries s t := by
  refine ⟨h.store, h.bays, fun q => ?_⟩
  by_cases same : q = p
  · subst same; exact h.upload
  · rw [h.others q same]

theorem StagesOk.sameEntries {s t : State} (h : SameEntries s t) (k : StagesOk s) : StagesOk t :=
  ⟨fun p c => by rw [h.uploads, h.store]; exact k.uploads p c, fun p q c d => by rw [h.uploads, h.uploads]; exact k.single p q c d,
    by rw [h.store]; exact k.queue, by rw [h.store]; exact k.once⟩

theorem KeepsInUse.after {s t u : State} (h : SameEntries s t) (k : KeepsInUse t u) : KeepsInUse s u :=
  fun pos e store stages held state used => k pos e (h.store ▸ store) (stages.sameEntries h) (h.store ▸ held) state
    (by rw [useCount_congr h.bays]; exact used)

theorem KeepsStages.after {s t u : State} (h : SameEntries s t) (k : KeepsStages t u) : KeepsStages s u :=
  fun pos e store stages held state => k pos e (h.store ▸ store) (stages.sameEntries h) (h.store ▸ held) state

theorem KeepsInUse.then {s t u : State} (h : KeepsInUse s t) (k : u.store.catalogue = t.store.catalogue) :
    KeepsInUse s u := fun pos e store stages held state used => by rw [k]; exact h pos e store stages held state used

theorem KeepsStages.then {s t u : State} (h : KeepsStages s t) (k : u.store.catalogue = t.store.catalogue) :
    KeepsStages s u := fun pos e store stages held state => by rw [k]; exact h pos e store stages held state

/-- A command that removes no entry in use. -/
structure Removes (s t : State) : Prop where
  sound : Sound s t
  inUse : KeepsInUse s t

/-- A command that removes no entry in use and no LOADING or VERIFYING one. -/
structure Edits (s t : State) : Prop where
  sound : Sound s t
  inUse : KeepsInUse s t
  stages : KeepsStages s t

theorem Calm.edits {s t : State} (h : Calm s t) : Edits s t := ⟨h.sound, .of_eq h.catalogue, .of_eq h.catalogue⟩

theorem Edits.removes {s t : State} (h : Edits s t) : Removes s t := ⟨h.sound, h.inUse⟩

theorem Edits.linkClosed : LinkClosed Edits :=
  ⟨fun link => (Calm.onlyLink link).edits, fun link edits => ⟨(Sound.onlyLink link).trans edits.sound,
    edits.inUse.after (.onlyLink link), edits.stages.after (.onlyLink link)⟩⟩

theorem Removes.linkClosed : LinkClosed Removes :=
  ⟨fun link => (Calm.onlyLink link).edits.removes, fun link removes => ⟨(Sound.onlyLink link).trans removes.sound,
    removes.inUse.after (.onlyLink link)⟩⟩

theorem Edits.then {s t u : State} (h : Edits s t) (k : Calm t u) : Edits s u :=
  ⟨h.sound.trans k.sound, h.inUse.then k.catalogue, h.stages.then k.catalogue⟩

theorem Removes.then {s t u : State} (h : Removes s t) (k : Calm t u) : Removes s u :=
  ⟨h.sound.trans k.sound, h.inUse.then k.catalogue⟩

theorem Calm.respond (s : State) (p : PortId) (st : Status) (body : Body) : Calm s (s.respond p st body) :=
  .onlyLink (OnlyLink.respond s p st body)

/-- Where a response is all that follows. -/
theorem ServesBy.respond {p : PortId} {s t : State} (edits : Edits s t) (taken : Taken p s → Taken p t) (st : Status)
    (body : Body) : ServesBy Edits p s (.next (t.respond p st body)) :=
  .next (edits.then (.respond t p st body)) fun h => (taken h).respond st body

/-! ### IMG_RETIRE and IMG_PURGE (R54, R55) -/

theorem inUse_iff (s : State) (e : Entry) :
    s.inUse e = true ↔ e.state = .loading ∨ e.state = .verifying ∨ 0 < s.useCount e.id := by
  simp [State.inUse, or_assoc]

/-- Deleting entries that are not in use. -/
theorem Edits.deleteWhere {s : State} {test : Entry → Bool}
    (spares : StoreOk s.store → ∀ e ∈ s.store.entries, s.inUse e = true → test e = false) :
    Edits s { s with store := s.store.deleteWhere test } := by
  have stays : ∀ (pos : Fin 32) (e : Entry), StoreOk s.store → s.store.catalogue[pos] = some e → s.inUse e = true →
      (s.store.deleteWhere test).catalogue[pos] = some e := by
    intro pos e store held used
    rw [deleteWhere_get, held]
    simp [spares store e ((mem_entries _ e).mpr ⟨pos, held⟩) used]
  obtain ⟨-, -, mem, -⟩ := deleteWhere_rest s.store test
  exact ⟨.store fun wf => by rw [mem]; exact wf,
    fun pos e store _ held _ used => ⟨e.pinned, stays pos e store held ((inUse_iff s e).mpr (.inr (.inr used)))⟩,
    fun pos e store _ held state => ⟨e, stays pos e store held ((inUse_iff s e).mpr (or_assoc.mp (.inl state))), rfl⟩⟩

theorem Taken.deleteWhere {p : PortId} {s : State} {test : Entry → Bool} (h : Taken p s)
    (spares : StoreOk s.store → ∀ e ∈ s.store.entries, s.inUse e = true → test e = false) :
    Taken p { s with store := s.store.deleteWhere test } := by
  obtain ⟨-, -, -, verifier, granted, -⟩ := deleteWhere_rest s.store test
  refine h.restore rfl (h.ok.store.deleteWhere test) (by rw [verifier]) granted fun e mem state => ⟨e, ?_, rfl, rfl, rfl⟩
  rw [entries_deleteWhere, List.mem_filter]
  exact ⟨mem, by simp [spares h.ok.store e mem ((inUse_iff s e).mpr (or_assoc.mp (.inl state)))]⟩

theorem goes_imgRetire (p : PortId) (body : List Byte) (s : State) : GoesBy Edits s (execImgRetire p body s) := by
  unfold execImgRetire
  refine .serve Edits.linkClosed fun id t _ => ?_
  unfold State.imgRetire
  split
  · exact .answer Edits.linkClosed p t _ _
  case h_2 e found =>
    split
    · exact .answer Edits.linkClosed p t _ _
    case isFalse unused =>
      have spares : StoreOk t.store → ∀ x ∈ t.store.entries, t.inUse x = true → (x.id == id) = false := by
        intro store x mem used
        by_contra named
        obtain ⟨emem, enamed⟩ := find_some found
        obtain rfl := entry_unique store mem emem ((by simpa using named : x.id = id).trans enamed.symm)
        exact unused used
      split
      · exact .answer Edits.linkClosed p t _ _
      split
      · exact .answer Edits.linkClosed p t _ _
      · exact .respond (.deleteWhere spares) (fun taken => taken.deleteWhere spares) _ _

theorem goes_imgPurge (p : PortId) (body : List Byte) (s : State) : GoesBy Edits s (execImgPurge p body s) := by
  unfold execImgPurge
  refine .serve Edits.linkClosed fun _ t _ => ?_
  have spares : StoreOk t.store → ∀ e ∈ t.store.entries, t.inUse e = true → t.purgeable e = false :=
    fun _ e _ used => by simp [State.purgeable, used]
  exact .respond (.deleteWhere spares) (fun taken => taken.deleteWhere spares) _ _

/-! ### IMG_PIN (R56) -/

theorem Edits.pin (s : State) (id : Nat) (flag : Bool) :
    Edits s { s with store := s.store.modEntry id fun e => { e with pinned := flag } } := by
  have pinned : ∀ (pos : Fin 32) (e : Entry), s.store.catalogue[pos] = some e → ∃ pinned : Bool,
      (s.store.modEntry id fun e => { e with pinned := flag }).catalogue[pos] = some { e with pinned := pinned } := by
    intro pos e held
    rw [modEntry_get, held]
    dsimp only
    split
    · exact ⟨flag, rfl⟩
    · exact ⟨e.pinned, rfl⟩
  obtain ⟨-, -, mem, -⟩ := modEntry_rest s.store id fun e => { e with pinned := flag }
  exact ⟨.store fun wf => by rw [mem]; exact wf, fun pos e _ _ held _ _ => pinned pos e held,
    fun pos e _ _ held _ => have ⟨f, stays⟩ := pinned pos e held; ⟨_, stays, rfl⟩⟩

theorem Taken.pin {p : PortId} {s : State} (h : Taken p s) (id : Nat) (flag : Bool) :
    Taken p { s with store := s.store.modEntry id fun e => { e with pinned := flag } } := by
  obtain ⟨-, -, -, verifier, granted, -⟩ := modEntry_rest s.store id fun e => { e with pinned := flag }
  refine h.restore rfl (h.ok.store.modEntry id fun e => ⟨rfl, rfl, rfl⟩) (by rw [verifier]) granted fun e mem _ =>
    ⟨if e.id == id then { e with pinned := flag } else e, ?_, ?_⟩
  · rw [entries_modEntry]
    exact List.mem_map.mpr ⟨e, mem, rfl⟩
  · split <;> exact ⟨rfl, rfl, rfl⟩

theorem goes_imgPin (p : PortId) (body : List Byte) (s : State) : GoesBy Edits s (execImgPin p body s) := by
  unfold execImgPin
  refine .serve Edits.linkClosed fun a t _ => ?_
  split
  · exact .answer Edits.linkClosed p t _ _
  · exact .respond (.pin t a.1 a.2) (fun taken => taken.pin a.1 a.2) _ _

/-! ### IMG_BEGIN (R43, R46) -/

/-- The segments that the scan takes: free ones of the map, each once, and as many as are asked for while they last
(R43). -/
theorem reserve_spec {st : ImageStore} (h : StoreOk st) {need : Nat} (room : need ≤ st.freeCount) :
    (st.reserve need).length = need ∧ (st.reserve need).Nodup ∧
    ∀ seg ∈ st.reserve need, seg < st.segmentCount ∧ seg ∉ st.owned := by
  have scan : st.reserve need = (((List.range st.segmentCount).map fun i => (st.pointer + i) % st.segmentCount).filter
      fun x => !st.owned.contains x).take need := takeFree_spec st.owned st.segmentCount _ _ need h.pointer
  have turn : ((List.range st.segmentCount).map fun i => (st.pointer + i) % st.segmentCount).Nodup := by
    refine List.Nodup.map_on (fun i hi j hj same => ?_) List.nodup_range
    have hi := List.mem_range.mp hi
    have hj := List.mem_range.mp hj
    exact Nat.ModEq.eq_of_lt_of_lt (Nat.ModEq.add_left_cancel' st.pointer same) hi hj
  refine ⟨?_, ?_, fun seg mem => ?_⟩
  · rw [scan, List.length_take, free_filter_length h]
    exact Nat.min_eq_left room
  · rw [scan]
    exact (turn.filter _).sublist (List.take_sublist _ _)
  · rw [scan] at mem
    obtain ⟨ring, free⟩ := List.mem_filter.mp (List.mem_of_mem_take mem)
    obtain ⟨i, -, rfl⟩ := List.mem_map.mp ring
    exact ⟨Nat.mod_lt _ (Nat.zero_lt_of_lt h.pointer), by simpa using free⟩

theorem pointerAfter_lt {count pointer : Nat} (h : pointer < count) (segments : List Nat) :
    pointerAfter count pointer segments < count := by
  unfold pointerAfter
  split
  · exact Nat.mod_lt _ (Nat.zero_lt_of_lt h)
  · exact h

theorem place_catalogue (st : ImageStore) (pos : Fin 32) (e : Entry) :
    (st.place pos e).catalogue = st.catalogue.set pos.val (some e) pos.isLt := rfl

theorem place_get_other (st : ImageStore) {pos i : Fin 32} (e : Entry) (h : i ≠ pos) :
    (st.place pos e).catalogue[i] = st.catalogue[i] := by
  have ne : pos.val ≠ i.val := fun same => h (Fin.ext same.symm)
  simp [place_catalogue, Vector.getElem_set_ne _ _ ne]

theorem entries_place {st : ImageStore} {pos : Fin 32} (e : Entry) (empty : st.catalogue[pos] = none) :
    (st.place pos e).entries.Perm (e :: st.entries) := entries_set st pos e empty

/-- An empty position takes an entry with a new id and the segments that the scan takes. -/
theorem StoreOk.place {st : ImageStore} (h : StoreOk st) {pos : Fin 32} {e : Entry} (empty : st.catalogue[pos] = none)
    (fresh : ∀ x ∈ st.entries, x.id ≠ e.id) (segments : e.segments = st.reserve e.segmentNeed)
    (room : e.segmentNeed ≤ st.freeCount) : StoreOk (st.place pos e) := by
  obtain ⟨length, once, free⟩ := reserve_spec h room
  have entries := entries_place e empty
  have owned : (st.place pos e).owned.Perm (e.segments ++ st.owned) := entries.flatMap_right _
  refine ⟨pointerAfter_lt h.pointer _, fun seg mem => ?_, ?_, fun x mem => ?_, ?_⟩
  · rcases List.mem_append.mp (owned.mem_iff.mp mem) with new | old
    · exact (free seg (segments ▸ new)).1
    · exact h.inMap seg old
  · refine owned.nodup_iff.mpr (List.nodup_append'.mpr ⟨segments ▸ once, h.once, fun seg new old => ?_⟩)
    exact (free seg (segments ▸ new)).2 old
  · rcases List.mem_cons.mp (entries.mem_iff.mp mem) with rfl | old
    · rw [segments, length]
    · exact h.sizes x old
  · refine (entries.map _).nodup_iff.mpr (List.nodup_cons.mpr ⟨fun mem => ?_, h.ids⟩)
    obtain ⟨x, old, same⟩ := List.mem_map.mp mem
    exact fresh x old same

theorem catalogue_none_of_empty {st : ImageStore} {n : Nat} (h : st.emptyPosition = some n) (lt : n < 32) :
    st.catalogue[(⟨n, lt⟩ : Fin 32)] = none := by
  obtain ⟨bound, none, -⟩ := List.findIdx?_eq_some_iff_getElem.mp h
  simpa using none

/-- The state that an accepted IMG_BEGIN leaves, before its response (R46). -/
def begun (s : State) (p : PortId) (pos : Fin 32) (e : Entry) : State :=
  ({ s with store := s.store.place pos e } : State).modPort p fun t => { t with upload := some { image := e.id, cursor := 0 } }

theorem Edits.begun {s : State} {p : PortId} {pos : Fin 32} {e : Entry} (empty : s.store.catalogue[pos] = none) :
    Edits s (begun s p pos e) := by
  have stays : ∀ (i : Fin 32) (x : Entry), s.store.catalogue[i] = some x →
      (Sys2Proof.begun s p pos e).store.catalogue[i] = some x := fun i x held =>
    (place_get_other s.store e fun same => by rw [same, empty] at held; cases held).trans held
  refine ⟨(Sound.store (st := s.store.place pos e) id).trans (.modPort fun good => good.congr rfl rfl rfl id),
    fun i x _ _ held _ _ => ⟨x.pinned, stays i x held⟩, fun i x _ _ held _ => ⟨x, stays i x held, rfl⟩⟩

theorem Taken.begun {s : State} {p : PortId} {pos : Fin 32} {e : Entry} (h : Taken p s)
    (empty : s.store.catalogue[pos] = none) (fresh : ∀ x ∈ s.store.entries, x.id ≠ e.id) (loading : e.state = .loading)
    (segments : e.segments = s.store.reserve e.segmentNeed) (room : e.segmentNeed ≤ s.store.freeCount) :
    Taken p (begun s p pos e) := by
  have port : (Sys2Proof.begun s p pos e).port p = { s.port p with upload := some { image := e.id, cursor := 0 } } :=
    State.port_modPort_same _ p _
  have other : ∀ q, q ≠ p → (Sys2Proof.begun s p pos e).port q = s.port q := fun q ne => State.port_modPort_other _ _ ne
  have entries : ∀ x, x ∈ (Sys2Proof.begun s p pos e).store.entries ↔ x = e ∨ x ∈ s.store.entries := fun x =>
    (entries_place e empty).mem_iff.trans List.mem_cons
  have store : StoreOk (Sys2Proof.begun s p pos e).store := h.ok.store.place empty fresh segments room
  have newer : ∀ q c, q ≠ p → (s.port q).upload = some c → c.image ≠ e.id := fun q c _ upload same => by
    obtain ⟨x, mem, named, -⟩ := h.ok.stages.uploads q c upload
    exact fresh x mem (named.trans same)
  refine ⟨⟨fun q => ?_, store, ⟨fun q c upload => ?_, fun q r c d uc ud image => ?_, fun id queued => ?_,
      h.ok.stages.once⟩, ⟨fun q chunk writes => ?_, fun q chunk granted => ?_, h.ok.access.verifies⟩⟩,
    by rw [port]; exact h.asked, by rw [port]; exact h.unanswered, by rw [port]; exact h.unwritten, h.ungranted⟩
  · by_cases same : q = p
    · subst same; rw [port]; exact (h.ok.links q).congr rfl rfl rfl rfl
    · rw [other q same]; exact h.ok.links q
  · by_cases same : q = p
    · subst same
      rw [port] at upload
      obtain rfl := Option.some.inj upload
      exact ⟨e, (entries e).mpr (.inl rfl), rfl, loading⟩
    · rw [other q same] at upload
      obtain ⟨x, mem, named, state⟩ := h.ok.stages.uploads q c upload
      exact ⟨x, (entries x).mpr (.inr mem), named, state⟩
  · by_cases hq : q = p <;> by_cases hr : r = p
    · exact hq.trans hr.symm
    · subst hq
      rw [port] at uc; rw [other r hr] at ud
      obtain rfl := Option.some.inj uc
      exact absurd image.symm (newer r d hr ud)
    · subst hr
      rw [port] at ud; rw [other q hq] at uc
      obtain rfl := Option.some.inj ud
      exact absurd image (newer q c hq uc)
    · rw [other q hq] at uc; rw [other r hr] at ud
      exact h.ok.stages.single q r c d uc ud image
  · obtain ⟨x, mem, named, state⟩ := h.ok.stages.queue id queued
    exact ⟨x, (entries x).mpr (.inr mem), named, state⟩
  · have ne : q ≠ p := fun same => by
      subst same
      rw [port] at writes
      exact absurd writes (by simp only [h.unwritten]; exact fun w => w.elim nofun (h.ungranted chunk))
    rw [other q ne] at writes ⊢
    obtain ⟨asked, unanswered, c, x, upload, found, fits⟩ := h.ok.access.writes q chunk writes
    obtain ⟨mem, named⟩ := find_some found
    exact ⟨asked, unanswered, c, x, upload, (find_iff store _ _).mpr ⟨(entries x).mpr (.inr mem), named⟩, fits⟩
  · have ne : q ≠ p := fun same => h.ungranted chunk (same ▸ granted)
    rw [other q ne]; exact h.ok.access.single q chunk granted

theorem goes_imgBegin (p : PortId) (body : List Byte) (s : State) : GoesBy Edits s (execImgBegin p body s) := by
  unfold execImgBegin
  refine .serve Edits.linkClosed fun a t _ => ?_
  unfold State.imgBegin
  split
  · exact .answer Edits.linkClosed p t _ _
  split
  · exact .answer Edits.linkClosed p t _ _
  case isFalse.isFalse fresh =>
    split
    · exact .answer Edits.linkClosed p t _ _
    case h_2 pos found =>
      split
      case isFalse => exact .answer Edits.linkClosed p t _ _
      case isTrue lt =>
        split
        · exact .answer Edits.linkClosed p t _ _
        case isFalse room =>
          have empty := catalogue_none_of_empty found lt
          refine .respond (t := begun t p ⟨pos, lt⟩ (a.entry p (t.store.reserve a.need))) (.begun empty)
            (fun taken => taken.begun empty (find_none.mp (Option.not_isSome_iff_eq_none.mp fresh)) rfl rfl (Nat.le_of_not_lt room)) _ _

/-! ### IMG_FINISH (R48) -/

/-- The store with a catalogue, and an image queued for verification. -/
def queued (st : ImageStore) (catalogue : Vector (Option Entry) 32) (id : Nat) : ImageStore :=
  { st with catalogue := catalogue, verifier := { st.verifier with queue := st.verifier.queue ++ [id] } }

/-- The state that an accepted IMG_FINISH leaves, before its response (R48). -/
def finished (s : State) (p : PortId) (catalogue : Vector (Option Entry) 32) (id : Nat) : State :=
  ({ s with store := queued s.store catalogue id } : State).modPort p fun t => { t with upload := none }

/-- The entry of an image whose upload has been finished (R48). -/
def uploaded (e : Entry) : Entry := { e with state := .verifying, uploadPort := none }

/-- An accepted IMG_FINISH: the entry of the image is VERIFYING, and the image joins the queue (R48, R50). -/
theorem imgFinish_accepted {s : State} {p : PortId} {c : Upload} (upload : (s.port p).upload = some c)
    (whole : s.store.lengthOf c.image ≤ c.cursor) : ∃ catalogue : Vector (Option Entry) 32,
      catalogue = (s.store.modEntry c.image uploaded).catalogue ∧
      s.imgFinish p = (finished s p catalogue c.image).respond p .accepted .none := by
  obtain ⟨catalogue, same, -⟩ := exists_cat_mod s.store c.image uploaded
  refine ⟨catalogue, by rw [same], ?_⟩
  have same' : s.store.modEntry c.image (fun e => { e with state := .verifying, uploadPort := none }) =
    { s.store with catalogue := catalogue } := same
  simp only [State.imgFinish, upload, if_neg (Nat.not_lt.mpr whole), same']
  rfl

/-- Of the entries of a sound store, that of a port's upload alone has its id, and it is LOADING. -/
theorem loading_of_upload {s : State} (store : StoreOk s.store) (stages : StagesOk s) {p : PortId} {c : Upload}
    (upload : (s.port p).upload = some c) {e : Entry} (mem : e ∈ s.store.entries) (named : e.id = c.image) :
    e.state = .loading := by
  obtain ⟨x, xmem, xnamed, loading⟩ := stages.uploads p c upload
  exact entry_unique store mem xmem (named.trans xnamed.symm) ▸ loading

/-- The entries after an accepted IMG_FINISH. -/
theorem mem_entries_finished {s : State} (p : PortId) {id : Nat} {catalogue : Vector (Option Entry) 32}
    (cat : catalogue = (s.store.modEntry id uploaded).catalogue) (x : Entry) :
    x ∈ (finished s p catalogue id).store.entries ↔ ∃ e ∈ s.store.entries, x = if e.id == id then uploaded e else e := by
  have entries : (finished s p catalogue id).store.entries = (s.store.modEntry id uploaded).entries := entries_congr cat
  rw [entries, entries_modEntry, List.mem_map]
  exact exists_congr fun e => and_congr_right fun _ => eq_comm

theorem Edits.finished {s : State} {p : PortId} {c : Upload} (upload : (s.port p).upload = some c)
    {catalogue : Vector (Option Entry) 32} (cat : catalogue = (s.store.modEntry c.image uploaded).catalogue) :
    Edits s (finished s p catalogue c.image) := by
  have get : ∀ (pos : Fin 32) (e : Entry), s.store.catalogue[pos] = some e →
      (Sys2Proof.finished s p catalogue c.image).store.catalogue[pos] =
        if e.id == c.image then some (uploaded e) else some e := by
    intro pos e held
    show catalogue[pos] = _
    rw [cat, modEntry_get, held]
  refine ⟨(Sound.store (st := queued s.store catalogue c.image) id).trans
    (.modPort fun good => good.congr rfl rfl rfl id), fun pos e store stages held state _ => ⟨e.pinned, ?_⟩,
    fun pos e _ _ held _ => ?_⟩
  · rw [get pos e held, if_neg]
    intro named
    have loading := loading_of_upload store stages upload ((mem_entries _ e).mpr ⟨pos, held⟩) (by simpa using named)
    rcases state with state | state <;> rw [state] at loading <;> cases loading
  · rw [get pos e held]
    split
    · exact ⟨_, rfl, rfl⟩
    · exact ⟨_, rfl, rfl⟩

theorem Taken.finished {s : State} {p : PortId} {c : Upload} (h : Taken p s) (upload : (s.port p).upload = some c)
    {catalogue : Vector (Option Entry) 32} (cat : catalogue = (s.store.modEntry c.image uploaded).catalogue) :
    Taken p (finished s p catalogue c.image) := by
  have port : (Sys2Proof.finished s p catalogue c.image).port p =
    { s.port p with upload := none } := State.port_modPort_same _ p _
  have other : ∀ q, q ≠ p → (Sys2Proof.finished s p catalogue c.image).port q =
    s.port q := fun q ne => State.port_modPort_other _ _ ne
  have store : StoreOk (Sys2Proof.finished s p catalogue c.image).store :=
    (h.ok.store.modEntry c.image (f := uploaded) fun e => ⟨rfl, rfl, rfl⟩).congr
      (modEntry_rest s.store c.image uploaded).1.symm cat (modEntry_rest s.store c.image uploaded).2.1.symm
  have entries := mem_entries_finished p cat
  have stays : ∀ e ∈ s.store.entries, e.id ≠ c.image →
      e ∈ (Sys2Proof.finished s p catalogue c.image).store.entries :=
    fun e mem ne => (entries e).mpr ⟨e, mem, by simp [ne]⟩
  obtain ⟨x, xmem, xnamed, xloading⟩ := h.ok.stages.uploads p c upload
  have apart : ∀ q d, q ≠ p → (s.port q).upload = some d → d.image ≠ c.image := fun q d ne other same =>
    ne (h.ok.stages.single q p d c other upload same)
  have unqueued : c.image ∉ s.store.verifier.queue := fun mem => by
    obtain ⟨e, emem, enamed, verifying⟩ := h.ok.stages.queue _ mem
    have loading := loading_of_upload h.ok.store h.ok.stages upload emem enamed
    rw [verifying] at loading; cases loading
  refine ⟨⟨fun q => ?_, store, ⟨fun q d uq => ?_, fun q r d d' uq ur => ?_, fun id mem => ?_, ?_⟩,
    ⟨fun q chunk writes => ?_, fun q chunk granted => ?_, fun _ => List.append_ne_nil_of_right_ne_nil _ (List.cons_ne_nil _ _)⟩⟩,
    by rw [port]; exact h.asked, by rw [port]; exact h.unanswered, by rw [port]; exact h.unwritten, h.ungranted⟩
  · by_cases same : q = p
    · subst same; rw [port]; exact (h.ok.links q).congr rfl rfl rfl rfl
    · rw [other q same]; exact h.ok.links q
  · by_cases same : q = p
    · subst same; rw [port] at uq; cases uq
    · rw [other q same] at uq
      obtain ⟨e, mem, named, loading⟩ := h.ok.stages.uploads q d uq
      exact ⟨e, stays e mem (named ▸ apart q d same uq), named, loading⟩
  · have hq : q ≠ p := fun same => by subst same; rw [port] at uq; cases uq
    have hr : r ≠ p := fun same => by subst same; rw [port] at ur; cases ur
    rw [other q hq] at uq; rw [other r hr] at ur
    exact h.ok.stages.single q r d d' uq ur
  · rcases List.mem_append.mp mem with old | new
    · obtain ⟨e, emem, named, verifying⟩ := h.ok.stages.queue id old
      exact ⟨e, stays e emem fun same => unqueued (same ▸ named ▸ old), named, verifying⟩
    · obtain rfl := List.mem_singleton.mp new
      exact ⟨uploaded x, (entries _).mpr ⟨x, xmem, by simp [xnamed]⟩, xnamed, rfl⟩
  · exact List.nodup_append'.mpr ⟨h.ok.stages.once, List.nodup_singleton _, by simpa using unqueued⟩
  · have ne : q ≠ p := fun same => by
      subst same
      rw [port] at writes
      exact absurd writes (by simp only [h.unwritten]; exact fun w => w.elim nofun (h.ungranted chunk))
    rw [other q ne] at writes ⊢
    obtain ⟨asked, unanswered, d, e, uq, found, fits⟩ := h.ok.access.writes q chunk writes
    obtain ⟨mem, named⟩ := find_some found
    exact ⟨asked, unanswered, d, e, uq, (find_iff store _ _).mpr ⟨stays e mem (named ▸ apart q d ne uq), named⟩, fits⟩
  · have ne : q ≠ p := fun same => h.ungranted chunk (same ▸ granted)
    rw [other q ne]; exact h.ok.access.single q chunk granted

theorem goes_imgFinish (p : PortId) (body : List Byte) (s : State) : GoesBy Edits s (execImgFinish p body s) := by
  unfold execImgFinish
  refine .serve Edits.linkClosed fun _ t _ => ?_
  have ends : ∀ {u : State} (st : Status), Edits t u → (Taken p t → Taken p u) → ∀ body,
      ServesBy Edits p t (finish (u.respond p st body)) := fun st edits taken body =>
    .next ((edits.then (.respond _ p st body)).then (.arbitrate _)) fun h => ((taken h).respond st body).arbitrate
  cases upload : (t.port p).upload with
  | none =>
    simp only [State.imgFinish, upload]
    exact ends _ (Calm.refl t).edits id _
  | some c =>
    by_cases whole : t.store.lengthOf c.image ≤ c.cursor
    · obtain ⟨catalogue, cat, accepted⟩ := imgFinish_accepted upload whole
      rw [accepted]
      exact ends _ (.finished upload cat) (fun taken => taken.finished upload cat) _
    · simp only [State.imgFinish, upload, if_pos (Nat.lt_of_not_le whole)]
      exact ends _ (Calm.refl t).edits id _

/-! ### The end of an upload by IMG_ABANDON or a reset (R49) -/

/-- The LOADING entry of a port's upload is deleted; every other entry stays. -/
theorem KeepsInUse.dropUpload (s : State) (p : PortId) : KeepsInUse s (s.dropUpload p) := by
  intro pos e store stages held state _
  refine ⟨e.pinned, ?_⟩
  unfold State.dropUpload
  split
  · exact held
  case h_2 c upload =>
    show (s.store.deleteWhere fun x => x.id == c.image).catalogue[pos] = some e
    rw [deleteWhere_get, held]
    refine if_neg fun named => ?_
    have loading := loading_of_upload store stages upload ((mem_entries _ e).mpr ⟨pos, held⟩) (by simpa using named)
    rcases state with state | state <;> rw [state] at loading <;> cases loading

theorem Sound.dropUpload (s : State) (p : PortId) : Sound s (s.dropUpload p) := by
  unfold State.dropUpload
  split
  · exact .refl s
  case h_2 c _ =>
    obtain ⟨-, -, mem, -⟩ := deleteWhere_rest s.store fun e => e.id == c.image
    exact (Sound.store fun wf => by rw [mem]; exact wf).trans (.modPort fun good => good.congr rfl rfl rfl id)

/-- What is left of the store when a port's upload has ended: the entries of the other uploads and of the queue. -/
theorem dropUpload_store {s : State} (h : UploadsOk s) (p : PortId) : StoreOk (s.dropUpload p).store ∧
    (s.dropUpload p).store.verifier = s.store.verifier ∧ (s.dropUpload p).store.granted = s.store.granted ∧
    ∀ e ∈ s.store.entries, (∀ c, (s.port p).upload = some c → e.id ≠ c.image) → e ∈ (s.dropUpload p).store.entries := by
  unfold State.dropUpload
  split
  · exact ⟨h.store, rfl, rfl, fun e mem _ => mem⟩
  case h_2 c upload =>
    obtain ⟨-, -, -, verifier, granted, -⟩ := deleteWhere_rest s.store fun e => e.id == c.image
    refine ⟨h.store.deleteWhere _, verifier, granted, fun e mem other => ?_⟩
    show e ∈ (s.store.deleteWhere fun e => e.id == c.image).entries
    rw [entries_deleteWhere, List.mem_filter]
    exact ⟨mem, by simpa using other c upload⟩

/-- A port whose upload has ended, with no write waiting or granted, and whatever link. -/
theorem UploadsOk.withdraw {s t : State} (h : UploadsOk s) {p : PortId} (store : t.store = (s.dropUpload p).store)
    (others : ∀ q, q ≠ p → t.port q = s.port q) (upload : (t.port p).upload = none) (write : (t.port p).write = none)
    (link : LinkOk (t.port p)) (ungranted : ∀ chunk, s.store.granted ≠ some (.portWrite p chunk)) : UploadsOk t := by
  obtain ⟨sound, verifier, granted, stays⟩ := dropUpload_store h p
  rw [← store] at sound verifier granted
  simp only [← store] at stays
  have kept : ∀ (q : PortId) (d : Upload) (e : Entry), q ≠ p → (s.port q).upload = some d → e ∈ s.store.entries →
      e.id = d.image → e ∈ t.store.entries := fun q d e ne uq mem named =>
    stays e mem fun c uc same => ne (h.stages.single q p d c uq uc (named.symm.trans same))
  refine ⟨fun q => ?_, sound, ⟨fun q d uq => ?_, fun q r d d' uq ur => ?_, fun id mem => ?_, ?_⟩,
    ⟨fun q chunk writes => ?_, fun q chunk writes => ?_, fun verifies => ?_⟩⟩
  · by_cases same : q = p
    · subst same; exact link
    · rw [others q same]; exact h.links q
  · have ne : q ≠ p := fun same => by subst same; rw [upload] at uq; cases uq
    rw [others q ne] at uq
    obtain ⟨e, mem, named, loading⟩ := h.stages.uploads q d uq
    exact ⟨e, kept q d e ne uq mem named, named, loading⟩
  · have hq : q ≠ p := fun same => by subst same; rw [upload] at uq; cases uq
    have hr : r ≠ p := fun same => by subst same; rw [upload] at ur; cases ur
    rw [others q hq] at uq; rw [others r hr] at ur
    exact h.stages.single q r d d' uq ur
  · rw [verifier] at mem
    obtain ⟨e, emem, named, verifying⟩ := h.stages.queue id mem
    refine ⟨e, stays e emem fun c uc same => ?_, named, verifying⟩
    have loading := loading_of_upload h.store h.stages uc emem same
    rw [verifying] at loading; cases loading
  · rw [verifier]; exact h.stages.once
  · have ne : q ≠ p := fun same => by
      subst same
      rw [write, granted] at writes
      exact writes.elim nofun (ungranted chunk)
    rw [others q ne, granted] at writes
    obtain ⟨asked, unanswered, d, e, uq, found, fits⟩ := h.access.writes q chunk writes
    obtain ⟨mem, named⟩ := find_some found
    rw [others q ne]
    exact ⟨asked, unanswered, d, e, uq, (find_iff sound _ _).mpr ⟨kept q d e ne uq mem named, named⟩, fits⟩
  · rw [granted] at writes
    have ne : q ≠ p := fun same => ungranted chunk (same ▸ writes)
    rw [others q ne]; exact h.access.single q chunk writes
  · rw [verifier]; exact h.access.verifies (granted ▸ verifies)

theorem Taken.dropUpload {p : PortId} {s : State} (h : Taken p s) : Taken p (s.dropUpload p) := by
  have port := port_dropUpload_same s p
  obtain ⟨-, -, granted, -⟩ := dropUpload_store h.ok p
  refine ⟨h.ok.withdraw rfl (fun q ne => port_dropUpload_other s ne) (by rw [port]) ?_ ?_ h.ungranted, ?_, ?_, ?_, ?_⟩
  · rw [port]; exact h.unwritten
  · rw [port]; exact (h.ok.links p).congr rfl rfl rfl rfl
  · rw [port]; exact h.asked
  · rw [port]; exact h.unanswered
  · rw [port]; exact h.unwritten
  · rw [granted]; exact h.ungranted

theorem goes_imgAbandon (p : PortId) (body : List Byte) (s : State) : GoesBy Removes s (execImgAbandon p body s) := by
  unfold execImgAbandon
  refine .serve Removes.linkClosed fun _ t _ => ?_
  split
  · exact .answer Removes.linkClosed p t _ _
  · exact .next (Removes.then ⟨.dropUpload t p, .dropUpload t p⟩ (.respond _ p _ _))
      fun taken => taken.dropUpload.respond _ _

/-! ### The requests of the plan store (R30 to R33) -/

/-- An edit of the plans: the queue, yard time and the catalogue stay, and the conditions of the part and of the fleet
table are kept. -/
structure PlanEdit (s t : State) : Prop where
  pending : t.pending = s.pending
  yardTime : t.yardTime = s.yardTime
  catalogue : t.store.catalogue = s.store.catalogue
  part : PartOk s → PartOk t
  fleet : FleetOk s → FleetOk t

/-- An edit of the standby plan. -/
structure StandbyEdit (s t : State) : Prop extends PlanEdit s t where
  active : t.plans.active = s.plans.active
  generation : t.plans.generation = s.plans.generation

/-- An activation of the standby plan. -/
structure Activation (s t : State) : Prop extends PlanEdit s t where
  standby : t.plans.standby = s.plans.standby

theorem Calm.planEdit {s t : State} (h : Calm s t) : PlanEdit s t :=
  ⟨h.sound.pending, h.sound.yardTime, h.catalogue, h.sound.part, h.sound.fleet⟩

theorem PlanEdit.trans {s t u : State} (h : PlanEdit s t) (k : PlanEdit t u) : PlanEdit s u :=
  ⟨k.pending.trans h.pending, k.yardTime.trans h.yardTime, k.catalogue.trans h.catalogue, k.part ∘ h.part,
    k.fleet ∘ h.fleet⟩

theorem StandbyEdit.linkClosed : LinkClosed StandbyEdit :=
  ⟨fun link => ⟨(Calm.onlyLink link).planEdit, by rw [link.plans], by rw [link.plans]⟩,
    fun link edit => ⟨(Calm.onlyLink link).planEdit.trans edit.toPlanEdit, by rw [edit.active, link.plans],
      by rw [edit.generation, link.plans]⟩⟩

theorem Activation.linkClosed : LinkClosed Activation :=
  ⟨fun link => ⟨(Calm.onlyLink link).planEdit, by rw [link.plans]⟩,
    fun link edit => ⟨(Calm.onlyLink link).planEdit.trans edit.toPlanEdit, by rw [edit.standby, link.plans]⟩⟩

/-- Other plans touch nothing else. -/
theorem PlanEdit.plans (s : State) (pl : PlanStore) : PlanEdit s { s with plans := pl } :=
  ⟨rfl, rfl, rfl, fun part => ⟨part.memory, part.ports, part.departures, part.bays⟩, fun g => g.plans pl⟩

theorem serves_standby (p : PortId) (s : State) (standby : Vector (Option Rule) 64) :
    ServesBy StandbyEdit p s
      (.next (({ s with plans := { s.plans with standby := standby } } : State).respond p .ok .none)) := by
  have same : SameUploads s { s with plans := { s.plans with standby := standby } } := .of_eq rfl rfl
  exact .next ⟨(PlanEdit.plans s _).trans (Calm.respond _ p _ _).planEdit, rfl, rfl⟩
    fun taken => (taken.same same).respond _ _

theorem goes_planClear (p : PortId) (body : List Byte) (s : State) : GoesBy StandbyEdit s (execPlanClear p body s) := by
  unfold execPlanClear
  exact .serve StandbyEdit.linkClosed fun _ t _ => serves_standby p t _

theorem goes_planPutRule (p : PortId) (body : List Byte) (s : State) :
    GoesBy StandbyEdit s (execPlanPutRule p body s) := by
  unfold execPlanPutRule
  exact .serve StandbyEdit.linkClosed fun _ t _ => serves_standby p t _

/-- A notice waits at the bay (R33). -/
theorem BayStep.notice (b : BayId) (s : State) : BayStep b s (s.modBay b fun y => { y with notices := y.notices + 1 }) :=
  .modBay fun g => good_plain g rfl rfl rfl rfl rfl rfl rfl rfl

/-- Operations of several bays, one after another. -/
theorem Calm.foldl {op : State → BayId → State} (h : ∀ b s, BayStep b s (op s b)) (l : List BayId) (s : State) :
    Calm s (l.foldl op s) ∧ SameUploads s (l.foldl op s) := by
  induction l generalizing s with
  | nil => exact ⟨.refl s, .of_eq rfl rfl⟩
  | cons b rest ih =>
    obtain ⟨calm, same⟩ := ih (op s b)
    exact ⟨(Calm.bayStep (h b s)).trans calm, (SameUploads.onlyBay (h b s).only).trans same⟩

theorem goes_planActivate (p : PortId) (body : List Byte) (s : State) :
    GoesBy Activation s (execPlanActivate p body s) := by
  unfold execPlanActivate
  refine .serve Activation.linkClosed fun _ t _ => ?_
  unfold State.planActivate
  split
  · exact .answer Activation.linkClosed p t _ _
  split
  · exact .answer Activation.linkClosed p t _ _
  split
  · exact .answer Activation.linkClosed p t _ _
  · obtain ⟨calm, same⟩ := Calm.foldl BayStep.notice allBays
      (({ t with plans := t.plans.activated } : State).post .planActivated (.generation (t.plans.generation + 1)))
    have posted := BayStep.post 0 ({ t with plans := t.plans.activated } : State) .planActivated
      (.generation (t.plans.generation + 1))
    have rest := ((Calm.bayStep posted).trans calm).trans (.respond _ p .ok (.generation (t.plans.generation + 1)))
    have start : SameUploads t { t with plans := t.plans.activated } := .of_eq rfl rfl
    exact .next ⟨(PlanEdit.plans t _).trans rest.planEdit, rest.sound.standby⟩ fun taken =>
      (((taken.same start).same (.onlyBay posted.only)).same same).respond _ _

end Sys2Proof

end

/-! SUPPORT. The completions of accesses to image memory, the end of a response, and the resets: what they keep, and that
they go on where the invariant of uploads and verification holds. -/

section

namespace Sys2Proof

open Machine

/-! ### Commands that may find a byte outside image memory -/

/-- A next state is in a relation to the state before, and where the invariant of uploads and verification holds there is
a next state, which keeps it. -/
structure GoesOn (R : State → State → Prop) (s : State) (r : Result) : Prop where
  rel : ∀ t, r = .next t → R s t
  goes : UploadsOk s → ∃ t, r = .next t ∧ UploadsOk t

theorem GoesBy.goesOn {R : State → State → Prop} {s : State} {r : Result} (h : GoesBy R s r) : GoesOn R s r := by
  obtain ⟨t, rfl, rel, uploads⟩ := h
  exact ⟨fun u ends => by cases ends; exact rel, fun ok => ⟨t, rfl, uploads ok⟩⟩

theorem GoesOn.next {R : State → State → Prop} {s t : State} (rel : R s t) (uploads : UploadsOk s → UploadsOk t) :
    GoesOn R s (.next t) := GoesBy.goesOn ⟨t, rfl, rel, uploads⟩

/-- A fault that the invariant of uploads and verification rules out. -/
theorem GoesOn.fault {R : State → State → Prop} {s : State} {f : Fault} (absurd : UploadsOk s → False) :
    GoesOn R s (.fault f) := ⟨fun _ => nofun, fun ok => (absurd ok).elim⟩

/-! ### Bytes of an image -/

theorem exists_writeBytes {st : ImageStore} (h : StoreOk st) {e : Entry} (mem : e ∈ st.entries) (chunk : List Byte) :
    ∀ o, o + chunk.length ≤ e.length → ∃ m, st.writeBytes e o chunk = some m := by
  induction chunk with
  | nil => exact fun o _ => ⟨st.mem, rfl⟩
  | cons v rest ih =>
    intro o fits
    simp only [List.length_cons] at fits
    obtain ⟨m, written⟩ := ih (o + 1) (by omega)
    obtain ⟨seg, -, place⟩ := address_of h mem (o := o) (by omega)
    exact ⟨Memory.write (seg * 65536 + o % 65536) v m, by simp only [ImageStore.writeBytes, place, written]⟩

/-- Up to `k` bytes that are left of an image can be read (R51). -/
theorem exists_readBytes {st : ImageStore} (h : StoreOk st) {e : Entry} (mem : e ∈ st.entries) (o k : Nat) :
    ∃ bytes, st.readBytes e o (min k (e.length - o)) = some bytes := by
  by_cases inside : o ≤ e.length
  · obtain ⟨bytes, read, -⟩ := readBytes_spec h mem (min k (e.length - o)) o (by omega)
    exact ⟨bytes, read⟩
  · rw [show min k (e.length - o) = 0 by omega]
    exact ⟨[], rfl⟩

theorem exists_readBlock {st : ImageStore} (h : StoreOk st) {e : Entry} (mem : e ∈ st.entries) (k : Nat) :
    ∃ data, st.readBlock e k = some data := by
  obtain ⟨bytes, read⟩ := exists_readBytes h mem (256 * k) 256
  exact ⟨bytes ++ List.replicate (256 - bytes.length) 0xFF#8, by simp only [ImageStore.readBlock, read]⟩

/-! ### A chunk is written (R47) -/

/-- A state with a chunk in image memory and the cursor of a port's context past it. -/
def written (s : State) (p : PortId) (m : Memory) (c : Upload) : State :=
  ({ s with store := { s.store with mem := m } } : State).modPort p fun t => { t with upload := some c }

theorem writeChunk_some {s t : State} {p : PortId} {chunk : List Byte} (h : s.writeChunk p chunk = some t) :
    ∃ (c : Upload) (e : Entry) (m : Memory), (s.port p).upload = some c ∧ s.store.find c.image = some e ∧
      s.store.writeBytes e c.cursor chunk = some m ∧ t = written s p m { c with cursor := c.cursor + chunk.length } := by
  unfold State.writeChunk at h
  split at h
  · exact nomatch h
  case h_2 c upload =>
    split at h
    · exact nomatch h
    case h_2 m wrote =>
      obtain ⟨e, found, bytes⟩ := Option.bind_eq_some_iff.mp wrote
      exact ⟨c, e, m, upload, found, bytes, (Option.some.inj h).symm⟩

theorem Calm.writeChunk {s t : State} {p : PortId} {chunk : List Byte} (h : s.writeChunk p chunk = some t) : Calm s t := by
  obtain ⟨c, e, m, -, -, bytes, rfl⟩ := writeChunk_some h
  exact ⟨(Sound.store fun wf => s.store.writeBytes_wf e wf chunk c.cursor m bytes).trans
    (.modPort fun good => good.congr rfl rfl rfl id), rfl⟩

theorem Taken.writeChunk {s t : State} {p : PortId} {chunk : List Byte} (h : Taken p s)
    (wrote : s.writeChunk p chunk = some t) : Taken p t ∧ t.store.granted = s.store.granted := by
  obtain ⟨c, e, m, upload, -, -, rfl⟩ := writeChunk_some wrote
  have port : (written s p m { c with cursor := c.cursor + chunk.length }).port p =
    { s.port p with upload := some { c with cursor := c.cursor + chunk.length } } := State.port_modPort_same _ p _
  have other : ∀ q, q ≠ p → (written s p m { c with cursor := c.cursor + chunk.length }).port q = s.port q := fun q ne =>
    State.port_modPort_other _ _ ne
  have context : ∀ q d, ((written s p m { c with cursor := c.cursor + chunk.length }).port q).upload = some d →
      ∃ d', (s.port q).upload = some d' ∧ d'.image = d.image := fun q d uq => by
    by_cases same : q = p
    · subst same
      rw [port] at uq
      obtain rfl := Option.some.inj uq
      exact ⟨c, upload, rfl⟩
    · exact ⟨d, by rwa [other q same] at uq, rfl⟩
  refine ⟨⟨⟨fun q => ?_, h.ok.store.congr rfl rfl rfl, ⟨fun q d uq => ?_, fun q r d d' uq ur same => ?_, h.ok.stages.queue,
      h.ok.stages.once⟩, ⟨fun q chunk' writes => ?_, fun q chunk' granted => ?_, h.ok.access.verifies⟩⟩,
    by rw [port]; exact h.asked, by rw [port]; exact h.unanswered, by rw [port]; exact h.unwritten, h.ungranted⟩, rfl⟩
  · by_cases same : q = p
    · subst same; rw [port]; exact (h.ok.links q).congr rfl rfl rfl rfl
    · rw [other q same]; exact h.ok.links q
  · obtain ⟨d', old, image⟩ := context q d uq
    exact image ▸ h.ok.stages.uploads q d' old
  · obtain ⟨x, oldx, imagex⟩ := context q d uq
    obtain ⟨y, oldy, imagey⟩ := context r d' ur
    exact h.ok.stages.single q r x y oldx oldy (imagex.trans (same.trans imagey.symm))
  · have ne : q ≠ p := fun same => by
      subst same
      rw [port] at writes
      exact absurd writes (by simp only [h.unwritten]; exact fun w => w.elim nofun (h.ungranted chunk'))
    rw [other q ne] at writes ⊢
    exact h.ok.access.writes q chunk' writes
  · have ne : q ≠ p := fun same => h.ungranted chunk' (same ▸ granted)
    rw [other q ne]; exact h.ok.access.single q chunk' granted

/-- The write that the arbiter carries out ends: its request is taken and not answered, and its bytes have a place. -/
theorem granted_write {s : State} (h : UploadsOk s) {p : PortId} {chunk : List Byte}
    (granted : s.store.granted = some (.portWrite p chunk)) :
    Taken p s.endGrant ∧ ∃ t, s.endGrant.writeChunk p chunk = some t := by
  obtain ⟨asked, unanswered, c, e, upload, found, fits⟩ := h.access.writes p chunk (.inr granted)
  refine ⟨⟨h.same (.endGrant s), asked, unanswered, h.access.single p chunk granted, fun _ => nofun⟩, ?_⟩
  obtain ⟨mem, -⟩ := find_some found
  have store : StoreOk s.endGrant.store := h.store.congr rfl rfl rfl
  obtain ⟨m, bytes⟩ := exists_writeBytes store (e := e) (by rwa [entries_congr rfl]) chunk c.cursor fits
  have found' : s.endGrant.store.find c.image = some e := (find_congr rfl c.image).trans found
  have upload' : (s.endGrant.port p).upload = some c := upload
  refine ⟨written s.endGrant p m { c with cursor := c.cursor + chunk.length }, ?_⟩
  unfold State.writeChunk
  simp only [upload', found', Option.bind_some, bytes]
  rfl

theorem Calm.endGrant (s : State) : Calm s s.endGrant :=
  ⟨.store id, rfl⟩

theorem goesOn_uploadWriteDone (p : PortId) (s : State) : GoesOn Calm s (execUploadWriteDone p s) := by
  unfold execUploadWriteDone
  split
  case h_2 => exact .next (.refl s) id
  case h_1 q chunk granted =>
    split
    · exact .next (.refl s) id
    case isFalse same =>
      obtain rfl : q = p := by simpa using same
      split
      case h_1 none =>
        refine .fault fun ok => ?_
        obtain ⟨-, t, wrote⟩ := granted_write ok granted
        rw [none] at wrote; cases wrote
      case h_2 t wrote =>
        exact .next ((((Calm.endGrant s).trans (.writeChunk wrote)).trans (.respond t q _ _)).trans (.arbitrate _))
          fun ok => ((((granted_write ok granted).1.writeChunk wrote).1).respond _ _).arbitrate

/-! ### A block is read (R42, R58) -/

/-- A stopped bay has no pass, so that its reader starts no frame. -/
theorem BayStep.sendBlock (b : BayId) (s : State) : BayStep b s (s.sendBlock b) := by
  refine ⟨(OnlyBay.refl b s).sendBlock, fun g => ?_, FleetOk.sendBlock⟩
  rcases inService_or (s.bay b).state with serves | stops
  · exact good_keeps g (Keeps.sendBlock (Keeps.refl _)) serves
  · have none := currentPass_none (g.1.quiet stops).passes
    have same : s.sendBlock b = s := by simp only [State.sendBlock, none]
    rw [same]; exact g

theorem goesOn_blockReadDone (b : BayId) (s : State) : GoesOn Calm s (execBlockReadDone b s) := by
  have ended : GoesOn Calm s (finish s.endGrant) :=
    .next ((Calm.endGrant s).trans (.arbitrate _)) fun ok => (ok.same (.endGrant s)).arbitrate
  unfold execBlockReadDone
  split
  case h_2 => exact .next (.refl s) id
  case h_1 c image block live granted =>
    split
    · exact .next (.refl s) id
    split
    · exact ended
    split
    · exact ended
    case h_2 e found =>
      split
      case h_1 none =>
        refine .fault fun ok => ?_
        obtain ⟨data, read⟩ := exists_readBlock ok.store (find_some found).1 block
        rw [none] at read; cases read
      case h_2 data read =>
        have step : BayStep b s.endGrant ((s.endGrant.modBay b fun y =>
            { y with reader := { y.reader with buffer := some (block, data) } }).sendBlock b) :=
          (BayStep.modBay fun g => good_plain g rfl rfl rfl rfl rfl rfl rfl rfl).trans (.sendBlock b _)
        exact .next (((Calm.endGrant s).trans (.bayStep step)).trans (.arbitrate _))
          fun ok => ((ok.same (.endGrant s)).same (.onlyBay step.only)).arbitrate

/-! ### A verification read is done (R50 to R52) -/

/-- An entry whose verification has completed. -/
def judged (digest : BitVec 32) (e : Entry) (x : Entry) : Entry :=
  { x with state := if digest = e.crc then .ready else .broken }

/-- The state that a completed verification leaves, before its event (R52). -/
def verified (s : State) (catalogue : Vector (Option Entry) 32) : State :=
  { s with store := { s.store with
    catalogue := catalogue, granted := none
    verifier := { Verifier.start with queue := s.store.verifier.queue.tail } } }

theorem verificationDone_eq (s : State) (e : Entry) (digest : BitVec 32) : ∃ catalogue : Vector (Option Entry) 32,
    catalogue = (s.store.modEntry e.id (judged digest e)).catalogue ∧ s.endGrant.verificationDone e digest =
      (verified s catalogue).post (if digest = e.crc then .imageReady else .imageBroken) (.image e.id) := by
  obtain ⟨catalogue, same, -⟩ := exists_cat_mod s.endGrant.store e.id (judged digest e)
  refine ⟨catalogue, ?_, ?_⟩
  · have alike : (s.endGrant.store.modEntry e.id (judged digest e)).catalogue =
      (s.store.modEntry e.id (judged digest e)).catalogue := by
      unfold ImageStore.modEntry ImageStore.mapPositions
      rfl
    rw [← alike, same]
  · have same' : s.endGrant.store.modEntry e.id (fun x => { x with state := if digest = e.crc then .ready else .broken }) =
      { s.endGrant.store with catalogue := catalogue } := same
    simp only [State.verificationDone, same']
    rfl

/-- The image at the head of the verification queue is VERIFYING. -/
theorem verifying_of_head {s : State} (store : StoreOk s.store) (stages : StagesOk s) {e : Entry}
    (head : s.store.verifier.queue.head?.bind s.store.find = some e) :
    e ∈ s.store.entries ∧ e.state = .verifying ∧ s.store.verifier.queue.head? = some e.id := by
  obtain ⟨id, first, found⟩ := Option.bind_eq_some_iff.mp head
  obtain ⟨mem, rfl⟩ := find_some found
  obtain ⟨x, xmem, named, state⟩ := stages.queue e.id (List.mem_of_mem_head? first)
  exact ⟨mem, entry_unique store xmem mem named ▸ state, first⟩

theorem Edits.verified {s : State} {e : Entry} {digest : BitVec 32} {catalogue : Vector (Option Entry) 32}
    (head : s.store.verifier.queue.head?.bind s.store.find = some e)
    (cat : catalogue = (s.store.modEntry e.id (judged digest e)).catalogue) : Edits s (verified s catalogue) := by
  have get : ∀ (pos : Fin 32) (x : Entry), s.store.catalogue[pos] = some x → catalogue[pos] =
      if x.id == e.id then some (judged digest e x) else some x := fun pos x held => by
    rw [cat, modEntry_get, held]
  refine ⟨.store id, fun pos x store stages held state _ => ⟨x.pinned, ?_⟩, fun pos x _ _ held _ => ?_⟩
  · obtain ⟨mem, verifying, -⟩ := verifying_of_head store stages head
    refine (get pos x held).trans (if_neg fun named => ?_)
    obtain rfl := entry_unique store ((mem_entries _ x).mpr ⟨pos, held⟩) mem (by simpa using named)
    rcases state with state | state <;> rw [verifying] at state <;> cases state
  · show ∃ e', catalogue[pos] = some e' ∧ _
    rw [get pos x held]
    split
    · exact ⟨_, rfl, rfl⟩
    · exact ⟨_, rfl, rfl⟩

theorem UploadsOk.verified {s : State} (h : UploadsOk s) {e : Entry} {digest : BitVec 32}
    {catalogue : Vector (Option Entry) 32} (head : s.store.verifier.queue.head?.bind s.store.find = some e)
    (cat : catalogue = (s.store.modEntry e.id (judged digest e)).catalogue) : UploadsOk (verified s catalogue) := by
  obtain ⟨mem, verifying, first⟩ := verifying_of_head h.store h.stages head
  have entries : (Sys2Proof.verified s catalogue).store.entries = (s.store.modEntry e.id (judged digest e)).entries :=
    entries_congr cat
  have stays : ∀ x ∈ s.store.entries, x.id ≠ e.id → x ∈ (Sys2Proof.verified s catalogue).store.entries := by
    intro x xmem ne
    rw [entries, entries_modEntry, List.mem_map]
    exact ⟨x, xmem, by simp [ne]⟩
  have loading : ∀ x ∈ s.store.entries, x.state = .loading → x.id ≠ e.id := fun x xmem state named => by
    rw [entry_unique h.store xmem mem named, verifying] at state; cases state
  have store : StoreOk (Sys2Proof.verified s catalogue).store :=
    (h.store.modEntry e.id (f := judged digest e) fun _ => ⟨rfl, rfl, rfl⟩).congr
      (modEntry_rest s.store e.id (judged digest e)).1.symm cat (modEntry_rest s.store e.id (judged digest e)).2.1.symm
  have queue : s.store.verifier.queue = e.id :: s.store.verifier.queue.tail := (List.eq_cons_of_mem_head? first)
  have nodup : (e.id :: s.store.verifier.queue.tail).Nodup := queue ▸ h.stages.once
  obtain ⟨notin, once⟩ := List.nodup_cons.mp nodup
  refine ⟨h.links, store, ⟨fun p c upload => ?_, h.stages.single, fun id queued => ?_, once⟩,
    ⟨fun p chunk writes => ?_, fun _ _ => nofun, nofun⟩⟩
  · obtain ⟨x, xmem, named, state⟩ := h.stages.uploads p c upload
    exact ⟨x, stays x xmem (loading x xmem state), named, state⟩
  · obtain ⟨x, xmem, rfl, state⟩ := h.stages.queue id (List.mem_of_mem_tail queued)
    exact ⟨x, stays x xmem fun same => notin (same ▸ queued), rfl, state⟩
  · obtain ⟨asked, unanswered, c, x, upload, found, fits⟩ := h.access.writes p chunk (writes.imp_right nofun)
    obtain ⟨xmem, named⟩ := find_some found
    have state := loading_of_upload h.store h.stages upload xmem named
    exact ⟨asked, unanswered, c, x, upload, (find_iff store _ _).mpr ⟨stays x xmem (loading x xmem state), named⟩, fits⟩

/-- More bytes of the head image have been folded (R51). -/
theorem folded_same (s : State) (v : Verifier) (queue : v.queue = s.store.verifier.queue) :
    Calm s { s.endGrant with store := { s.endGrant.store with verifier := v } } ∧
      SameUploads s { s.endGrant with store := { s.endGrant.store with verifier := v } } :=
  ⟨⟨.store id, rfl⟩, ⟨fun _ => ⟨rfl, rfl, rfl, rfl, rfl, rfl⟩, rfl, rfl, rfl, queue, fun _ _ => nofun, nofun⟩⟩

theorem goesOn_verifyReadDone (s : State) : GoesOn Edits s (execVerifyReadDone s) := by
  unfold execVerifyReadDone
  split
  case h_2 => exact .next (Calm.refl s).edits id
  case h_1 live granted =>
    split
    · exact .next ((Calm.endGrant s).trans (.arbitrate _)).edits fun ok => (ok.same (.endGrant s)).arbitrate
    case isFalse wanted =>
      obtain rfl : live = true := by simpa using wanted
      split
      case h_1 none =>
        refine .fault fun ok => ?_
        obtain ⟨id, rest, queue⟩ := List.exists_cons_of_ne_nil (ok.access.verifies granted)
        obtain ⟨e, mem, named, -⟩ := ok.stages.queue id (by simp [queue])
        have found := (find_iff ok.store id e).mpr ⟨mem, named⟩
        simp [queue, found] at none
      case h_2 e head =>
        dsimp only
        split
        case h_1 none =>
          refine .fault fun ok => ?_
          obtain ⟨bytes, read⟩ := exists_readBytes ok.store (verifying_of_head ok.store ok.stages head).1
            s.store.verifier.offset 1024
          rw [none] at read; cases read
        case h_2 bytes read =>
          split
          · obtain ⟨calm, same⟩ := folded_same s { s.store.verifier with
              offset := s.store.verifier.offset + min 1024 (e.length - s.store.verifier.offset)
              crc := crc32Fold s.store.verifier.crc bytes } rfl
            exact .next (calm.trans (.arbitrate _)).edits fun ok => (ok.same same).arbitrate
          · obtain ⟨catalogue, cat, ends⟩ :=
              verificationDone_eq s e (crc32Digest (crc32Fold s.store.verifier.crc bytes))
            rw [ends]
            have posted := fun kind => BayStep.post 0 (verified s catalogue) kind (.image e.id)
            exact .next (((Edits.verified head cat).then (.bayStep (posted _))).then (.arbitrate _)) fun ok =>
              ((ok.verified head cat).same (.onlyBay (posted _).only)).arbitrate

end Sys2Proof

end

/-! SUPPORT. The end of a response, the clock and the resets: what they keep, and that they go on where the invariant of
uploads and verification holds. -/

section

namespace Sys2Proof

open Machine

/-! ### Relations that a calm step may follow or precede -/

theorem GoesOn.mono {R S : State → State → Prop} {s : State} {r : Result} (h : GoesOn R s r)
    (weaker : ∀ t, R s t → S s t) : GoesOn S s r := ⟨fun t ends => weaker t (h.rel t ends), h.goes⟩

/-- A command that spares every READY and every BROKEN entry. -/
structure Spares (s t : State) : Prop where
  sound : Sound s t
  keeps : ∀ (pos : Fin 32) (e : Entry), s.store.catalogue[pos] = some e → e.state = .ready ∨ e.state = .broken →
    t.store.catalogue[pos] = some e

theorem Spares.after {s t u : State} (calm : Calm s t) (h : Spares t u) : Spares s u :=
  ⟨calm.sound.trans h.sound, fun pos e held => h.keeps pos e (by rw [calm.catalogue]; exact held)⟩

theorem Spares.then {s t u : State} (h : Spares s t) (calm : Calm t u) : Spares s u :=
  ⟨h.sound.trans calm.sound, fun pos e held state => by rw [calm.catalogue]; exact h.keeps pos e held state⟩

theorem Spares.removes {s t : State} (h : Spares s t) : Removes s t :=
  ⟨h.sound, fun pos e _ _ held state _ => ⟨e.pinned, h.keeps pos e held state⟩⟩

theorem Removes.thenSpares {s t u : State} (h : Removes s t) (k : Spares t u) : Removes s u := by
  refine ⟨h.sound.trans k.sound, fun pos e store stages held state used => ?_⟩
  obtain ⟨pinned, kept⟩ := h.inUse pos e store stages held state used
  exact ⟨pinned, k.keeps pos _ kept state⟩

theorem Calm.drawOrder (s : State) : Calm s s.drawOrder :=
  ⟨⟨rfl, rfl, rfl, rfl, rfl, fun part => ⟨part.memory, part.ports, part.departures, part.bays⟩, fun g => g.congr rfl⟩, rfl⟩

/-! ### The ports, one after another -/

theorem port_foldPorts (f : Port → Port) (s : State) (q : PortId) :
    (allPorts.foldl (fun t p => t.modPort p f) s).port q = f (s.port q) := by
  show (((s.modPort 0 f).modPort 1 f).modPort 2 f).port q = _
  obtain rfl | rfl | rfl : q = 0 ∨ q = 1 ∨ q = 2 := by revert q; decide
  · rw [State.port_modPort_other _ _ (by decide), State.port_modPort_other _ _ (by decide), State.port_modPort_same]
  · rw [State.port_modPort_other _ _ (by decide), State.port_modPort_same, State.port_modPort_other _ _ (by decide)]
  · rw [State.port_modPort_same, State.port_modPort_other _ _ (by decide), State.port_modPort_other _ _ (by decide)]

theorem Calm.foldPorts {f : Port → Port} (h : ∀ t, PortOk t → PortOk (f t)) (s : State) :
    Calm s (allPorts.foldl (fun t p => t.modPort p f) s) :=
  ((Calm.modPort (h _)).trans (.modPort (h _))).trans (.modPort (h _))

theorem attentionOf_clear (enable : BitVec 16) : attentionOf (Vector.replicate 15 EventEntry.clear) enable = false := by
  refine (Bool.eq_false_iff).mpr fun line => ?_
  obtain ⟨k, -, pending⟩ := (attentionOf_iff _ _).mp line
  simp [EventEntry.clear] at pending

theorem PortOk.clearEvents {t : Port} (h : PortOk t) : PortOk t.clearEvents := by
  refine ⟨(attentionOf_clear _).symm, fun k => ?_, fun k => ?_, fun held => ⟨fun k => ?_, (h.inReset held).2⟩⟩
  all_goals simp [Port.clearEvents, EventEntry.clear]

theorem PortOk.reset (t : Port) : PortOk t.reset := by
  refine ⟨(attentionOf_clear _).symm, fun k => ?_, fun k => ?_, fun _ => ⟨fun k => ?_, rfl⟩⟩
  all_goals simp [Port.reset, EventEntry.clear]

theorem PortOk.resetUpload {t : Port} (h : PortOk t) : PortOk t.resetUpload := by
  unfold Port.resetUpload
  split
  · exact (h.produce _).congr rfl rfl rfl id
  · exact h.congr rfl rfl rfl id

theorem LinkOk.resetUpload {t : Port} (h : LinkOk t)
    (waits : t.write ≠ none → t.inProgress = true ∧ t.answers = 0) : LinkOk t.resetUpload := by
  unfold Port.resetUpload
  split
  case h_1 chunk write =>
    obtain ⟨asked, unanswered⟩ := waits (by simp [write])
    exact (h.produce (r := { kind := .answer, status := .noUpload, body := .none }) nofun asked unanswered).congr
      rfl rfl rfl rfl
  case h_2 => exact h.congr rfl rfl rfl rfl

/-! ### The controller reset (R181, R59) -/

/-- The ports as a controller reset leaves them before the bays take part. -/
def resetPorts (s : State) : State :=
  allPorts.foldl (fun t p => t.modPort p Port.resetUpload) (allPorts.foldl (fun t p => t.modPort p Port.clearEvents) s)

theorem port_resetPorts (s : State) (q : PortId) : (resetPorts s).port q = (s.port q).clearEvents.resetUpload := by
  rw [resetPorts, port_foldPorts, port_foldPorts]

theorem resetPorts_store (s : State) : (resetPorts s).store = s.store := rfl

/-- The ports and the bays as a controller reset leaves them. -/
def resetBays (s : State) : State :=
  (resetPorts s).bayOrder.foldl State.resetBay (resetPorts s).drawOrder

theorem resetBlocks_eq (s : State) :
    s.resetBlocks = { resetBays s with store := (resetBays s).store.controllerReset } := rfl

theorem Calm.resetBays (s : State) : Calm s (resetBays s) :=
  (((Calm.foldPorts (fun _ => PortOk.clearEvents) s).trans (.foldPorts (fun _ => PortOk.resetUpload) _)).trans
    (.drawOrder _)).trans (Calm.foldl BayStep.resetBay (resetPorts s).bayOrder (resetPorts s).drawOrder).1

theorem SameUploads.resetBays (s : State) : SameUploads (resetPorts s) (Sys2Proof.resetBays s) :=
  (SameUploads.of_eq (s := resetPorts s) (t := (resetPorts s).drawOrder) rfl rfl).trans
    (Calm.foldl BayStep.resetBay (resetPorts s).bayOrder (resetPorts s).drawOrder).2

/-- What a controller reset leaves of the store. -/
theorem controllerReset_rest (st : ImageStore) : st.controllerReset.segmentCount = st.segmentCount ∧
    st.controllerReset.mem = st.mem ∧
    st.controllerReset.catalogue = (st.deleteWhere fun e => e.state == .loading || e.state == .verifying).catalogue := by
  obtain ⟨segmentCount, -, mem, -⟩ := deleteWhere_rest st fun e => e.state == .loading || e.state == .verifying
  simp only [ImageStore.controllerReset, segmentCount, mem, and_self]

theorem controllerReset_granted (st : ImageStore) :
    st.controllerReset.granted = st.granted.map Grant.forgetVerify := by
  unfold ImageStore.controllerReset
  rfl

theorem StoreOk.withPointer {st su : ImageStore} (h : StoreOk st) (segmentCount : su.segmentCount = st.segmentCount)
    (catalogue : su.catalogue = st.catalogue) (pointer : su.pointer < su.segmentCount) : StoreOk su := by
  have entries := entries_congr catalogue
  have owned : su.owned = st.owned := by rw [ImageStore.owned, ImageStore.owned, entries]
  exact ⟨pointer, by rw [owned, segmentCount]; exact h.inMap, by rw [owned]; exact h.once, entries ▸ h.sizes,
    entries ▸ h.ids⟩

theorem controllerReset_pointer (st : ImageStore) : st.controllerReset.pointer = 0 := by
  unfold ImageStore.controllerReset
  rfl

theorem StoreOk.controllerReset {st : ImageStore} (h : StoreOk st) : StoreOk st.controllerReset := by
  obtain ⟨segmentCount, -, catalogue⟩ := controllerReset_rest st
  obtain ⟨kept, -⟩ := deleteWhere_rest st fun e => e.state == .loading || e.state == .verifying
  refine (h.deleteWhere _).withPointer (segmentCount.trans kept.symm) catalogue ?_
  rw [controllerReset_pointer, segmentCount]
  exact Nat.zero_lt_of_lt h.pointer

theorem Spares.resetBlocks (s : State) : Spares s s.resetBlocks := by
  have calm := Calm.resetBays s
  rw [resetBlocks_eq]
  obtain ⟨-, mem, catalogue⟩ := controllerReset_rest (Sys2Proof.resetBays s).store
  refine ⟨calm.sound.trans (.store fun wf => by rw [mem]; exact wf), fun pos e held state => ?_⟩
  show (Sys2Proof.resetBays s).store.controllerReset.catalogue[pos] = some e
  rw [catalogue, deleteWhere_get, calm.catalogue, held]
  rcases state with state | state <;> simp [state]

/-- With every upload context closed, nothing queued and no such access granted, the links and the store are all there
is. -/
theorem UploadsOk.closed {t : State} {st : ImageStore}
    (port : ∀ p, LinkOk (t.port p) ∧ (t.port p).upload = none ∧ (t.port p).write = none) (store : StoreOk st)
    (queue : st.verifier.queue = [])
    (granted : ∀ g, st.granted = some g → (∀ p chunk, g ≠ .portWrite p chunk) ∧ g ≠ .verifyRead true) :
    UploadsOk { t with store := st } := by
  refine ⟨fun p => (port p).1, store,
    ⟨fun p c upload => ?_, fun p q c d upload => ?_, fun id queued => ?_, ?_⟩,
    ⟨fun p chunk writes => ?_, fun p chunk held => ?_, fun held => ?_⟩⟩
  · exact absurd ((port p).2.1.symm.trans upload) nofun
  · exact absurd ((port p).2.1.symm.trans upload) nofun
  · exact absurd (queue ▸ queued) List.not_mem_nil
  · exact queue ▸ List.nodup_nil
  · rcases writes with writes | held
    · exact absurd ((port p).2.2.symm.trans writes) nofun
    · exact absurd rfl ((granted _ held).1 p chunk)
  · exact absurd rfl ((granted _ held).1 p chunk)
  · exact absurd rfl (granted _ held).2

theorem UploadsOk.resetBlocks {s : State} (h : UploadsOk s)
    (ungranted : ∀ p chunk, s.store.granted ≠ some (.portWrite p chunk)) : UploadsOk s.resetBlocks := by
  have same := SameUploads.resetBays s
  have port : ∀ p, LinkOk ((Sys2Proof.resetBays s).port p) ∧ ((Sys2Proof.resetBays s).port p).upload = none ∧
      ((Sys2Proof.resetBays s).port p).write = none := fun p => by
    obtain ⟨sending, waiting, inProgress, inReset, upload, write⟩ := same.ports p
    rw [upload, write]
    have link : LinkOk (s.port p).clearEvents := (h.links p).congr rfl rfl rfl rfl
    refine ⟨LinkOk.congr (t := (resetPorts s).port p) ?_ sending waiting inProgress inReset, ?_⟩ <;> rw [port_resetPorts]
    · refine link.resetUpload fun writes => ?_
      obtain ⟨chunk, write⟩ := Option.ne_none_iff_exists'.mp writes
      obtain ⟨asked, unanswered, -⟩ := h.access.writes p chunk (.inl write)
      exact ⟨asked, unanswered⟩
    · exact ⟨rfl, rfl⟩
  have granted : ∀ g, (Sys2Proof.resetBays s).store.controllerReset.granted = some g →
      (∀ p chunk, g ≠ .portWrite p chunk) ∧ g ≠ .verifyRead true := by
    intro g held
    obtain ⟨g', old, rfl⟩ := Option.map_eq_some_iff.mp
      ((controllerReset_granted _).symm.trans held)
    cases g' with
    | portWrite p chunk =>
      have before := same.writes p chunk old
      rw [resetPorts_store] at before
      exact absurd before (ungranted p chunk)
    | bayRead c i k l => exact ⟨fun _ _ => nofun, nofun⟩
    | verifyRead live => exact ⟨fun _ _ => nofun, nofun⟩
  have store : StoreOk (Sys2Proof.resetBays s).store.controllerReset :=
    StoreOk.controllerReset (h.store.congr same.segmentCount same.catalogue same.pointer)
  rw [resetBlocks_eq]
  exact UploadsOk.closed port store (by unfold ImageStore.controllerReset; rfl) granted

theorem writer_eq (s : State) : (s.writer = none ∧ ∀ p chunk, s.store.granted ≠ some (.portWrite p chunk)) ∨
    ∃ q chunk, s.writer = some q ∧ s.store.granted = some (.portWrite q chunk) := by
  unfold State.writer
  split
  case h_1 q chunk granted => exact .inr ⟨q, chunk, rfl, granted⟩
  case h_2 other => exact .inl ⟨rfl, other⟩

/-- The write that the arbiter carries out for a port ends; without one nothing changes. -/
theorem completeWrite_granted {s : State} {q : PortId} {chunk : List Byte}
    (granted : s.store.granted = some (.portWrite q chunk)) : s.completeWrite q = s.endGrant.writeChunk q chunk := by
  simp only [State.completeWrite, granted, if_true]

theorem completeWrite_ungranted {s : State} {p : PortId} (ungranted : ∀ chunk, s.store.granted ≠ some (.portWrite p chunk)) :
    s.completeWrite p = some s := by
  unfold State.completeWrite
  split
  case h_1 q chunk granted => exact if_neg fun same => by subst same; exact ungranted chunk granted
  case h_2 => rfl

theorem Calm.completeWrite {s t : State} {p : PortId} (h : s.completeWrite p = some t) : Calm s t := by
  unfold State.completeWrite at h
  split at h
  · split at h
    · exact (Calm.endGrant s).trans (.writeChunk h)
    · cases h; exact .refl s
  · cases h; exact .refl s

/-- A write that was granted leaves its request taken, its upload's image the same and nothing granted. -/
theorem granted_completes {s t : State} (h : UploadsOk s) {q : PortId} {chunk : List Byte}
    (granted : s.store.granted = some (.portWrite q chunk)) (done : s.completeWrite q = some t) :
    Taken q t ∧ t.store.granted = none := by
  rw [completeWrite_granted granted] at done
  obtain ⟨taken, same⟩ := (granted_write h granted).1.writeChunk done
  exact ⟨taken, same⟩

theorem exists_completeWrite {s : State} (h : UploadsOk s) (p : PortId) : ∃ t, s.completeWrite p = some t := by
  by_cases granted : ∃ chunk, s.store.granted = some (.portWrite p chunk)
  · obtain ⟨chunk, granted⟩ := granted
    rw [completeWrite_granted granted]
    exact (granted_write h granted).2
  · exact ⟨s, completeWrite_ungranted fun chunk held => granted ⟨chunk, held⟩⟩

theorem goesOn_withReset (s : State) : GoesOn Spares s s.withReset := by
  unfold State.withReset State.controllerReset
  rcases writer_eq s with ⟨none, ungranted⟩ | ⟨q, chunk, some, granted⟩
  · simp only [none]
    exact .next ((Spares.resetBlocks s).then (.arbitrate _)) fun ok => (ok.resetBlocks ungranted).arbitrate
  · simp only [some]
    cases done : s.completeWrite q with
    | none =>
      refine .fault fun ok => ?_
      obtain ⟨t, wrote⟩ := exists_completeWrite ok q
      rw [done] at wrote; cases wrote
    | some t =>
      have calm := Calm.completeWrite done
      refine .next ?_ fun ok => ?_
      · exact ((((Spares.resetBlocks _).after (.respond t q _ _)).after calm)).then (.arbitrate _)
      · obtain ⟨taken, free⟩ := granted_completes ok granted done
        have answered := taken.respond .ok (.cursor (t.cursorOf q))
        have granted' : (t.respond q .ok (.cursor (t.cursorOf q))).store.granted = none := by
          rw [(OnlyLink.respond t q _ _).store]; exact free
        exact (answered.resetBlocks fun p chunk => by rw [granted']; exact nofun).arbitrate

/-! ### The end of a response and CONTROLLER_RESET (R175, R176, R181) -/

theorem OnlyLink.sent (s : State) (p : PortId) : OnlyLink p s (s.modPort p Port.sent) :=
  .modPort s p _ fun _ => ⟨rfl, rfl, rfl, rfl, rfl, rfl, rfl⟩

theorem OnlyLink.sentAnswer (s : State) (p : PortId) : OnlyLink p s (s.modPort p Port.answered) :=
  .modPort s p _ fun _ => ⟨rfl, rfl, rfl, rfl, rfl, rfl, rfl⟩

theorem UploadsOk.sent {s : State} (h : UploadsOk s) {p : PortId} {r : Response} (line : (s.port p).sending = some r) :
    UploadsOk (s.modPort p Port.sent) := by
  have port : (s.modPort p Port.sent).port p = (s.port p).sent := State.port_modPort_same s p _
  refine h.onlyLink (.sent s p) (port ▸ (h.links p).sent line) fun chunk writes => ?_
  obtain ⟨asked, unanswered, -⟩ := h.access.writes p chunk writes
  have answers := answers_sent line
  rw [port]
  exact ⟨asked, by omega⟩

theorem UploadsOk.sentAnswer {s : State} (h : UploadsOk s) {p : PortId} {r : Response}
    (line : (s.port p).sending = some r) (kind : r.kind ≠ .refusal) : UploadsOk (s.modPort p Port.answered) := by
  have port : (s.modPort p Port.answered).port p = (s.port p).answered := State.port_modPort_same s p _
  refine h.onlyLink (.sentAnswer s p) (port ▸ (h.links p).answered line kind) fun chunk writes => ?_
  obtain ⟨-, unanswered, -⟩ := h.access.writes p chunk writes
  have answers := answers_sent line
  simp only [kind, if_false] at answers
  omega

theorem goesOn_sentReset {s : State} {p : PortId} {r : Response} (line : (s.port p).sending = some r)
    (kind : r.kind ≠ .refusal) : GoesOn Spares s (s.modPort p Port.answered).withReset := by
  have reset := goesOn_withReset (s.modPort p Port.answered)
  exact ⟨fun t ends => (reset.rel t ends).after (.onlyLink (.sentAnswer s p)),
    fun ok => reset.goes (ok.sentAnswer line kind)⟩

theorem Calm.spares {s t : State} (h : Calm s t) : Spares s t :=
  ⟨h.sound, fun pos e held _ => by rw [h.catalogue]; exact held⟩

theorem goesOn_responseSent (p : PortId) (s : State) : GoesOn Spares s (execResponseSent p s) := by
  unfold execResponseSent
  split
  · exact .next (Calm.refl s).spares id
  case h_2 r line =>
    split
    · exact .next (Calm.onlyLink (.sent s p)).spares fun ok => ok.sent line
    case h_2 kind =>
      exact .next (Calm.onlyLink (.sentAnswer s p)).spares fun ok => ok.sentAnswer line (by rw [kind]; exact nofun)
    case h_3 kind => exact goesOn_sentReset line (by rw [kind]; exact nofun)

theorem sendsReset_iff (t : Port) : t.sendsReset = true ↔ ∃ r, t.sending = some r ∧ r.kind = .resetAnswer := by
  unfold Port.sendsReset
  split
  case h_1 r line => simp [line]
  case h_2 line => simp [line]

theorem goesOn_controllerReset (p : PortId) (s : State) : GoesOn Spares s (execControllerReset p s) := by
  unfold execControllerReset
  split
  case isTrue sends =>
    obtain ⟨r, line, kind⟩ := (sendsReset_iff _).mp sends
    exact goesOn_sentReset line (by rw [kind]; exact nofun)
  case isFalse => exact goesOn_withReset s

/-! ### PORT_RESET (R180) -/

/-- The images that the ports upload are the same. -/
theorem Calm.completeWrite_image {s t : State} {p : PortId} (h : s.completeWrite p = some t) (c : Upload)
    (upload : (t.port p).upload = some c) : ∃ d, (s.port p).upload = some d ∧ d.image = c.image := by
  unfold State.completeWrite at h
  split at h
  · split at h
    · obtain ⟨d, e, m, old, -, -, rfl⟩ := writeChunk_some h
      rw [written, State.port_modPort_same] at upload
      obtain rfl := Option.some.inj upload
      exact ⟨d, old, rfl⟩
    · cases h; exact ⟨c, upload, rfl⟩
  · cases h; exact ⟨c, upload, rfl⟩

/-- The LOADING entry of a port's upload is deleted after a write has completed; every other entry stays. -/
theorem Removes.dropUpload {s t : State} {p : PortId} (h : s.completeWrite p = some t) : Removes s (t.dropUpload p) := by
  have calm := Calm.completeWrite h
  refine ⟨calm.sound.trans (.dropUpload t p), fun pos e store stages held state _ => ⟨e.pinned, ?_⟩⟩
  unfold State.dropUpload
  split
  · exact calm.catalogue ▸ held
  case h_2 c upload =>
    obtain ⟨d, old, image⟩ := Calm.completeWrite_image h c upload
    show (t.store.deleteWhere fun x => x.id == c.image).catalogue[pos] = some e
    rw [deleteWhere_get, calm.catalogue, held]
    refine if_neg fun named => ?_
    have loading := loading_of_upload store stages old ((mem_entries _ e).mpr ⟨pos, held⟩)
      (image ▸ (by simpa using named))
    rcases state with state | state <;> rw [state] at loading <;> cases loading

theorem UploadsOk.completeWrite {s t : State} (h : UploadsOk s) {p : PortId} (done : s.completeWrite p = some t) :
    UploadsOk t ∧ ∀ chunk, t.store.granted ≠ some (.portWrite p chunk) := by
  by_cases granted : ∃ chunk, s.store.granted = some (.portWrite p chunk)
  · obtain ⟨chunk, granted⟩ := granted
    obtain ⟨taken, free⟩ := granted_completes h granted done
    exact ⟨taken.ok, taken.ungranted⟩
  · have none : ∀ chunk, s.store.granted ≠ some (.portWrite p chunk) := fun chunk held => granted ⟨chunk, held⟩
    obtain rfl := Option.some.inj ((completeWrite_ungranted none).symm.trans done)
    exact ⟨h, none⟩

/-- A port after its own steps of R180. -/
def portCleared (s : State) (p : PortId) : State := (s.dropUpload p).modPort p Port.reset

theorem portReset_eq (s : State) (p : PortId) : s.portReset p =
    (portCleared s p).bayOrder.foldl (State.dropHold p) (portCleared s p).drawOrder := rfl

theorem Calm.portReset (s : State) (p : PortId) : Calm (portCleared s p) (s.portReset p) ∧
    SameUploads (portCleared s p) (s.portReset p) := by
  obtain ⟨calm, same⟩ := Calm.foldl (BayStep.dropHold p) (portCleared s p).bayOrder (portCleared s p).drawOrder
  rw [portReset_eq]
  exact ⟨(Calm.drawOrder _).trans calm,
    (SameUploads.of_eq (s := portCleared s p) (t := (portCleared s p).drawOrder) rfl rfl).trans same⟩

theorem UploadsOk.portReset {s : State} (h : UploadsOk s) {p : PortId}
    (ungranted : ∀ chunk, s.store.granted ≠ some (.portWrite p chunk)) : UploadsOk (s.portReset p) := by
  have port : (portCleared s p).port p = ((s.dropUpload p).port p).reset := State.port_modPort_same _ p _
  have upload : ((s.dropUpload p).port p).upload = none := by rw [port_dropUpload_same]
  refine UploadsOk.same ?_ (Calm.portReset s p).2
  refine h.withdraw rfl (fun q ne => ?_) (by rw [port]; exact upload) (by rw [port]; rfl)
    (by rw [port]; exact .reset _) ungranted
  rw [portCleared, State.port_modPort_other _ _ ne, port_dropUpload_other s ne]

theorem Removes.portReset {s t : State} {p : PortId} (h : s.completeWrite p = some t) : Removes s (t.portReset p) :=
  ((Removes.dropUpload h).then (.modPort fun _ => PortOk.reset _)).then (Calm.portReset t p).1

theorem goesOn_portReset (p : PortId) (s : State) : GoesOn Removes s (execPortReset p s) := by
  unfold execPortReset
  split
  · exact .next (Calm.refl s).spares.removes id
  split
  case h_1 none =>
    refine .fault fun ok => ?_
    obtain ⟨t, wrote⟩ := exists_completeWrite ok p
    rw [none] at wrote; cases wrote
  case h_2 t done =>
    have uploads : UploadsOk s → UploadsOk (t.portReset p) := fun ok =>
      let ⟨ok', ungranted⟩ := ok.completeWrite done
      ok'.portReset ungranted
    split
    · have reset := goesOn_withReset (t.portReset p)
      exact ⟨fun u ends => (Removes.portReset done).thenSpares (reset.rel u ends), fun ok => reset.goes (uploads ok)⟩
    · exact .next ((Removes.portReset done).then (.arbitrate _)) fun ok => (uploads ok).arbitrate

/-! ### YARD_TIME_TICK and POWER_ON_RESET -/

/-- What a millisecond changes: yard time and the bays. -/
structure Ticks (s t : State) : Prop where
  pending : t.pending = s.pending
  plans : t.plans = s.plans
  store : t.store = s.store
  part : PartOk s → PartOk t
  fleet : FleetOk s → FleetOk t

theorem goes_yardTimeTick (present ignition : BitVec 8) (s : State) :
    GoesBy Ticks s (execYardTimeTick present ignition s) := by
  refine ⟨_, rfl, ⟨rfl, rfl, rfl, fun part => PartOk.of part.memory part.ports fun b => ?_, fun g => g.congr rfl⟩,
    fun ok => ok.same (.of_eq rfl rfl)⟩
  have ticked : ∀ t : State, (t.bays = Vector.ofFn fun i => s.bays[i].tick (present.getLsbD i.val) (ignition.getLsbD i.val)) →
      t.bay b = (s.bay b).tick (present.getLsbD b.val) (ignition.getLsbD b.val) := fun t bays => by
    simp [State.bay, bays]
  rw [ticked _ rfl]
  exact good_tick (part.bay b) _ _

theorem port_powerOn (r0 r1 r2 : Role) (m : MemSize) (p : PortId) :
    ∃ r, (State.powerOn r0 r1 r2 m).port p = Port.powerOn r := by
  obtain rfl | rfl | rfl : p = 0 ∨ p = 1 ∨ p = 2 := by revert p; decide
  · exact ⟨r0, rfl⟩
  · exact ⟨r1, rfl⟩
  · exact ⟨r2, rfl⟩

theorem bay_powerOn (r0 r1 r2 : Role) (m : MemSize) (b : BayId) : (State.powerOn r0 r1 r2 m).bay b = Bay.powerOn := by
  simp [State.bay, State.powerOn]

theorem entries_powerOn (m : MemSize) : (ImageStore.powerOn m).entries = [] := by
  refine List.eq_nil_iff_forall_not_mem.mpr fun e mem => ?_
  obtain ⟨pos, held⟩ := (mem_entries _ e).mp mem
  simp [ImageStore.powerOn] at held

theorem StoreOk.powerOn (m : MemSize) : StoreOk (ImageStore.powerOn m) := by
  have entries := entries_powerOn m
  have owned : (ImageStore.powerOn m).owned = [] := by rw [ImageStore.owned, entries]; rfl
  refine ⟨by cases m <;> decide, ?_, ?_, ?_, ?_⟩ <;> simp [owned, entries]

theorem UploadsOk.powerOn (r0 r1 r2 : Role) (m : MemSize) : UploadsOk (State.powerOn r0 r1 r2 m) := by
  refine UploadsOk.closed (t := State.powerOn r0 r1 r2 m) (fun p => ?_) (StoreOk.powerOn m) rfl nofun
  obtain ⟨r, port⟩ := port_powerOn r0 r1 r2 m p
  rw [port]
  exact ⟨⟨Nat.zero_le _, nofun, fun _ => rfl, Nat.zero_le _, nofun⟩, rfl, rfl⟩

theorem PartOk.powerOn (r0 r1 r2 : Role) (m : MemSize) : PartOk (State.powerOn r0 r1 r2 m) := by
  refine PartOk.of rfl (fun p => ?_) fun b => ?_
  · obtain ⟨r, port⟩ := port_powerOn r0 r1 r2 m p
    rw [port]
    refine ⟨(attentionOf_clear _).symm, fun k => ?_, fun k => ?_, nofun⟩ <;> simp [Port.powerOn, EventEntry.clear]
  · rw [bay_powerOn]
    exact ⟨⟨by simp [Bay.powerOn], fun _ => ⟨rfl, rfl, rfl, fun busy => absurd rfl busy⟩⟩, rfl⟩

theorem FleetOk.powerOn (r0 r1 r2 : Role) (m : MemSize) : FleetOk (State.powerOn r0 r1 r2 m) :=
  ⟨List.nodup_nil, Nat.zero_le _, fun _ => Nat.zero_le _⟩

end Sys2Proof

end

/-! The invariants of every step (O57), what the commands leave as it is (O59), that every command goes on (O60), and the
reset and the queue (O1, O2, O3). -/

section

namespace Sys2Proof

open Machine

/-! ### Every command -/

/-- The queue stays, and the conditions of the part and of the fleet table are kept. -/
structure KeepsConditions (s t : State) : Prop where
  pending : t.pending = s.pending
  part : PartOk s → PartOk t
  fleet : FleetOk s → FleetOk t

theorem Sound.conditions {s t : State} (h : Sound s t) : KeepsConditions s t := ⟨h.pending, h.part, h.fleet⟩

theorem PlanEdit.conditions {s t : State} (h : PlanEdit s t) : KeepsConditions s t := ⟨h.pending, h.part, h.fleet⟩

theorem Ticks.conditions {s t : State} (h : Ticks s t) : KeepsConditions s t := ⟨h.pending, h.part, h.fleet⟩

/-- The queue is not read by the conditions of the part, of the fleet table, and of uploads and verification. -/
theorem PartOk.withPending {s : State} (h : PartOk s) (l : List Instr) : PartOk { s with pending := l } :=
  ⟨h.memory, h.ports, h.departures, h.bays⟩

theorem FleetOk.withPending {s : State} (h : FleetOk s) (l : List Instr) : FleetOk { s with pending := l } := h.congr rfl

theorem UploadsOk.withPending {s : State} (h : UploadsOk s) (l : List Instr) : UploadsOk { s with pending := l } :=
  h.same (.of_eq rfl rfl)

theorem goesOn_powerOnReset (r0 r1 r2 : Role) (m : MemSize) (s : State) :
    GoesOn KeepsConditions s (execPowerOnReset r0 r1 r2 m s) :=
  .next ⟨rfl, fun _ => (PartOk.powerOn r0 r1 r2 m).withPending _, fun _ => (FleetOk.powerOn r0 r1 r2 m).withPending _⟩
    fun _ => (UploadsOk.powerOn r0 r1 r2 m).withPending _

theorem goesOn_exec (i : Instr) (s : State) : GoesOn KeepsConditions s (exec i s) := by
  by_cases plain : i.special = false
  · exact (goes_of_not_special plain s).goesOn.mono fun _ h => h.sound.conditions
  cases i <;> simp only [Instr.special, not_true_eq_false] at plain
  case powerOnReset r0 r1 r2 m => exact goesOn_powerOnReset r0 r1 r2 m s
  case yardTimeTick x y => exact (goes_yardTimeTick x y s).goesOn.mono fun _ h => h.conditions
  case blockReadDone b => exact (goesOn_blockReadDone b s).mono fun _ h => h.sound.conditions
  case uploadWriteDone p => exact (goesOn_uploadWriteDone p s).mono fun _ h => h.sound.conditions
  case verifyReadDone => exact (goesOn_verifyReadDone s).mono fun _ h => h.sound.conditions
  case responseSent p => exact (goesOn_responseSent p s).mono fun _ h => h.sound.conditions
  case portReset p => exact (goesOn_portReset p s).mono fun _ h => h.sound.conditions
  case controllerReset p => exact (goesOn_controllerReset p s).mono fun _ h => h.sound.conditions
  case imgBegin p body => exact (goes_imgBegin p body s).goesOn.mono fun _ h => h.sound.conditions
  case imgFinish p body => exact (goes_imgFinish p body s).goesOn.mono fun _ h => h.sound.conditions
  case imgAbandon p body => exact (goes_imgAbandon p body s).goesOn.mono fun _ h => h.sound.conditions
  case imgRetire p body => exact (goes_imgRetire p body s).goesOn.mono fun _ h => h.sound.conditions
  case imgPurge p body => exact (goes_imgPurge p body s).goesOn.mono fun _ h => h.sound.conditions
  case imgPin p body => exact (goes_imgPin p body s).goesOn.mono fun _ h => h.sound.conditions
  case planClear p body => exact (goes_planClear p body s).goesOn.mono fun _ h => h.conditions
  case planPutRule p body => exact (goes_planPutRule p body s).goesOn.mono fun _ h => h.conditions
  case planActivate p body => exact (goes_planActivate p body s).goesOn.mono fun _ h => h.conditions

theorem exec_keeps_uploads {i : Instr} {s t : State} (h : exec i s = .next t) (ok : UploadsOk s) : UploadsOk t := by
  obtain ⟨u, ends, kept⟩ := (goesOn_exec i s).goes ok
  obtain rfl : t = u := Host.Outcome.next.inj (h.symm.trans ends)
  exact kept

/-- Settles O57: each command keeps the invariants, and they do not read the queue. -/
theorem stepKeepsInvariant : Obligations.StepKeepsInvariant := by
  unfold Obligations.StepKeepsInvariant
  intro s t stepped
  unfold step at stepped
  split at stepped
  · cases stepped; exact ⟨id, id, id⟩
  case h_2 c rest _ =>
    have kept := (goesOn_exec c { s with pending := rest }).rel t stepped
    exact ⟨fun ok => kept.part (ok.withPending rest), fun ok => kept.fleet (ok.withPending rest),
      fun ok => exec_keeps_uploads stepped (ok.withPending rest)⟩

/-- Settles O60: where the invariant of uploads and verification holds, every access that is granted has its bytes in
image memory. -/
theorem everyCommandCompletes : Obligations.EveryCommandCompletes := by
  unfold Obligations.EveryCommandCompletes
  intro i s ok
  have goes := goesOn_exec i s
  obtain ⟨t, ends, kept⟩ := goes.goes ok
  exact ⟨t, ends, kept, (goes.rel t ends).pending⟩

/-! ### What the commands leave as it is -/

/-- The command is one of those that may end an upload or a verification. -/
def Instr.endsUploads (i : Instr) : Prop :=
  ¬ ∀ p body, i ≠ .controllerReset p ∧ i ≠ .responseSent p ∧ i ≠ .portReset p ∧ i ≠ .imgAbandon p body

/-- What a command may change of the clock, the plans and the entries in use. -/
def Frames (i : Instr) (s t : State) : Prop :=
  ((∀ x y, i ≠ .yardTimeTick x y) → t.yardTime = s.yardTime) ∧
  ((∀ p body, i ≠ .planActivate p body) →
    t.plans.active = s.plans.active ∧ t.plans.generation = s.plans.generation) ∧
  ((∀ p body, i ≠ .planClear p body ∧ i ≠ .planPutRule p body) → t.plans.standby = s.plans.standby) ∧
  KeepsInUse s t ∧ (¬ i.endsUploads → KeepsStages s t)

theorem Edits.frames {i : Instr} {s t : State} (h : Edits s t) : Frames i s t :=
  ⟨fun _ => h.sound.yardTime, fun _ => ⟨h.sound.active, h.sound.generation⟩, fun _ => h.sound.standby, h.inUse,
    fun _ => h.stages⟩

theorem Removes.frames {i : Instr} {s t : State} (h : Removes s t) (ends : i.endsUploads) : Frames i s t :=
  ⟨fun _ => h.sound.yardTime, fun _ => ⟨h.sound.active, h.sound.generation⟩, fun _ => h.sound.standby, h.inUse,
    fun not => absurd ends not⟩

theorem StandbyEdit.frames {i : Instr} {s t : State} (h : StandbyEdit s t)
    (edits : ¬ ∀ p body, i ≠ .planClear p body ∧ i ≠ .planPutRule p body) : Frames i s t :=
  ⟨fun _ => h.yardTime, fun _ => ⟨h.active, h.generation⟩, fun not => absurd not edits, .of_eq h.catalogue,
    fun _ => .of_eq h.catalogue⟩

theorem Activation.frames {p : PortId} {body : List Byte} {s t : State} (h : Activation s t) :
    Frames (.planActivate p body) s t :=
  ⟨fun _ => h.yardTime, fun not => absurd rfl (not p body), fun _ => h.standby, .of_eq h.catalogue,
    fun _ => .of_eq h.catalogue⟩

theorem Ticks.frames {x y : BitVec 8} {s t : State} (h : Ticks s t) : Frames (.yardTimeTick x y) s t :=
  ⟨fun not => absurd rfl (not x y), fun _ => by rw [h.plans]; exact ⟨rfl, rfl⟩, fun _ => by rw [h.plans],
    .of_eq (by rw [h.store]), fun _ => .of_eq (by rw [h.store])⟩

theorem GoesBy.next {R : State → State → Prop} {s t : State} {r : Result} (h : GoesBy R s r) (ends : r = .next t) :
    R s t := h.goesOn.rel t ends

theorem exec_frames {i : Instr} {s t : State} (ends : exec i s = .next t) (kept : ∀ r0 r1 r2 m, i ≠ .powerOnReset r0 r1 r2 m) :
    Frames i s t := by
  by_cases plain : i.special = false
  · exact ((goes_of_not_special plain s).goesOn.rel t ends).edits.frames
  cases i <;> simp only [Instr.special, not_true_eq_false] at plain
  case powerOnReset r0 r1 r2 m => exact absurd rfl (kept r0 r1 r2 m)
  case yardTimeTick x y => exact ((goes_yardTimeTick x y s).next ends).frames
  case blockReadDone b => exact ((goesOn_blockReadDone b s).rel t ends).edits.frames
  case uploadWriteDone p => exact ((goesOn_uploadWriteDone p s).rel t ends).edits.frames
  case verifyReadDone => exact ((goesOn_verifyReadDone s).rel t ends).frames
  case responseSent p =>
    exact ((goesOn_responseSent p s).rel t ends).removes.frames fun not => (not p []).2.1 rfl
  case portReset p => exact ((goesOn_portReset p s).rel t ends).frames fun not => (not p []).2.2.1 rfl
  case controllerReset p =>
    exact ((goesOn_controllerReset p s).rel t ends).removes.frames fun not => (not p []).1 rfl
  case imgBegin p body => exact ((goes_imgBegin p body s).next ends).frames
  case imgFinish p body => exact ((goes_imgFinish p body s).next ends).frames
  case imgAbandon p body => exact ((goes_imgAbandon p body s).next ends).frames fun not => (not p body).2.2.2 rfl
  case imgRetire p body => exact ((goes_imgRetire p body s).next ends).frames
  case imgPurge p body => exact ((goes_imgPurge p body s).next ends).frames
  case imgPin p body => exact ((goes_imgPin p body s).next ends).frames
  case planClear p body => exact ((goes_planClear p body s).next ends).frames fun not => (not p body).1 rfl
  case planPutRule p body => exact ((goes_planPutRule p body s).next ends).frames fun not => (not p body).2 rfl
  case planActivate p body => exact ((goes_planActivate p body s).next ends).frames

/-- Settles O59, from what each kind of command keeps. -/
theorem commandsKeepEntries : Obligations.CommandsKeepEntries := by
  unfold Obligations.CommandsKeepEntries
  intro i s t ends kept
  obtain ⟨yardTime, active, standby, inUse, stages⟩ := exec_frames ends kept
  exact ⟨yardTime, active, standby, fun pos e store ok held => ⟨inUse pos e store ok held,
    fun state goesOn => stages (fun ends => ends goesOn) pos e store ok held state⟩⟩

/-! ### The queue and the reset -/

/-- Settles O1, by the two cases of the queue. -/
theorem stepRunsFrontCommand : Obligations.StepRunsFrontCommand := by
  unfold Obligations.StepRunsFrontCommand
  exact fun s => ⟨fun c rest front => by simp only [step, front], fun empty => by simp only [step, empty]⟩

/-- Settles O3, from the power-on values. -/
theorem resetMeetsInvariants : Obligations.ResetMeetsInvariants := by
  unfold Obligations.ResetMeetsInvariants
  exact ⟨PartOk.powerOn _ _ _ _, UploadsOk.powerOn _ _ _ _, FleetOk.powerOn _ _ _ _⟩

theorem freeCount_powerOn (m : MemSize) : (ImageStore.powerOn m).freeCount = (ImageStore.powerOn m).segmentCount := by
  simp [ImageStore.freeCount, ImageStore.owned, entries_powerOn]

/-- Settles O2, block by block from the power-on values. -/
theorem powerOnResetLeaves : Obligations.PowerOnResetLeaves := by
  unfold Obligations.PowerOnResetLeaves
  intro r0 r1 r2 m s
  refine ⟨{ State.powerOn r0 r1 r2 m with pending := s.pending }, rfl, rfl, rfl, rfl, rfl, rfl, rfl, fun p => ?_, ?_,
    freeCount_powerOn m, fun i => ?_, rfl, rfl, rfl, rfl, rfl, fun i => ?_, fun b => ?_⟩
  · obtain ⟨r, port⟩ := port_powerOn r0 r1 r2 m p
    have port' : ({ State.powerOn r0 r1 r2 m with pending := s.pending } : State).port p = Port.powerOn r := port
    rw [port']
    exact ⟨rfl, rfl, rfl, rfl, rfl, rfl, rfl, rfl, fun k => by simp [Port.powerOn, EventEntry.clear]⟩
  · cases m <;> rfl
  · simp [State.powerOn, ImageStore.powerOn]
  · simp [State.powerOn, PlanStore.powerOn]
  · have bay : ({ State.powerOn r0 r1 r2 m with pending := s.pending } : State).bay b = Bay.powerOn :=
      bay_powerOn r0 r1 r2 m b
    rw [bay]
    exact ⟨rfl, rfl, rfl, rfl, rfl, rfl, rfl, rfl, rfl, rfl, rfl, rfl, rfl, rfl, rfl⟩

end Sys2Proof

end

/-! SUPPORT. What `exec` runs for each command. -/

section

namespace Sys2Proof

open Machine

theorem exec_yardTimeTick (presentPins : BitVec 8) (ignitionPins : BitVec 8) (s : State) :
    exec (.yardTimeTick presentPins ignitionPins) s = execYardTimeTick presentPins ignitionPins s := rfl
theorem exec_presentRise (b : BayId) (s : State) : exec (.presentRise b) s = execPresentRise b s := rfl
theorem exec_detach (b : BayId) (s : State) : exec (.detach b) s = execDetach b s := rfl
theorem exec_ignitionRise (b : BayId) (s : State) : exec (.ignitionRise b) s = execIgnitionRise b s := rfl
theorem exec_ignitionFall (b : BayId) (s : State) : exec (.ignitionFall b) s = execIgnitionFall b s := rfl
theorem exec_deadlineReached (b : BayId) (s : State) : exec (.deadlineReached b) s = execDeadlineReached b s := rfl
theorem exec_frameSent (b : BayId) (s : State) : exec (.frameSent b) s = execFrameSent b s := rfl
theorem exec_replyReceived (b : BayId) (frame : List Byte) (s : State) :
    exec (.replyReceived b frame) s = execReplyReceived b frame s := rfl
theorem exec_pollIntervalEnd (b : BayId) (s : State) : exec (.pollIntervalEnd b) s = execPollIntervalEnd b s := rfl
theorem exec_confirmPollDue (b : BayId) (s : State) : exec (.confirmPollDue b) s = execConfirmPollDue b s := rfl
theorem exec_confirmationDeadline (b : BayId) (addr : Nat) (s : State) :
    exec (.confirmationDeadline b addr) s = execConfirmationDeadline b addr s := rfl
theorem exec_activationNotice (b : BayId) (s : State) : exec (.activationNotice b) s = execActivationNotice b s := rfl
theorem exec_blockReadDone (b : BayId) (s : State) : exec (.blockReadDone b) s = execBlockReadDone b s := rfl
theorem exec_uploadWriteDone (p : PortId) (s : State) : exec (.uploadWriteDone p) s = execUploadWriteDone p s := rfl
theorem exec_verifyReadDone (s : State) : exec (.verifyReadDone) s = execVerifyReadDone s := rfl
theorem exec_frameCrcError (p : PortId) (code : Byte) (body : List Byte) (crc : BitVec 16) (s : State) :
    exec (.frameCrcError p code body crc) s = execFrameCrcError p code body crc s := rfl
theorem exec_frameLengthError (p : PortId) (code : Byte) (length : BitVec 16) (s : State) :
    exec (.frameLengthError p code length) s = execFrameLengthError p code length s := rfl
theorem exec_frameCharacterTimeout (p : PortId) (s : State) :
    exec (.frameCharacterTimeout p) s = execFrameCharacterTimeout p s := rfl
theorem exec_busyFrame (p : PortId) (code : Byte) (body : List Byte) (s : State) :
    exec (.busyFrame p code body) s = execBusyFrame p code body s := rfl
theorem exec_unknownRequest (p : PortId) (code : Byte) (body : List Byte) (s : State) :
    exec (.unknownRequest p code body) s = execUnknownRequest p code body s := rfl
theorem exec_portReset (p : PortId) (s : State) : exec (.portReset p) s = execPortReset p s := rfl
theorem exec_timeRead (p : PortId) (body : List Byte) (s : State) :
    exec (.timeRead p body) s = execTimeRead p body s := rfl
theorem exec_evtRead (p : PortId) (body : List Byte) (s : State) :
    exec (.evtRead p body) s = execEvtRead p body s := rfl
theorem exec_evtAck (p : PortId) (body : List Byte) (s : State) : exec (.evtAck p body) s = execEvtAck p body s := rfl
theorem exec_evtMask (p : PortId) (body : List Byte) (s : State) :
    exec (.evtMask p body) s = execEvtMask p body s := rfl
theorem exec_imgBegin (p : PortId) (body : List Byte) (s : State) :
    exec (.imgBegin p body) s = execImgBegin p body s := rfl
theorem exec_imgData (p : PortId) (body : List Byte) (s : State) :
    exec (.imgData p body) s = execImgData p body s := rfl
theorem exec_imgFinish (p : PortId) (body : List Byte) (s : State) :
    exec (.imgFinish p body) s = execImgFinish p body s := rfl
theorem exec_imgAbandon (p : PortId) (body : List Byte) (s : State) :
    exec (.imgAbandon p body) s = execImgAbandon p body s := rfl
theorem exec_imgRetire (p : PortId) (body : List Byte) (s : State) :
    exec (.imgRetire p body) s = execImgRetire p body s := rfl
theorem exec_imgPurge (p : PortId) (body : List Byte) (s : State) :
    exec (.imgPurge p body) s = execImgPurge p body s := rfl
theorem exec_imgPin (p : PortId) (body : List Byte) (s : State) : exec (.imgPin p body) s = execImgPin p body s := rfl
theorem exec_imgQuery (p : PortId) (body : List Byte) (s : State) :
    exec (.imgQuery p body) s = execImgQuery p body s := rfl
theorem exec_planPutRule (p : PortId) (body : List Byte) (s : State) :
    exec (.planPutRule p body) s = execPlanPutRule p body s := rfl
theorem exec_planActivate (p : PortId) (body : List Byte) (s : State) :
    exec (.planActivate p body) s = execPlanActivate p body s := rfl
theorem exec_planQuery (p : PortId) (body : List Byte) (s : State) :
    exec (.planQuery p body) s = execPlanQuery p body s := rfl
theorem exec_fleetQuery (p : PortId) (body : List Byte) (s : State) :
    exec (.fleetQuery p body) s = execFleetQuery p body s := rfl
theorem exec_fitQuery (p : PortId) (body : List Byte) (s : State) :
    exec (.fitQuery p body) s = execFitQuery p body s := rfl
theorem exec_fleetForget (p : PortId) (body : List Byte) (s : State) :
    exec (.fleetForget p body) s = execFleetForget p body s := rfl
theorem exec_bayConfig (p : PortId) (body : List Byte) (s : State) :
    exec (.bayConfig p body) s = execBayConfig p body s := rfl
theorem exec_bayEnableOff (p : PortId) (body : List Byte) (s : State) :
    exec (.bayEnableOff p body) s = execBayEnableOff p body s := rfl
theorem exec_bayEnableOn (p : PortId) (body : List Byte) (s : State) :
    exec (.bayEnableOn p body) s = execBayEnableOn p body s := rfl
theorem exec_bayReset (p : PortId) (body : List Byte) (s : State) :
    exec (.bayReset p body) s = execBayReset p body s := rfl
theorem exec_departSet (p : PortId) (body : List Byte) (s : State) :
    exec (.departSet p body) s = execDepartSet p body s := rfl
theorem exec_departClear (p : PortId) (body : List Byte) (s : State) :
    exec (.departClear p body) s = execDepartClear p body s := rfl
theorem exec_departNow (p : PortId) (body : List Byte) (s : State) :
    exec (.departNow p body) s = execDepartNow p body s := rfl
theorem exec_hold (p : PortId) (body : List Byte) (s : State) : exec (.hold p body) s = execHold p body s := rfl
theorem exec_unholdOwn (p : PortId) (body : List Byte) (s : State) :
    exec (.unholdOwn p body) s = execUnholdOwn p body s := rfl
theorem exec_unholdRule (p : PortId) (body : List Byte) (s : State) :
    exec (.unholdRule p body) s = execUnholdRule p body s := rfl
theorem exec_cutoffClear (p : PortId) (body : List Byte) (s : State) :
    exec (.cutoffClear p body) s = execCutoffClear p body s := rfl
theorem exec_jobQuery (p : PortId) (body : List Byte) (s : State) :
    exec (.jobQuery p body) s = execJobQuery p body s := rfl
theorem exec_yardReset (p : PortId) (body : List Byte) (s : State) :
    exec (.yardReset p body) s = execYardReset p body s := rfl
theorem exec_controllerReset (p : PortId) (s : State) : exec (.controllerReset p) s = execControllerReset p s := rfl

end Sys2Proof

end

/-! The supervisor ports: links and responses (O4), the checks of a request (O5), events (O7, O8), and the frames that a
port refuses (O9). -/

section

namespace Sys2Proof

open Machine

/-! ### Links (R175, R176) -/

theorem refuse_of_waiting {s : State} {p : PortId} (waits : ∃ r ∈ (s.port p).waiting, r.kind = .refusal) (st : Status)
    (body : Body) : (s.refuse p st body).port p = s.port p := by
  obtain ⟨r, mem, kind⟩ := waits
  rw [port_refuse]
  exact if_pos (List.any_eq_true.mpr ⟨r, mem, by simp [kind]⟩)

theorem refuse_of_none {s : State} {p : PortId} (none : ∀ r ∈ (s.port p).waiting, r.kind ≠ .refusal) (st : Status)
    (body : Body) :
    (s.refuse p st body).port p = Port.produce { kind := .refusal, status := st, body := body } (s.port p) := by
  rw [port_refuse]
  refine if_neg fun waits => ?_
  obtain ⟨r, mem, kind⟩ := List.any_eq_true.mp waits
  exact none r mem (by simpa using kind)

/-- Settles O4, by what producing a response does to a free and to a busy line. -/
theorem answersTouchOneLink : Obligations.AnswersTouchOneLink := by
  unfold Obligations.AnswersTouchOneLink
  intro s p st body
  refine ⟨OnlyLink.intake s p, OnlyLink.respond s p st body, OnlyLink.refuse s p st body, port_intake_same s p,
    fun free => ?_, fun busy => ?_, fun waits => refuse_of_waiting waits st body,
    fun none => ⟨fun free => ?_, fun busy => ?_⟩⟩
  · rw [port_respond_same, produce_of_sending_none free]
  · rw [port_respond_same, produce_of_sending_ne_none busy]
  · rw [refuse_of_none none, produce_of_sending_none free]
  · rw [refuse_of_none none, produce_of_sending_ne_none busy]

/-! ### The checks of a request (R175, R177, R178) -/

/-- The command is a request that a port takes by its checks, with arguments that fit as the command says. -/
def ServedAs (i : Instr) (s : State) (p : PortId) (code : Byte) : Prop :=
  ∃ (α : Type) (args : Option α) (act : α → State → Result),
    exec i s = s.serve p code i.permitted args act ∧ args.isSome = i.argsFit

/-- Every request of the request table is taken by the same checks. -/
theorem request_serves {i : Instr} {p : PortId} {code : Byte} {body : List Byte}
    (h : i.request = some (p, code, body)) (s : State) :
    ServedAs i s p code ∨ i = .unknownRequest p code body := by
  cases i <;> simp only [Instr.request, reduceCtorEq, Option.some.injEq, Prod.mk.injEq] at h
  all_goals obtain ⟨rfl, rfl, rfl⟩ := h
  case unknownRequest => exact .inr rfl
  all_goals exact .inl ⟨_, _, _, by delta exec; dsimp only; rfl, rfl⟩

/-- The four checks of a request, in their order. -/
def Checks (i : Instr) (s : State) (p : PortId) (code : Byte) : Prop :=
  ((s.port p).hears = false → exec i s = .next s) ∧
  ((s.port p).hears = true → (s.port p).inProgress = true → exec i s = .next (s.refuse p .busy (.code code))) ∧
  ((s.port p).hears = true → (s.port p).inProgress = false → (s.port p).role ∉ i.permitted →
    exec i s = .next (answered s p .role .none)) ∧
  (Accepts s p i.permitted → i.argsFit = false → exec i s = .next (answered s p .badArg .none))

theorem ServedAs.checks {i : Instr} {s : State} {p : PortId} {code : Byte} (h : ServedAs i s p code) :
    Checks i s p code := by
  obtain ⟨α, args, act, served, fits⟩ := h
  refine ⟨fun deaf => ?_, fun hears busy => ?_, fun hears free role => ?_, fun accepted misfit => ?_⟩ <;> rw [served]
  · simp [State.serve, deaf]
  · simp [State.serve, hears, busy]
  · simp [State.serve, hears, free, role, answered]
  · obtain rfl : args = none := by simpa [misfit] using fits
    exact serve_badArg accepted code act

/-- A code that is not in the request table is a request of any role with any body. -/
theorem unknownRequest_checks {s : State} {p : PortId} {code : Byte} {body : List Byte}
    (unknown : code ∉ requestCodes) : Checks (.unknownRequest p code body) s p code := by
  refine ⟨fun deaf => ?_, fun hears busy => ?_, fun hears free role => absurd (accepts_any hears free).2.2 role, nofun⟩ <;>
    rw [exec_unknownRequest]
  · simp [execUnknownRequest, deaf]
  · simp [execUnknownRequest, unknown, hears, busy]

/-- A request that only reads is answered from the state that its taking leaves. -/
theorem query_answers {i : Instr} {s : State} {p : PortId} {code : Byte} {body : List Byte}
    (h : i.request = some (p, code, body)) (query : i.isQuery = true) (accepted : Accepts s p i.permitted)
    (fits : i.argsFit = true) : ∃ (st : Status) (r : Body), exec i s = .next (answered s p st r) := by
  have answers : ∀ {α : Type} {args : Option α} {act : α → State → Result},
      exec i s = s.serve p code i.permitted args act → args.isSome = true →
      (∀ a, ∃ (st : Status) (r : Body), act a (s.intake p) = .next ((s.intake p).respond p st r)) →
      ∃ (st : Status) (r : Body), exec i s = .next (answered s p st r) := fun served some reads => by
    obtain ⟨a, rfl⟩ := Option.isSome_iff_exists.mp some
    obtain ⟨st, r, ends⟩ := reads a
    exact ⟨st, r, served.trans ((serve_accepts accepted _ a _).trans ends)⟩
  cases i <;> simp only [Instr.isQuery, reduceCtorEq] at query
  all_goals
    simp only [Instr.request, Option.some.injEq, Prod.mk.injEq] at h
    obtain ⟨rfl, rfl, rfl⟩ := h
  case nop => exact answers (exec_nop _ _ s) fits fun _ => ⟨_, _, rfl⟩
  case timeRead => exact answers (exec_timeRead _ _ s) fits fun _ => ⟨_, _, rfl⟩
  case evtRead => exact answers (exec_evtRead _ _ s) fits fun _ => ⟨_, _, rfl⟩
  case imgQuery =>
    refine answers (exec_imgQuery _ _ s) fits fun sel => ?_
    unfold State.imgQuery
    split <;> split <;> exact ⟨_, _, rfl⟩
  case planQuery => exact answers (exec_planQuery _ _ s) fits fun _ => ⟨_, _, rfl⟩
  case fleetQuery =>
    refine answers (exec_fleetQuery _ _ s) fits fun n => ?_
    split <;> exact ⟨_, _, rfl⟩
  case fitQuery =>
    refine answers (exec_fitQuery _ _ s) fits fun n => ?_
    split <;> exact ⟨_, _, rfl⟩
  case bayStatus => exact answers (exec_bayStatus _ _ s) fits fun _ => ⟨_, _, rfl⟩
  case jobQuery =>
    refine answers (exec_jobQuery _ _ s) fits fun n => ?_
    split <;> exact ⟨_, _, rfl⟩

/-- Settles O5: every request of the table passes through the same checks, and a query's answer is all that follows. -/
theorem requestChecks : Obligations.RequestChecks := by
  unfold Obligations.RequestChecks
  refine ⟨fun i s p code body h wellFormed => ?_, fun i s p code body h query accepted fits => ?_⟩
  · rcases request_serves h s with served | rfl
    · exact served.checks
    · exact unknownRequest_checks (by
        simp only [Instr.wellFormed, Bool.and_eq_true, Bool.not_eq_true', List.contains_eq_mem, decide_eq_false_iff_not]
          at wellFormed
        exact wellFormed.1)
  · obtain ⟨st, r, ends⟩ := query_answers h query accepted fits
    exact ⟨st, r, answered s p st r, ends, rfl, OnlyLink.answered s p st r⟩

/-! ### Events (R183 to R185) -/

/-- Settles O7, by the reports and the line of the port's own sets. -/
theorem timeAndEventsRequests : Obligations.TimeAndEventsRequests := by
  unfold Obligations.TimeAndEventsRequests
  refine ⟨fun s p accepted => ⟨(exec_timeRead p [] s).trans (serve_accepts accepted 0x01#8 () _), ?_⟩,
    fun s p body kinds accepted parsed => ⟨?_, ?_⟩⟩
  · refine ⟨reports (s.port p).events fun _ => true, ?_, by simpa using reports_spec (s.port p).events fun _ => true⟩
    refine (exec_evtRead p [] s).trans ((serve_accepts accepted 0x02#8 () _).trans ?_)
    rw [port_intake_same]
    rfl
  · refine ⟨reports (s.port p).events fun k => kinds.getLsbD k.val, acknowledge kinds (s.port p).events,
      attentionOf (acknowledge kinds (s.port p).events) (s.port p).enable, ?_, reports_spec _ _, fun k => ?_,
      attentionOf_iff _ _⟩
    · rw [exec_evtAck, execEvtAck, parsed, serve_accepts accepted]
      dsimp only
      rw [port_intake_same]
      refine congrArg (fun u : State => Host.Outcome.next (u.respond p _ _)) (modPort_congr _ p ?_)
      rw [port_intake_same]
      rfl
    · rw [acknowledge_get]; rfl
  · refine ⟨attentionOf (s.port p).events kinds, ?_, attentionOf_iff _ _⟩
    rw [exec_evtMask, execEvtMask, parsed, serve_accepts accepted]
    refine congrArg (fun u : State => Host.Outcome.next (u.respond p _ _)) (modPort_congr _ p ?_)
    rw [port_intake_same]
    rfl

/-- Settles O8, by the new entry of the pending set. -/
theorem postingCounts : Obligations.PostingCounts := by
  unfold Obligations.PostingCounts
  refine fun s kind x => ⟨rfl, rfl, rfl, rfl, rfl, rfl, fun p => ⟨fun held => ?_, fun free => ?_⟩⟩ <;> rw [port_post]
  · simp [Port.post, held]
  · refine ⟨(s.port p).events.set kind.number.val ((s.port p).events[kind.number].add x) kind.number.isLt,
      attentionOf ((s.port p).events.set kind.number.val ((s.port p).events[kind.number].add x) kind.number.isLt)
        (s.port p).enable, ?_, ?_, ?_, fun k ne => ?_, attentionOf_iff _ _⟩
    · simp [Port.post, free, Port.withAttention]
    · simp [EventEntry.add]
    · simp [EventEntry.add]
    · exact Vector.getElem_set_ne _ _ fun same => ne (Fin.ext same.symm)

/-! ### Responses that end and frames that are refused (R173 to R177, R181) -/

theorem yardReset_accepted {s : State} {p : PortId} (accepted : Accepts s p [.service]) : exec (.yardReset p []) s =
    .next ((s.intake p).modPort p (Port.produce { kind := .resetAnswer, status := .ok, body := .none })) :=
  (exec_yardReset p [] s).trans (serve_accepts accepted 0x50#8 () _)

/-- What producing a response does at a port that has just taken a request. -/
theorem intake_produce_free {s : State} {p : PortId} (free : (s.port p).sending = none) (r : Response) :
    (s.intake p).modPort p (Port.produce r) = (s.intake p).modPort p fun t => { t with sending := some r } :=
  modPort_congr _ p (produce_of_sending_none (by rw [port_intake_same]; exact free) r)

theorem intake_produce_busy {s : State} {p : PortId} (busy : (s.port p).sending ≠ none) (r : Response) :
    (s.intake p).modPort p (Port.produce r) = (s.intake p).modPort p fun t => { t with waiting := t.waiting ++ [r] } :=
  modPort_congr _ p (produce_of_sending_ne_none (by rw [port_intake_same]; exact busy) r)

/-- Settles O9, by the kinds of response and by the kinds of frame. -/
theorem responsesAndRefusals : Obligations.ResponsesAndRefusals := by
  unfold Obligations.ResponsesAndRefusals
  refine ⟨fun s p => ⟨fun none => ?_, fun st r line => ?_, fun st r line => ?_, fun st r line => ?_,
    fun accepted => ⟨fun free => ?_, fun busy => ?_⟩⟩, fun s p code body crc length hears => ⟨fun wrong => ?_,
    fun long => ?_, ?_, fun busy => ?_, fun free unknown => ?_, fun u discards => if_pos discards⟩⟩
  · simp only [exec_responseSent, execResponseSent, none]
  · rw [exec_responseSent, execResponseSent_of_answer line rfl]; rfl
  · simp only [exec_responseSent, execResponseSent, line]; rfl
  · have sends : (s.port p).sendsReset = true := (sendsReset_iff _).mpr ⟨_, line, rfl⟩
    simp only [exec_responseSent, execResponseSent, line, exec_controllerReset, execControllerReset, sends, if_true]
  · rw [yardReset_accepted accepted, intake_produce_free free]
  · rw [yardReset_accepted accepted, intake_produce_busy busy]
  · simp [exec_frameCrcError, execFrameCrcError, hears, wrong]
  · simp [exec_frameLengthError, execFrameLengthError, hears, long]
  · simp [exec_frameCharacterTimeout, execFrameCharacterTimeout, hears]
  · simp [exec_busyFrame, execBusyFrame, hears, busy]
  · simp [exec_unknownRequest, execUnknownRequest, hears, free, unknown, answered]

end Sys2Proof

end

/-! The uploads of the image store: IMG_BEGIN (O12), IMG_DATA, IMG_FINISH and IMG_ABANDON (O13), and the completion of a
chunk's write (O14). -/

section

namespace Sys2Proof

open Machine

/-! ### Requests taken with their arguments -/

/-- A request that a port takes runs on the state that its taking leaves. -/
theorem serve_parsed {α : Type} {s : State} {p : PortId} {roles : List Role} (accepted : Accepts s p roles)
    {args : Option α} {a : α} (parsed : args = some a) (code : Byte) (act : α → State → Result) :
    s.serve p code roles args act = act a (s.intake p) := by
  subst parsed
  exact serve_accepts accepted code a act

theorem intake_upload (s : State) (p : PortId) : ((s.intake p).port p).upload = (s.port p).upload := by
  rw [port_intake_same]

/-! ### IMG_BEGIN (R43, R46) -/

theorem exec_imgBegin_accepted {s : State} {p : PortId} {body : List Byte} {a : BeginArgs}
    (accepted : Accepts s p [.image]) (parsed : parseBegin body = some a) :
    exec (.imgBegin p body) s = .next ((s.intake p).imgBegin p a) :=
  (exec_imgBegin p body s).trans (serve_parsed accepted parsed 0x10#8 _)

/-- An empty position is found where there is one. -/
theorem emptyPosition_of_empty {st : ImageStore} {i : Fin 32} (empty : st.catalogue[i] = none) :
    ∃ n, n < 32 ∧ st.emptyPosition = some n := by
  cases position : st.emptyPosition with
  | none =>
    have full := List.findIdx?_eq_none_iff.mp position st.catalogue[i] (Vector.mem_toList_iff.mpr (Vector.getElem_mem _))
    simp [empty] at full
  | some n =>
    obtain ⟨bound, -⟩ := List.findIdx?_eq_some_iff_getElem.mp position
    exact ⟨n, by simpa using bound, rfl⟩

/-- The free segments after an entry has taken its own. -/
theorem freeCount_place {st : ImageStore} (h : StoreOk st) {pos : Fin 32} {e : Entry} (empty : st.catalogue[pos] = none)
    (segments : e.segments = st.reserve e.segmentNeed) (room : e.segmentNeed ≤ st.freeCount) :
    (st.place pos e).freeCount = st.freeCount - e.segmentNeed := by
  obtain ⟨length, -⟩ := reserve_spec h room
  have owned : (st.place pos e).owned.Perm (e.segments ++ st.owned) := (entries_place e empty).flatMap_right _
  have count : (st.place pos e).owned.length = e.segmentNeed + st.owned.length := by
    rw [owned.length_eq, List.length_append, segments, length]
  show st.segmentCount - (st.place pos e).owned.length = st.segmentCount - st.owned.length - e.segmentNeed
  omega

/-- An accepted IMG_BEGIN, in a state with the conditions of R46 met. -/
theorem imgBegin_placed {s : State} {p : PortId} {a : BeginArgs} {pos : Fin 32} (closed : (s.port p).upload = none)
    (fresh : s.store.find a.id = none) (position : s.store.emptyPosition = some pos.val)
    (room : a.need ≤ s.store.freeCount) : s.imgBegin p a =
      (begun s p pos (a.entry p (s.store.reserve a.need))).respond p .ok
        (.reserved pos.val (s.store.place pos (a.entry p (s.store.reserve a.need))).freeCount) := by
  simp only [State.imgBegin, closed, fresh, position, Option.isSome_none, Bool.false_eq_true, if_false, pos.isLt,
    dite_true, if_neg (Nat.not_lt.mpr room)]
  rfl

/-- Settles O12, by the conditions of R46 in their order and by the scan of R43. -/
theorem imgBeginReserves : Obligations.ImgBeginReserves := by
  unfold Obligations.ImgBeginReserves
  intro s p body a accepted parsed store
  rw [exec_imgBegin_accepted accepted parsed]
  have upload := intake_upload s p
  refine ⟨fun opened => ?_, fun closed => ?_⟩
  · have some : ((s.intake p).port p).upload.isSome = true := by rw [upload]; exact Option.isSome_iff_ne_none.mpr opened
    rw [State.imgBegin, if_pos some, answered]
  · have none : ((s.intake p).port p).upload = none := upload.trans closed
    refine ⟨fun known => ?_, fun fresh full => ?_, fun fresh ⟨i, empty⟩ short => ?_,
      fun fresh pos empty lowest room => ?_⟩
    · have found : ((s.intake p).store.find a.id).isSome = true := Option.isSome_iff_ne_none.mpr known
      simp only [State.imgBegin, none, found, Option.isSome_none, Bool.false_eq_true, if_false, if_true, answered]
    · have position : (s.intake p).store.emptyPosition = Option.none := emptyPosition_none s.store full
      have fresh' : (s.intake p).store.find a.id = Option.none := fresh
      simp only [State.imgBegin, none, fresh', position, Option.isSome_none, Bool.false_eq_true, if_false, answered]
    · have short' : (s.intake p).store.freeCount < a.need := short
      have fresh' : (s.intake p).store.find a.id = Option.none := fresh
      obtain ⟨n, lt, position⟩ := emptyPosition_of_empty (st := (s.intake p).store) (i := i) empty
      simp only [State.imgBegin, none, fresh', position, Option.isSome_none, Bool.false_eq_true, if_false, lt, dite_true,
        if_pos short', answered]
    · have position : (s.intake p).store.emptyPosition = some pos.val := emptyPosition_some s.store pos empty lowest
      refine ⟨s.store.reserve a.need, pointerAfter s.store.segmentCount s.store.pointer (s.store.reserve a.need),
        takeFree_spec s.store.owned s.store.segmentCount _ _ _ store.pointer, (reserve_spec store room).1,
        fun last ends => by simp only [pointerAfter, ends], ?_⟩
      have free : (s.store.place pos (a.entry p (s.store.reserve a.need))).freeCount =
        s.store.freeCount - (a.length + 65535) / 65536 := freeCount_place store empty rfl room
      rw [imgBegin_placed (s := s.intake p) none fresh position room, ← free]
      rfl

/-! ### IMG_DATA, IMG_FINISH and IMG_ABANDON (R47 to R49) -/

theorem lengthOf_found {st : ImageStore} {id : Nat} {e : Entry} (found : st.find id = some e) : st.lengthOf id = e.length := by
  simp only [ImageStore.lengthOf, found]

theorem exec_imgData_accepted {s : State} {p : PortId} {chunk : List Byte} (accepted : Accepts s p [.image])
    (some : 1 ≤ chunk.length) (fits : chunk.length ≤ 1024) :
    exec (.imgData p chunk) s = finish ((s.intake p).imgData p chunk) :=
  (exec_imgData p chunk s).trans (serve_parsed accepted (by simp [parseChunk, some, fits]) 0x11#8 _)

theorem exec_imgFinish_accepted {s : State} {p : PortId} (accepted : Accepts s p [.image]) :
    exec (.imgFinish p []) s = finish ((s.intake p).imgFinish p) :=
  (exec_imgFinish p [] s).trans (serve_parsed accepted parseEmpty_nil 0x12#8 _)

/-- IMG_ABANDON answers NO_UPLOAD with no context and ends the upload with one. -/
theorem exec_imgAbandon_accepted {s : State} {p : PortId} (accepted : Accepts s p [.image]) :
    ((s.port p).upload = none → exec (.imgAbandon p []) s = .next (answered s p .noUpload .none)) ∧
    (∀ c, (s.port p).upload = some c →
      exec (.imgAbandon p []) s = .next (((s.intake p).dropUpload p).respond p .ok .none)) := by
  have run := (exec_imgAbandon p [] s).trans (serve_parsed accepted parseEmpty_nil 0x13#8 _)
  have upload := intake_upload s p
  refine ⟨fun none => ?_, fun c some => ?_⟩ <;> rw [run]
  · simp only [upload, none]; rfl
  · simp only [upload, some]

/-- The free segments after the entry of an id has been deleted. -/
theorem freeCount_deleteWhere {st : ImageStore} (h : StoreOk st) {id : Nat} {e : Entry} (found : st.find id = some e)
    {cat : Vector (Option Entry) 32} (deleted : st.deleteWhere (fun x => x.id == id) = { st with catalogue := cat }) :
    ({ st with catalogue := cat } : ImageStore).freeCount = st.freeCount + e.segments.length := by
  obtain ⟨mem, named⟩ := find_some found
  have once : st.entries.Nodup := List.Nodup.of_map _ h.ids
  have entries : ({ st with catalogue := cat } : ImageStore).entries = st.entries.erase e := by
    rw [← deleted, entries_deleteWhere, once.erase_eq_filter]
    refine List.filter_congr fun x xmem => ?_
    by_cases same : x = e
    · simp [same, named]
    · have other : x.id ≠ id := fun xid => same (entry_unique h xmem mem (xid.trans named.symm))
      rw [beq_false_of_ne other, bne_iff_ne.mpr same]
      rfl
  have owned : st.owned.Perm (e.segments ++ ({ st with catalogue := cat } : ImageStore).owned) := by
    rw [ImageStore.owned, ImageStore.owned, entries]
    exact (List.perm_cons_erase mem).flatMap_right _
  have count := owned.length_eq
  have room := owned_length_le h
  rw [List.length_append] at count
  simp only [ImageStore.freeCount]
  omega

/-- Settles O13, by the three requests of an open upload. -/
theorem uploadRequests : Obligations.UploadRequests := by
  unfold Obligations.UploadRequests
  refine ⟨fun s p chunk accepted some fits => ?_, fun s p accepted => ?_⟩
  · rw [exec_imgData_accepted accepted some fits]
    have upload := intake_upload s p
    refine ⟨fun closed => ?_, fun c e opened found => ?_⟩
    · have none : ((s.intake p).port p).upload = none := upload.trans closed
      simp only [State.imgData, none]
      rfl
    · have opened' : ((s.intake p).port p).upload = Option.some c := upload.trans opened
      have length : (s.intake p).store.lengthOf c.image = e.length := lengthOf_found (st := s.store) found
      refine ⟨fun beyond => ?_, fun within => ?_⟩ <;> simp only [State.imgData, opened', length]
      · rw [if_pos beyond]; rfl
      · rw [if_neg (Nat.not_lt.mpr within)]; rfl
  · have upload := intake_upload s p
    obtain ⟨abandonNone, abandonSome⟩ := exec_imgAbandon_accepted accepted
    refine ⟨fun closed => ⟨?_, abandonNone closed⟩, fun c e opened found => ⟨fun short => ?_, fun whole => ?_, ?_⟩⟩
    · have none : ((s.intake p).port p).upload = none := upload.trans closed
      rw [exec_imgFinish_accepted accepted]
      simp only [State.imgFinish, none]
      rfl
    · have opened' : ((s.intake p).port p).upload = some c := upload.trans opened
      have length : (s.intake p).store.lengthOf c.image = e.length := lengthOf_found (st := s.store) found
      rw [exec_imgFinish_accepted accepted]
      simp only [State.imgFinish, opened', length, if_pos short]
      rfl
    · have opened' : ((s.intake p).port p).upload = some c := upload.trans opened
      have length : (s.intake p).store.lengthOf c.image = e.length := lengthOf_found (st := s.store) found
      obtain ⟨cat, same, finishes⟩ := imgFinish_accepted opened' (length ▸ whole)
      refine ⟨cat, ?_, fun i => ?_⟩
      · rw [exec_imgFinish_accepted accepted, finishes]; rfl
      · rw [same, modEntry_get]
        simp only [beq_iff_eq]
        rfl
    · obtain ⟨cat, deleted, get⟩ := exists_cat_delete s.store fun x => x.id == c.image
      refine ⟨cat, ?_, fun i => ?_, fun store => freeCount_deleteWhere store found deleted⟩
      · have deleted' : (s.intake p).store.deleteWhere (fun x => x.id == c.image) =
          { s.store with catalogue := cat } := deleted
        have opened' : ((s.intake p).port p).upload = some c := upload.trans opened
        rw [abandonSome c opened]
        simp only [State.dropUpload, opened', deleted']
      · rw [get]
        cases s.store.catalogue[i] <;> simp only [beq_iff_eq]

/-! ### UPLOAD_WRITE_DONE (R42, R47) -/

/-- Writing bytes reads the map's size and image memory alone of the store. -/
theorem writeBytes_congr {st su : ImageStore} (segmentCount : su.segmentCount = st.segmentCount) (mem : su.mem = st.mem)
    (e : Entry) (chunk : List Byte) : ∀ o, su.writeBytes e o chunk = st.writeBytes e o chunk := by
  induction chunk with
  | nil => exact fun _ => congrArg some mem
  | cons v rest ih => exact fun o => by rw [ImageStore.writeBytes, ImageStore.writeBytes, segmentCount, ih]

/-- A write that the arbiter carries out for a port, with its bytes. -/
theorem writeChunk_written {s : State} {p : PortId} {chunk : List Byte} {c : Upload} {e : Entry} {m : Memory}
    (upload : (s.port p).upload = some c) (found : s.store.find c.image = some e)
    (bytes : s.store.writeBytes e c.cursor chunk = some m) :
    s.writeChunk p chunk = some (written s p m { c with cursor := c.cursor + chunk.length }) := by
  unfold State.writeChunk
  simp only [upload, found, Option.bind_some, bytes]
  rfl

theorem cursorOf_written (s : State) (p : PortId) (m : Memory) (c : Upload) : (written s p m c).cursorOf p = c.cursor := by
  simp only [State.cursorOf, written, State.port_modPort_same]

/-- Settles O14, from where the bytes of a chunk go. -/
theorem uploadWriteAdvances : Obligations.UploadWriteAdvances := by
  unfold Obligations.UploadWriteAdvances
  intro s p chunk c e store wf granted upload found fits
  obtain ⟨m, bytes, places, rest, wf'⟩ := writeBytes_spec store (find_some found).1 wf chunk c.cursor fits
  refine ⟨m, ?_, places, rest, wf'⟩
  have upload' : (s.endGrant.port p).upload = some c := upload
  have found' : s.endGrant.store.find c.image = some e := found
  have bytes' : s.endGrant.store.writeBytes e c.cursor chunk = some m :=
    (writeBytes_congr (st := s.store) (su := s.endGrant.store) rfl rfl e chunk c.cursor).trans bytes
  rw [exec_uploadWriteDone, execUploadWriteDone, granted]
  dsimp only
  rw [if_neg (not_not_intro rfl), writeChunk_written upload' found' bytes']
  dsimp only
  rw [cursorOf_written]
  rfl

end Sys2Proof

end

/-! The catalogue of the image store: IMG_RETIRE and IMG_PURGE (O15), IMG_PIN and IMG_QUERY (O16), and the completion of a
verification read (O17). -/

section

namespace Sys2Proof

open Machine

/-! ### IMG_RETIRE and IMG_PURGE (R54, R55) -/

theorem exec_imgRetire_accepted {s : State} {p : PortId} {body : List Byte} {id : Nat}
    (accepted : Accepts s p [.image, .service]) (parsed : parseImageId body = some id) :
    exec (.imgRetire p body) s = .next ((s.intake p).imgRetire p id) :=
  (exec_imgRetire p body s).trans (serve_parsed accepted parsed 0x14#8 _)

theorem exec_imgPurge_accepted {s : State} {p : PortId} (accepted : Accepts s p [.image, .service]) :
    exec (.imgPurge p []) s = .next
      (({ s.intake p with store := s.store.deleteWhere (s.intake p).purgeable } : State).respond p .ok
        (.removed (s.store.entries.countP (s.intake p).purgeable))) :=
  (exec_imgPurge p [] s).trans (serve_parsed accepted parseEmpty_nil 0x15#8 _)

theorem inUse_false {s : State} {e : Entry} (settled : e.state = .ready ∨ e.state = .broken) (unused : s.useCount e.id = 0) :
    s.inUse e = false := by
  refine Bool.eq_false_iff.mpr fun used => ?_
  rcases (inUse_iff s e).mp used with loading | verifying | claimed
  · rcases settled with state | state <;> rw [state] at loading <;> cases loading
  · rcases settled with state | state <;> rw [state] at verifying <;> cases verifying
  · omega

/-- No rule of the active plan but a CENSUS one has the image. -/
theorem references_false {pl : PlanStore} {id : Nat} : pl.references id = false ↔
    ∀ (i : Fin 64) (r : Rule), pl.active[i] = some r → r.image = some id → r.action = .census := by
  rw [← Bool.not_eq_true, references_iff]
  push Not
  exact ⟨fun all i r held image => not_not.mp fun flash => all i r held flash image,
    fun all i r held flash image => flash (all i r held image)⟩

theorem settled_iff (e : Entry) : e.state = .ready ∨ e.state = .broken ↔ ¬(e.state = .loading ∨ e.state = .verifying) := by
  cases e.state <;> simp

/-- What an IMG_RETIRE taken now would delete (R55). -/
theorem purgeable_iff (s : State) (e : Entry) : s.purgeable e = true ↔
    (e.state = .ready ∨ e.state = .broken) ∧ s.useCount e.id = 0 ∧ e.pinned = false ∧
      ∀ (k : Fin 64) (r : Rule), s.plans.active[k] = some r → r.image = some e.id → r.action = .census := by
  rw [← references_false, settled_iff]
  simp only [State.purgeable, Bool.and_eq_true, Bool.not_eq_true', ← Bool.not_eq_true, inUse_iff, not_or,
    Nat.not_lt, Nat.le_zero, and_assoc]
  tauto

/-- Settles O15, by the conditions of R54 in their order, which are those of a purge. -/
theorem imgRetireAndPurge : Obligations.ImgRetireAndPurge := by
  unfold Obligations.ImgRetireAndPurge
  refine ⟨fun s p body id accepted parsed => ?_, fun s p accepted => ?_⟩
  · rw [exec_imgRetire_accepted accepted parsed]
    refine ⟨fun absent => ?_, fun e found => ⟨fun used => ?_, fun settled unused => ⟨fun planned => ?_,
      fun unplanned => ⟨fun pinned => ?_, fun loose => ?_⟩⟩⟩⟩
    · have absent' : (s.intake p).store.find id = none := absent
      simp only [State.imgRetire, absent', answered]
    all_goals
      have found' : (s.intake p).store.find id = some e := found
      obtain ⟨-, named⟩ := find_some found
    · have inUse : (s.intake p).inUse e = true := (inUse_iff s e).mpr (named ▸ used)
      simp only [State.imgRetire, found', inUse, if_true, answered]
    all_goals have inUse : (s.intake p).inUse e = false := inUse_false (s := s) settled (named ▸ unused)
    · have references : (s.intake p).plans.references id = true := (references_iff s.plans id).mpr planned
      simp only [State.imgRetire, found', inUse, references, if_true, Bool.false_eq_true, if_false, answered]
    all_goals have references : (s.intake p).plans.references id = false := references_false.mpr unplanned
    · simp only [State.imgRetire, found', inUse, references, pinned, if_true, Bool.false_eq_true, if_false, answered]
    · obtain ⟨cat, deleted, get⟩ := exists_cat_delete s.store fun x => x.id == id
      have deleted' : (s.intake p).store.deleteWhere (fun x => x.id == id) = { s.store with catalogue := cat } := deleted
      refine ⟨cat, ?_, fun i => ?_⟩
      · simp only [State.imgRetire, found', inUse, references, loose, Bool.false_eq_true, if_false, deleted']
      · rw [get]
        cases s.store.catalogue[i] <;> simp only [beq_iff_eq]
  · obtain ⟨cat, deleted, get⟩ := exists_cat_delete s.store (s.intake p).purgeable
    refine ⟨cat, s.store.entries.countP (s.intake p).purgeable, ?_, ?_, fun i => ⟨fun empty => ?_, fun e held => ?_⟩⟩
    · rw [exec_imgPurge_accepted accepted, deleted]
    · rw [← deleted, entries_deleteWhere, ← List.countP_eq_length_filter]
      simpa using (List.length_eq_countP_add_countP (s.intake p).purgeable (l := s.store.entries)).symm
    · rw [get, empty]
    · rw [get, held]
      have purge := purgeable_iff (s.intake p) e
      by_cases gone : (s.intake p).purgeable e = true
      · exact .inl ⟨if_pos gone, purge.mp gone⟩
      · refine .inr ⟨if_neg gone, ?_⟩
        by_contra other
        push Not at other
        obtain ⟨loading, verifying, unused, loose, census⟩ := other
        exact gone (purge.mpr ⟨(settled_iff e).mpr (by simp [loading, verifying]), Nat.le_zero.mp unused,
          by simpa using loose, census⟩)

/-! ### IMG_PIN and IMG_QUERY (R56, R57) -/

theorem exec_imgPin_accepted {s : State} {p : PortId} {body : List Byte} {id : Nat} {flag : Bool}
    (accepted : Accepts s p [.image, .service]) (parsed : parsePin body = some (id, flag)) :
    (s.store.find id = none → exec (.imgPin p body) s = .next (answered s p .notFound .none)) ∧
    (s.store.find id ≠ none → exec (.imgPin p body) s = .next
      (({ s.intake p with store := s.store.modEntry id fun e => { e with pinned := flag } } : State).respond p .ok
        (.pin flag))) := by
  have run := (exec_imgPin p body s).trans (serve_parsed accepted parsed 0x16#8 _)
  refine ⟨fun absent => ?_, fun present => ?_⟩ <;> rw [run]
  · simp only [State.intake_store, absent, answered]
  · obtain ⟨e, found⟩ := Option.ne_none_iff_exists'.mp present
    simp only [State.intake_store, found]

theorem exec_imgQuery_accepted {s : State} {p : PortId} {body : List Byte} {sel : ImageSelector}
    (accepted : Accepts s p namedRoles) (parsed : parseImageQuery body = some sel) :
    exec (.imgQuery p body) s = .next ((s.intake p).imgQuery p sel) :=
  (exec_imgQuery p body s).trans (serve_parsed accepted parsed 0x17#8 _)

theorem mem_allPorts (q : PortId) : q ∈ allPorts := by fin_cases q <;> decide

/-- The upload context of an image. -/
theorem uploadOf_unique {s : State} {id : Nat} {q : PortId} {c : Upload} (upload : (s.port q).upload = some c)
    (image : c.image = id)
    (alone : ∀ (r : PortId) (d : Upload), (s.port r).upload = some d → d.image = id → r = q) : s.uploadOf id = some c := by
  unfold State.uploadOf
  cases found : (allPorts.filterMap fun p => (s.port p).upload).find? fun c => c.image == id with
  | none =>
    have missing := List.find?_eq_none.mp found c (List.mem_filterMap.mpr ⟨q, mem_allPorts q, upload⟩)
    simp [image] at missing
  | some d =>
    obtain ⟨r, -, other⟩ := List.mem_filterMap.mp (List.mem_of_find?_eq_some found)
    have same := alone r d other (by simpa using List.find?_some found)
    rw [same, upload] at other
    exact other.symm

/-- Settles O16, by the entry's position and the upload contexts. -/
theorem imgPinAndQuery : Obligations.ImgPinAndQuery := by
  unfold Obligations.ImgPinAndQuery
  intro s p body
  refine ⟨fun id flag accepted parsed => ?_, fun accepted store => ⟨fun pos empty parsed => ?_, fun id absent parsed => ?_,
    fun pos e held selects => ?_⟩⟩
  · obtain ⟨absent, present⟩ := exec_imgPin_accepted accepted parsed
    refine ⟨absent, fun known => ?_⟩
    obtain ⟨cat, changed, get⟩ := exists_cat_mod s.store id fun e => { e with pinned := flag }
    refine ⟨cat, by rw [present known, changed], fun i => ?_⟩
    rw [get]
    cases s.store.catalogue[i] <;> simp only [beq_iff_eq]
  · rw [exec_imgQuery_accepted accepted parsed]
    simp only [State.imgQuery, State.intake_store, empty, answered]
  · rw [exec_imgQuery_accepted accepted parsed]
    simp only [State.imgQuery, State.intake_store, absent, answered]
  · obtain ⟨found, position⟩ := find_of_pos store held
    refine ⟨((s.intake p).imageReport pos.val e).cursor, ?_, fun settled => ?_, fun loading q c upload image alone => ?_⟩
    · have reports : ∀ sel, (sel = .byPosition pos ∨ sel = .byId e.id) → (s.intake p).imgQuery p sel =
          (s.intake p).respond p .ok (.image ((s.intake p).imageReport pos.val e) s.store.freeCount) := by
        rintro sel (rfl | rfl)
        · simp only [State.imgQuery, State.intake_store, held]
        · simp only [State.imgQuery, State.intake_store, found, position]
      rcases selects with parsed | parsed <;> rw [exec_imgQuery_accepted accepted parsed]
      · rw [reports _ (.inl rfl)]; rfl
      · rw [reports _ (.inr rfl)]; rfl
    · exact if_neg settled
    · refine (if_pos loading).trans ?_
      have port : ∀ r, ((s.intake p).port r).upload = (s.port r).upload := (SameEntries.onlyLink (OnlyLink.intake s p)).uploads
      rw [uploadOf_unique (s := s.intake p) (by rw [port]; exact upload) image fun r d other => by
        rw [port] at other; exact alone r d other]
      rfl

/-! ### VERIFY_READ_DONE (R50 to R52) -/

/-- A verification read that is not discarded folds up to 1,024 bytes of the head image. -/
theorem execVerifyReadDone_live {s : State} {e : Entry} {bytes : List Byte}
    (granted : s.store.granted = some (.verifyRead true))
    (head : s.store.verifier.queue.head?.bind s.store.find = some e)
    (read : s.store.readBytes e s.store.verifier.offset (min 1024 (e.length - s.store.verifier.offset)) = some bytes) :
    execVerifyReadDone s =
      if s.store.verifier.offset + min 1024 (e.length - s.store.verifier.offset) < e.length then
        finish { s.endGrant with store := { s.endGrant.store with verifier := { s.store.verifier with
          offset := s.store.verifier.offset + min 1024 (e.length - s.store.verifier.offset)
          crc := crc32Fold s.store.verifier.crc bytes } } }
      else finish (s.endGrant.verificationDone e (crc32Digest (crc32Fold s.store.verifier.crc bytes))) := by
  simp only [execVerifyReadDone, granted, Bool.not_true, Bool.false_eq_true, if_false, head, read]

/-- Settles O17, from the bytes read and the digest. -/
theorem verifyReadCompletes : Obligations.VerifyReadCompletes := by
  unfold Obligations.VerifyReadCompletes
  intro s
  refine ⟨fun granted => ?_, fun id rest e granted store queue found within => ?_⟩
  · rw [exec_verifyReadDone]
    simp only [execVerifyReadDone, granted]
    rfl
  · obtain ⟨mem, named⟩ := find_some found
    have head : s.store.verifier.queue.head?.bind s.store.find = some e := by rw [queue]; exact found
    obtain ⟨bytes, read, length, places⟩ := readBytes_spec store mem
      (min 1024 (e.length - s.store.verifier.offset)) s.store.verifier.offset (by omega)
    refine ⟨bytes, length, places, fun more => ?_, fun last => ?_⟩ <;>
      rw [exec_verifyReadDone, execVerifyReadDone_live granted head read]
    · rw [if_pos (by omega), length, ← queue]; rfl
    · obtain ⟨cat, same, ends⟩ := verificationDone_eq s e (crc32Digest (crc32Fold s.store.verifier.crc bytes))
      have tail : s.store.verifier.queue.tail = rest := by rw [queue]; rfl
      refine ⟨cat, if crc32Digest (crc32Fold s.store.verifier.crc bytes) = e.crc then .ready else .broken,
        if crc32Digest (crc32Fold s.store.verifier.crc bytes) = e.crc then .imageReady else .imageBroken, ?_,
        fun good => ⟨if_pos good, if_pos good⟩, fun bad => ⟨if_neg bad, if_neg bad⟩, fun i => ?_⟩
      · rw [if_neg (by omega), ends, verified, tail, named]
        rfl
      · rw [same, modEntry_get, named]
        cases s.store.catalogue[i] <;> simp only [beq_iff_eq, judged]

end Sys2Proof

end

/-! The arbiter (O18), and PLAN_PUT_RULE, PLAN_QUERY (O20) and PLAN_ACTIVATE (O21). -/

section

namespace Sys2Proof

open Machine

/-! ### The ring of the arbiter (R58) -/

theorem accessAt_bay (s : State) (b : BayId) :
    s.accessAt b.val = (s.bay b).reader.waiting.map fun r => .bayRead b r.image r.block true := by
  rw [State.accessAt, dif_pos b.isLt]
  cases (s.bay b).reader.waiting <;> rfl

theorem accessAt_port (s : State) (p : PortId) :
    s.accessAt (8 + p.val) = (s.port p).write.map fun chunk => .portWrite p chunk := by
  have place : (⟨8 + p.val - 8, by omega⟩ : PortId) = p := Fin.ext (by simp)
  rw [State.accessAt, dif_neg (by omega), dif_pos (by omega), place]
  cases (s.port p).write <;> rfl

theorem accessAt_verifier (s : State) :
    s.accessAt 11 = if s.store.verifier.queue = [] then none else some (.verifyRead true) := by
  rw [State.accessAt, dif_neg (by decide), dif_neg (by decide)]
  simp only [List.isEmpty_iff]

/-- The access of a place no longer waits there once it is granted; nothing waits less elsewhere. -/
theorem clearAccess_at {s : State} {place : Nat} {g : Grant} (ring : place < 12) (waits : s.accessAt place = some g) :
    (∀ b : BayId, (s.clearAccess g).bay b =
      if b.val = place then { s.bay b with reader := { (s.bay b).reader with waiting := none } } else s.bay b) ∧
    ∀ p : PortId, (s.clearAccess g).port p =
      if 8 + p.val = place then { s.port p with write := none } else s.port p := by
  obtain ⟨b, rfl⟩ | ⟨p, rfl⟩ | rfl : (∃ b : BayId, b.val = place) ∨ (∃ p : PortId, 8 + p.val = place) ∨ place = 11 := by
    rcases Nat.lt_or_ge place 8 with low | high
    · exact .inl ⟨⟨place, low⟩, rfl⟩
    rcases Nat.lt_or_ge place 11 with mid | top
    · exact .inr (.inl ⟨⟨place - 8, by omega⟩, by simp; omega⟩)
    · exact .inr (.inr (by omega))
  · rw [accessAt_bay] at waits
    obtain ⟨r, -, rfl⟩ := Option.map_eq_some_iff.mp waits
    refine ⟨fun c => ?_, fun p => (if_neg (by omega)).symm⟩
    by_cases same : c = b
    · subst same
      rw [if_pos rfl]
      exact State.bay_modBay_same s c _
    · rw [if_neg fun val => same (Fin.ext val)]
      exact State.bay_modBay_other s _ same
  · rw [accessAt_port] at waits
    obtain ⟨chunk, -, rfl⟩ := Option.map_eq_some_iff.mp waits
    refine ⟨fun b => (if_neg (by omega)).symm, fun q => ?_⟩
    by_cases same : q = p
    · subst same
      rw [if_pos rfl]
      exact State.port_modPort_same s q _
    · rw [if_neg fun val => same (Fin.ext (by omega))]
      exact State.port_modPort_other s _ same
  · rw [accessAt_verifier] at waits
    split at waits
    · cases waits
    · cases waits
      exact ⟨fun b => (if_neg (by omega)).symm, fun p => (if_neg (by omega)).symm⟩

/-- The first waiting place of the ring is found. -/
theorem find_ring {s : State} {start i : Nat} (turn : i < 12) (waits : (s.accessAt ((start + i) % 12)).isSome = true)
    (earlier : ∀ j < i, s.accessAt ((start + j) % 12) = none) :
    ((ringFrom start).find? fun n => (s.accessAt n).isSome) = some ((start + i) % 12) := by
  refine List.find?_eq_some_iff_getElem.mpr ⟨waits, i, by simpa [ringFrom] using turn, by simp [ringFrom], fun j lt => ?_⟩
  simp [ringFrom, earlier j lt]

theorem find_ring_none {s : State} (start : Nat) (idle : ∀ i < 12, s.accessAt i = none) :
    ((ringFrom start).find? fun n => (s.accessAt n).isSome) = none := by
  refine List.find?_eq_none.mpr fun n mem => ?_
  obtain ⟨i, -, rfl⟩ := List.mem_map.mp mem
  simp [idle _ (Nat.mod_lt _ (by decide))]

/-- The access that the arbiter grants. -/
theorem arbitrate_first {s : State} {i : Nat} {g : Grant} (free : s.store.granted = none) (turn : i < 12)
    (waits : s.accessAt ((s.store.searchFrom + i) % 12) = some g)
    (earlier : ∀ j < i, s.accessAt ((s.store.searchFrom + j) % 12) = none) :
    s.arbitrate = { s.clearAccess g with store := { (s.clearAccess g).store with
      granted := some g, searchFrom := ((s.store.searchFrom + i) % 12 + 1) % 12 } } := by
  have found := find_ring turn (by rw [waits]; rfl) earlier
  simp only [State.arbitrate, free, found, waits]

theorem clearAccess_store (s : State) (g : Grant) : (s.clearAccess g).store = s.store := by cases g <;> rfl

/-- Settles O18, by the first waiting place of the ring. -/
theorem arbiterGrantsNext : Obligations.ArbiterGrantsNext := by
  unfold Obligations.ArbiterGrantsNext
  refine fun s => ⟨accessAt_bay s, accessAt_port s, accessAt_verifier s, fun busy => ?_, fun idle => ?_,
    fun free i g turn waits earlier => ?_⟩
  · obtain ⟨x, granted⟩ := Option.ne_none_iff_exists'.mp busy
    simp only [State.arbitrate, granted]
  · cases granted : s.store.granted with
    | some x => simp only [State.arbitrate, granted]
    | none => simp only [State.arbitrate, granted, find_ring_none _ idle]
  · obtain ⟨bays, ports⟩ := clearAccess_at (Nat.mod_lt _ (by decide)) waits
    refine ⟨?_, fun b => ?_, fun p => ?_, arbitrate_plans s, arbitrate_fleet s, arbitrate_yardTime s⟩ <;>
      rw [arbitrate_first free turn waits earlier]
    · rw [clearAccess_store]
    · exact bays b
    · exact ports p

/-! ### PLAN_PUT_RULE and PLAN_QUERY (R30, R38) -/

/-- Settles O20, by the slot written and the slot read. -/
theorem planPutAndQuery : Obligations.PlanPutAndQuery := by
  unfold Obligations.PlanPutAndQuery
  intro s p body
  refine ⟨fun n r accepted parsed => ⟨s.plans.standby.set n.val r n.isLt, ?_, fun i => ?_⟩,
    fun n accepted => ⟨fun parsed => ?_, fun parsed => ?_⟩⟩
  · exact (exec_planPutRule p body s).trans (serve_parsed accepted parsed 0x21#8 _)
  · by_cases same : i = n
    · subst same; simp
    · rw [if_neg same]
      exact Vector.getElem_set_ne _ _ fun val => same (Fin.ext val.symm)
  · exact (exec_planQuery p body s).trans (serve_parsed accepted parsed 0x23#8 _)
  · refine (exec_planQuery p body s).trans ((serve_parsed accepted parsed 0x23#8 _).trans ?_)
    simp only [State.intake_plans, if_true, Option.isNone_iff_eq_none, answered]

/-! ### PLAN_ACTIVATE (R32, R33) -/

/-- A slot holds a rule other than a CENSUS one whose image fails a test. -/
def slotFails (test : Rule → Bool) : Option Rule → Bool
  | some r => r.action != .census && !test r
  | none => false

theorem failingSlot_eq (test : Rule → Bool) (l : List (Option Rule)) (n : Nat) :
    failingSlot test n l = (l.findIdx? (slotFails test)).map (n + ·) := by
  induction l generalizing n with
  | nil => rfl
  | cons x rest ih =>
    have next : (rest.findIdx? (slotFails test)).map (n + 1 + ·) =
        ((rest.findIdx? (slotFails test)).map (· + 1)).map (n + ·) := by
      rw [Option.map_map]
      exact congrFun (congrArg _ (funext fun i => by simp only [Function.comp]; omega)) _
    rw [List.findIdx?_cons]
    cases x with
    | none => simp only [failingSlot, slotFails, Bool.false_eq_true, if_false, ih, next]
    | some r =>
      simp only [failingSlot, slotFails, ih, next]
      split <;> simp only [*, if_true, if_false, Option.map_some, Nat.add_zero, Bool.false_eq_true]

theorem failingSlot_none (plan : Vector (Option Rule) 64) (test : Rule → Bool) :
    failingSlot test 0 plan.toList = none ↔ ∀ i : Fin 64, slotFails test plan[i] = false := by
  rw [failingSlot_eq, Option.map_eq_none_iff, List.findIdx?_eq_none_iff]
  refine ⟨fun all i => all _ (Vector.mem_toList_iff.mpr (Vector.getElem_mem _)), fun all x mem => ?_⟩
  obtain ⟨i, lt, rfl⟩ := Vector.mem_iff_getElem.mp (Vector.mem_toList_iff.mp mem)
  exact all ⟨i, lt⟩

theorem failingSlot_some (plan : Vector (Option Rule) 64) (test : Rule → Bool) {i : Fin 64}
    (fails : slotFails test plan[i] = true) (earlier : ∀ j : Fin 64, j < i → slotFails test plan[j] = false) :
    failingSlot test 0 plan.toList = some i.val := by
  rw [failingSlot_eq, Option.map_eq_some_iff]
  refine ⟨i.val, List.findIdx?_eq_some_iff_getElem.mpr ⟨by simp, by simpa using fails, fun j lt => ?_⟩, Nat.zero_add _⟩
  simpa using earlier ⟨j, by omega⟩ lt

theorem slotFails_false (test : Rule → Bool) (x : Option Rule) :
    slotFails test x = false ↔ ∀ r, x = some r → r.action ≠ .census → test r = true := by
  cases x with
  | none => simp [slotFails]
  | some r => simp [slotFails]

/-- A rule's image is in the catalogue and its entry passes a test. -/
theorem ready_iff (st : ImageStore) (r : Rule) :
    st.ready r = true ↔ ∃ (id : Nat) (e : Entry), r.image = some id ∧ st.find id = some e ∧ e.state = .ready := by
  unfold ImageStore.ready
  cases image : r.image with
  | none => simp
  | some id => cases found : st.find id <;> simp [found]

theorem sameClass_iff (st : ImageStore) (r : Rule) :
    st.sameClass r = true ↔ ∃ (id : Nat) (e : Entry), r.image = some id ∧ st.find id = some e ∧ e.cls = r.cls := by
  unfold ImageStore.sameClass
  cases image : r.image with
  | none => simp
  | some id => cases found : st.find id <;> simp [found]

/-- A bay's notice changes the bays alone. -/
theorem notifyBays_eq (s : State) : s.notifyBays = { s with bays := s.notifyBays.bays } := by
  have fold : ∀ (l : List BayId) (t : State), l.foldl (fun u b => u.modBay b fun y => { y with notices := y.notices + 1 }) t =
      { t with bays := (l.foldl (fun u b => u.modBay b fun y => { y with notices := y.notices + 1 }) t).bays } := by
    intro l
    induction l with
    | nil => exact fun _ => rfl
    | cons b rest ih => exact fun t => ih (t.modBay b fun y => { y with notices := y.notices + 1 })
  exact fold allBays s

theorem bay_notifyBays (s : State) (b : BayId) :
    s.notifyBays.bay b = { s.bay b with notices := (s.bay b).notices + 1 } := by
  obtain ⟨-, -, -, each⟩ := fold_bays (op := fun u b => u.modBay b fun y => { y with notices := y.notices + 1 })
    (fun t b => (OnlyBay.refl b t).modBay _) allBays (by decide) s
  obtain ⟨t, -, before, after, -⟩ := each b (mem_allBays b)
  rw [State.notifyBays, after, State.bay_modBay_same, before]

theorem exec_planActivate_accepted {s : State} {p : PortId} (accepted : Accepts s p [.image]) :
    exec (.planActivate p []) s = .next ((s.intake p).planActivate p) :=
  (exec_planActivate p [] s).trans (serve_parsed accepted parseEmpty_nil 0x22#8 _)

/-- Settles O21, by the lowest slot that fails each test of R32. -/
theorem planActivateChecks : Obligations.PlanActivateChecks := by
  unfold Obligations.PlanActivateChecks
  intro s p accepted
  rw [exec_planActivate_accepted accepted]
  have readySlot : ∀ i : Fin 64, slotFails s.store.ready s.plans.standby[i] = false ↔ _ := fun i =>
    (slotFails_false s.store.ready _).trans
      (forall_congr' fun r => imp_congr_right fun _ => imp_congr_right fun _ => ready_iff s.store r)
  have classSlot : ∀ i : Fin 64, slotFails s.store.sameClass s.plans.standby[i] = false ↔ _ := fun i =>
    (slotFails_false s.store.sameClass _).trans
      (forall_congr' fun r => imp_congr_right fun _ => imp_congr_right fun _ => sameClass_iff s.store r)
  simp only [← readySlot, ← classSlot, Bool.not_eq_false]
  refine ⟨fun last => ?_, fun more => ⟨fun i fails earlier => ?_, fun allReady => ⟨fun i fails earlier => ?_,
    fun allSame => ?_⟩⟩⟩
  · exact congrArg Host.Outcome.next (if_pos (show max32 ≤ (s.intake p).plans.generation from last))
  all_goals have more' : ¬ max32 ≤ s.plans.generation := Nat.not_le.mpr more
  · have slot := failingSlot_some s.plans.standby s.store.ready fails earlier
    simp only [State.planActivate, if_neg more', State.intake_store, State.intake_plans, slot, answered]
  all_goals have none := (failingSlot_none s.plans.standby s.store.ready).mpr allReady
  · have slot := failingSlot_some s.plans.standby s.store.sameClass fails earlier
    simp only [State.planActivate, if_neg more', State.intake_store, State.intake_plans, none, slot, answered]
  · have none' := (failingSlot_none s.plans.standby s.store.sameClass).mpr allSame
    refine ⟨((({ s.intake p with plans := s.plans.activated } : State).post .planActivated
      (.generation (s.plans.generation + 1))).notifyBays).bays, ?_, fun b => ?_⟩
    · simp only [State.planActivate, if_neg more', State.intake_store, State.intake_plans, none, none']
      exact congrArg (fun u : State => Host.Outcome.next (u.respond p _ _)) (notifyBays_eq _)
    · exact bay_notifyBays _ b

end Sys2Proof

end

/-! PORT_RESET and PORT_RESET_RELEASE (O10). -/

section

namespace Sys2Proof

open Machine

/-! ### The hold of a port (R180 step 4) -/

theorem put_of_not_has {h : HoldSet} {p : PortId} (has : h.has p = false) : h.put p false = h := by
  by_contra changes
  rw [(holdSet_has_iff h p).mpr changes] at has
  cases has

/-- Removing a port's hold changes the hold set and no setting of the bay. -/
theorem standing_dropHold (p : PortId) (s : State) (b : BayId) :
    ((State.dropHold p s b).bay b).standing = ((s.bay b).settings, (s.bay b).holds.put p false, (s.bay b).cutoff) := by
  have dropped : ((s.modBay b fun y => { y with holds := y.holds.put p false }).bay b).standing =
      ((s.bay b).settings, (s.bay b).holds.put p false, (s.bay b).cutoff) := by
    rw [State.bay_modBay_same]; rfl
  unfold State.dropHold
  split
  · dsimp only
    split
    · exact dropped
    · exact (Keeps.holdEmptied (Keeps.refl _)).1.trans dropped
  case isFalse absent =>
    rw [put_of_not_has (by simpa using absent)]
    rfl

/-! ### What a port reset leaves (R180, R182, R186) -/

theorem modPort_modPort (s : State) (p : PortId) (f g : Port → Port) :
    (s.modPort p f).modPort p g = s.modPort p fun t => g (f t) := by
  have once : (s.modPort p f).port p = f (s.port p) := State.port_modPort_same s p f
  unfold State.modPort State.setPort at *
  rw [once]
  simp

theorem modPort_eq_setPort (s : State) (p : PortId) (f : Port → Port) : s.modPort p f = s.setPort p (f (s.port p)) := rfl

/-- The catalogue after the image that a port uploads has been deleted. -/
theorem dropUpload_get (s : State) (p : PortId) (i : Fin 32) : (s.dropUpload p).store.catalogue[i] =
    match s.store.catalogue[i], (s.port p).upload with
      | some e, some c => if e.id = c.image then none else some e
      | x, _ => x := by
  unfold State.dropUpload
  cases upload : (s.port p).upload with
  | none => dsimp only; cases held : s.store.catalogue[i] <;> rfl
  | some c =>
    refine (deleteWhere_get s.store (fun e => e.id == c.image) i).trans ?_
    cases s.store.catalogue[i] <;> simp only [beq_iff_eq]

/-- The port's own steps of R180 replace the catalogue and the port. -/
theorem portCleared_eq (s : State) (p : PortId) : portCleared s p =
    ({ s with store := { s.store with catalogue := (portCleared s p).store.catalogue } } : State).setPort p
      { s.port p with upload := none }.reset := by
  have port : ((s.dropUpload p).port p).reset = { s.port p with upload := none }.reset := by rw [port_dropUpload_same]
  show (s.dropUpload p).setPort p ((s.dropUpload p).port p).reset =
    ({ s with store := { s.store with catalogue := (s.dropUpload p).store.catalogue } } : State).setPort p _
  rw [port]
  unfold State.dropUpload
  cases upload : (s.port p).upload with
  | none => rfl
  | some c =>
    obtain ⟨cat, deleted, -⟩ := exists_cat_delete s.store fun e => e.id == c.image
    dsimp only
    rw [deleted, modPort_eq_setPort]
    simp [State.setPort]

/-- What PORT_RESET leaves, once a granted write of the port has completed. -/
def PortCleared (s : State) (p : PortId) (t : State) : Prop :=
  t.port p = { s.port p with
    inReset := true, framer := .hunt, inProgress := false, sending := none, waiting := [], upload := none
    write := none, events := Vector.replicate 15 { count := 0, subject := none }, enable := 0
    attention := false } ∧
  (∀ q, q ≠ p → (t.port q).role = (s.port q).role ∧ (t.port q).framer = (s.port q).framer ∧
    (t.port q).inProgress = (s.port q).inProgress ∧ (t.port q).sending = (s.port q).sending ∧
    (t.port q).waiting = (s.port q).waiting ∧ (t.port q).upload = (s.port q).upload ∧
    (t.port q).enable = (s.port q).enable) ∧
  (∀ b : BayId, (t.bay b).holds = (s.bay b).holds.put p false ∧ (t.bay b).config = (s.bay b).config ∧
    (t.bay b).departure = (s.bay b).departure) ∧
  (∀ i : Fin 32, t.store.catalogue[i] = match s.store.catalogue[i], (s.port p).upload with
    | some e, some c => if e.id = c.image then none else some e
    | x, _ => x) ∧
  t.yardTime = s.yardTime ∧ t.plans.active = s.plans.active ∧ t.plans.standby = s.plans.standby ∧
  t.plans.generation = s.plans.generation ∧
  ∃ order : List BayId, order.Nodup ∧ (∀ b : BayId, b ∈ order) ∧
    DropsHolds p order (({ s with
      freeDraws := s.freeDraws + 1
      store := { s.store with catalogue := t.store.catalogue } } : State).setPort p (t.port p)) t

theorem portReset_cleared (s : State) (p : PortId) : PortCleared s p (s.portReset p) := by
  obtain ⟨any, -, -, each⟩ := fold_bays (op := State.dropHold p) (fun t b => (OnlyBay.refl b t).dropHold p)
    (portCleared s p).bayOrder (nodup_bayOrder _) (portCleared s p).drawOrder
  rw [← portReset_eq] at any each
  obtain ⟨posts, posted⟩ := any.posts
  have start : (portCleared s p).port p = { s.port p with upload := none }.reset := by
    rw [portCleared, State.port_modPort_same, port_dropUpload_same]
  have port : (s.portReset p).port p = { s.port p with upload := none }.reset := by
    refine (posted p).trans ?_
    show posts.foldl _ ((portCleared s p).port p) = _
    rw [start, posts_inReset posts rfl]
  have clearedFleet : (portCleared s p).yardTime = s.yardTime ∧ (portCleared s p).plans = s.plans :=
    ⟨dropUpload_yardTime s p, dropUpload_plans s p⟩
  refine ⟨port, fun q ne => ?_, fun b => ?_, fun i => ?_, any.yardTime.trans clearedFleet.1,
    any.active.trans (congrArg (·.active) clearedFleet.2), any.standby.trans (congrArg (·.standby) clearedFleet.2),
    any.generation.trans (congrArg (·.generation) clearedFleet.2), (portCleared s p).bayOrder, nodup_bayOrder _,
    mem_bayOrder _, ?_⟩
  · obtain ⟨role, framer, -, inProgress, sending, waiting, upload, -, enable⟩ :=
      posts_frame posts ((portCleared s p).drawOrder.port q)
    have other : (portCleared s p).drawOrder.port q = s.port q :=
      (State.port_modPort_other _ _ ne).trans (port_dropUpload_other s ne)
    rw [other] at role framer inProgress sending waiting upload enable
    rw [posted q, other]
    exact ⟨role, framer, inProgress, sending, waiting, upload, enable⟩
  · obtain ⟨t, -, before, after, -⟩ := each b (mem_bayOrder _ b)
    have bay : (portCleared s p).drawOrder.bay b = s.bay b := State.bay_of_bays (dropUpload_bays s p) b
    have standing := standing_dropHold p t b
    rw [← after, before, bay] at standing
    have settings := congrArg Prod.fst standing
    exact ⟨congrArg (fun x => x.2.1) standing, congrArg Settings.config settings, congrArg Settings.departure settings⟩
  · rw [any.catalogue]
    exact dropUpload_get s p i
  · have same : (({ s with freeDraws := s.freeDraws + 1, store := { s.store with catalogue := (s.portReset p).store.catalogue } } :
        State).setPort p ((s.portReset p).port p)) = (portCleared s p).drawOrder := by
      rw [any.catalogue, port]
      exact (congrArg State.drawOrder (portCleared_eq s p)).symm
    rw [same, portReset_eq]
    exact dropsHolds p _ _

theorem dropUpload_some {s : State} {p : PortId} {c : Upload} (upload : (s.port p).upload = some c) : s.dropUpload p =
    ({ s with store := s.store.deleteWhere fun e => e.id == c.image } : State).modPort p fun t => { t with upload := none } := by
  simp only [State.dropUpload, upload]

/-- The end of an upload does not see how far it has come. -/
theorem dropUpload_written {s : State} {p : PortId} {c d : Upload} (m : Memory) (upload : (s.port p).upload = some c)
    (image : d.image = c.image) :
    (written s p m d).dropUpload p = ({ s with store := { s.store with mem := m } } : State).dropUpload p := by
  have upload' : ((written s p m d).port p).upload = some d := by rw [written, State.port_modPort_same]
  have upload'' : (({ s with store := { s.store with mem := m } } : State).port p).upload = some c := upload
  obtain ⟨cat, deleted, -⟩ := exists_cat_delete { s.store with mem := m } fun e => e.id == c.image
  have deleted' : (written s p m d).store.deleteWhere (fun e => e.id == c.image) =
    { s.store with mem := m, catalogue := cat } := deleted
  rw [dropUpload_some upload', dropUpload_some upload'', image, deleted, deleted']
  exact modPort_modPort ({ s with store := { s.store with mem := m, catalogue := cat } } : State) p
    (fun t => { t with upload := some d }) fun t => { t with upload := none }

/-- The state in which a granted write of a port has completed but its cursor has not advanced. -/
def wrote (s : State) (m : Memory) : State := { s with store := { s.store with granted := none, mem := m } }

theorem completeWrite_written {s : State} {p : PortId} {chunk : List Byte} {c : Upload} {e : Entry} {m : Memory}
    (granted : s.store.granted = some (.portWrite p chunk)) (upload : (s.port p).upload = some c)
    (found : s.store.find c.image = some e) (bytes : s.store.writeBytes e c.cursor chunk = some m) :
    s.completeWrite p = some (written s.endGrant p m { c with cursor := c.cursor + chunk.length }) := by
  have bytes' : s.endGrant.store.writeBytes e c.cursor chunk = some m :=
    (writeBytes_congr (st := s.store) (su := s.endGrant.store) rfl rfl e chunk c.cursor).trans bytes
  rw [completeWrite_granted granted]
  exact writeChunk_written (s := s.endGrant) upload found bytes'

/-- Settles O10: with no write granted the port's own steps and its holds; a granted write completes first. -/
theorem portResetClears : Obligations.PortResetClears := by
  unfold Obligations.PortResetClears
  intro s p clears
  refine ⟨fun released ungranted => ?_, fun chunk c e m granted upload found bytes released => ?_, fun held => if_pos held⟩
  · have cleared : clears (s.portReset p) := portReset_cleared s p
    have run : exec (.portReset p) s =
        if (s.port p).resetDue then (s.portReset p).withReset else finish (s.portReset p) := by
      rw [exec_portReset, execPortReset, released, completeWrite_ungranted ungranted]
      rfl
    refine ⟨fun quiet => ⟨s.portReset p, ?_, cleared⟩, fun due => ⟨s.portReset p, ?_, cleared⟩⟩
    · rw [run, quiet]; rfl
    · have silent : ((s.portReset p).port p).sendsReset = false := by
        rw [cleared.1]; rfl
      rw [run, due, exec_controllerReset, execControllerReset, silent]
      rfl
  · have reset : (written s.endGrant p m { c with cursor := c.cursor + chunk.length }).portReset p =
        (wrote s m).portReset p := by
      have cleared : portCleared (written s.endGrant p m { c with cursor := c.cursor + chunk.length }) p =
          portCleared (wrote s m) p :=
        congrArg (fun u : State => u.modPort p Port.reset) (dropUpload_written (s := s.endGrant) m upload rfl)
      rw [portReset_eq, portReset_eq, cleared]
    have idle : (wrote s m).completeWrite p = some (wrote s m) := completeWrite_ungranted fun _ => nofun
    show exec (.portReset p) s = exec (.portReset p) (wrote s m)
    have released' : ((wrote s m).port p).inReset = false := released
    rw [exec_portReset, exec_portReset, execPortReset, execPortReset, released, released', idle,
      completeWrite_written granted upload found bytes]
    dsimp only
    rw [reset]
    rfl

end Sys2Proof

end

/-! CONTROLLER_RESET (O11). -/

section

namespace Sys2Proof

open Machine

/-! ### Postings of one kind -/

/-- A posting to a port that is not held in reset counts up one entry and sets the line (R183, R184). -/
theorem post_free {t : Port} (free : t.inReset = false) (kind : EventKind) (x : Subject) : ∃ ev : Vector EventEntry 15,
    Port.post kind x t = { t with events := ev, attention := attentionOf ev t.enable } ∧
    (∀ k : Fin 15, k ≠ kind.number → ev[k] = t.events[k]) ∧ ev[kind.number] = t.events[kind.number].add x := by
  refine ⟨t.events.set kind.number.val (t.events[kind.number].add x) kind.number.isLt, ?_, fun k ne => ?_, ?_⟩
  · simp [Port.post, free, Port.withAttention]
  · exact Vector.getElem_set_ne _ _ fun val => ne (Fin.ext val.symm)
  · exact Vector.getElem_set_self _

/-- Postings of one kind to a port that is not held in reset: they count up its entry, and the last one gives the
subject. -/
theorem posts_one_kind {α : Type} (kind : EventKind) (subject : α → Subject) (l : List α) {t : Port}
    (free : t.inReset = false) (line : t.attention = attentionOf t.events t.enable)
    (room : t.events[kind.number].count + l.length ≤ 255) : ∃ ev : Vector EventEntry 15,
      l.foldl (fun u x => Port.post kind (subject x) u) t =
        { t with events := ev, attention := attentionOf ev t.enable } ∧
      (∀ k : Fin 15, k ≠ kind.number → ev[k] = t.events[k]) ∧
      ev[kind.number] = { count := t.events[kind.number].count + l.length
                          subject := (l.getLast?.map subject).or t.events[kind.number].subject } := by
  induction l generalizing t with
  | nil => exact ⟨t.events, by rw [← line]; rfl, fun _ _ => rfl, rfl⟩
  | cons x rest ih =>
    simp only [List.length_cons] at room
    obtain ⟨ev, posted, others, entry⟩ := post_free free kind (subject x)
    have count : ev[kind.number].count = t.events[kind.number].count + 1 := by
      rw [entry]
      exact Nat.min_eq_right (by omega)
    obtain ⟨ev', ends, others', entry'⟩ := ih (t := { t with events := ev, attention := attentionOf ev t.enable }) free rfl
      (by show ev[kind.number].count + _ ≤ _; omega)
    refine ⟨ev', by rw [List.foldl_cons, posted, ends], fun k ne => (others' k ne).trans (others k ne), entry'.trans ?_⟩
    have last : ((x :: rest).getLast?.map subject) = (rest.getLast?.map subject).or (some (subject x)) := by
      rw [List.getLast?_cons]
      cases rest.getLast? <;> rfl
    have subject' : ev[kind.number].subject = some (subject x) := by rw [entry]; rfl
    simp only [last, List.length_cons, count, subject', Option.or_assoc, Option.some_or]
    congr 1
    omega

/-! ### The bays of a controller reset (R93) -/

theorem plans_resetBay (s : State) (b : BayId) : (s.resetBay b).plans = s.plans := by
  have ended : ((s.drainLine b).endJobOnce b).plans = s.plans := by
    unfold State.endJobOnce
    split
    · rfl
    · exact (endJob_keeps _ b).1
  unfold State.resetBay
  split
  · rfl
  · exact ended

theorem plans_foldReset (l : List BayId) (s : State) : (l.foldl State.resetBay s).plans = s.plans := by
  induction l generalizing s with
  | nil => rfl
  | cons b rest ih => exact (ih _).trans (plans_resetBay s b)

/-- What a bay in service is after a controller reset. -/
structure BayEmptied (y z : Bay) : Prop where
  state : z.state = .empty
  units : z.units = []
  departure : z.departure = none
  cutoffTime : z.cutoffTime = none
  cutoff : z.cutoff = none
  present : z.presentFilter = { value := false, run := 0, accepted := false }
  ignition : z.ignitionFilter = { value := false, run := 0, accepted := false }
  quiet : BayOk y → Quiet z
  drains : Drains y.engine z.engine
  reader : z.reader = { waiting := none, buffer := none }

theorem resetBay_enabled {s : State} {b : BayId} (on : (s.bay b).state ≠ .disabled) :
    BayEmptied (s.bay b) ((s.resetBay b).bay b) := by
  obtain ⟨y, left, -, -⟩ := bay_leaveBus s b
  have line := lineStops_leaveBus s b
  have bay : (s.resetBay b).bay b = { (s.leaveBus b).bay b with
      holds := HoldSet.none, presentFilter := Filter.start, ignitionFilter := Filter.start, state := .empty } := by
    rw [State.resetBay, if_neg on, State.bay_modBay_same]
  have quiet := quiet_leaveBus s b
  rw [bay]
  exact ⟨rfl, by rw [left], by rw [left], by rw [left], by rw [left], rfl, rfl, fun ok => (quiet ok).congr rfl rfl rfl,
    line.engine, line.reader⟩

/-- What no controller reset changes of a bay, and its hold set. -/
theorem resetBay_keeps (s : State) (b : BayId) :
    ((s.bay b).state = .disabled → ((s.resetBay b).bay b).state = .disabled) ∧
    ((s.resetBay b).bay b).holds = { sp0 := false, sp1 := false, sp2 := false, rule := false } ∧
    ((s.resetBay b).bay b).config = (s.bay b).config ∧ ((s.resetBay b).bay b).rate = (s.bay b).rate ∧
    ((s.resetBay b).bay b).gapRatio = (s.bay b).gapRatio := by
  obtain ⟨y, left, -, -⟩ := bay_leaveBus s b
  unfold State.resetBay
  split <;> rw [State.bay_modBay_same]
  case isTrue off => exact ⟨fun _ => off, rfl, rfl, rfl, rfl⟩
  case isFalse on => exact ⟨fun off => absurd off on, rfl, by rw [left], by rw [left], by rw [left]⟩

theorem bound_resetBay {s : State} {b : BayId} (on : (s.bay b).state ≠ .disabled) : (s.resetBay b).bound b = none := by
  rw [State.resetBay, if_neg on, bound_modBay, bound_leaveBus]

/-- A bay that a granted access leaves no longer waits for it. -/
theorem BayEmptied.arbitrated {y z w : Bay} (h : BayEmptied y z)
    (same : w = z ∨ w = { z with reader := { z.reader with waiting := none } }) : BayEmptied y w := by
  rcases same with rfl | rfl
  · exact h
  · exact ⟨h.state, h.units, h.departure, h.cutoffTime, h.cutoff, h.present, h.ignition,
      fun ok => (h.quiet ok).congr rfl rfl rfl, h.drains, by rw [h.reader]⟩

/-! ### The ports of a controller reset (R181, R186) -/

/-- The GROUP_SPLIT postings of a controller reset: one for each bay whose broken-off switch splits its group. -/
def resetSplits (s : State) (order : List BayId) : List (BayId × Nat) :=
  order.filterMap fun b => (resetGroup (s.bay b)).map fun g => (b, g)

theorem resetSplits_nodup (s : State) {order : List BayId} (once : order.Nodup) :
    ((resetSplits s order).map (·.1)).Nodup := by
  have sub : (resetSplits s order).map (·.1) = order.filter fun b => (resetGroup (s.bay b)).isSome := by
    rw [resetSplits, List.map_filterMap, ← List.filterMap_eq_filter]
    refine List.filterMap_congr fun b _ => ?_
    cases group : resetGroup (s.bay b) <;> simp [Option.guard, group]
  rw [sub]
  exact once.filter _

theorem mem_resetSplits (s : State) {order : List BayId} (all : ∀ b : BayId, b ∈ order) (b : BayId) (g : Nat) :
    (b, g) ∈ resetSplits s order ↔ (s.bay b).state ∉ [BayState.disabled, .cutoff] ∧ SplitsGroup (s.bay b) g := by
  have here : (b, g) ∈ resetSplits s order ↔ resetGroup (s.bay b) = some g := by
    simp only [resetSplits, List.mem_filterMap, Option.map_eq_some_iff, Prod.mk.injEq]
    exact ⟨fun ⟨c, _, k, group, same, named⟩ => by subst same named; exact group,
      fun group => ⟨b, all b, g, group, rfl, rfl⟩⟩
  rw [here, ← brokenGroup_iff, resetGroup, leftGroup]
  by_cases off : (s.bay b).state = .disabled
  · simp [off]
  by_cases cut : (s.bay b).state = .cutoff
  · simp [cut]
  · simp [off, cut]

theorem resetSplits_length (s : State) {order : List BayId} (once : order.Nodup) : (resetSplits s order).length ≤ 8 := by
  have nodup := resetSplits_nodup s once
  rw [← List.length_map (f := Prod.fst)]
  simpa using nodup.length_le_card

/-- What a controller reset makes of a port, with the postings of the event. -/
structure PortRestarted (x t : Port) (splits : List (BayId × Nat)) (events : Vector EventEntry 15) (line : Bool) : Prop where
  idle : x.write = none → t = { x with upload := none, events := events, attention := line }
  free : x.write ≠ none → x.sending = none → t = { x with
    sending := some { kind := .answer, status := .noUpload, body := .none }
    upload := none, write := none, events := events, attention := line }
  busy : x.write ≠ none → x.sending ≠ none → t = { x with
    waiting := x.waiting ++ [{ kind := .answer, status := .noUpload, body := .none }]
    upload := none, write := none, events := events, attention := line }
  others : ∀ k : Fin 15, k ≠ EventKind.groupSplit.number → events[k] = { count := 0, subject := none }
  held : x.inReset = true → events[EventKind.groupSplit.number] = { count := 0, subject := none }
  posted : x.inReset = false → events[EventKind.groupSplit.number] =
    { count := splits.length, subject := splits.getLast?.map fun x => .bayGroup x.1 x.2 }
  line : line = true ↔ ∃ k : Fin 15, x.enable.getLsbD k.val = true ∧ 0 < events[k].count

theorem resetUpload_frame (x : Port) : let t := x.clearEvents.resetUpload
    t.role = x.role ∧ t.framer = x.framer ∧ t.inReset = x.inReset ∧ t.upload = none ∧ t.write = none ∧
      t.events = Vector.replicate 15 EventEntry.clear ∧ t.enable = x.enable ∧ t.attention = false := by
  unfold Port.resetUpload
  split
  · obtain ⟨role, framer, inReset, -, -, -, events, enable, attention⟩ :=
      produce_frame { kind := .answer, status := .noUpload, body := .none } x.clearEvents
    exact ⟨role, framer, inReset, rfl, rfl, events, enable, attention⟩
  · exact ⟨rfl, rfl, rfl, rfl, rfl, rfl, rfl, rfl⟩

/-- The chunk that waits is answered NO_UPLOAD, and the context closes. -/
theorem resetUpload_cases (x : Port) (events : Vector EventEntry 15) (line : Bool) :
    (x.write = none → { x.clearEvents.resetUpload with events := events, attention := line } =
      { x with upload := none, events := events, attention := line }) ∧
    (x.write ≠ none → x.sending = none → { x.clearEvents.resetUpload with events := events, attention := line } = { x with
      sending := some { kind := .answer, status := .noUpload, body := .none }
      upload := none, write := none, events := events, attention := line }) ∧
    (x.write ≠ none → x.sending ≠ none → { x.clearEvents.resetUpload with events := events, attention := line } = { x with
      waiting := x.waiting ++ [{ kind := .answer, status := .noUpload, body := .none }]
      upload := none, write := none, events := events, attention := line }) := by
  have write : x.clearEvents.write = x.write := rfl
  have sending : x.clearEvents.sending = x.sending := rfl
  unfold Port.resetUpload
  refine ⟨fun none => ?_, fun some free => ?_, fun some busy => ?_⟩
  · rw [write, none]; simp only [Port.clearEvents, none]
  · obtain ⟨chunk, waits⟩ := Option.ne_none_iff_exists'.mp some
    rw [write, waits]
    dsimp only
    rw [produce_of_sending_none (sending.trans free)]
    rfl
  · obtain ⟨chunk, waits⟩ := Option.ne_none_iff_exists'.mp some
    rw [write, waits]
    dsimp only
    rw [produce_of_sending_ne_none (by rw [sending]; exact busy)]
    rfl

theorem port_restarted (x : Port) {splits : List (BayId × Nat)} (few : splits.length ≤ 8) :
    ∃ (events : Vector EventEntry 15) (line : Bool), PortRestarted x
      (splits.foldl (fun t z => Port.post .groupSplit (.bayGroup z.1 z.2) t) x.clearEvents.resetUpload) splits events line := by
  obtain ⟨-, -, inReset, -, -, events, enable, attention⟩ := resetUpload_frame x
  have clear : ∀ k : Fin 15, x.clearEvents.resetUpload.events[k] = { count := 0, subject := none } := fun k => by
    rw [events]; simp [EventEntry.clear]
  have quiet : x.clearEvents.resetUpload.attention =
      attentionOf x.clearEvents.resetUpload.events x.clearEvents.resetUpload.enable := by
    rw [attention, events, attentionOf_clear]
  cases held : x.inReset with
  | true =>
    have same := posts_inReset (splits.map fun z => (EventKind.groupSplit, Subject.bayGroup z.1 z.2)) (inReset.trans held)
    rw [List.foldl_map] at same
    refine ⟨x.clearEvents.resetUpload.events, x.clearEvents.resetUpload.attention, ?_⟩
    obtain ⟨idle, free, busy⟩ := resetUpload_cases x x.clearEvents.resetUpload.events x.clearEvents.resetUpload.attention
    exact ⟨fun none => same.trans (idle none), fun some none => same.trans (free some none),
      fun some line => same.trans (busy some line), fun k _ => clear k, fun _ => clear _,
      fun free => absurd (held.symm.trans free) nofun, by rw [quiet, attentionOf_iff, enable]⟩
  | false =>
    obtain ⟨ev, ends, others, entry⟩ := posts_one_kind .groupSplit (fun z : BayId × Nat => Subject.bayGroup z.1 z.2)
      splits (inReset.trans held) quiet (by rw [clear]; show 0 + _ ≤ _; omega)
    refine ⟨ev, attentionOf ev x.clearEvents.resetUpload.enable, ?_⟩
    obtain ⟨idle, free, busy⟩ := resetUpload_cases x ev (attentionOf ev x.clearEvents.resetUpload.enable)
    refine ⟨fun none => ends.trans (idle none), fun some none => ends.trans (free some none),
      fun some line => ends.trans (busy some line), fun k ne => (others k ne).trans (clear k),
      fun free => absurd (held.symm.trans free) nofun, fun _ => ?_, by rw [attentionOf_iff, enable]⟩
    rw [entry, clear]
    simp

/-! ### The state after a controller reset -/

theorem arbitrate_port_eq {s : State} {q : PortId} (write : (s.port q).write = none) : s.arbitrate.port q = s.port q := by
  rcases port_arbitrate s q with same | same <;> rw [same]
  rw [← write]

/-- The port of a controller reset after the end of its OK. -/
def resetSource (s : State) (p : PortId) : State := if (s.port p).sendsReset then s.modPort p Port.answered else s

theorem exec_controllerReset_source (p : PortId) (s : State) :
    exec (.controllerReset p) s = (resetSource s p).withReset := exec_controllerReset p s

theorem resetSource_rest (s : State) (p : PortId) : (resetSource s p).store = s.store ∧ (resetSource s p).bays = s.bays ∧
    (resetSource s p).fleet = s.fleet ∧ (resetSource s p).plans = s.plans ∧ (resetSource s p).yardTime = s.yardTime := by
  unfold resetSource
  split <;> exact ⟨rfl, rfl, rfl, rfl, rfl⟩

theorem port_resetSource (s : State) (p q : PortId) : (resetSource s p).port q =
    if q = p ∧ (s.port q).sendsReset = true then { s.port q with
      sending := (s.port q).waiting.head?, waiting := (s.port q).waiting.tail, inProgress := false }
    else s.port q := by
  unfold resetSource
  by_cases same : q = p
  · subst same
    by_cases sends : (s.port q).sendsReset = true
    · rw [if_pos sends, if_pos ⟨rfl, sends⟩, State.port_modPort_same]; rfl
    · rw [if_neg sends, if_neg (fun both => sends (And.right both))]
  · rw [if_neg (c := q = p ∧ _) fun both => same both.1]
    split
    · exact State.port_modPort_other s _ same
    · rfl

/-- The bays' part of a controller reset, run over the order that is drawn. -/
theorem resetBays_fold (s : State) : ∃ order : List BayId, order.Nodup ∧ (∀ b, b ∈ order) ∧
    resetBays s = order.foldl State.resetBay (resetPorts s).drawOrder :=
  ⟨(resetPorts s).bayOrder, nodup_bayOrder _, mem_bayOrder _, rfl⟩

/-- A bay after the bays' part: its own reset, from the bay as it stood. -/
theorem bay_resetBays (s : State) (b : BayId) : ∃ u : State, u.bay b = s.bay b ∧
    (resetBays s).bay b = (u.resetBay b).bay b ∧
    ((s.fleet.map (·.fleet)).Nodup → (resetBays s).bound b = (u.resetBay b).bound b) := by
  obtain ⟨order, once, all, run⟩ := resetBays_fold s
  obtain ⟨-, -, -, each⟩ := fold_bays (op := State.resetBay) (fun t b => (OnlyBay.refl b t).resetBay) order once
    (resetPorts s).drawOrder
  obtain ⟨u, -, bay, after, bound⟩ := each b (all b)
  exact ⟨u, bay, by rw [run]; exact after, fun numbers => by rw [run]; exact (bound numbers).2⟩

theorem catalogue_resetBays (s : State) : (resetBays s).store.catalogue = s.store.catalogue :=
  (Calm.resetBays s).catalogue

/-- The catalogue after a controller reset (R59). -/
theorem controllerReset_get (st : ImageStore) (i : Fin 32) : st.controllerReset.catalogue[i] = match st.catalogue[i] with
    | some e => if e.state = .loading ∨ e.state = .verifying then none else some e
    | none => none := by
  obtain ⟨-, -, catalogue⟩ := controllerReset_rest st
  rw [catalogue, deleteWhere_get]
  cases st.catalogue[i] with
  | none => rfl
  | some e => simp

theorem controllerReset_queue (st : ImageStore) : st.controllerReset.verifier.queue = [] := by
  unfold ImageStore.controllerReset
  rfl

/-- The records after a controller reset: a record bound to a bay in service is as that bay leaves it. -/
theorem fleet_resetBays (s : State) : (resetBays s).fleet.length = s.fleet.length ∧
    ∀ (i : Nat) (r : BusRecord), s.fleet[i]? = some r →
      ((∀ b : BayId, r.atBay = some b → (s.bay b).state = .disabled) → (resetBays s).fleet[i]? = some r) ∧
      ∀ b : BayId, r.atBay = some b → (s.bay b).state ≠ .disabled →
        (resetBays s).fleet[i]? = (busLeft s b).fleet[i]? := by
  obtain ⟨order, once, all, run⟩ := resetBays_fold s
  obtain ⟨length, each⟩ := resetBays_fleet order once (resetPorts s).drawOrder
  rw [run]
  refine ⟨length, fun i r held => ⟨fun none => (each i r held).1 fun b _ => none b, fun b at_ on => ?_⟩⟩
  rw [(each i r held).2 b (all b) at_ on, (busLeft_effect s b).1, List.getElem?_map, held]
  rfl

/-- The ports after the bays' part, with the postings of the bays in the order in which they took part. -/
theorem ports_resetBays (s : State) : ∃ splits : List (BayId × Nat), (splits.map (·.1)).Nodup ∧ splits.length ≤ 8 ∧
    (∀ (b : BayId) (g : Nat), (b, g) ∈ splits ↔
      (s.bay b).state ∉ [BayState.disabled, .cutoff] ∧ SplitsGroup (s.bay b) g) ∧
    ∀ q : PortId, (resetBays s).port q =
      splits.foldl (fun t z => Port.post .groupSplit (.bayGroup z.1 z.2) t) (s.port q).clearEvents.resetUpload := by
  obtain ⟨order, once, all, run⟩ := resetBays_fold s
  refine ⟨resetSplits s order, resetSplits_nodup s once, resetSplits_length s once, mem_resetSplits s all, fun q => ?_⟩
  rw [run, resetBays_ports order once, ← port_resetPorts]
  rfl

/-- The settings of a port that a controller reset keeps, and its upload context. -/
theorem PortRestarted.settings {x t : Port} {splits : List (BayId × Nat)} {events : Vector EventEntry 15} {line : Bool}
    (h : PortRestarted x t splits events line) : t.upload = none ∧ t.role = x.role ∧ t.framer = x.framer ∧
      t.inReset = x.inReset ∧ t.enable = x.enable ∧ t.write = none := by
  by_cases writes : x.write = none
  · rw [h.idle writes]; exact ⟨rfl, rfl, rfl, rfl, rfl, writes⟩
  · by_cases free : x.sending = none
    · rw [h.free writes free]; exact ⟨rfl, rfl, rfl, rfl, rfl, rfl⟩
    · rw [h.busy writes free]; exact ⟨rfl, rfl, rfl, rfl, rfl, rfl⟩

/-- The first half of O11: no write is granted. -/
theorem controllerReset_ungranted {s : State} (p : PortId) (ungranted : s.writer = none) :
    exec (.controllerReset p) s = .next (resetSource s p).resetBlocks.arbitrate := by
  have store : (resetSource s p).writer = none := by
    unfold resetSource
    split <;> exact ungranted
  rw [exec_controllerReset_source, State.withReset, State.controllerReset, store]
  rfl


theorem resetBlocks_rest (s : State) : s.resetBlocks.bays = (resetBays s).bays ∧
    s.resetBlocks.ports = (resetBays s).ports ∧ s.resetBlocks.fleet = (resetBays s).fleet ∧
    s.resetBlocks.plans = s.plans ∧ s.resetBlocks.yardTime = s.yardTime ∧
    s.resetBlocks.store = (resetBays s).store.controllerReset := by
  have plans : (resetBays s).plans = s.plans := plans_foldReset _ _
  have yardTime : (resetBays s).yardTime = s.yardTime := (Calm.resetBays s).sound.yardTime
  rw [resetBlocks_eq]
  generalize resetBays s = t at plans yardTime
  exact ⟨rfl, rfl, rfl, plans, yardTime, rfl⟩

/-- What a controller reset leaves of the bays and their records. -/
structure BaysReset (s t : State) : Prop where
  enabled : ∀ b : BayId, (s.bay b).state ≠ .disabled → BayEmptied (s.bay b) (t.bay b)
  released : (s.fleet.map (·.fleet)).Nodup → ∀ b : BayId, (s.bay b).state ≠ .disabled → t.bound b = none
  disabled : ∀ b : BayId, (s.bay b).state = .disabled → (t.bay b).state = .disabled
  kept : ∀ b : BayId, (t.bay b).holds = { sp0 := false, sp1 := false, sp2 := false, rule := false } ∧
    (t.bay b).config = (s.bay b).config ∧ (t.bay b).rate = (s.bay b).rate ∧ (t.bay b).gapRatio = (s.bay b).gapRatio

theorem baysReset_resetBays (s : State) : BaysReset s (resetBays s) := by
  refine ⟨fun b on => ?_, fun numbers b on => ?_, fun b off => ?_, fun b => ?_⟩
  all_goals obtain ⟨u, before, after, bound⟩ := bay_resetBays s b
  · have emptied := resetBay_enabled (s := u) (b := b) (before ▸ on)
    rwa [before, ← after] at emptied
  · rw [bound numbers, bound_resetBay (before ▸ on)]
  · rw [after]
    exact (resetBay_keeps u b).1 (before ▸ off)
  · rw [after, ← before]
    exact (resetBay_keeps u b).2

/-- The arbiter's grant at the end of the event changes none of it. -/
theorem BaysReset.arbitrated {s t : State} (h : BaysReset s t) : BaysReset s t.arbitrate := by
  refine ⟨fun b on => (h.enabled b on).arbitrated (bay_arbitrate t b), fun numbers b on => ?_, fun b off => ?_, fun b => ?_⟩
  · rw [State.bound, arbitrate_fleet]
    exact h.released numbers b on
  · rcases bay_arbitrate t b with same | same <;> rw [same] <;> exact h.disabled b off
  · rcases bay_arbitrate t b with same | same <;> rw [same] <;> exact h.kept b

theorem BaysReset.congr {s s' t t' : State} (h : BaysReset s t) (bays : t'.bays = t.bays) (fleet : t'.fleet = t.fleet)
    (bays' : s'.bays = s.bays) (fleet' : s'.fleet = s.fleet) : BaysReset s' t' := by
  have bay := State.bay_of_bays bays
  have bay' := State.bay_of_bays bays'
  refine ⟨fun b on => ?_, fun numbers b on => ?_, fun b off => ?_, fun b => ?_⟩
  · rw [bay, bay']; exact h.enabled b (bay' b ▸ on)
  · rw [State.bound, fleet]; exact h.released (fleet' ▸ numbers) b (bay' b ▸ on)
  · rw [bay]; exact h.disabled b (bay' b ▸ off)
  · rw [bay, bay']; exact h.kept b

/-- The frame of the port whose OK has left it. -/
theorem resetSource_frame (s : State) (p q : PortId) : let x := (resetSource s p).port q
    x.role = (s.port q).role ∧ x.framer = (s.port q).framer ∧ x.inReset = (s.port q).inReset ∧
      x.enable = (s.port q).enable := by
  rw [port_resetSource]
  split <;> exact ⟨rfl, rfl, rfl, rfl⟩

/-- What the end of a granted write does to its port: the context is at the new cursor and the answer is produced. -/
def writeEnds (c : Upload) (t : Port) : Port :=
  Port.produce { kind := .answer, status := .ok, body := .cursor c.cursor } { t with upload := some c }

theorem sendsReset_writeEnds (c : Upload) (t : Port) : (writeEnds c t).sendsReset = t.sendsReset := by
  unfold writeEnds Port.produce Port.sendsReset
  cases line : t.sending <;> simp

/-- The end of the OK on the line and the end of a write change a port alike in either order. -/
theorem answered_writeEnds {c : Upload} {t : Port} (sends : t.sendsReset = true) :
    (writeEnds c t).answered = writeEnds c t.answered := by
  obtain ⟨r, line⟩ : ∃ r, t.sending = some r := by
    cases line : t.sending with
    | none => simp [Port.sendsReset, line] at sends
    | some r => exact ⟨r, rfl⟩
  cases waits : t.waiting <;> simp [writeEnds, Port.produce, Port.answered, Port.sent, line, waits]

theorem modPort_comm (s : State) {p q : PortId} (ne : p ≠ q) (f g : Port → Port) :
    (s.modPort p f).modPort q g = (s.modPort q g).modPort p f := by
  have left : (s.modPort p f).port q = s.port q := State.port_modPort_other s f ne.symm
  have right : (s.modPort q g).port p = s.port p := State.port_modPort_other s g ne
  unfold State.modPort State.setPort at *
  rw [left, right]
  simp only [State.mk.injEq, and_true, true_and]
  exact Vector.set_comm _ _ fun val => ne (Fin.ext val)

theorem resetSource_writeEnds (s : State) (p q : PortId) (c : Upload) :
    resetSource (s.modPort q (writeEnds c)) p = (resetSource s p).modPort q (writeEnds c) := by
  have sends : ((s.modPort q (writeEnds c)).port p).sendsReset = (s.port p).sendsReset := by
    by_cases same : p = q
    · subst same
      rw [State.port_modPort_same, sendsReset_writeEnds]
    · rw [State.port_modPort_other s _ same]
  unfold resetSource
  rw [sends]
  split
  case isTrue sent =>
    by_cases same : p = q
    · subst same
      rw [modPort_modPort, modPort_modPort]
      exact modPort_congr s p (answered_writeEnds sent)
    · exact (modPort_comm s same _ _).symm
  case isFalse => rfl

theorem respond_written (s : State) (m : Memory) (q : PortId) (c : Upload) :
    (written s q m c).respond q .ok (.cursor ((written s q m c).cursorOf q)) =
      ({ s with store := { s.store with mem := m } } : State).modPort q (writeEnds c) := by
  rw [cursorOf_written]
  exact modPort_modPort _ q _ _

theorem resetSource_endGrant (s : State) (m : Memory) (p : PortId) :
    ({ (resetSource s p).endGrant with store := { (resetSource s p).endGrant.store with mem := m } } : State) =
      resetSource (wrote s m) p := by
  have sends : (wrote s m).port p = s.port p := rfl
  unfold resetSource
  rw [sends]
  split <;> rfl

/-- A granted write of a port completes before the reset: it is as though it had ended before the OK left (R49). -/
theorem controllerReset_granted_first {s : State} (p q : PortId) {chunk : List Byte} {c : Upload} {e : Entry} {m : Memory}
    (granted : s.store.granted = some (.portWrite q chunk)) (upload : (s.port q).upload = some c)
    (found : s.store.find c.image = some e) (bytes : s.store.writeBytes e c.cursor chunk = some m) :
    exec (.controllerReset p) s = exec (.controllerReset p) (((wrote s m).modPort q fun t =>
      { t with upload := some { c with cursor := c.cursor + chunk.length } }).respond q .ok
        (.cursor (c.cursor + chunk.length))) := by
  obtain ⟨store, -⟩ := resetSource_rest s p
  have ends : ((wrote s m).modPort q fun t => { t with upload := some { c with cursor := c.cursor + chunk.length } }).respond q
      .ok (.cursor (c.cursor + chunk.length)) =
        (wrote s m).modPort q (writeEnds { c with cursor := c.cursor + chunk.length }) := modPort_modPort _ q _ _
  have writer : (resetSource s p).writer = some q := by rw [State.writer, store, granted]
  have upload' : ((resetSource s p).port q).upload = some c := by
    rw [port_resetSource]
    split <;> exact upload
  have completes := completeWrite_written (s := resetSource s p) (by rw [store]; exact granted) upload'
    (by rw [store]; exact found) (by rw [store]; exact bytes)
  rw [ends, controllerReset_ungranted (s := (wrote s m).modPort q _) p rfl, resetSource_writeEnds,
    exec_controllerReset_source, State.withReset, State.controllerReset, writer]
  dsimp only
  rw [completes]
  dsimp only
  rw [respond_written, resetSource_endGrant]
  rfl

/-- Settles O11: the blocks of the ports, the bays and the store one after another; a granted write first. -/
theorem controllerResetLeaves : Obligations.ControllerResetLeaves := by
  unfold Obligations.ControllerResetLeaves
  refine ⟨fun s p ungranted ok => ⟨_, controllerReset_ungranted p ungranted, ?_⟩,
    fun s p q chunk c e m => controllerReset_granted_first p q⟩
  obtain ⟨store, bays, fleet, plans, yardTime⟩ := resetSource_rest s p
  obtain ⟨bays', ports', fleet', plans', yardTime', store'⟩ := resetBlocks_rest (resetSource s p)
  have reset := ((baysReset_resetBays (resetSource s p)).congr bays' fleet' bays.symm fleet.symm).arbitrated
  obtain ⟨length, records⟩ := fleet_resetBays (resetSource s p)
  obtain ⟨splits, once, few, splitting, ports⟩ := ports_resetBays (resetSource s p)
  have catalogue := catalogue_resetBays (resetSource s p)
  have port : ∀ q, (resetSource s p).resetBlocks.port q = (resetBays (resetSource s p)).port q := State.port_of_ports ports'
  have bay : ∀ b, (resetSource s p).bay b = s.bay b := State.bay_of_bays bays
  have left : ∀ b, (busLeft (resetSource s p) b).fleet = (busLeft s b).fleet := fun b => by
    rw [(busLeft_effect _ b).1, (busLeft_effect s b).1, bay, fleet]
  rw [store] at catalogue
  rw [fleet] at length records
  generalize (resetSource s p).resetBlocks = t at *
  refine ⟨?_, ?_, fun b on => ?_, reset.disabled, reset.kept, fun i => ?_, ?_, ?_, ?_, fun i r held => ?_, splits, once,
    fun b g => ?_, fun q => ?_⟩
  · rw [arbitrate_yardTime, yardTime', yardTime]
  · rw [arbitrate_plans, plans', plans]
  · obtain ⟨state, units, departure, cutoffTime, cutoff, present, ignition, quiet, drains, reader⟩ := reset.enabled b on
    exact ⟨state, reset.released ok.numbers b on, units, departure, cutoffTime, cutoff, present, ignition, quiet, drains,
      reader⟩
  · have get := controllerReset_get (resetBays (resetSource s p)).store i
    rw [catalogue] at get
    rw [arbitrate_catalogue, store']
    exact get
  · rw [arbitrate_pointer, store', controllerReset_pointer]
  · rw [arbitrate_verifier, store', controllerReset_queue]
  · rw [arbitrate_fleet, fleet', length]
  · rw [arbitrate_fleet, fleet']
    refine ⟨fun none => (records i r held).1 fun b at_ => bay b ▸ none b at_, fun b at_ on => ?_⟩
    rw [← left b]
    exact (records i r held).2 b at_ (bay b ▸ on)
  · rw [← bay b]
    exact splitting b g
  · obtain ⟨events, line, restarted⟩ := port_restarted ((resetSource s p).port q) few
    rw [← ports q, ← port q] at restarted
    obtain ⟨upload, role, framer, inReset, enable, write⟩ := restarted.settings
    obtain ⟨role', framer', inReset', enable'⟩ := resetSource_frame s p q
    rw [arbitrate_port_eq write]
    refine ⟨upload, role.trans role', framer.trans framer', inReset.trans inReset', enable.trans enable', events, line, ?_⟩
    rw [← port_resetSource]
    exact ⟨restarted.idle, restarted.free, restarted.busy, restarted.others, fun held => restarted.held (inReset'.trans held),
      fun free => restarted.posted (inReset'.trans free), enable' ▸ restarted.line⟩

end Sys2Proof

end

/-! The decisions of a plan (O23). -/

section

namespace Sys2Proof

open Machine

/-! ### First decisions (R23 to R25) -/

theorem decideUnit_noRule {plan : List (Option Rule)} {find : Nat → Option Entry} {x : JobUnit}
    (unmatched : firstMatch x.identity 0 plan = none) : decideUnit plan find x = { x with
      decision := some .noRule, rule := none, group := 0, planned := none, holdAfter := false } := by
  rw [decideUnit, unmatched]

theorem decideUnit_census {plan : List (Option Rule)} {find : Nat → Option Entry} {x : JobUnit} {n : Nat} {r : Rule}
    (matched : firstMatch x.identity 0 plan = some (n, r)) (census : r.action = .census) :
    decideUnit plan find x = { x with
      decision := some .census, rule := some n, group := 0, planned := none, holdAfter := false } := by
  simp only [decideUnit, matched, census]

theorem decideUnit_image {plan : List (Option Rule)} {find : Nat → Option Entry} {x : JobUnit} {n id : Nat} {r : Rule}
    {e : Entry} (matched : firstMatch x.identity 0 plan = some (n, r)) (flashes : r.action ≠ .census)
    (image : r.image = some id) (found : find id = some e) :
    let d := imageDecision r e x.knownActive x.identity.capacity
    decideUnit plan find x = { x with
      decision := some d, rule := some n, group := r.group
      planned := if d = .flash then some { image := e.id, version := e.version } else none
      holdAfter := decide (d = .flash ∧ r.action = .flashHold) } := by
  intro d
  have bound : r.image.bind find = some e := by rw [image]; exact found
  cases action : r.action with
  | census => exact absurd action flashes
  | flash | flashHold =>
    by_cases flash : imageDecision r e x.knownActive x.identity.capacity = .flash <;>
      simp [decideUnit, matched, action, bound, flash, d]

/-! ### Member kinds and claims (R99, R101) -/

theorem startServing_flash {x : JobUnit} {pl : Planned} (flash : x.decision = some .flash)
    (planned : x.planned = some pl) : x.startServing = { x with
      progress := some .pending, kind := some (memberKind x.knownStandby pl), missing := none, claim := some pl.image } := by
  simp only [JobUnit.startServing, flash, planned]

theorem startServing_other {x : JobUnit} (other : x.decision ≠ some .flash) :
    x.startServing = { x with progress := none, kind := none, missing := none, claim := none } := by
  unfold JobUnit.startServing
  split
  case h_1 flash _ => exact absurd flash other
  case h_2 => rfl

theorem memberKind_table (known : Standby) (pl : Planned) :
    let same := known.image = pl.image ∧ known.version = pl.version
    (same → known.state = .complete ∨ known.state = .verified → memberKind known pl = .checkOnly) ∧
    (same → known.state = .partlyReceived → memberKind known pl = .resume) ∧
    (¬same ∨ known.state = .blank → memberKind known pl = .fresh) := by
  intro same
  have test : (known.image = pl.image && known.version = pl.version) = decide same := by simp [same]
  rw [memberKind, test]
  refine ⟨fun alike state => ?_, fun alike state => ?_, fun either => ?_⟩
  · rw [if_pos (decide_eq_true alike)]
    rcases state with state | state <;> rw [state]
  · rw [if_pos (decide_eq_true alike), state]
  · by_cases alike : same
    · rw [if_pos (decide_eq_true alike), either.resolve_left (not_not.mpr alike)]
    · rw [if_neg (by simpa using alike)]

/-! ### Versions (R2) and the image test (R24) -/

theorem version_lt_iff (a b : Version) : a.lt b = true ↔ a.major < b.major ∨ (a.major = b.major ∧ (a.minor < b.minor ∨
    (a.minor = b.minor ∧ a.build < b.build))) := by
  simp [Version.lt]

theorem version_le_iff (a b : Version) : a.le b = true ↔ a.lt b = true ∨ a = b := by
  have not_lt : a.le b = true ↔ ¬b.lt a = true := by simp [Version.le]
  rw [not_lt, version_lt_iff, version_lt_iff]
  cases a; cases b
  simp only [Version.mk.injEq]
  omega

theorem imageDecision_table (r : Rule) (e : Entry) (active : Version) (capacity : Nat) :
    (e.version = active → imageDecision r e active capacity = .current) ∧
    (e.version ≠ active → e.version.lt active = true → r.allowDowngrade = false →
      imageDecision r e active capacity = .downgradeBlocked) ∧
    (e.version ≠ active → (¬e.version.lt active = true ∨ r.allowDowngrade = true) →
      (capacity < (e.length + 65535) / 65536 → imageDecision r e active capacity = .bankTooSmall) ∧
      ((e.length + 65535) / 65536 ≤ capacity → imageDecision r e active capacity = .flash)) := by
  have need : e.segmentNeed = (e.length + 65535) / 65536 := rfl
  unfold imageDecision
  rw [need]
  refine ⟨fun same => if_pos same, fun ne lower blocked => ?_, fun ne free => ?_⟩
  · rw [if_neg ne, if_pos (by simp [lower, blocked])]
  · rw [if_neg ne, if_neg (by rcases free with free | free <;> simp [free])]
    exact ⟨fun small => if_pos small, fun fits => if_neg (by omega)⟩

/-! ### Prerequisites (R26, R27) -/

/-- A sweep leaves a unit, or makes a FLASH unit whose rule has a prerequisite PREREQ_WAIT. -/
def Reduces (plan : List (Option Rule)) (x y : JobUnit) : Prop :=
  y = x ∨ (x.decision = some .flash ∧ (prereqOfUnit plan x).isSome = true ∧ y = x.toPrereqWait)

/-- Every FLASH unit of a bus passes its prerequisite. -/
def AllPass (plan : List (Option Rule)) (l : List JobUnit) : Prop := ∀ u ∈ l, u.decision = some .flash → ∀ q : Prereq,
  prereqOfUnit plan u = some q → (∃ v ∈ l, v.identity.cls = q.cls) ∧
    ∀ v ∈ l, v.identity.cls = q.cls → q.minimum.le v.knownActive = true ∨
      (v.decision = some .flash ∧ v.group = u.group ∧ 1 ≤ u.group ∧
        ∃ pl : Planned, v.planned = some pl ∧ q.minimum.le pl.version = true)

theorem isFlash_iff (x : JobUnit) : x.isFlash = true ↔ x.decision = some .flash := by simp [JobUnit.isFlash]

theorem meetsPrereq_iff (q : Prereq) (u v : JobUnit) : meetsPrereq q u v = true ↔ q.minimum.le v.knownActive = true ∨
    (v.decision = some .flash ∧ v.group = u.group ∧ 1 ≤ u.group ∧
      ∃ pl : Planned, v.planned = some pl ∧ q.minimum.le pl.version = true) := by
  unfold meetsPrereq
  cases planned : v.planned <;> simp [isFlash_iff, and_assoc]

theorem passesPrereq_iff (plan : List (Option Rule)) (l : List JobUnit) (u : JobUnit) : passesPrereq plan l u = true ↔
    ∀ q : Prereq, prereqOfUnit plan u = some q → (∃ v ∈ l, v.identity.cls = q.cls) ∧
      ∀ v ∈ l, v.identity.cls = q.cls → meetsPrereq q u v = true := by
  unfold passesPrereq
  cases rule : prereqOfUnit plan u with
  | none => simp
  | some q =>
    simp only [Bool.and_eq_true, Bool.not_eq_true', List.isEmpty_eq_false_iff, ne_eq, List.filter_eq_nil_iff, beq_iff_eq,
      List.all_eq_true, List.mem_filter, Option.some.injEq, forall_eq', not_forall, not_not, exists_prop, and_imp]

theorem allPass_iff (plan : List (Option Rule)) (l : List JobUnit) :
    AllPass plan l ↔ ∀ u ∈ l, u.decision = some .flash → passesPrereq plan l u = true := by
  simp only [AllPass, passesPrereq_iff, meetsPrereq_iff]

/-- What a sweep makes of one unit of a bus. -/
def sweepUnit (plan : List (Option Rule)) (l : List JobUnit) (u : JobUnit) : JobUnit :=
  if u.isFlash && !(passesPrereq plan l u) then u.toPrereqWait else u

theorem prereqSweep_eq (plan : List (Option Rule)) (l : List JobUnit) : prereqSweep plan l = l.map (sweepUnit plan l) := rfl

theorem toPrereqWait_ne {u : JobUnit} (flash : u.decision = some .flash) : u.toPrereqWait ≠ u := fun same => by
  have wait : u.toPrereqWait.decision = some .prereqWait := rfl
  rw [same, flash] at wait
  cases wait

theorem sweepUnit_of_passes {plan : List (Option Rule)} {l : List JobUnit} {u : JobUnit}
    (passes : u.decision = some .flash → passesPrereq plan l u = true) : sweepUnit plan l u = u := by
  refine if_neg fun both => ?_
  simp only [Bool.and_eq_true, isFlash_iff, Bool.not_eq_true'] at both
  rw [passes both.1] at both
  exact absurd both.2 nofun

/-- A unit that a sweep changes is a FLASH unit that does not pass its prerequisite. -/
theorem sweepUnit_changes {plan : List (Option Rule)} {l : List JobUnit} {u : JobUnit} (changed : sweepUnit plan l u ≠ u) :
    u.decision = some .flash ∧ passesPrereq plan l u = false ∧ (prereqOfUnit plan u).isSome = true ∧
      sweepUnit plan l u = u.toPrereqWait := by
  unfold sweepUnit at changed ⊢
  split at changed
  case isFalse => exact absurd rfl changed
  case isTrue both =>
    have both' := both
    simp only [Bool.and_eq_true, isFlash_iff, Bool.not_eq_true'] at both
    obtain ⟨flash, fails⟩ := both
    refine ⟨flash, fails, ?_, if_pos both'⟩
    cases rule : prereqOfUnit plan u with
    | none => simp [passesPrereq, rule] at fails
    | some q => rfl

theorem sweepUnit_reduces (plan : List (Option Rule)) (l : List JobUnit) (u : JobUnit) :
    Reduces plan u (sweepUnit plan l u) := by
  by_cases changed : sweepUnit plan l u = u
  · exact .inl changed
  · obtain ⟨flash, -, rule, wait⟩ := sweepUnit_changes changed
    exact .inr ⟨flash, rule, wait⟩

theorem Reduces.trans {plan : List (Option Rule)} {x y z : JobUnit} (h : Reduces plan x y) (k : Reduces plan y z) :
    Reduces plan x z := by
  rcases h with rfl | ⟨flash, rule, rfl⟩
  · exact k
  · rcases k with rfl | ⟨flash', -, -⟩
    · exact .inr ⟨flash, rule, rfl⟩
    · cases flash'

theorem reduces_refl (plan : List (Option Rule)) (l : List JobUnit) : List.Forall₂ (Reduces plan) l l :=
  List.forall₂_same.mpr fun _ _ => .inl rfl

theorem reduces_trans {plan : List (Option Rule)} {l m n : List JobUnit} (h : List.Forall₂ (Reduces plan) l m)
    (k : List.Forall₂ (Reduces plan) m n) : List.Forall₂ (Reduces plan) l n := by
  induction h generalizing n with
  | nil => exact k
  | cons first _ ih =>
    cases k with
    | cons first' rest' => exact .cons (first.trans first') (ih rest')

theorem prereqSweep_reduces (plan : List (Option Rule)) (l : List JobUnit) :
    List.Forall₂ (Reduces plan) l (prereqSweep plan l) := by
  rw [prereqSweep_eq, List.forall₂_map_right_iff]
  exact List.forall₂_same.mpr fun u _ => sweepUnit_reduces plan l u

theorem countP_lt_countP {α : Type} {p q : α → Bool} {l : List α} {x : α} (mono : ∀ y, p y = true → q y = true)
    (mem : x ∈ l) (yes : q x = true) (no : p x = false) : l.countP p < l.countP q := by
  obtain ⟨front, back, rfl⟩ := List.append_of_mem mem
  have first : front.countP p ≤ front.countP q := List.countP_mono_left fun y _ => mono y
  have second : back.countP p ≤ back.countP q := List.countP_mono_left fun y _ => mono y
  simp only [List.countP_append, List.countP_cons, yes, no, if_true, Bool.false_eq_true, if_false]
  omega

/-- The number of FLASH units. -/
def flashCount (l : List JobUnit) : Nat := l.countP JobUnit.isFlash

theorem flashCount_sweep {plan : List (Option Rule)} {l : List JobUnit} (changed : prereqSweep plan l ≠ l) :
    flashCount (prereqSweep plan l) < flashCount l := by
  obtain ⟨u, mem, drop⟩ : ∃ u ∈ l, sweepUnit plan l u ≠ u := by
    by_contra none
    push Not at none
    exact changed ((prereqSweep_eq plan l).trans (List.map_congr_left none |>.trans (List.map_id l)))
  obtain ⟨flash, -, -, wait⟩ := sweepUnit_changes drop
  have before : u.isFlash = true := (isFlash_iff u).mpr flash
  have after : (sweepUnit plan l u).isFlash = false := by rw [wait]; rfl
  rw [flashCount, flashCount, prereqSweep_eq, List.countP_map]
  have mono : ∀ v : JobUnit, (JobUnit.isFlash ∘ sweepUnit plan l) v = true → v.isFlash = true := fun v flash' => by
    by_contra not_flash
    have same : sweepUnit plan l v = v := sweepUnit_of_passes fun f => absurd ((isFlash_iff v).mpr f) not_flash
    rw [Function.comp_apply, same] at flash'
    exact not_flash flash'
  exact countP_lt_countP mono mem before after

theorem allPass_of_fixed {plan : List (Option Rule)} {l : List JobUnit} (fixed : prereqSweep plan l = l) :
    AllPass plan l := by
  rw [allPass_iff]
  intro u mem flash
  by_contra fails
  have same : sweepUnit plan l u = u := List.map_inj_left.mp (fixed.trans (List.map_id l).symm) u mem
  have drops : sweepUnit plan l u = u.toPrereqWait := if_pos (by simp [(isFlash_iff u).mpr flash, fails])
  exact toPrereqWait_ne flash (drops.symm.trans same)

/-- The sweeps only reduce, and with as much fuel as FLASH units they end where every FLASH unit passes. -/
theorem prereqSweeps_end (plan : List (Option Rule)) (fuel : Nat) (l : List JobUnit) (few : flashCount l ≤ fuel) :
    List.Forall₂ (Reduces plan) l (prereqSweeps plan fuel l) ∧ AllPass plan (prereqSweeps plan fuel l) := by
  induction fuel generalizing l with
  | zero =>
    refine ⟨reduces_refl plan l, fun u mem flash => ?_⟩
    exact absurd ((isFlash_iff u).mpr flash) (List.countP_eq_zero.mp (Nat.le_zero.mp few) u mem)
  | succ fuel ih =>
    unfold prereqSweeps
    dsimp only
    split
    case isFalse none =>
      refine ⟨reduces_refl plan l, fun u mem flash q rule => absurd ?_ none⟩
      exact List.any_eq_true.mpr ⟨u, mem, by simp [(isFlash_iff u).mpr flash, rule]⟩
    case isTrue =>
      split
      case isTrue fixed => exact ⟨reduces_refl plan l, allPass_of_fixed fixed⟩
      case isFalse changed =>
        have fewer := flashCount_sweep changed
        obtain ⟨reduces, passes⟩ := ih (prereqSweep plan l) (by omega)
        exact ⟨reduces_trans (prereqSweep_reduces plan l) reduces, passes⟩

theorem forall₂_right {R : JobUnit → JobUnit → Prop} {l m : List JobUnit} (h : List.Forall₂ R l m) {v : JobUnit}
    (mem : v ∈ l) : ∃ w ∈ m, R v w := by
  induction h with
  | nil => cases mem
  | cons first rest ih =>
    rcases List.mem_cons.mp mem with rfl | mem
    · exact ⟨_, List.mem_cons_self .., first⟩
    · obtain ⟨w, mem, related⟩ := ih mem
      exact ⟨w, List.mem_cons_of_mem _ mem, related⟩

theorem forall₂_left {R : JobUnit → JobUnit → Prop} {l m : List JobUnit} (h : List.Forall₂ R l m) {w : JobUnit}
    (mem : w ∈ m) : ∃ v ∈ l, R v w :=
  forall₂_right (R := fun w v => R v w) h.flip mem

theorem Reduces.keeps {plan : List (Option Rule)} {x y : JobUnit} (h : Reduces plan x y) :
    y.identity = x.identity ∧ y.knownActive = x.knownActive ∧ (y.decision = some .flash → y = x) := by
  rcases h with rfl | ⟨-, -, rfl⟩
  · exact ⟨rfl, rfl, fun _ => rfl⟩
  · exact ⟨rfl, rfl, nofun⟩

/-- A unit that passes over a reduced bus passes over the bus. -/
theorem passesPrereq_of_reduced {plan : List (Option Rule)} {l m : List JobUnit} (h : List.Forall₂ (Reduces plan) l m)
    {u : JobUnit} (passes : passesPrereq plan m u = true) : passesPrereq plan l u = true := by
  rw [passesPrereq_iff] at passes ⊢
  intro q rule
  obtain ⟨⟨w, mem, cls⟩, each⟩ := passes q rule
  refine ⟨?_, fun v mem cls => ?_⟩
  · obtain ⟨v, mem', related⟩ := forall₂_left h mem
    exact ⟨v, mem', by rw [← related.keeps.1, cls]⟩
  · obtain ⟨w, mem', related⟩ := forall₂_right h mem
    obtain ⟨identity, active, same⟩ := related.keeps
    have meets := each w mem' (by rw [identity, cls])
    rw [meetsPrereq_iff] at meets ⊢
    rcases meets with meets | ⟨flash, rest⟩
    · exact .inl (active ▸ meets)
    · have : w = v := same flash
      exact .inr (this ▸ ⟨flash, rest⟩)

/-- A choice that passes everywhere stays within the sweep of what it was chosen from. -/
theorem sweep_above {plan : List (Option Rule)} {l m : List JobUnit} (h : List.Forall₂ (Reduces plan) l m)
    (passes : AllPass plan m) : List.Forall₂ (Reduces plan) (prereqSweep plan l) m := by
  rw [prereqSweep_eq, List.forall₂_map_left_iff]
  obtain ⟨length, each⟩ := List.forall₂_iff_zip.mp h
  refine List.forall₂_iff_zip.mpr ⟨length, fun {y x} pair => ?_⟩
  have related := each pair
  by_cases changed : sweepUnit plan l y = y
  · rw [changed]; exact related
  · obtain ⟨flash, fails, rule, wait⟩ := sweepUnit_changes changed
    rcases related with rfl | ⟨-, -, rfl⟩
    · have kept := (allPass_iff plan m).mp passes x (List.of_mem_zip pair).2 flash
      rw [passesPrereq_of_reduced h kept] at fails
      cases fails
    · exact .inl wait.symm

theorem sweeps_above {plan : List (Option Rule)} {m : List JobUnit} (passes : AllPass plan m) (fuel : Nat)
    (l : List JobUnit) (h : List.Forall₂ (Reduces plan) l m) :
    List.Forall₂ (Reduces plan) (prereqSweeps plan fuel l) m := by
  induction fuel generalizing l with
  | zero => exact h
  | succ fuel ih =>
    unfold prereqSweeps
    dsimp only
    split
    · split
      · exact h
      · exact ih _ (sweep_above h passes)
    · exact h

/-- Settles O23: the first decision by its cases, and the sweeps as the descent to the greatest choice that passes. -/
theorem decisionsOfAPlan : Obligations.DecisionsOfAPlan := by
  unfold Obligations.DecisionsOfAPlan
  refine ⟨fun plan find x => ⟨decideUnit_noRule, fun n r matched => ⟨decideUnit_census matched,
    fun id e => decideUnit_image matched⟩⟩, fun x => ⟨fun pl flash planned => ?_, startServing_other⟩,
    fun r e active capacity => ?_, fun plan find units few => ?_⟩
  · exact ⟨memberKind x.knownStandby pl, startServing_flash flash planned, memberKind_table x.knownStandby pl⟩
  · obtain ⟨current, downgrade, rest⟩ := imageDecision_table r e active capacity
    simp only [version_lt_iff] at downgrade rest
    refine ⟨current, downgrade, rest, fun a b c => ⟨by omega, by omega, ?_, ?_⟩⟩
    · cases a; cases b
      simp only [Version.mk.injEq]
      omega
    · rw [version_le_iff, version_lt_iff]
  · have few' : flashCount (units.map (decideUnit plan find)) ≤ 16 :=
      (List.countP_le_length.trans (List.length_map ..).le).trans few
    obtain ⟨reduces, passes⟩ := prereqSweeps_end plan 16 _ few'
    refine ⟨reduces, passes, fun l choice allPass => ?_⟩
    have above := sweeps_above allPass 16 _ choice
    exact (above.imp fun y x related flash => related.keeps.2.2 flash ▸ flash).flip

end Sys2Proof

end

/-! The requests about the fleet table and a bay's offer of a fleet number (O24). -/

section

namespace Sys2Proof

open Machine

/-! ### A bus number and its record -/

theorem bus_none_iff (s : State) (n : Nat) : s.bus n = none ↔ ∀ r ∈ s.fleet, r.fleet ≠ n := by
  simp [State.bus, List.find?_eq_none]

/-- Records of one fleet number are the same record. -/
theorem FleetOk.same_record {s : State} (h : FleetOk s) {r q : BusRecord} (mem : r ∈ s.fleet) (mem' : q ∈ s.fleet)
    (number : r.fleet = q.fleet) : r = q :=
  List.inj_on_of_nodup_map h.numbers mem mem' number

theorem FleetOk.bus_eq {s : State} (h : FleetOk s) {r : BusRecord} (mem : r ∈ s.fleet) : s.bus r.fleet = some r := by
  obtain ⟨q, found⟩ : ∃ q, s.bus r.fleet = some q := by
    refine Option.ne_none_iff_exists'.mp fun none => ?_
    exact (bus_none_iff s r.fleet).mp none r mem rfl
  have number := List.find?_some found
  rw [found, h.same_record (List.mem_of_find?_eq_some found) mem (by simpa using number)]

/-! ### FLEET_QUERY, FIT_QUERY, FLEET_FORGET (R16 to R18) -/

theorem fitness_table (r : BusRecord) (generation : Nat) :
    (r.splits ≠ [] → r.fitness generation = .split) ∧
    (r.splits = [] → r.evaluated ≠ some generation → r.fitness generation = .unknown) ∧
    (r.splits = [] → r.evaluated = some generation → 0 < r.stale → r.fitness generation = .stale) ∧
    (r.splits = [] → r.evaluated = some generation → r.stale = 0 → r.fitness generation = .current) := by
  unfold BusRecord.fitness
  refine ⟨fun splits => ?_, fun whole other => ?_, fun whole same stale => ?_, fun whole same fit => ?_⟩
  · simp [splits]
  · simp [whole, other]
  · simp [whole, same, stale]
  · simp [whole, same, fit]

theorem exec_fleetQuery_accepted {s : State} {p : PortId} {body : List Byte} {n : Nat} (accepted : Accepts s p namedRoles)
    (parsed : parseFleet body = some n) : exec (.fleetQuery p body) s = match s.bus n with
      | some r => .next (answered s p .ok (.bus r))
      | none => .next (answered s p .notFound .none) :=
  (exec_fleetQuery p body s).trans (serve_parsed accepted parsed 0x30#8 _)

theorem exec_fitQuery_accepted {s : State} {p : PortId} {body : List Byte} {n : Nat} (accepted : Accepts s p namedRoles)
    (parsed : parseFleet body = some n) : exec (.fitQuery p body) s = match s.bus n with
      | some r => .next (answered s p .ok (.fitness (r.fitness s.plans.generation) r.atBay r.stale))
      | none => .next (answered s p .ok (.fitness .unknown none 0)) :=
  (exec_fitQuery p body s).trans (serve_parsed accepted parsed 0x31#8 _)

theorem exec_fleetForget_accepted {s : State} {p : PortId} {body : List Byte} {n : Nat} (accepted : Accepts s p [.service])
    (parsed : parseFleet body = some n) : exec (.fleetForget p body) s = match s.bus n with
      | none => .next (answered s p .notFound .none)
      | some r => if r.atBay.isSome then .next (answered s p .atBay .none)
        else .next (({ s.intake p with fleet := s.fleet.filter fun q => q.fleet != n } : State).respond p .ok .none) :=
  (exec_fleetForget p body s).trans (serve_parsed accepted parsed 0x32#8 _)

/-! ### A bay's offer (R9, R10) -/

theorem insertBus_perm (x : BusRecord) (l : List BusRecord) : (insertBus x l).Perm (x :: l) := by
  induction l with
  | nil => exact .refl _
  | cons q rest ih =>
    unfold insertBus
    split
    · exact .refl _
    · exact (ih.cons q).trans (.swap x q rest)

theorem perm_cons_filter {l : List BusRecord} (numbers : (l.map (·.fleet)).Nodup) {v : BusRecord} (mem : v ∈ l) :
    l.Perm (v :: l.filter fun r => r.fleet != v.fleet) := by
  obtain ⟨front, back, rfl⟩ := List.append_of_mem mem
  have apart : ∀ r ∈ front ++ back, (r.fleet != v.fleet) = true := by
    have nodup := ((List.perm_middle (a := v) (l₁ := front) (l₂ := back)).map (·.fleet)).nodup_iff.mp numbers
    rw [List.map_cons, List.nodup_cons] at nodup
    exact fun r mem => bne_iff_ne.mpr fun same => nodup.1 (List.mem_map.mpr ⟨r, mem, same⟩)
  have kept : (front ++ v :: back).filter (fun r => r.fleet != v.fleet) = front ++ back := by
    have all := List.filter_eq_self.mpr apart
    rw [List.filter_append] at all
    simpa [List.filter_append] using all
  rw [kept]
  exact List.perm_middle

/-- The record that eviction takes was visited no later than another, and is the lower numbered of two visited alike. -/
def NoLater (v w : BusRecord) : Prop := v.lastVisit < w.lastVisit ∨ (v.lastVisit = w.lastVisit ∧ v.fleet ≤ w.fleet)

theorem NoLater.trans {u v w : BusRecord} (h : NoLater u v) (k : NoLater v w) : NoLater u w := by
  rcases h with h | ⟨h, h'⟩ <;> rcases k with k | ⟨k, k'⟩
  · exact .inl (Nat.lt_trans h k)
  · exact .inl (k ▸ h)
  · exact .inl (h ▸ k)
  · exact .inr ⟨h.trans k, Nat.le_trans h' k'⟩

theorem olderRecord_noLater (r q : BusRecord) : NoLater (olderRecord r q) r ∧ NoLater (olderRecord r q) q := by
  unfold olderRecord NoLater
  split
  case isTrue older =>
    simp only [Bool.or_eq_true, Bool.and_eq_true, decide_eq_true_eq, beq_iff_eq] at older
    exact ⟨older.imp_right (And.imp_right Nat.le_of_lt), .inr ⟨rfl, Nat.le_refl _⟩⟩
  case isFalse newer =>
    simp only [Bool.or_eq_true, Bool.and_eq_true, decide_eq_true_eq, beq_iff_eq, not_or, not_and, Nat.not_lt] at newer
    obtain ⟨early, low⟩ := newer
    exact ⟨.inr ⟨rfl, Nat.le_refl _⟩, (Nat.lt_or_eq_of_le early).imp_right fun same => ⟨same, low same.symm⟩⟩

theorem foldl_olderRecord_noLater (rest : List BusRecord) (r : BusRecord) :
    NoLater (rest.foldl olderRecord r) r ∧ ∀ w ∈ rest, NoLater (rest.foldl olderRecord r) w := by
  induction rest generalizing r with
  | nil => exact ⟨.inr ⟨rfl, Nat.le_refl _⟩, nofun⟩
  | cons q rest ih =>
    obtain ⟨first, others⟩ := ih (olderRecord r q)
    obtain ⟨left, right⟩ := olderRecord_noLater r q
    refine ⟨first.trans left, fun w mem => ?_⟩
    rcases List.mem_cons.mp mem with rfl | mem
    · exact first.trans right
    · exact others w mem

theorem evictionVictim_noLater {l : List BusRecord} {v : BusRecord} (victim : evictionVictim l = some v) :
    ∀ w ∈ l, w.atBay = none → NoLater v w := by
  intro w mem free
  have mem' : w ∈ l.filter fun r => r.atBay.isNone := List.mem_filter.mpr ⟨mem, by rw [free]; rfl⟩
  unfold evictionVictim at victim
  split at victim
  case h_1 => cases victim
  case h_2 r rest unbound =>
    cases victim
    rw [unbound] at mem'
    obtain ⟨first, others⟩ := foldl_olderRecord_noLater rest r
    rcases List.mem_cons.mp mem' with rfl | mem'
    · exact first
    · exact others w mem'

theorem exists_evictionVictim {l : List BusRecord} {r : BusRecord} (mem : r ∈ l) (free : r.atBay = none) :
    ∃ v, evictionVictim l = some v := by
  have mem' : r ∈ l.filter fun r => r.atBay.isNone := List.mem_filter.mpr ⟨mem, by rw [free]; rfl⟩
  unfold evictionVictim
  split
  case h_1 none => rw [none] at mem'; cases mem'
  case h_2 => exact ⟨_, rfl⟩

/-- A record of a bay that is released. -/
def releasedFrom (b : BayId) (q : BusRecord) : BusRecord := if q.atBay = some b then { q with atBay := none } else q

theorem unbind_eq (s : State) (b : BayId) : s.unbind b = { s with fleet := s.fleet.map (releasedFrom b) } := by
  unfold State.unbind State.modBound
  congr 1
  refine List.map_congr_left fun q _ => ?_
  simp only [releasedFrom, beq_iff_eq]

theorem releasedFrom_fleet (b : BayId) (q : BusRecord) : (releasedFrom b q).fleet = q.fleet := by
  unfold releasedFrom
  split <;> rfl

theorem offerFleet_refused {s : State} (h : FleetOk s) {b : BayId} {r : BusRecord} (mem : r ∈ s.fleet)
    (held : r.atBay ≠ none) (other : r.atBay ≠ some b) : s.offerFleet b r.fleet = (.refused, s) := by
  have away : (r.atBay.isSome && r.atBay != some b) = true := by
    simp [Option.isSome_iff_ne_none, held, other]
  simp only [State.offerFleet, h.bus_eq mem, away, if_true]

theorem offerFleet_known {s : State} (h : FleetOk s) {b : BayId} {r : BusRecord} (mem : r ∈ s.fleet)
    (free : r.atBay = none ∨ r.atBay = some b) : s.offerFleet b r.fleet = (.bound, { s with fleet := s.fleet.map fun q =>
      if q.fleet = r.fleet then { q with atBay := some b, lastVisit := s.yardTime } else releasedFrom b q }) := by
  have here : (r.atBay.isSome && r.atBay != some b) = false := by
    rcases free with free | free <;> simp [free]
  simp only [State.offerFleet, h.bus_eq mem, here, Bool.false_eq_true, if_false, unbind_eq, List.map_map, Prod.mk.injEq,
    true_and]
  congr 1
  refine List.map_congr_left fun q _ => ?_
  simp only [Function.comp_apply, releasedFrom_fleet, beq_iff_eq]
  split
  · unfold releasedFrom
    split <;> rfl
  · rfl

theorem offerFleet_new {s : State} {b : BayId} {n : Nat} (absent : ∀ r ∈ s.fleet, r.fleet ≠ n) :
    s.offerFleet b n = (.bound, { (s.unbind b).evictIfFull with
      fleet := insertBus (BusRecord.create n b s.yardTime) (s.unbind b).evictIfFull.fleet }) := by
  simp only [State.offerFleet, (bus_none_iff s n).mpr absent]

theorem evictIfFull_room {s : State} (room : s.fleet.length < 256) : s.evictIfFull = s := if_pos room

theorem evictIfFull_full {s : State} (full : s.fleet.length = 256) {v : BusRecord} (victim : evictionVictim s.fleet = some v) :
    s.evictIfFull = ({ s with fleet := s.fleet.filter fun r => r.fleet != v.fleet } : State).post .busEvicted (.bus v.fleet) := by
  unfold State.evictIfFull
  rw [if_neg (by omega), victim]

/-- A full table evicts the unbound record visited longest ago. -/
theorem offerFleet_full {s : State} (h : FleetOk s) {b : BayId} {n : Nat} (absent : ∀ r ∈ s.fleet, r.fleet ≠ n)
    (full : s.fleet.length = 256) : ∃ (l : List BusRecord) (v : BusRecord),
      v ∈ s.fleet.map (releasedFrom b) ∧ v.atBay = none ∧
      (∀ w ∈ s.fleet.map (releasedFrom b), w.atBay = none → NoLater v w) ∧
      s.offerFleet b n = (.bound, { s.post .busEvicted (.bus v.fleet) with fleet := l }) ∧
      List.Perm (v :: l) (BusRecord.create n b s.yardTime :: s.fleet.map (releasedFrom b)) := by
  have ok : FleetOk (s.unbind b) := h.unbind
  have unbound := unbind_eq s b
  have fleet : (s.unbind b).fleet = s.fleet.map (releasedFrom b) := by rw [unbound]
  have full' : (s.unbind b).fleet.length = 256 := by rw [fleet, List.length_map, full]
  obtain ⟨r, mem, free⟩ := exists_unbound ok full'.ge
  obtain ⟨v, victim⟩ := exists_evictionVictim mem free
  obtain ⟨here, empty⟩ := evictionVictim_mem victim
  have noLater := evictionVictim_noLater victim
  have numbers := ok.numbers
  have evicts := evictIfFull_full full' victim
  rw [offerFleet_new absent, evicts]
  rw [fleet] at *
  refine ⟨_, v, here, empty, noLater, ?_, ((insertBus_perm _ _).cons v).trans
    ((List.Perm.swap _ _ _).trans ((perm_cons_filter numbers here).symm.cons _))⟩
  rw [unbound]
  rfl

/-- Settles O24: the requests by the record of the number, and an offer by what the table holds. -/
theorem fleetRequestsAndBinding : Obligations.FleetRequestsAndBinding := by
  unfold Obligations.FleetRequestsAndBinding
  refine ⟨fun s p body n ok parsed => ⟨fun absent => ?_, fun r mem number => ?_⟩, fun s b n ok => ?_⟩
  · have none := (bus_none_iff s n).mpr absent
    refine ⟨fun accepted => ?_, fun accepted => ?_⟩
    · rw [exec_fleetQuery_accepted accepted parsed, exec_fitQuery_accepted accepted parsed, none]
      exact ⟨rfl, rfl⟩
    · rw [exec_fleetForget_accepted accepted parsed, none]
  · subst number
    have found := ok.bus_eq mem
    refine ⟨fun accepted => ?_, fun accepted => ?_⟩
    · rw [exec_fleetQuery_accepted accepted parsed, exec_fitQuery_accepted accepted parsed, found]
      exact ⟨rfl, r.fitness s.plans.generation, rfl, fitness_table r s.plans.generation⟩
    · rw [exec_fleetForget_accepted accepted parsed, found]
      refine ⟨fun held => if_pos (Option.isSome_iff_ne_none.mpr held), fun free => ?_⟩
      have kept : (fun q : BusRecord => q.fleet != r.fleet) = fun q => decide (q.fleet ≠ r.fleet) := by
        funext q; simp [bne, BEq.beq]
      simp only [free, Option.isSome_none, Bool.false_eq_true, if_false, kept]
  · refine ⟨fun r mem number held other => ?_, fun r mem number free => ?_, fun absent => ⟨fun room => ?_, fun full => ?_⟩,
      ok.offerFleet n⟩
    · subst number
      exact offerFleet_refused ok mem held other
    · subst number
      exact offerFleet_known ok mem free
    · refine ⟨insertBus (BusRecord.create n b s.yardTime) (s.fleet.map (releasedFrom b)), ?_, insertBus_perm _ _⟩
      rw [offerFleet_new absent, unbind_eq, evictIfFull_room (by rw [List.length_map]; exact room)]
    · exact offerFleet_full ok absent full

end Sys2Proof

end

/-! What BAY_STATUS and JOB_QUERY report (O25). -/

section

namespace Sys2Proof

open Machine

/-! ### The record bound to a bay and the pass in flight -/

theorem find_of_countP_le_one {α : Type} {p : α → Bool} {l : List α} (once : l.countP p ≤ 1) {x : α} (mem : x ∈ l)
    (yes : p x = true) : l.find? p = some x := by
  induction l with
  | nil => cases mem
  | cons y rest ih =>
    rw [List.countP_cons] at once
    by_cases first : p y = true
    · rw [if_pos first] at once
      have none : rest.countP p = 0 := by omega
      rcases List.mem_cons.mp mem with rfl | mem
      · exact List.find?_cons_of_pos first
      · exact absurd yes (List.countP_eq_zero.mp none x mem)
    · rw [List.find?_cons_of_neg first]
      rcases List.mem_cons.mp mem with rfl | mem
      · exact absurd yes first
      · exact ih (by omega) mem

theorem FleetOk.bound_eq {s : State} (h : FleetOk s) {r : BusRecord} {b : BayId} (mem : r ∈ s.fleet)
    (here : r.atBay = some b) : s.bound b = some r :=
  find_of_countP_le_one (h.bound b) mem (by simp [here])

theorem bound_none_iff (s : State) (b : BayId) : s.bound b = none ↔ ∀ r ∈ s.fleet, r.atBay ≠ some b := by
  simp [State.bound, List.find?_eq_none]

theorem currentPass_none_iff (y : Bay) : y.currentPass = none ↔ ∀ q ∈ y.passes, q.inFlight = false := by
  simp [Bay.currentPass, List.find?_eq_none]

theorem lineBusy_iff (y : Bay) : y.lineBusy = true ↔ y.engine.state = .sending ∨ y.engine.state = .awaiting := by
  cases state : y.engine.state <;> simp [Bay.lineBusy, state]

/-! ### The progress counts (R91) -/

theorem countProgress_eq (y : Bay) (v : Progress) :
    y.countProgress (· == v) = (y.units.filter fun u => decide (u.progress = some v)).length := by
  rw [Bay.countProgress, List.countP_eq_length_filter]
  congr 2
  funext u
  rcases u.progress with _ | w
  · rfl
  · by_cases same : w = v <;> simp [same]

/-- The two DEFERRED values are counted together. -/
theorem deferred_eq (y : Bay) : y.progressCounts.deferred =
    (y.units.filter fun u => decide (u.progress = some .deferredNoTime)).length +
      (y.units.filter fun u => decide (u.progress = some .deferredFault)).length := by
  simp only [Bay.progressCounts, Bay.countProgress, ← List.countP_eq_length_filter]
  induction y.units with
  | nil => rfl
  | cons u rest ih =>
    simp only [List.countP_cons, ih]
    rcases u.progress with _ | v
    · simp
    · cases v <;> simp <;> omega

theorem faulted_eq (y : Bay) : y.progressCounts.faulted = (y.units.filter fun u => match u.progress with
    | some (.faulted _) => true
    | _ => false).length := by
  simp only [Bay.progressCounts, Bay.countProgress, ← List.countP_eq_length_filter]
  congr 1
  funext u
  rcases u.progress with _ | v
  · rfl
  · cases v <;> rfl

theorem unset_eq (y : Bay) : y.progressCounts.unset = (y.units.filter fun u => decide (u.progress = none)).length := by
  simp only [Bay.progressCounts, ← List.countP_eq_length_filter]
  congr 1
  funext u
  cases u.progress <;> rfl

/-- Each job unit is counted once. -/
theorem counts_total (y : Bay) : let c := y.progressCounts
    c.pending + c.opening + c.receiving + c.repairing + c.checking + c.verified + c.switching + c.confirming + c.switched +
      c.deferred + c.faulted + c.cut + c.unset = y.units.length := by
  simp only [Bay.progressCounts, Bay.countProgress]
  induction y.units with
  | nil => rfl
  | cons u rest ih =>
    simp only [List.countP_cons, List.length_cons, ← ih]
    rcases u.progress with _ | v
    · simp; omega
    · cases v <;> simp [Progress.isFaulted] <;> omega

/-! ### JOB_QUERY (R92) -/

theorem exec_jobQuery_accepted {s : State} {p : PortId} {body : List Byte} {b : BayId} {a : Nat}
    (accepted : Accepts s p namedRoles) (parsed : parseJobQuery body = some (b, a)) :
    exec (.jobQuery p body) s = match (s.bay b).unit a with
      | some u => .next (answered s p .ok (.unit u))
      | none => .next (answered s p .notFound .none) :=
  (exec_jobQuery p body s).trans (serve_parsed accepted parsed 0x4A#8 _)

theorem unit_none_iff (y : Bay) (a : Nat) : y.unit a = none ↔ ∀ u ∈ y.units, u.addr ≠ a := by
  simp [Bay.unit, List.find?_eq_none]

theorem unit_of_mem {y : Bay} (addresses : (y.units.map (·.addr)).Nodup) {u : JobUnit} (mem : u ∈ y.units) :
    y.unit u.addr = some u := by
  obtain ⟨v, found⟩ : ∃ v, y.unit u.addr = some v :=
    Option.ne_none_iff_exists'.mp fun none => (unit_none_iff y u.addr).mp none u mem rfl
  have same : v.addr = u.addr := by simpa using List.find?_some found
  rw [found, List.inj_on_of_nodup_map addresses (List.mem_of_find?_eq_some found) mem same]

/-- Settles O25: each reported value is the bay's own, and each job unit is counted once. -/
theorem bayReports : Obligations.BayReports := by
  unfold Obligations.BayReports
  intro s p body accepted
  refine ⟨fun b parsed => ?_, fun b a parsed => ?_⟩
  · refine ⟨(s.intake p).bayReport b, (exec_bayStatus p body s).trans (execBayStatus_of_accepts accepted parsed), rfl, rfl,
      rfl, rfl, rfl, rfl, rfl, rfl, rfl, rfl, rfl, rfl, lineBusy_iff _, fun ok record mem here => ?_, fun absent => ?_,
      fun pass shown => ?_, ?_, countProgress_eq _ _, countProgress_eq _ _, countProgress_eq _ _, countProgress_eq _ _,
      countProgress_eq _ _, countProgress_eq _ _, countProgress_eq _ _, countProgress_eq _ _, countProgress_eq _ _,
      countProgress_eq _ _, deferred_eq _, faulted_eq _, unset_eq _, counts_total _⟩
    · exact congrArg (Option.map (·.fleet)) (ok.bound_eq mem here)
    · exact congrArg (Option.map (·.fleet)) ((bound_none_iff s b).mpr absent)
    · obtain ⟨q, current, same⟩ := Option.map_eq_some_iff.mp shown
      exact ⟨q, List.mem_of_find?_eq_some current, List.find?_some current, same.symm⟩
    · exact Option.map_eq_none_iff.trans (currentPass_none_iff _)
  · rw [exec_jobQuery_accepted accepted parsed]
    refine ⟨fun absent => ?_, fun addresses u mem here => ?_⟩
    · rw [(unit_none_iff _ a).mpr absent]
    · rw [← here, unit_of_mem addresses mem]

end Sys2Proof

end

/-! Cutoffs, the deadline compare, and the requests that configure a bay, enable it, reset it and set its departure (O27 to
O30, O36). -/

section

namespace Sys2Proof

open Machine

/-! ### Cutoffs and the deadline compare (R159 to R165) -/

theorem takeCutoff_idle {s : State} {b : BayId} (c : CutoffCause)
    (state : (s.bay b).state ∈ [BayState.disabled, .empty, .cutoff]) : s.takeCutoff b c = s := by
  simp only [List.mem_cons, List.not_mem_nil, or_false] at state
  rcases state with state | state | state <;> simp only [State.takeCutoff, state]

theorem takeCutoff_switching {s : State} {b : BayId} (c : CutoffCause) (state : (s.bay b).state = .switching) :
    s.takeCutoff b c = s.modBay b fun y => y.pendCutoff c := by
  simp only [State.takeCutoff, state]

theorem takeCutoff_acts {s : State} {b : BayId} (c : CutoffCause)
    (state : (s.bay b).state ∈ [BayState.enumerating, .planning, .anonymous, .duplicate, .transferring, .done]) :
    s.takeCutoff b c = s.cutOffBay b c := by
  simp only [List.mem_cons, List.not_mem_nil, or_false] at state
  rcases state with state | state | state | state | state | state <;> simp only [State.takeCutoff, state]

/-- A pending cutoff keeps its first cause (R165). -/
theorem pendCutoff_eq (y : Bay) (c : CutoffCause) : y.pendCutoff c = { y with
    pendingCutoff := some (match y.pendingCutoff with
      | some cause => cause
      | none => c) } := by
  unfold Bay.pendCutoff
  cases y.pendingCutoff <;> rfl

/-- A sound bay outside CUTOFF has a clear flag (R163). -/
theorem BayOk.clear {y : Bay} (h : BayOk y) (state : y.state ≠ .cutoff) : y.cutoff = none := by
  by_contra set
  exact state (h.flag.mp (Option.isSome_iff_ne_none.mpr set))

theorem takeCutoff_cutsOff {s : State} {b : BayId} (c : CutoffCause) (flag : (s.bay b).cutoff = none)
    (state : (s.bay b).state ∈ [BayState.enumerating, .planning, .anonymous, .duplicate, .transferring, .done]) :
    CutsOff b c s (s.takeCutoff b c) := by
  rw [takeCutoff_acts c state]
  exact cutsOff c flag

theorem deadlineCompare_early {s : State} {b : BayId} (early : (s.bay b).deadlineCondition s.yardTime = false) :
    s.deadlineCompare b = s := by
  simp only [State.deadlineCompare, early, Bool.false_eq_true, if_false]

theorem deadlineCompare_stop {s : State} {b : BayId} (due : (s.bay b).deadlineCondition s.yardTime = true)
    (mode : (s.bay b).config.mode = .stop) : s.deadlineCompare b = s.takeCutoff b .deadline := by
  simp only [State.deadlineCompare, due, mode, if_true]

theorem deadlineCompare_warned {s : State} {b : BayId} (due : (s.bay b).deadlineCondition s.yardTime = true)
    (mode : (s.bay b).config.mode = .warn)
    (idle : (s.bay b).warned = true ∨ (s.bay b).state = .disabled ∨ (s.bay b).state = .empty) : s.deadlineCompare b = s := by
  have bars : ((s.bay b).warned || (s.bay b).state = .disabled || (s.bay b).state = .empty) = true := by
    simpa [or_assoc] using idle
  simp only [State.deadlineCompare, due, mode, bars, if_true]

theorem deadlineCompare_warns {s : State} {b : BayId} (due : (s.bay b).deadlineCondition s.yardTime = true)
    (mode : (s.bay b).config.mode = .warn) (warned : (s.bay b).warned = false) (on : (s.bay b).state ≠ .disabled)
    (bus : (s.bay b).state ≠ .empty) :
    s.deadlineCompare b = (s.modBay b fun y => { y with warned := true }).post .deadlineWarn (.bay b) := by
  have free : ((s.bay b).warned || (s.bay b).state = .disabled || (s.bay b).state = .empty) = false := by
    simp [warned, on, bus]
  simp only [State.deadlineCompare, due, mode, free, if_true, Bool.false_eq_true, if_false]

theorem deadlineCondition_iff (y : Bay) (now : Time) : y.deadlineCondition now = true ↔
    ∃ d c : Time, y.departure = some d ∧ y.cutoffTime = some c ∧ c ≤ now := by
  unfold Bay.deadlineCondition
  cases y.departure <;> cases y.cutoffTime <;> simp

/-- The deadline compare changes neither the configuration, nor the holds, nor the departure. -/
theorem deadlineCompare_settings (s : State) (b : BayId) : let y := (s.deadlineCompare b).bay b
    y.config = (s.bay b).config ∧ y.holds = (s.bay b).holds ∧ y.departure = (s.bay b).departure ∧
      y.cutoffTime = (s.bay b).cutoffTime := by
  unfold State.deadlineCompare
  dsimp only
  split
  case isFalse => exact ⟨rfl, rfl, rfl, rfl⟩
  case isTrue =>
    split
    · unfold State.takeCutoff
      split
      case h_7 => rw [State.bay_modBay_same]; exact ⟨rfl, rfl, rfl, rfl⟩
      case h_8 | h_9 | h_10 => exact ⟨rfl, rfl, rfl, rfl⟩
      all_goals
        by_cases flag : (s.bay b).cutoff = none
        · rw [bay_cutOffBay s b _ flag]; exact ⟨rfl, rfl, rfl, rfl⟩
        · rw [State.cutOffBay, if_pos (Option.isSome_iff_ne_none.mpr flag)]; exact ⟨rfl, rfl, rfl, rfl⟩
    · split
      · exact ⟨rfl, rfl, rfl, rfl⟩
      · rw [State.bay_post, State.bay_modBay_same]; exact ⟨rfl, rfl, rfl, rfl⟩

/-- Settles O36: the compare by its condition, the mode and the bay's state. -/
theorem deadlineReachedActs : Obligations.DeadlineReachedActs := by
  unfold Obligations.DeadlineReachedActs
  intro s b ok due
  have condition : (s.bay b).deadlineCondition s.yardTime = true ↔ due := deadlineCondition_iff _ _
  have run : exec (.deadlineReached b) s = .next (s.deadlineCompare b).arbitrate := exec_deadlineReached b s
  rw [run]
  refine ⟨fun early => ?_, fun late mode => ⟨fun state => ?_, fun state => ?_, fun state => ?_⟩,
    fun late mode => ⟨fun idle => ?_, fun warned on bus => ?_⟩⟩
  · rw [deadlineCompare_early (by rw [← Bool.not_eq_true, condition]; exact early)]
  · rw [deadlineCompare_stop (condition.mpr late) mode, takeCutoff_idle _ state]
  · rw [deadlineCompare_stop (condition.mpr late) mode, takeCutoff_switching _ state]
    exact congrArg (fun u : State => Host.Outcome.next u.arbitrate) (State.modBay_eq s b (pendCutoff_eq _ _))
  · rw [deadlineCompare_stop (condition.mpr late) mode]
    refine ⟨_, rfl, takeCutoff_cutsOff _ (ok.clear ?_) state⟩
    intro cut
    simp [cut] at state
  · rw [deadlineCompare_warned (condition.mpr late) mode idle]
  · rw [deadlineCompare_warns (condition.mpr late) mode warned on bus]

/-! ### BAY_CONFIG (R79, R80) -/

theorem clamp_le {low high n : Nat} (range : low ≤ high) : low ≤ clamp low high n ∧ clamp low high n ≤ high := by
  unfold clamp
  omega

theorem parseConfig_inRange {body : List Byte} {b : BayId} {c : BayConfig} (parsed : parseConfig body = some (b, c)) :
    c.inRange = true := by
  unfold parseConfig at parsed
  split at parsed
  case isFalse => cases parsed
  case isTrue shape =>
    simp only [Bool.and_eq_true, decide_eq_true_eq] at shape
    obtain ⟨c', -, same⟩ := Option.map_eq_some_iff.mp parsed
    simp only [Prod.mk.injEq] at same
    rw [← same.2]
    have range := fun (low high n : Nat) (h : low ≤ high) => clamp_le (n := n) h
    simp only [BayConfig.inRange, decide_eq_true_eq]
    refine ⟨shape.2, ?_⟩
    simp only [clamp]
    omega

/-- The record of a bay whose departure and cutoff time agree, with a new configuration. -/
theorem configure_eq {y : Bay} (h : DepartureOk y) (c : BayConfig) : y.configure c = { y with
    config := c
    rate := if c.speed = y.config.speed then y.rate else lineSpeed c.speed / 12
    cutoffTime := y.departure.map fun d => d - c.guardTime
    presentFilter := { y.presentFilter with
      run := if c.filterLength = y.config.filterLength then y.presentFilter.run else 0 }
    ignitionFilter := { y.ignitionFilter with
      run := if c.filterLength = y.config.filterLength then y.ignitionFilter.run else 0 } } := by
  unfold DepartureOk at h
  have filter := Classical.em (c.filterLength = y.config.filterLength)
  cases departure : y.departure <;> rw [departure] at h <;> rcases filter with same | other <;>
    simp [Bay.configure, Filter.restartRun, nominalRate, cutoffFor, *]

theorem execBayConfig_disabled {s : State} {p : PortId} {body : List Byte} {b : BayId} {c : BayConfig}
    (accepted : Accepts s p [.service]) (parsed : parseConfig body = some (b, c)) (state : (s.bay b).state = .disabled) :
    exec (.bayConfig p body) s = .next (answered s p .disabled .none) := by
  rw [exec_bayConfig, execBayConfig, serve_parsed accepted parsed]
  dsimp only
  rw [State.bay_intake, state]
  rfl

theorem execBayConfig_active {s : State} {p : PortId} {body : List Byte} {b : BayId} {c : BayConfig}
    (accepted : Accepts s p [.service]) (parsed : parseConfig body = some (b, c))
    (state : (s.bay b).state ∈ [BayState.enumerating, .planning, .transferring, .switching]) :
    exec (.bayConfig p body) s = .next (answered s p .bayActive .none) := by
  rw [exec_bayConfig, execBayConfig, serve_parsed accepted parsed]
  dsimp only
  simp only [List.mem_cons, List.not_mem_nil, or_false] at state
  rcases state with state | state | state | state <;> rw [State.bay_intake, state] <;> rfl

theorem execBayConfig_stored {s : State} {p : PortId} {body : List Byte} {b : BayId} {c : BayConfig}
    (accepted : Accepts s p [.service]) (parsed : parseConfig body = some (b, c))
    (state : (s.bay b).state ∈ [BayState.empty, .anonymous, .duplicate, .done, .cutoff]) :
    exec (.bayConfig p body) s = .next (((((s.intake p).modBay b (Bay.configure c)).deadlineCompare b).respond p .ok
      (.config c)).arbitrate) := by
  rw [exec_bayConfig, execBayConfig, serve_parsed accepted parsed]
  dsimp only
  simp only [List.mem_cons, List.not_mem_nil, or_false] at state
  rcases state with state | state | state | state | state <;> rw [State.bay_intake, state] <;> rfl

/-- Settles O27: the refusals by the bay's state, then the stored record and the deadline compare that it takes. -/
theorem bayConfigStores : Obligations.BayConfigStores := by
  unfold Obligations.BayConfigStores
  intro s p body b c accepted parsed ok departure
  refine ⟨parseConfig_inRange parsed, execBayConfig_disabled accepted parsed, execBayConfig_active accepted parsed,
    fun state => ⟨((s.intake p).modBay b (Bay.configure c)).deadlineCompare b, (s.bay b).configure c,
      execBayConfig_stored accepted parsed state, (((OnlyBay.refl b _).modBay _).deadlineCompare),
      configure_eq departure c, fun early => ?_, fun due => ⟨fun mode state => ?_, fun mode state => ?_,
        fun mode bus warned => ?_, fun mode idle => ?_⟩⟩⟩
  all_goals
    have bay : ((s.intake p).setBay b ((s.bay b).configure c)).bay b = (s.bay b).configure c := State.bay_setBay_same _ b _
    have stored : (s.intake p).modBay b (Bay.configure c) = (s.intake p).setBay b ((s.bay b).configure c) := rfl
    rw [stored]
  · exact deadlineCompare_early (by rw [bay]; exact early)
  all_goals
    have due' : (((s.intake p).setBay b ((s.bay b).configure c)).bay b).deadlineCondition
      ((s.intake p).setBay b ((s.bay b).configure c)).yardTime = true := by rw [bay]; exact due
    have mode' := (congrArg (fun y : Bay => y.config.mode) bay).trans mode
  · rw [deadlineCompare_stop due' mode']
    refine takeCutoff_idle _ ?_
    rw [bay]
    show (s.bay b).state ∈ _
    revert state
    cases (s.bay b).state <;> simp
  · rw [deadlineCompare_stop due' mode']
    refine takeCutoff_cutsOff _ ?_ ?_
    · rw [bay]
      exact ok.clear fun cut => by simp [cut] at state
    · rw [bay]
      show (s.bay b).state ∈ _
      revert state
      cases (s.bay b).state <;> simp
  · rw [deadlineCompare_warns due' mode' (by rw [bay]; exact warned) ?_ (by rw [bay]; exact bus)]
    · rw [← stored, State.modBay_modBay]
      rfl
    · rw [bay]
      exact fun off => absurd (show (s.bay b).state = .disabled from off) (by rintro off; simp [off] at state)
  · refine deadlineCompare_warned due' mode' ?_
    rw [bay]
    exact idle.elim (fun empty => .inr (.inr empty)) .inl

end Sys2Proof

end

/-! BAY_ENABLE and BAY_RESET (O28), DEPART_SET and DEPART_CLEAR (O29), and DEPART_NOW (O30). -/

section

namespace Sys2Proof

open Machine

/-! ### BAY_ENABLE and BAY_RESET (R81, R82, R90) -/

/-- Taking a request changes nothing that a bay's leaving its bus reads. -/
theorem busLeft_intake_fleet (s : State) (p : PortId) (b : BayId) : (busLeft (s.intake p) b).fleet = (busLeft s b).fleet := by
  rw [(busLeft_effect _ b).1, (busLeft_effect s b).1]
  rfl

theorem LineStops.of_intake {s u : State} {p : PortId} {b : BayId} (h : LineStops b (s.intake p) u) : LineStops b s u :=
  ⟨h.engine, h.reader, h.granted⟩

/-- What a bay that has left its bus is, whatever is set after it. -/
structure BusGone (b : BayId) (t u : State) : Prop where
  units : (u.bay b).units = []
  bound : u.bound b = none
  departure : (u.bay b).departure = none
  cutoffTime : (u.bay b).cutoffTime = none
  cutoff : (u.bay b).cutoff = none
  warned : (u.bay b).warned = false
  config : (u.bay b).config = (t.bay b).config
  quiet : BayOk (t.bay b) → Quiet (u.bay b)
  stops : LineStops b t u
  fleet : u.fleet = (busLeft t b).fleet
  ports : ∀ q : PortId, u.port q = (busLeft t b).port q

/-- A change after the bay has left its bus that keeps the bus away and the line still. -/
structure Settles (f : Bay → Bay) : Prop where
  line : ∀ y : Bay, (f y).engine = y.engine ∧ (f y).reader = y.reader ∧ (f y).passes = y.passes ∧
    (f y).switching = y.switching
  bus : ∀ y : Bay, (f y).units = y.units ∧ (f y).departure = y.departure ∧ (f y).cutoffTime = y.cutoffTime ∧
    (f y).cutoff = y.cutoff ∧ (f y).warned = y.warned ∧ (f y).config = y.config

theorem busGone_leaveBus (t : State) (b : BayId) {f : Bay → Bay} (settles : Settles f) :
    BusGone b t ((t.leaveBus b).modBay b f) := by
  obtain ⟨y, left, -, -⟩ := bay_leaveBus t b
  obtain ⟨fleet, ports⟩ := leaveBus_effect t b
  obtain ⟨engine, reader, passes, switching⟩ := settles.line ((t.leaveBus b).bay b)
  obtain ⟨units, departure, cutoffTime, cutoff, warned, config⟩ := settles.bus ((t.leaveBus b).bay b)
  have bay : ((t.leaveBus b).modBay b f).bay b = f ((t.leaveBus b).bay b) := State.bay_modBay_same _ b f
  refine ⟨?_, (bound_modBay _ b b f).trans (bound_leaveBus t b), ?_, ?_, ?_, ?_, ?_, fun ok => ?_,
    lineStops_modBay (lineStops_leaveBus t b) engine reader, fleet, State.port_of_ports ports⟩
  · rw [bay, units, left]
  · rw [bay, departure, left]
  · rw [bay, cutoffTime, left]
  · rw [bay, cutoff, left]
  · rw [bay, warned, left]
  · rw [bay, config, left]
  · rw [bay]
    exact (quiet_leaveBus t b ok).congr passes switching engine

/-- What a bay keeps when it leaves its bus. -/
theorem leaveBus_keeps (t : State) (b : BayId) : ((t.leaveBus b).bay b).holds = (t.bay b).holds ∧
    ((t.leaveBus b).bay b).rate = (t.bay b).rate ∧ ((t.leaveBus b).bay b).gapRatio = (t.bay b).gapRatio := by
  obtain ⟨y, left, -, -⟩ := bay_leaveBus t b
  rw [left]
  exact ⟨rfl, rfl, rfl⟩

theorem disableBay_on {t : State} {b : BayId} (on : (t.bay b).state ≠ .disabled) : let u := t.disableBay b
    BusGone b t u ∧ (u.bay b).state = .disabled ∧
      (u.bay b).presentFilter = { value := false, run := 0, accepted := false } ∧
      (u.bay b).ignitionFilter = { value := false, run := 0, accepted := false } ∧
      (u.bay b).holds = { (t.bay b).holds with rule := false } ∧ (u.bay b).rate = (t.bay b).rate ∧
      (u.bay b).gapRatio = (t.bay b).gapRatio := by
  obtain ⟨holds, rate, gapRatio⟩ := leaveBus_keeps t b
  rw [State.disableBay, if_neg on]
  refine ⟨busGone_leaveBus t b ⟨fun _ => ⟨rfl, rfl, rfl, rfl⟩, fun _ => ⟨rfl, rfl, rfl, rfl, rfl, rfl⟩⟩, ?_⟩
  rw [State.bay_modBay_same, holds]
  exact ⟨rfl, rfl, rfl, rfl, rate, gapRatio⟩

theorem bayReset_on {t : State} {b : BayId} (on : (t.bay b).state ≠ .disabled) : let u := t.bayReset b
    BusGone b t u ∧ (u.bay b).state = .empty ∧
      (u.bay b).holds = { sp0 := false, sp1 := false, sp2 := false, rule := false } ∧
      (u.bay b).presentFilter = { value := false, run := 0, accepted := false } ∧
      (u.bay b).ignitionFilter = { value := false, run := 0, accepted := false } ∧
      (u.bay b).rate = lineSpeed (t.bay b).config.speed / 12 ∧ (u.bay b).gapRatio = 0 := by
  have gone := busGone_leaveBus t b (f := fun y => Bay.nominalValues { y with
    holds := HoldSet.none, presentFilter := Filter.start, ignitionFilter := Filter.start, state := .empty })
    ⟨fun _ => ⟨rfl, rfl, rfl, rfl⟩, fun _ => ⟨rfl, rfl, rfl, rfl, rfl, rfl⟩⟩
  have config := gone.config
  rw [State.bayReset, State.resetBay, if_neg on, State.modBay_modBay]
  refine ⟨gone, ?_⟩
  rw [State.bay_modBay_same] at config ⊢
  exact ⟨rfl, rfl, rfl, rfl, congrArg (fun c : BayConfig => lineSpeed c.speed / 12) config, rfl⟩

theorem execBayEnableOff_eq {s : State} {p : PortId} {body : List Byte} {b : BayId} (accepted : Accepts s p [.service])
    (parsed : parseBayWith 0 body = some b) :
    exec (.bayEnableOff p body) s = .next (((s.intake p).disableBay b).respond p .ok .none).arbitrate :=
  (exec_bayEnableOff p body s).trans (serve_parsed accepted parsed 0x42#8 _)

theorem execBayEnableOn_eq {s : State} {p : PortId} {body : List Byte} {b : BayId} (accepted : Accepts s p [.service])
    (parsed : parseBayWith 1 body = some b) :
    exec (.bayEnableOn p body) s = if (s.bay b).state = .disabled then
      .next (((s.intake p).modBay b fun y =>
        { y with state := .empty, presentFilter := Filter.start, ignitionFilter := Filter.start }).respond p .ok .none)
    else .next (answered s p .ok .none) :=
  (exec_bayEnableOn p body s).trans (serve_parsed accepted parsed 0x42#8 _)

theorem execBayReset_eq {s : State} {p : PortId} {body : List Byte} {b : BayId} (accepted : Accepts s p [.service])
    (parsed : parseBay body = some b) :
    exec (.bayReset p body) s = .next (((s.intake p).bayReset b).respond p .ok .none).arbitrate :=
  (exec_bayReset p body s).trans (serve_parsed accepted parsed 0x43#8 _)

/-- Settles O28: both requests are the bay's leaving of its bus with other settings after it. -/
theorem bayEnableAndReset : Obligations.BayEnableAndReset := by
  unfold Obligations.BayEnableAndReset
  refine ⟨fun s p body b accepted => ⟨fun parsed => ?_, fun parsed => ?_⟩, fun s p body b accepted parsed => ?_⟩
  · rw [execBayEnableOff_eq accepted parsed]
    refine ⟨fun off => ?_, fun on => ⟨(s.intake p).disableBay b, rfl, (OnlyBay.refl b _).disableBay, ?_⟩⟩
    · rw [State.disableBay, if_pos (show ((s.intake p).bay b).state = .disabled from off)]
      rfl
    · obtain ⟨gone, state, present, ignition, holds, rate, gapRatio⟩ := disableBay_on (t := s.intake p) (b := b) on
      exact ⟨state, gone.units, gone.bound, gone.departure, gone.cutoffTime, gone.cutoff, gone.warned, present, ignition,
        holds, gone.config, rate, gapRatio, gone.quiet, gone.stops.of_intake,
        gone.fleet.trans (busLeft_intake_fleet s p b), gone.ports⟩
  · rw [execBayEnableOn_eq accepted parsed]
    exact ⟨fun on => if_neg on, fun off => if_pos off⟩
  · rw [execBayReset_eq accepted parsed]
    refine ⟨fun off => ?_, fun on => ⟨(s.intake p).bayReset b, rfl, (OnlyBay.refl b _).bayReset, ?_⟩⟩
    · rw [State.bayReset, State.resetBay, if_pos (show ((s.intake p).bay b).state = .disabled from off),
        State.modBay_modBay]
      rfl
    · obtain ⟨gone, state, holds, present, ignition, rate, gapRatio⟩ := bayReset_on (t := s.intake p) (b := b) on
      exact ⟨state, gone.units, gone.bound, gone.departure, gone.cutoffTime, gone.cutoff, gone.warned, holds, present,
        ignition, gone.config, rate, gapRatio, gone.quiet, gone.stops.of_intake,
        gone.fleet.trans (busLeft_intake_fleet s p b), gone.ports⟩

/-! ### The departure requests (R157, R158, R162) -/

theorem withBus_disabled {s : State} {p : PortId} {b : BayId} (act : State → Result) (state : (s.bay b).state = .disabled) :
    (s.intake p).withBus p b act = .next (answered s p .disabled .none) := by
  simp only [State.withBus, State.bay_intake, state]
  rfl

theorem withBus_empty {s : State} {p : PortId} {b : BayId} (act : State → Result) (state : (s.bay b).state = .empty) :
    (s.intake p).withBus p b act = .next (answered s p .noBus .none) := by
  simp only [State.withBus, State.bay_intake, state]
  rfl

theorem withBus_acts {s : State} {p : PortId} {b : BayId} (act : State → Result) (on : (s.bay b).state ≠ .disabled)
    (bus : (s.bay b).state ≠ .empty) : (s.intake p).withBus p b act = act (s.intake p) := by
  unfold State.withBus
  rw [State.bay_intake]
  split
  case h_1 off => exact absurd off on
  case h_2 empty => exact absurd empty bus
  all_goals rfl

/-- The bay that a departure request leaves stored. -/
def departing (s : State) (p : PortId) (b : BayId) (d : Time) : State := (s.intake p).modBay b (Bay.setDeparture d)

theorem execDepartSet_eq {s : State} {p : PortId} {body : List Byte} {b : BayId} {d : Time}
    (accepted : Accepts s p [.dispatch, .service]) (parsed : parseDepartSet body = some (b, d)) :
    exec (.departSet p body) s = (s.intake p).withBus p b fun u =>
      .next (((((u.modBay b (Bay.setDeparture d)).deadlineCompare b).admissionRun b).respond p .ok
        (.departure d (cutoffFor d (u.bay b).config.guardTime))).arbitrate) :=
  (exec_departSet p body s).trans (serve_parsed accepted parsed 0x44#8 _)

theorem execDepartClear_eq {s : State} {p : PortId} {body : List Byte} {b : BayId}
    (accepted : Accepts s p [.dispatch, .service]) (parsed : parseBay body = some b) :
    exec (.departClear p body) s = (s.intake p).withBus p b fun u =>
      if (u.bay b).departure.isNone then .next (u.respond p .ok .none)
      else .next ((((u.modBay b fun y => { y with departure := none, cutoffTime := none, warned := false }).admissionRun
        b).respond p .ok .none).arbitrate) :=
  (exec_departClear p body s).trans (serve_parsed accepted parsed 0x45#8 _)

theorem execDepartNow_eq {s : State} {p : PortId} {body : List Byte} {b : BayId}
    (accepted : Accepts s p [.dispatch, .service]) (parsed : parseBay body = some b) :
    exec (.departNow p body) s = (s.intake p).withBus p b fun u =>
      .next (((u.takeCutoff b .departNow).respond p .ok .none).arbitrate) :=
  (exec_departNow p body s).trans (serve_parsed accepted parsed 0x46#8 _)

/-- Settles O30: the refusals of the departure requests, then the cutoff by the bay's state. -/
theorem departNowCuts : Obligations.DepartNowCuts := by
  unfold Obligations.DepartNowCuts
  intro s p body b accepted parsed ok
  rw [execDepartNow_eq accepted parsed]
  have acts := fun on bus => withBus_acts (s := s) (p := p) (b := b) (fun u =>
    .next (((u.takeCutoff b .departNow).respond p .ok .none).arbitrate)) on bus
  refine ⟨withBus_disabled _, withBus_empty _, fun state => ?_, fun state => ?_, fun state => ?_⟩
  · have here : ((s.intake p).bay b).state = .cutoff := state
    rw [acts (by rw [state]; exact nofun) (by rw [state]; exact nofun), takeCutoff_idle _ (by rw [here]; simp)]
    rfl
  · have here : ((s.intake p).bay b).state = .switching := state
    rw [acts (by rw [state]; exact nofun) (by rw [state]; exact nofun), takeCutoff_switching _ here]
    exact congrArg (fun u : State => Host.Outcome.next (u.respond p .ok .none).arbitrate)
      (State.modBay_eq (s.intake p) b (pendCutoff_eq _ _))
  · rw [acts (by rintro off; simp [off] at state) (by rintro off; simp [off] at state)]
    exact ⟨_, rfl, takeCutoff_cutsOff _ (ok.clear (by rintro off; simp [off] at state)) state⟩

/-! ### DEPART_SET and DEPART_CLEAR (R157, R158) -/

theorem admissionRun_idle {s : State} {b : BayId} (state : (s.bay b).state ∉ [BayState.transferring, .done]) :
    s.admissionRun b = s := by
  have rests : (s.bay b).mayRun = false := by
    simp only [List.mem_cons, List.not_mem_nil, or_false, not_or] at state
    simp [Bay.mayRun, state]
  simp only [State.admissionRun, rests, Bool.not_false, Bool.true_or, if_true]

/-- An admission run changes no setting of the bay, no hold and no cutoff flag. -/
theorem admissionRun_keeps (s : State) (b : BayId) : let y := (s.admissionRun b).bay b
    y.config = (s.bay b).config ∧ y.holds = (s.bay b).holds ∧ y.departure = (s.bay b).departure ∧
      y.cutoffTime = (s.bay b).cutoffTime ∧ y.warned = (s.bay b).warned ∧ y.cutoff = (s.bay b).cutoff := by
  have standing := (Keeps.admissionRun (b := b) (Keeps.refl (s.bay b))).1
  have settings := settings_of_standing standing
  exact ⟨congrArg (·.config) settings, congrArg (fun x => x.2.1) standing, congrArg (·.departure) settings,
    congrArg (·.cutoffTime) settings, congrArg (·.warned) settings, congrArg (fun x => x.2.2) standing⟩

theorem setDeparture_eq (s : State) (p : PortId) (b : BayId) (d : Time) : departing s p b d =
    (s.intake p).modBay b (fun y =>
      { y with departure := some d, cutoffTime := some (d - (s.bay b).config.guardTime)
               warned := if y.departure = some d then y.warned else false }) :=
  State.modBay_eq _ b rfl

/-- The compare of a departure that has just been stored is due when C is not after the yard time. -/
theorem departing_due (s : State) (p : PortId) (b : BayId) (d : Time) :
    ((departing s p b d).bay b).deadlineCondition (departing s p b d).yardTime = true ↔
      d - (s.bay b).config.guardTime ≤ s.yardTime := by
  rw [deadlineCondition_iff, departing, State.bay_modBay_same]
  exact ⟨fun ⟨_, _, _, time, late⟩ => by cases time; exact late, fun late => ⟨_, _, rfl, rfl, late⟩⟩

/-- Settles O29: the stored departure, then the deadline compare and the admission run on it. -/
theorem departures : Obligations.Departures := by
  unfold Obligations.Departures
  refine ⟨fun s p body b d accepted parsed ok => ?_, fun s p body b accepted parsed => ?_⟩
  · rw [execDepartSet_eq accepted parsed]
    refine ⟨withBus_disabled _, withBus_empty _, fun on bus =>
      ⟨((departing s p b d).deadlineCompare b).admissionRun b, d - (s.bay b).config.guardTime, departing s p b d, rfl,
        setDeparture_eq s p b d, withBus_acts _ on bus,
        (((OnlyBay.refl b _).modBay _).deadlineCompare).admissionRun, ?_⟩⟩
    have due := departing_due s p b d
    have bay : (departing s p b d).bay b = (s.bay b).setDeparture d := State.bay_modBay_same _ _ _
    have stateOf : ((departing s p b d).bay b).state = (s.bay b).state := by rw [bay]; rfl
    obtain ⟨config, holds, departure, cutoffTime⟩ := deadlineCompare_settings (departing s p b d) b
    obtain ⟨config', holds', departure', cutoffTime', -, -⟩ := admissionRun_keeps ((departing s p b d).deadlineCompare b) b
    rw [bay] at config holds departure cutoffTime
    have early : s.yardTime < d - (s.bay b).config.guardTime →
        (departing s p b d).deadlineCompare b = departing s p b d := fun before =>
      deadlineCompare_early (Bool.eq_false_iff.mpr fun late => absurd (due.mp late) (Nat.not_le.mpr before))
    refine ⟨departure'.trans departure, cutoffTime'.trans cutoffTime, config'.trans config, holds'.trans holds,
      fun rests => ?_, fun before => ?_, fun late mode => ?_, fun late mode => ?_⟩
    · have idle := admissionRun_idle (s := departing s p b d) (b := b) (by rw [stateOf]; exact rests)
      exact ⟨idle, fun before => by rw [early before, idle]⟩
    · obtain ⟨-, -, -, -, warned, cutoff⟩ := admissionRun_keeps (departing s p b d) b
      rw [early before]
      exact ⟨rfl, by rw [warned, bay]; rfl, by rw [cutoff, bay]; rfl⟩
    · have mode' : ((departing s p b d).bay b).config.mode = .stop := by rw [bay]; exact mode
      rw [deadlineCompare_stop (due.mpr late) mode']
      refine ⟨fun acts => ?_, fun state => ?_, fun state => ?_⟩
      · simp only [List.mem_cons, List.not_mem_nil, or_false, not_or] at acts
        have cuts := takeCutoff_cutsOff (s := departing s p b d) (b := b) .deadline
          (by rw [bay]; exact ok.clear acts.2) (by
            rw [stateOf]
            revert on bus acts
            cases (s.bay b).state <;> simp)
        rwa [admissionRun_idle (by rw [cuts.bay]; simp)]
      · rw [takeCutoff_switching _ (stateOf.trans state),
          admissionRun_idle (by rw [State.bay_modBay_same]; show ((departing s p b d).bay b).state ∉ _; simp [stateOf, state]),
          State.bay_modBay_same, bay, pendCutoff_eq]
        exact ⟨state, ok.clear (by rw [state]; exact nofun), rfl⟩
      · rw [takeCutoff_idle _ (by simp [stateOf, state]), admissionRun_idle (by simp [stateOf, state])]
        exact ⟨rfl, by rw [bay]; rfl⟩
    · have mode' : ((departing s p b d).bay b).config.mode = .warn := by rw [bay]; exact mode
      cases before : ((departing s p b d).bay b).warned with
      | true =>
        obtain ⟨-, -, -, -, warned, cutoff⟩ := admissionRun_keeps (departing s p b d) b
        rw [deadlineCompare_warned (due.mpr late) mode' (.inl before)]
        exact ⟨warned.trans before, by rw [cutoff, bay]; rfl, fun _ => rfl, nofun⟩
      | false =>
        have warns := deadlineCompare_warns (due.mpr late) mode' before (by rw [stateOf]; exact on) (by rw [stateOf]; exact bus)
        obtain ⟨-, -, -, -, warned, cutoff⟩ := admissionRun_keeps ((departing s p b d).deadlineCompare b) b
        refine ⟨?_, ?_, nofun, fun _ => by rw [warns]⟩
        · rw [warned, warns, State.bay_post, State.bay_modBay_same]
        · rw [cutoff, warns, State.bay_post, State.bay_modBay_same, bay]
          rfl
  · rw [execDepartClear_eq accepted parsed]
    refine ⟨withBus_disabled _, withBus_empty _, fun on bus => ?_⟩
    have acts := withBus_acts (s := s) (p := p) (b := b) (fun u =>
      if (u.bay b).departure.isNone then .next (u.respond p .ok .none)
      else .next ((((u.modBay b fun y => { y with departure := none, cutoffTime := none, warned := false }).admissionRun
        b).respond p .ok .none).arbitrate)) on bus
    rw [acts]
    refine ⟨fun none => if_pos (Option.isNone_iff_eq_none.mpr none), fun some =>
      ⟨((s.intake p).modBay b fun y => { y with departure := none, cutoffTime := none, warned := false }).admissionRun b, _,
        rfl, if_neg (mt Option.isNone_iff_eq_none.mp some), ((OnlyBay.refl b _).modBay _).admissionRun, rfl, ?_⟩⟩
    obtain ⟨config, holds, departure, cutoffTime, warned, cutoff⟩ :=
      admissionRun_keeps ((s.intake p).modBay b fun y => { y with departure := none, cutoffTime := none, warned := false }) b
    rw [State.bay_modBay_same] at config holds departure cutoffTime warned cutoff
    exact ⟨departure, cutoffTime, warned, config, holds, cutoff, fun rests =>
      admissionRun_idle (by rw [State.bay_modBay_same]; exact rests)⟩

end Sys2Proof

end

/-! HOLD and UNHOLD (O31), CUTOFF_CLEAR (O32), PRESENT_RISE and DETACH (O34), IGNITION_RISE and IGNITION_FALL (O35). -/

section

namespace Sys2Proof

open Machine

/-! ### HOLD and UNHOLD (R168, R169) -/

theorem execHold_eq {s : State} {p : PortId} {body : List Byte} {b : BayId} (accepted : Accepts s p namedRoles)
    (parsed : parseBay body = some b) : exec (.hold p body) s =
      if (s.bay b).state = .disabled then .next (answered s p .disabled .none)
      else .next (((s.intake p).modBay b (Bay.addHold p)).respond p .ok .none) :=
  (exec_hold p body s).trans (serve_parsed accepted parsed 0x47#8 _)

theorem execUnholdOwn_eq {s : State} {p : PortId} {body : List Byte} {b : BayId} (accepted : Accepts s p namedRoles)
    (parsed : parseBayWith 0 body = some b) :
    exec (.unholdOwn p body) s = .next ((State.dropHold p (s.intake p) b).respond p .ok .none).arbitrate :=
  (exec_unholdOwn p body s).trans (serve_parsed accepted parsed 0x48#8 _)

theorem execUnholdRule_eq {s : State} {p : PortId} {body : List Byte} {b : BayId} (accepted : Accepts s p [.service])
    (parsed : parseBayWith 1 body = some b) :
    exec (.unholdRule p body) s = .next (((s.intake p).dropRule b).respond p .ok .none).arbitrate :=
  (exec_unholdRule p body s).trans (serve_parsed accepted parsed 0x48#8 _)

/-- What a bay becomes whose hold set is `rest` from now on: a set left empty acts (R169). -/
def leftHolds (t : State) (b : BayId) (rest : HoldSet) : State :=
  let emptied := t.modBay b fun y => { y with holds := rest }
  if (emptied.bay b).held then emptied else emptied.holdEmptied b

theorem dropHold_leftHolds {t : State} {p : PortId} {b : BayId} (member : (t.bay b).holds.put p false ≠ (t.bay b).holds) :
    State.dropHold p t b = leftHolds t b ((t.bay b).holds.put p false) := by
  unfold State.dropHold leftHolds
  rw [if_pos ((holdSet_has_iff _ p).mpr member)]
  exact congrArg (fun u : State => if (u.bay b).held then u else u.holdEmptied b) (State.modBay_eq t b rfl)

theorem dropRule_leftHolds {t : State} {b : BayId} (member : { (t.bay b).holds with rule := false } ≠ (t.bay b).holds) :
    t.dropRule b = leftHolds t b { (t.bay b).holds with rule := false } := by
  have held : (t.bay b).holds.rule = true := by
    by_contra absent
    refine member ?_
    rw [← Bool.eq_false_iff.mpr absent]
  unfold State.dropRule leftHolds
  rw [if_pos held]
  exact congrArg (fun u : State => if (u.bay b).held then u else u.holdEmptied b) (State.modBay_eq t b rfl)

theorem leftHolds_held {t : State} {b : BayId} {rest : HoldSet}
    (some : rest ≠ { sp0 := false, sp1 := false, sp2 := false, rule := false }) :
    leftHolds t b rest = t.modBay b fun y => { y with holds := rest } :=
  if_pos ((held_iff_holds _).mpr (by rw [State.bay_modBay_same]; exact some))

theorem leftHolds_emptied {t : State} {b : BayId} {rest : HoldSet}
    (none : rest = { sp0 := false, sp1 := false, sp2 := false, rule := false }) :
    ∃ u emptied : State, emptied = t.modBay b (fun y => { y with holds := rest }) ∧ leftHolds t b rest = u ∧
      OnlyBay b t u ∧ (u.bay b).holds = rest ∧ (u.bay b).config = (t.bay b).config ∧
      (u.bay b).departure = (t.bay b).departure ∧ (u.bay b).cutoff = (t.bay b).cutoff ∧ HoldEmptied emptied u b ∧
      ((∀ q ∈ (t.bay b).passes, q.inFlight = false) → (t.bay b).state ∉ [BayState.transferring, .done] → u = emptied) := by
  obtain ⟨emptied, eq⟩ : ∃ emptied, emptied = t.modBay b fun y => { y with holds := rest } := ⟨_, rfl⟩
  have bay : emptied.bay b = { t.bay b with holds := rest } := by rw [eq, State.bay_modBay_same]
  have free : (emptied.bay b).held = false := by
    rw [← Bool.not_eq_true, held_iff_holds, bay]
    exact not_not.mpr none
  have acts := holdEmptied free
  have standing := (Keeps.holdEmptied (b := b) (Keeps.refl (emptied.bay b))).1
  have settings := settings_of_standing standing
  rw [bay] at standing settings
  have only : OnlyBay b t emptied := eq ▸ (OnlyBay.refl b t).modBay _
  refine ⟨emptied.holdEmptied b, emptied, eq, ?_, only.holdEmptied, congrArg (fun x => x.2.1) standing,
    congrArg (·.config) settings, congrArg (·.departure) settings, congrArg (fun x => x.2.2) standing, acts,
    fun idle rests => ?_⟩
  · unfold leftHolds
    rw [← eq]
    exact if_neg (by rw [free]; exact nofun)
  · rw [acts.1 (by rw [bay]; exact idle)]
    exact admissionRun_idle (by rw [bay]; exact rests)

theorem unhold_absent_rule {t : State} {b : BayId} (absent : (t.bay b).holds.rule = false) : t.dropRule b = t :=
  if_neg (by rw [absent]; exact nofun)

/-- Settles O31: HOLD writes the set; both forms of UNHOLD leave a set, which acts when it is empty. -/
theorem holdAndUnhold : Obligations.HoldAndUnhold := by
  unfold Obligations.HoldAndUnhold
  intro s p body b
  refine ⟨fun accepted parsed => ?_, fun rest i changes form => ?_, fun accepted parsed absent => ?_,
    fun accepted parsed absent => ?_⟩
  · rw [execHold_eq accepted parsed]
    refine ⟨fun off => if_pos off, fun on => ⟨fun held => ?_, fun free => ?_⟩⟩
    · rw [if_neg on]
      refine congrArg (fun u : State => Host.Outcome.next (u.respond p .ok .none)) (State.modBay_eq _ b ?_)
      rw [State.bay_intake, Bay.addHold, held]
      rfl
    · rw [if_neg on]
      refine congrArg (fun u : State => Host.Outcome.next (u.respond p .ok .none)) (State.modBay_eq _ b ?_)
      rw [State.bay_intake, Bay.addHold, free]
      rfl
  · have run : exec i s = .next ((leftHolds (s.intake p) b rest).respond p .ok .none).arbitrate := by
      rcases form with ⟨rfl, accepted, parsed, left⟩ | ⟨rfl, accepted, parsed, left⟩
      · subst left
        rw [execUnholdOwn_eq accepted parsed, dropHold_leftHolds (by rw [State.bay_intake]; exact changes), State.bay_intake]
      · subst left
        rw [execUnholdRule_eq accepted parsed, dropRule_leftHolds (by rw [State.bay_intake]; exact changes),
          State.bay_intake]
    rw [run]
    refine ⟨fun some => by rw [leftHolds_held some], fun none => ?_⟩
    obtain ⟨u, emptied, eq, left, facts⟩ := leftHolds_emptied (t := s.intake p) (b := b) none
    obtain ⟨only, holds, config, departure, cutoff, acts, idle⟩ := facts
    exact ⟨u, emptied, eq, by rw [left], only, holds, config, departure, cutoff, acts, idle⟩
  · have not_member : ¬(s.bay b).holds.has p = true := fun has => (holdSet_has_iff _ p).mp has absent.symm
    rw [execUnholdOwn_eq accepted parsed, State.dropHold, if_neg (by rw [State.bay_intake]; exact not_member)]
    rfl
  · rw [execUnholdRule_eq accepted parsed, unhold_absent_rule (by rw [State.bay_intake]; exact absent)]
    rfl

/-! ### PRESENT_RISE and DETACH (R85, R89) -/

theorem beginSweep_eq (y : Bay) : y.beginSweep = { y.enterSweep with engine := y.beginSweep.engine } := by
  unfold Bay.beginSweep Bay.sweepTo
  rw [Bay.offer_only]
  rfl

/-- The first IDENTIFY of a sweep: sent on a free line, and waiting otherwise. -/
theorem beginSweep_engine (y : Bay) : (LineFree y → Sends y.beginSweep (.identify 1) .sweep) ∧
    (¬LineFree y → y.beginSweep.engine = { y.engine with offered := some (.identify 1, .sweep) }) :=
  ⟨fun free => sends_offer (y := { y.enterSweep with sweepAt := some 1 }) free _ _,
    fun busy => offer_waits (y := { y.enterSweep with sweepAt := some 1 }) busy _ _⟩

/-- The state of a bay whose PRESENT rise has been taken and posted (R85). -/
def attached (s : State) (b : BayId) : State :=
  (s.modBay b fun y => { y with presentFilter := { value := true, run := 0, accepted := false } }).post .bayAttached (.bay b)

theorem bay_attached (s : State) (b : BayId) : (attached s b).bay b =
    { s.bay b with presentFilter := { value := true, run := 0, accepted := false } } := by
  rw [attached, State.bay_post, State.bay_modBay_same]

theorem port_attached (s : State) (b : BayId) (p : PortId) :
    (attached s b).port p = (s.post .bayAttached (.bay b)).port p := by
  rw [attached, port_post, port_post]
  rfl

/-- The sweep that starts at a bay whose rise has been taken. -/
theorem sweep_attached (s : State) (b : BayId) : let u := (attached s b).modBay b Bay.beginSweep
    u.bay b = { ({ s.bay b with presentFilter := { value := true, run := 0, accepted := false } } : Bay).enterSweep with
      engine := (u.bay b).engine } ∧
    (LineFree (s.bay b) → Sends (u.bay b) (.identify 1) .sweep) ∧
    (¬LineFree (s.bay b) → (u.bay b).engine = { (s.bay b).engine with offered := some (.identify 1, .sweep) }) := by
  obtain ⟨sends, waits⟩ :=
    beginSweep_engine { s.bay b with presentFilter := { value := true, run := 0, accepted := false } }
  have bay : ((attached s b).modBay b Bay.beginSweep).bay b =
      ({ s.bay b with presentFilter := { value := true, run := 0, accepted := false } } : Bay).beginSweep := by
    rw [State.bay_modBay_same, bay_attached]
  dsimp only
  rw [bay]
  exact ⟨beginSweep_eq _, sends, waits⟩

theorem execPresentRise_eq {s : State} {b : BayId} (state : (s.bay b).state = .empty) : exec (.presentRise b) s =
    if (s.bay b).ignitionFilter.value = true ∧ (s.bay b).config.ignitionCutoff = true then
      .next ((attached s b).cutOffBay b .ignition).arbitrate
    else .next ((attached s b).modBay b Bay.beginSweep).arbitrate := by
  have test : (((attached s b).bay b).ignitionFilter.value && ((attached s b).bay b).config.ignitionCutoff) =
      decide ((s.bay b).ignitionFilter.value = true ∧ (s.bay b).config.ignitionCutoff = true) := by
    rw [bay_attached]
    simp
  rw [exec_presentRise, execPresentRise, if_pos state]
  show (if (((attached s b).bay b).ignitionFilter.value && ((attached s b).bay b).config.ignitionCutoff) = true then _
    else _) = _
  rw [test]
  simp only [decide_eq_true_eq]
  rfl

/-- A bay after the detach's own steps (R89). -/
def detached (s : State) (b : BayId) : State := (s.leaveBus b).modBay b fun y =>
  { y with presentFilter := Filter.taken false, holds := { y.holds with rule := false }, state := .empty }

theorem detached_bay (s : State) (b : BayId) : let u := detached s b
    BusGone b s u ∧ (u.bay b).state = .empty ∧ (u.bay b).presentFilter = { value := false, run := 0, accepted := false } ∧
      (u.bay b).holds = { (s.bay b).holds with rule := false } ∧ (u.bay b).rate = (s.bay b).rate ∧
      (u.bay b).gapRatio = (s.bay b).gapRatio := by
  obtain ⟨holds, rate, gapRatio⟩ := leaveBus_keeps s b
  refine ⟨busGone_leaveBus s b ⟨fun _ => ⟨rfl, rfl, rfl, rfl⟩, fun _ => ⟨rfl, rfl, rfl, rfl, rfl, rfl⟩⟩, ?_⟩
  rw [detached, State.bay_modBay_same, holds]
  exact ⟨rfl, rfl, rfl, rate, gapRatio⟩

theorem execDetach_eq {s : State} {b : BayId} (on : (s.bay b).state ≠ .disabled) (bus : (s.bay b).state ≠ .empty) :
    exec (.detach b) s = .next ((detached s b).post .bayDetached (.bay b)).arbitrate := by
  rw [exec_detach, execDetach, if_neg (by simp [on, bus])]
  rfl

/-- PRESENT_RISE in EMPTY: the sweep begins, or an ignition cutoff acts in its place. -/
theorem presentRise_empty {s : State} {b : BayId} (state : (s.bay b).state = .empty) (flag : (s.bay b).cutoff = none) :
    ∃ u : State, exec (.presentRise b) s = .next u.arbitrate ∧ OnlyBay b s u ∧
      (u.bay b).presentFilter = { value := true, run := 0, accepted := false } ∧
      (u.bay b).departure = (s.bay b).departure ∧ (u.bay b).holds = (s.bay b).holds ∧
      ((s.bay b).ignitionFilter.value = true ∧ (s.bay b).config.ignitionCutoff = true →
        CutsOff b .ignition (attached s b) u) ∧
      (¬((s.bay b).ignitionFilter.value = true ∧ (s.bay b).config.ignitionCutoff = true) →
        u = (attached s b).modBay b Bay.beginSweep) := by
  rw [execPresentRise_eq state]
  have only : OnlyBay b s (attached s b) := ((OnlyBay.refl b s).modBay _).post .bayAttached (.bay b)
  by_cases ignition : (s.bay b).ignitionFilter.value = true ∧ (s.bay b).config.ignitionCutoff = true
  · have cuts := cutsOff (b := b) (s := attached s b) .ignition (by rw [bay_attached]; exact flag)
    have bay := cuts.bay
    rw [bay_attached] at bay
    refine ⟨_, if_pos ignition, only.cutOffBay .ignition, ?_, ?_, ?_, fun _ => cuts, fun other => absurd ignition other⟩
    all_goals rw [bay]
  · obtain ⟨bay, -, -⟩ := sweep_attached s b
    refine ⟨_, if_neg ignition, only.modBay _, ?_, ?_, ?_, fun on => absurd on ignition, fun _ => rfl⟩
    all_goals rw [bay]; rfl

/-- Settles O34: the sweep that a rise begins, or the cutoff in its place, and the bay's leaving of its bus. -/
theorem attachAndDetach : Obligations.AttachAndDetach := by
  unfold Obligations.AttachAndDetach
  intro s b
  refine ⟨fun other => ?_, fun state flag => ?_, fun idle => ?_, fun on bus => ?_⟩
  · rw [exec_presentRise, execPresentRise, if_neg other]
  · obtain ⟨u, run, only, present, departure, holds, cuts, sweeps⟩ := presentRise_empty state flag
    refine ⟨u, run, only, present, departure, holds, cuts, fun free => ?_⟩
    obtain ⟨bay, sends, waits⟩ := sweep_attached s b
    have begun := sweeps free
    rw [← begun] at bay sends waits
    have config : (u.bay b).config = (s.bay b).config := by rw [bay]; rfl
    refine ⟨by rw [bay]; rfl, by rw [bay]; rfl, by rw [bay]; rfl, by rw [bay]; rfl, fun p => ?_, fun free => ?_,
      fun busy => waits fun free => busy free.1⟩
    · rw [begun]
      exact port_attached s b p
    · obtain ⟨sending, tr, transaction, request, activity, retries, polls, -, speed⟩ := sends free
      exact ⟨sending, tr, transaction, request, activity, retries, polls, speed.trans (congrArg BayConfig.speed config)⟩
  · rw [exec_detach, execDetach, if_pos (by rcases idle with idle | idle <;> simp [idle])]
  · obtain ⟨gone, state, present, holds, rate, gapRatio⟩ := detached_bay s b
    obtain ⟨u, eq⟩ : ∃ u, u = (detached s b).post .bayDetached (.bay b) := ⟨_, rfl⟩
    have bay : u.bay b = (detached s b).bay b := eq ▸ State.bay_post _ _ _ b
    have fleet : u.fleet = (detached s b).fleet := eq ▸ State.post_fleet _ _ _
    have store : u.store = (detached s b).store := eq ▸ State.post_store _ _ _
    have only : OnlyBay b s u := eq ▸ (((OnlyBay.refl b s).leaveBus).modBay _).post .bayDetached (.bay b)
    have port : ∀ p, u.port p = ((busLeft s b).post .bayDetached (.bay b)).port p := fun p => by
      rw [eq, port_post, port_post, gone.ports p]
    refine ⟨u, eq ▸ execDetach_eq on bus, only, ?_⟩
    rw [State.bound, fleet, bay]
    exact ⟨state, gone.units, gone.bound, gone.departure, gone.cutoffTime, gone.cutoff, gone.warned, present, holds,
      gone.config, rate, gapRatio, gone.quiet,
      ⟨bay ▸ gone.stops.engine, bay ▸ gone.stops.reader, store ▸ gone.stops.granted⟩, gone.fleet, port⟩

/-! ### IGNITION_RISE and IGNITION_FALL (R87) -/

theorem execIgnitionRise_idle {s : State} {b : BayId} (set : (s.bay b).ignitionFilter.value = true) :
    exec (.ignitionRise b) s = .next s := by
  rw [exec_ignitionRise, execIgnitionRise]
  exact if_pos (by simp [set])

theorem execIgnitionFall_idle {s : State} {b : BayId} (clear : (s.bay b).ignitionFilter.value = false) :
    exec (.ignitionFall b) s = .next s := by
  rw [exec_ignitionFall, execIgnitionFall]
  exact if_pos (by simp [clear])

theorem execIgnitionRise_eq {s : State} {b : BayId} (on : (s.bay b).state ≠ .disabled)
    (clear : (s.bay b).ignitionFilter.value = false) : exec (.ignitionRise b) s =
      let t := s.modBay b fun z => { z with ignitionFilter := Filter.taken true }
      if (s.bay b).presentFilter.value then
        let u := t.post .ignitionChange (.bay b)
        if (s.bay b).config.ignitionCutoff then .next (u.cutOffBay b .ignition).arbitrate else .next u.arbitrate
      else .next t.arbitrate := by
  rw [exec_ignitionRise, execIgnitionRise]
  exact if_neg (by simp [on, clear])

theorem execIgnitionFall_eq {s : State} {b : BayId} (on : (s.bay b).state ≠ .disabled)
    (set : (s.bay b).ignitionFilter.value = true) : exec (.ignitionFall b) s =
      let t := s.modBay b fun z => { z with ignitionFilter := Filter.taken false }
      if (s.bay b).presentFilter.value then .next (t.post .ignitionChange (.bay b)).arbitrate
      else .next t.arbitrate := by
  rw [exec_ignitionFall, execIgnitionFall]
  exact if_neg (by simp [on, set])

theorem cutOffBay_flagged {s : State} {b : BayId} (c : CutoffCause) (flag : (s.bay b).cutoff ≠ none) :
    s.cutOffBay b c = s := if_pos (Option.isSome_iff_ne_none.mpr flag)

/-- Settles O35, by the filtered values and the setting. -/
theorem ignitionChanges : Obligations.IgnitionChanges := by
  unfold Obligations.IgnitionChanges
  intro s b on turned
  have flag : ∀ v, (((turned v).post .ignitionChange (.bay b)).bay b).cutoff = (s.bay b).cutoff := fun v => by
    rw [State.bay_post, State.bay_modBay_same]
  refine ⟨execIgnitionRise_idle, execIgnitionFall_idle, fun set => ?_, fun clear => ?_⟩
  · rw [execIgnitionFall_eq on set]
    dsimp only
    exact ⟨fun absent => if_neg (by rw [absent]; exact nofun), fun present => if_pos present⟩
  · rw [execIgnitionRise_eq on clear]
    dsimp only
    refine ⟨fun absent => if_neg (by rw [absent]; exact nofun), fun present => ⟨fun off => ?_, fun cuts free => ?_⟩⟩
    · rw [if_pos present]
      by_cases cuts : (s.bay b).config.ignitionCutoff = true
      · have set := off.resolve_left (by rw [cuts]; exact nofun)
        have kept := cutOffBay_flagged (s := (turned true).post .ignitionChange (.bay b)) (b := b) .ignition
          (by rw [flag]; exact set)
        rw [if_pos cuts]
        exact congrArg (fun u : State => Host.Outcome.next u.arbitrate) kept
      · exact if_neg cuts
    · rw [if_pos present, if_pos cuts]
      exact ⟨_, rfl, (((OnlyBay.refl b s).modBay _).post .ignitionChange (.bay b)).cutOffBay .ignition,
        cutsOff .ignition ((flag true).trans free)⟩

end Sys2Proof

end

/-! CUTOFF_CLEAR (O32) and YARD_TIME_TICK (O33). -/

section

namespace Sys2Proof

open Machine

/-! ### CUTOFF_CLEAR (R167) -/

/-- The bay whose cutoff has been cleared, with a fresh job begun and no IDENTIFY offered yet. -/
def cleared (s : State) (b : BayId) : State :=
  (s.modBound b fun r => { r with atBay := none }).modBay b fun y => { y with
    state := .enumerating, cutoff := none, units := [], passes := [], groups := [], switching := none
    sweepAt := some 1, planning := none, replanPending := false }

theorem bay_cleared (s : State) (b : BayId) : (cleared s b).bay b = { s.bay b with
    state := .enumerating, cutoff := none, units := [], passes := [], groups := [], switching := none
    sweepAt := some 1, planning := none, replanPending := false } := by
  rw [cleared, State.bay_modBay_same]
  rfl

theorem bound_cleared (s : State) (b : BayId) : (cleared s b).bound b = none := bound_unbind s b

theorem clearCutoff_present {s : State} {b : BayId} (present : (s.bay b).presentFilter.value = true) :
    s.clearCutoff b = if (((cleared s b).deadlineCompare b).bay b).state = .enumerating then
      ((cleared s b).deadlineCompare b).modBay b fun y => y.sweepTo 1 else (cleared s b).deadlineCompare b := by
  have same : ((s.unbind b).modBay b fun y => { y with cutoff := none, units := [] }).modBay b Bay.enterSweep =
      cleared s b := State.modBay_modBay _ b _ _
  have bay : ((s.unbind b).modBay b fun y => { y with cutoff := none, units := [] }).bay b =
      { s.bay b with cutoff := none, units := [] } := by rw [State.bay_modBay_same, State.bay_unbind]
  unfold State.clearCutoff
  dsimp only
  rw [bay, same]
  exact if_pos present

theorem execCutoffClear_eq {s : State} {p : PortId} {body : List Byte} {b : BayId}
    (accepted : Accepts s p [.dispatch, .service]) (parsed : parseBay body = some b) :
    exec (.cutoffClear p body) s = if (s.bay b).state = .disabled then .next (answered s p .disabled .none)
      else if (s.bay b).cutoff.isNone then .next (answered s p .ok .none)
      else if (s.bay b).lineBusy then .next (answered s p .notStopped .none)
      else if (s.bay b).ignitionBars then .next (answered s p .ignitionOn .none)
      else .next (((s.intake p).clearCutoff b).respond p .ok .none).arbitrate :=
  (exec_cutoffClear p body s).trans (serve_parsed accepted parsed 0x49#8 _)

theorem ignitionBars_iff (y : Bay) : y.ignitionBars = true ↔
    y.cutoff = some .ignition ∧ y.ignitionFilter.value = true ∧ y.config.ignitionCutoff = true := by
  simp [Bay.ignitionBars, and_assoc]

/-- The end of a job leaves the table alone when no record is bound to the bay. -/
theorem jobEnded_unbound {t : State} {b : BayId} (unbound : t.bound b = none) : (jobEnded t b).fleet = t.fleet := by
  rw [(jobEnded_effect t b).1]
  refine (List.map_congr_left fun r mem => ?_).trans (List.map_id t.fleet)
  exact if_neg (by simpa using (bound_none_iff t b).mp unbound r mem)

/-- A fresh job that is cut off before its first IDENTIFY (R160). -/
theorem cleared_cutsOff (s : State) (b : BayId) : CutsOff b .deadline (cleared s b) ((cleared s b).cutOffBay b .deadline) :=
  cutsOff .deadline (by rw [bay_cleared])

/-- A sweep's first IDENTIFY changes the engine, and the address asked. -/
theorem sweepTo_eq (y : Bay) (a : Nat) : y.sweepTo a = { y with sweepAt := some a, engine := (y.sweepTo a).engine } := by
  unfold Bay.sweepTo
  rw [Bay.offer_only]

/-- The condition of a bay's fresh job is that of the bay before. -/
theorem cleared_due (s : State) (b : BayId) : ((cleared s b).bay b).deadlineCondition (cleared s b).yardTime =
    (s.bay b).deadlineCondition s.yardTime := by
  rw [bay_cleared]
  rfl

/-- What the compare leaves of the fresh job of a cleared bay when no cutoff follows (R161). -/
theorem restarted_cleared (s : State) (b : BayId)
    (calm : (s.bay b).config.mode = .warn ∨ (s.bay b).deadlineCondition s.yardTime = false) :
    let v := (cleared s b).deadlineCompare b
    (v.fleet = (cleared s b).fleet ∧ v.bay b = { (cleared s b).bay b with warned := (v.bay b).warned }) ∧
    ((s.bay b).deadlineCondition s.yardTime = false ∨ (s.bay b).warned = true →
      v.ports = s.ports ∧ (v.bay b).warned = (s.bay b).warned) ∧
    ((s.bay b).deadlineCondition s.yardTime = true → (s.bay b).warned = false →
      (∀ q : PortId, v.port q = (s.post .deadlineWarn (.bay b)).port q) ∧ (v.bay b).warned = true) := by
  have due := cleared_due s b
  have bay := bay_cleared s b
  have stays : (cleared s b).deadlineCompare b = cleared s b →
      (s.bay b).deadlineCondition s.yardTime = false ∨ (s.bay b).warned = true →
      let v := (cleared s b).deadlineCompare b
      (v.fleet = (cleared s b).fleet ∧ v.bay b = { (cleared s b).bay b with warned := (v.bay b).warned }) ∧
      ((s.bay b).deadlineCondition s.yardTime = false ∨ (s.bay b).warned = true →
        v.ports = s.ports ∧ (v.bay b).warned = (s.bay b).warned) ∧
      ((s.bay b).deadlineCondition s.yardTime = true → (s.bay b).warned = false →
        (∀ q : PortId, v.port q = (s.post .deadlineWarn (.bay b)).port q) ∧ (v.bay b).warned = true) := by
    intro same quiet
    dsimp only
    rw [same]
    refine ⟨⟨rfl, rfl⟩, fun _ => ⟨rfl, by rw [bay]⟩, fun late fresh => ?_⟩
    rcases quiet with early | warned
    · rw [late] at early; cases early
    · rw [fresh] at warned; cases warned
  by_cases late : (s.bay b).deadlineCondition s.yardTime = true
  case neg =>
    have early := Bool.eq_false_iff.mpr late
    exact stays (deadlineCompare_early (due.trans early)) (.inl early)
  have mode : (s.bay b).config.mode = .warn := calm.resolve_right (by rw [late]; exact nofun)
  have mode' : ((cleared s b).bay b).config.mode = .warn := by rw [bay]; exact mode
  cases warned : (s.bay b).warned with
  | true => exact warned ▸ stays (deadlineCompare_warned (due.trans late) mode' (.inl (by rw [bay]; exact warned))) (.inr warned)
  | false =>
    have warns := deadlineCompare_warns (due.trans late) mode' (by rw [bay]; exact warned) (by rw [bay]; exact nofun)
      (by rw [bay]; exact nofun)
    dsimp only
    rw [warns]
    refine ⟨⟨rfl, by rw [State.bay_post, State.bay_modBay_same]⟩, fun quiet => ?_, fun _ _ => ⟨fun q => ?_, ?_⟩⟩
    · rcases quiet with early | set
      · rw [late] at early; cases early
      · cases set
    · rw [port_post, port_post]
      rfl
    · rw [State.bay_post, State.bay_modBay_same]

/-- A cleared bay whose deadline condition does not cut it off starts its sweep. -/
theorem clearCutoff_sweeps {s : State} {b : BayId} (present : (s.bay b).presentFilter.value = true)
    (calm : (s.bay b).config.mode = .warn ∨ (s.bay b).deadlineCondition s.yardTime = false) :
    s.clearCutoff b = ((cleared s b).deadlineCompare b).modBay b fun y => y.sweepTo 1 := by
  obtain ⟨⟨-, bay⟩, -, -⟩ := restarted_cleared s b calm
  rw [clearCutoff_present present]
  refine if_pos ?_
  rw [bay, bay_cleared]

/-- A cleared bay whose deadline condition holds in STOP mode is cut off again (R160). -/
theorem clearCutoff_cuts {s : State} {b : BayId} (present : (s.bay b).presentFilter.value = true)
    (mode : (s.bay b).config.mode = .stop) (late : (s.bay b).deadlineCondition s.yardTime = true) :
    s.clearCutoff b = (cleared s b).cutOffBay b .deadline := by
  have cuts := cleared_cutsOff s b
  have compare : (cleared s b).deadlineCompare b = (cleared s b).cutOffBay b .deadline := by
    rw [deadlineCompare_stop ((cleared_due s b).trans late) (by rw [bay_cleared]; exact mode),
      takeCutoff_acts _ (by rw [bay_cleared]; simp)]
  rw [clearCutoff_present present, compare]
  exact if_neg (by rw [cuts.bay]; exact nofun)

theorem clearCutoff_only (s : State) (b : BayId) : OnlyBay b s (s.clearCutoff b) := (OnlyBay.refl b s).clearCutoff

/-- What a cleared bay is, whether or not it is cut off again. -/
theorem clearCutoff_common {s : State} {b : BayId} (present : (s.bay b).presentFilter.value = true) :
    let u := s.clearCutoff b
    u.bound b = none ∧ (u.bay b).units = [] ∧ (u.bay b).departure = (s.bay b).departure ∧
      (u.bay b).cutoffTime = (s.bay b).cutoffTime ∧ (u.bay b).holds = (s.bay b).holds ∧
      (u.bay b).rate = (s.bay b).rate ∧ (u.bay b).config = (s.bay b).config := by
  have bound := bound_cleared s b
  by_cases stops : (s.bay b).config.mode = .stop ∧ (s.bay b).deadlineCondition s.yardTime = true
  · have cuts := cleared_cutsOff s b
    have bay := cuts.bay
    rw [bay_cleared] at bay
    dsimp only
    rw [clearCutoff_cuts present stops.1 stops.2]
    refine ⟨?_, by rw [bay]; rfl, by rw [bay], by rw [bay], by rw [bay], by rw [bay], by rw [bay]⟩
    rw [State.bound, cuts.fleet, jobEnded_unbound bound]
    exact bound
  · have calm : (s.bay b).config.mode = .warn ∨ (s.bay b).deadlineCondition s.yardTime = false := by
      cases mode : (s.bay b).config.mode with
      | warn => exact .inl rfl
      | stop => exact .inr (Bool.eq_false_iff.mpr fun late => stops ⟨mode, late⟩)
    obtain ⟨⟨fleet, bay⟩, -, -⟩ := restarted_cleared s b calm
    rw [bay_cleared] at bay
    dsimp only
    rw [clearCutoff_sweeps present calm, State.bay_modBay_same, sweepTo_eq, bay]
    refine ⟨?_, rfl, rfl, rfl, rfl, rfl, rfl⟩
    rw [bound_modBay, State.bound, fleet]
    exact bound

/-- The sweep that a cleared bay starts. -/
theorem clearCutoff_restarts {s : State} {b : BayId} (present : (s.bay b).presentFilter.value = true)
    (calm : (s.bay b).config.mode = .warn ∨ (s.bay b).deadlineCondition s.yardTime = false) :
    let u := s.clearCutoff b
    ((u.bay b).state = .enumerating ∧ (u.bay b).cutoff = none ∧ (u.bay b).sweepAt = some 1 ∧ (u.bay b).passes = [] ∧
      (u.bay b).switching = none ∧ u.fleet = (cleared s b).fleet) ∧
    (LineFree (s.bay b) → Sends (u.bay b) (.identify 1) .sweep ∧ (u.bay b).engine.offered = none) ∧
    (¬LineFree (s.bay b) → (u.bay b).engine = { (s.bay b).engine with offered := some (.identify 1, .sweep) }) ∧
    ((s.bay b).deadlineCondition s.yardTime = false ∨ (s.bay b).warned = true →
      u.ports = s.ports ∧ (u.bay b).warned = (s.bay b).warned) ∧
    ((s.bay b).deadlineCondition s.yardTime = true → (s.bay b).warned = false →
      (∀ q : PortId, u.port q = (s.post .deadlineWarn (.bay b)).port q) ∧ (u.bay b).warned = true) := by
  obtain ⟨⟨fleet, bay⟩, quiet, warns⟩ := restarted_cleared s b calm
  rw [bay_cleared] at bay
  dsimp only
  rw [clearCutoff_sweeps present calm]
  generalize (cleared s b).deadlineCompare b = v at *
  have after : (v.modBay b fun y => y.sweepTo 1).bay b = (v.bay b).sweepTo 1 := State.bay_modBay_same _ _ _
  have engine : (v.bay b).engine = (s.bay b).engine := by rw [bay]
  have warned : ((v.bay b).sweepTo 1).warned = (v.bay b).warned := by rw [sweepTo_eq]
  rw [after, warned]
  refine ⟨⟨?_, ?_, ?_, ?_, ?_, fleet⟩, fun free => ?_, fun busy => ?_, quiet, warns⟩
  · rw [sweepTo_eq, bay]
  · rw [sweepTo_eq, bay]
  · rw [sweepTo_eq]
  · rw [sweepTo_eq, bay]
  · rw [sweepTo_eq, bay]
  · have free' : LineFree (v.bay b) := by rw [LineFree, engine]; exact free
    refine ⟨sends_offer (y := { v.bay b with sweepAt := some 1 }) free' _ _, ?_⟩
    rw [Bay.sweepTo, Bay.offer, if_pos (by simp [free'.1, free'.2])]
    exact free'.2
  · rw [← engine]
    exact offer_waits (y := { v.bay b with sweepAt := some 1 }) (by rw [LineFree, engine]; exact busy) _ _

/-- Settles O32: the refusals in their order, then the fresh sweep or the cutoff in its place. -/
theorem cutoffClearRestarts : Obligations.CutoffClearRestarts := by
  unfold Obligations.CutoffClearRestarts
  intro s p body b accepted parsed ok
  rw [execCutoffClear_eq accepted parsed]
  refine ⟨fun off => if_pos off, fun on other => ?_, fun cut => ?_⟩
  · rw [if_neg on, if_pos (Option.isNone_iff_eq_none.mpr (ok.clear other))]
  have on : (s.bay b).state ≠ .disabled := by rw [cut]; exact nofun
  have set : ¬(s.bay b).cutoff.isNone = true := by
    have flag := ok.flag.mpr cut
    rw [Option.isNone_iff_eq_none]
    exact Option.isSome_iff_ne_none.mp flag
  have quiet := ok.quiet (by rw [cut]; rfl)
  rw [if_neg on, if_neg set]
  refine ⟨fun busy => if_pos busy, fun still => ?_⟩
  rw [if_neg (by rw [still]; exact nofun)]
  refine ⟨fun bars => if_pos ((ignitionBars_iff _).mpr bars), fun passes present => ?_⟩
  have present' : ((s.intake p).bay b).presentFilter.value = true := present
  obtain ⟨bound, units, departure, cutoffTime, holds, rate, config⟩ := clearCutoff_common present'
  refine ⟨(s.intake p).clearCutoff b, if_neg fun bars => passes ((ignitionBars_iff _).mp bars), clearCutoff_only _ b, bound,
    units, departure, cutoffTime, holds, rate, config, fun calm => ?_, fun stops => ?_⟩
  · obtain ⟨⟨state, cutoff, sweepAt, noPasses, switching, fleet⟩, sends, waits, silent, warns⟩ :=
      clearCutoff_restarts present' calm
    refine ⟨state, cutoff, sweepAt, noPasses, switching, ?_, fun idle => ?_, fun busy => waits fun free => busy free.1,
      silent, warns⟩
    · rw [fleet]
      refine List.map_congr_left fun r _ => ?_
      simp only [beq_iff_eq]
    · obtain ⟨⟨sending, tr, transaction, request, activity, retries, polls, drained, speed⟩, offered⟩ :=
        sends ⟨idle, quiet.offered⟩
      exact ⟨sending, offered, tr, transaction, request, activity, retries, polls, drained,
        speed.trans (congrArg BayConfig.speed config)⟩
  · have cuts := cleared_cutsOff (s.intake p) b
    rw [← clearCutoff_cuts present' stops.1 stops.2] at cuts
    refine ⟨fun idle => ?_, cuts⟩
    have drains := cuts.line.engine
    rw [bay_cleared] at drains
    rw [drains.idle idle]
    show { (s.bay b).engine with offered := none } = (s.bay b).engine
    rw [← quiet.offered]

/-! ### YARD_TIME_TICK (R84, R122, R156) -/

/-- The first character of a frame on the line changes neither the passes nor the units, and the engine stays where it
is. -/
theorem startLine_rest (y : Bay) : y.startLine.passes = y.passes ∧ y.startLine.units = y.units ∧
    y.startLine.engine.state = y.engine.state := by
  unfold Bay.startLine
  split
  case h_2 => exact ⟨rfl, rfl, rfl⟩
  case h_1 =>
    split
    · exact ⟨rfl, rfl, rfl⟩
    · dsimp only
      split
      · unfold Bay.addSent
        split
        · exact ⟨rfl, rfl, rfl⟩
        · split <;> exact ⟨rfl, rfl, rfl⟩
      · exact ⟨rfl, rfl, rfl⟩

theorem paused_iff (y : Bay) : y.paused = true ↔ y.held = true ∧ (∃ q ∈ y.passes, q.inFlight = true) ∧
    (y.engine.state = .idle ∨ (y.engine.state = .pollWait ∧ y.engine.pollHeld = true)) := by
  have current : y.currentPass.isSome = true ↔ ∃ q ∈ y.passes, q.inFlight = true := by simp [Bay.currentPass]
  cases state : y.engine.state <;> simp [Bay.paused, current, state, and_assoc]

theorem countStreaming_rest (y : Bay) : y.countStreaming.standing = y.standing ∧ y.countStreaming.state = y.state ∧
    y.countStreaming.units = y.units ∧ y.countStreaming.engine = y.engine := by
  unfold Bay.countStreaming
  split <;> exact ⟨rfl, rfl, rfl, rfl⟩

theorem countStreaming_passes (y : Bay) : (y.paused = true → y.countStreaming.passes = y.passes) ∧
    (¬y.paused = true → y.countStreaming.passes = y.passes.map fun q =>
      if q.phase = .streaming then { q with activeTime := q.activeTime + 1 } else q) := by
  unfold Bay.countStreaming
  refine ⟨fun paused => by rw [if_pos paused], fun runs => ?_⟩
  rw [if_neg runs]
  refine List.map_congr_left fun q _ => ?_
  by_cases streams : q.phase = .streaming <;> simp [streams, Pass.inFlight]

/-- What a millisecond does to a bay. -/
theorem tick_table (y : Bay) (present ignition : Bool) : let z := y.tick present ignition
    (y.state = .disabled → z.presentFilter = y.presentFilter ∧ z.ignitionFilter = y.ignitionFilter) ∧
    (y.state ≠ .disabled → z.presentFilter = y.presentFilter.sample y.config.filterLength present ∧
      z.ignitionFilter = y.ignitionFilter.sample y.config.filterLength ignition) ∧
    z.passes = y.countStreaming.passes ∧ z.state = y.state ∧ z.units = y.units ∧
    z.engine.state = y.engine.state ∧ z.config = y.config ∧ z.holds = y.holds ∧ z.departure = y.departure ∧
    z.cutoffTime = y.cutoffTime ∧ z.cutoff = y.cutoff := by
  obtain ⟨passes, units, engine⟩ := startLine_rest y.countStreaming
  obtain ⟨standing', stays, same, line⟩ := countStreaming_rest y
  rw [same] at units
  rw [line] at engine
  have standing := (standing_startLine y.countStreaming).trans standing'
  have settings := settings_of_standing standing
  have state' : y.countStreaming.startLine.state = y.state := (state_startLine _).trans stays
  have config : y.countStreaming.startLine.config = y.config := congrArg (·.config) settings
  have presentFilter : y.countStreaming.startLine.presentFilter = y.presentFilter := congrArg (·.presentFilter) settings
  have ignitionFilter : y.countStreaming.startLine.ignitionFilter = y.ignitionFilter := congrArg (·.ignitionFilter) settings
  have holds : y.countStreaming.startLine.holds = y.holds := congrArg (fun x => x.2.1) standing
  have cutoff : y.countStreaming.startLine.cutoff = y.cutoff := congrArg (fun x => x.2.2) standing
  have departure : y.countStreaming.startLine.departure = y.departure := congrArg (·.departure) settings
  have cutoffTime : y.countStreaming.startLine.cutoffTime = y.cutoffTime := congrArg (·.cutoffTime) settings
  unfold Bay.tick
  dsimp only
  rw [state']
  split
  case isTrue off =>
    exact ⟨fun _ => ⟨presentFilter, ignitionFilter⟩, fun on => absurd off on, passes, state', units, engine, config, holds,
      departure, cutoffTime, cutoff⟩
  case isFalse on =>
    rw [presentFilter, ignitionFilter, config]
    exact ⟨fun off => absurd off on, fun _ => ⟨rfl, rfl⟩, passes, rfl, units, engine, rfl, holds, departure, cutoffTime,
      cutoff⟩

/-- The state after a millisecond. -/
def ticked (s : State) (present ignition : BitVec 8) : State := { s with
  yardTime := nextMillisecond s.yardTime
  bays := Vector.ofFn fun i => s.bays[i].tick (present.getLsbD i.val) (ignition.getLsbD i.val) }

theorem bay_ticked (s : State) (present ignition : BitVec 8) (b : BayId) :
    (ticked s present ignition).bay b = (s.bay b).tick (present.getLsbD b.val) (ignition.getLsbD b.val) := by
  simp [State.bay, ticked]

/-- Settles O33, from what a millisecond does to each bay. -/
theorem tickAdvances : Obligations.TickAdvances := by
  unfold Obligations.TickAdvances
  intro s present ignition
  refine ⟨ticked s present ignition, exec_yardTimeTick present ignition s, rfl, rfl, rfl, rfl, rfl,
    fun before => if_pos before, fun last => if_neg (Nat.not_lt.mpr last), fun b => ?_⟩
  obtain ⟨disabled, enabled, passes, state, units, engine, config, holds, departure, cutoffTime, cutoff⟩ :=
    tick_table (s.bay b) (present.getLsbD b.val) (ignition.getLsbD b.val)
  obtain ⟨still, counts⟩ := countStreaming_passes (s.bay b)
  simp only [paused_iff] at still counts
  rw [bay_ticked]
  exact ⟨disabled, enabled, fun paused => passes.trans (still paused), fun runs => passes.trans (counts runs), state, config,
    units, holds, departure, cutoffTime, cutoff, engine⟩

end Sys2Proof

end

/-! Admission runs (O53): what the start of a pass keeps, and the order in which work is tried. -/

section

namespace Sys2Proof

open Machine

/-! ### What the phases of a pass keep -/

/-- What only the bay's own events change, and no phase of a pass does. -/
def officeOf (y : Bay) :
    BayState × Option Planning × Bool × Option Nat × Nat × Option Switch × List GroupRecord × Option CutoffCause :=
  (y.state, y.planning, y.replanPending, y.sweepAt, y.notices, y.switching, y.groups, y.pendingCutoff)

/-- The bay `z` goes on with the pass `p` of the bay `y` in flight: the pass keeps its place, its members and its image,
and the units that are no members are as they were. -/
structure Serving (y : Bay) (before after : List Pass) (p : Pass) (z : Bay) : Prop where
  flies : ∃ q : Pass, InFlight z before q after ∧ q.members = p.members ∧ q.image = p.image ∧ q.join = p.join
  office : officeOf z = officeOf y
  units : ∀ v ∈ y.units, v.addr ∉ p.members → v ∈ z.units

/-- The work list of the pass in flight names members of `p` only. -/
def Listed (p : Pass) (z : Bay) : Prop := ∀ q : Pass, z.currentPass = some q → ∀ a ∈ q.todo, a ∈ p.members

/-- A change of a pass in flight that keeps it in flight with its members, its image and its join setting. -/
def KeepsPass (f : Pass → Pass) : Prop := ∀ q : Pass, q.inFlight = true →
  (f q).inFlight = true ∧ (f q).members = q.members ∧ (f q).image = q.image ∧ (f q).join = q.join

section

variable {y z : Bay} {before after : List Pass} {p : Pass}

theorem Serving.modPass (h : Serving y before after p z) {f : Pass → Pass} (keeps : KeepsPass f) :
    Serving y before after p (z.modPass f) := by
  obtain ⟨q, flies, members, image, join⟩ := h.flies
  obtain ⟨inFlight, members', image', join'⟩ := keeps q flies.flying
  refine ⟨⟨f q, ?_, members'.trans members, image'.trans image, join'.trans join⟩, h.office, h.units⟩
  rw [flies.modPass f]
  exact ⟨rfl, inFlight, flies.alone⟩

theorem Serving.listed (h : Serving y before after p z) {f : Pass → Pass} (keeps : KeepsPass f)
    (lists : ∀ q : Pass, q.members = p.members → ∀ a ∈ (f q).todo, a ∈ p.members) : Listed p (z.modPass f) := by
  obtain ⟨q, flies, members, -⟩ := h.flies
  intro q' current
  rw [flies.modPass f, InFlight.currentPass ⟨rfl, (keeps q flies.flying).1, flies.alone⟩] at current
  cases current
  exact lists q members

theorem Serving.modUnit (h : Serving y before after p z) {a : Nat} (member : a ∈ p.members) (f : JobUnit → JobUnit) :
    Serving y before after p (z.modUnit a f) := by
  obtain ⟨q, flies, rest⟩ := h.flies
  refine ⟨⟨q, ⟨flies.list, flies.flying, flies.alone⟩, rest⟩, h.office, fun v mem outside => ?_⟩
  refine List.mem_map.mpr ⟨v, h.units v mem outside, if_neg ?_⟩
  simpa using fun same : v.addr = a => outside (same ▸ member)

theorem Serving.congr (h : Serving y before after p z) {w : Bay} (passes : w.passes = z.passes)
    (office : officeOf w = officeOf z) (units : w.units = z.units) : Serving y before after p w := by
  obtain ⟨q, flies, rest⟩ := h.flies
  exact ⟨⟨q, ⟨passes.trans flies.list, flies.flying, flies.alone⟩, rest⟩, office.trans h.office,
    fun v mem outside => units ▸ h.units v mem outside⟩

theorem Serving.offer (h : Serving y before after p z) (r : LineRequest) (act : Activity) :
    Serving y before after p (z.offer r act) := by
  rw [Bay.offer_only]
  exact h.congr rfl rfl rfl

theorem Serving.offerCheck (h : Serving y before after p z) (listed : Listed p z) : Serving y before after p z.offerCheck := by
  unfold Bay.offerCheck
  split
  · exact h
  case h_2 q current =>
    split
    · exact h
    case h_2 a rest list =>
      have member : a ∈ p.members := listed q current a (list ▸ List.mem_cons_self ..)
      exact ((h.modPass fun q' flying => by exact ⟨flying, rfl, rfl, rfl⟩).modUnit member _).offer _ _

theorem membersWhere_subset (z : Bay) (members : List Nat) (test : JobUnit → Bool) :
    ∀ a ∈ z.membersWhere members test, a ∈ members := fun _ mem => (List.mem_filter.mp mem).1

theorem Serving.enterCheck (h : Serving y before after p z) : Serving y before after p z.enterCheck := by
  unfold Bay.enterCheck
  refine Serving.offerCheck (h.modPass fun _ _ => ⟨rfl, rfl, rfl, rfl⟩)
    (h.listed (fun _ _ => ⟨rfl, rfl, rfl, rfl⟩) fun q members a mem => ?_)
  rw [← members]
  exact membersWhere_subset _ _ _ a mem

theorem Serving.offerGaps (h : Serving y before after p z) : Serving y before after p z.offerGaps := by
  unfold Bay.offerGaps
  split
  · exact h
  · split
    · exact h.offer _ _
    · exact h

theorem Serving.nextRepairMember (h : Serving y before after p z) (listed : Listed p z) :
    Serving y before after p z.nextRepairMember := by
  unfold Bay.nextRepairMember
  split
  · exact h
  case h_2 q current =>
    split
    · exact h
    case h_2 a rest list =>
      have member : a ∈ p.members := listed q current a (list ▸ List.mem_cons_self ..)
      exact ((h.modPass fun q' flying => by exact ⟨flying, rfl, rfl, rfl⟩).modUnit member _).offerGaps

theorem Serving.enterRepair (h : Serving y before after p z) : Serving y before after p z.enterRepair := by
  unfold Bay.enterRepair
  refine Serving.nextRepairMember (h.modPass fun _ _ => ⟨rfl, rfl, rfl, rfl⟩)
    (h.listed (fun _ _ => ⟨rfl, rfl, rfl, rfl⟩) fun q members a mem => ?_)
  rw [← members]
  exact membersWhere_subset _ _ _ a mem

end

/-- A state that differs in its bays alone, where bay `b` goes on with a pass of `y`. -/
structure PassRuns (b : BayId) (s : State) (y : Bay) (before after : List Pass) (p : Pass) (t : State) : Prop where
  inBays : t = { s with bays := t.bays }
  bay : Serving y before after p (t.bay b)

section

variable {b : BayId} {s t : State} {y : Bay} {before after : List Pass} {p : Pass}

theorem PassRuns.modBay (h : PassRuns b s y before after p t) {f : Bay → Bay} (serves : Serving y before after p (f (t.bay b))) :
    PassRuns b s y before after p (t.modBay b f) := by
  refine ⟨?_, by rw [State.bay_modBay_same]; exact serves⟩
  rw [h.inBays]
  rfl

theorem PassRuns.sendBlock (h : PassRuns b s y before after p t) : PassRuns b s y before after p (t.sendBlock b) := by
  have asks : ∀ image n, PassRuns b s y before after p (t.modBay b fun z => z.askBlock image n) := fun _ _ =>
    h.modBay (h.bay.congr rfl rfl rfl)
  unfold State.sendBlock
  dsimp only
  split
  · exact h
  · split
    · split
      · split
        · refine h.modBay ?_
          split <;> exact h.bay.congr rfl rfl rfl
        · exact asks _ _
      · split
        · exact h
        · exact asks _ _
    · exact h

theorem PassRuns.enterStream (h : PassRuns b s y before after p t) : PassRuns b s y before after p (t.enterStream b) :=
  PassRuns.sendBlock <| h.modBay <| h.bay.modPass fun _ _ => by exact ⟨rfl, rfl, rfl, rfl⟩

theorem PassRuns.offerOpen (h : PassRuns b s y before after p t) (listed : Listed p (t.bay b)) :
    PassRuns b s y before after p (t.offerOpen b) := by
  unfold State.offerOpen
  dsimp only
  split
  · exact h
  case h_2 q current =>
    split
    · exact h
    case h_2 a rest list =>
      have member : a ∈ p.members := listed q current a (list ▸ List.mem_cons_self ..)
      split
      · exact h.modBay (((h.bay.modPass fun q' flying => by exact ⟨flying, rfl, rfl, rfl⟩).modUnit member _).offer _ _)
      · exact h

theorem PassRuns.afterOpen (h : PassRuns b s y before after p t) : PassRuns b s y before after p (t.afterOpen b) := by
  unfold State.afterOpen
  dsimp only
  split
  · exact h
  · split
    · exact h.modBay h.bay.enterCheck
    · split
      · exact h.modBay (Serving.enterRepair (h.bay.modPass fun _ flying => by exact ⟨flying, rfl, rfl, rfl⟩))
      · exact PassRuns.enterStream (h.modBay (h.bay.modPass fun _ flying => by exact ⟨flying, rfl, rfl, rfl⟩))

theorem PassRuns.enterOpen (h : PassRuns b s y before after p t) : PassRuns b s y before after p (t.enterOpen b) := by
  obtain ⟨q, flies, members, -⟩ := h.bay.flies
  unfold State.enterOpen
  dsimp only
  rw [flies.currentPass]
  dsimp only
  split
  · exact h.afterOpen
  case h_2 a rest list =>
    refine PassRuns.offerOpen (h.modBay (h.bay.modPass fun _ flying => by exact ⟨flying, rfl, rfl, rfl⟩)) ?_
    rw [State.bay_modBay_same]
    refine h.bay.listed (fun _ flying => by exact ⟨flying, rfl, rfl, rfl⟩) fun q' _ x mem => ?_
    rw [← members]
    exact membersWhere_subset _ _ JobUnit.opens x (list ▸ mem)

end

/-! ### The order in which work is tried (R119 to R121, R143, R144) -/

theorem mayRun_iff (y : Bay) : y.mayRun = true ↔ (y.state = .transferring ∨ y.state = .done) ∧
    (∀ q ∈ y.passes, q.inFlight = false) ∧ y.switching = none ∧ y.replanPending = false := by
  simp only [Bay.mayRun, Bool.and_eq_true, Bool.or_eq_true, beq_iff_eq, Option.isNone_iff_eq_none, Bool.not_eq_true',
    currentPass_none_iff, and_assoc]

theorem admissionRun_rests {s : State} {b : BayId} (rests : ¬((s.bay b).mayRun = true ∧ (s.bay b).held = false)) :
    s.admissionRun b = s := by
  have bars : (!(s.bay b).mayRun || (s.bay b).held) = true := by
    cases may : (s.bay b).mayRun <;> cases held : (s.bay b).held <;> simp [may, held] at rests ⊢
  simp only [State.admissionRun, bars, if_true]

/-- The first of a list that satisfies a test, with what stands before it. -/
theorem find_takeWhile {α : Type} {test : α → Bool} {first rest : List α} {x : α} (yes : test x = true)
    (no : ∀ w ∈ first, test w = false) : (first ++ x :: rest).find? test = some x ∧
      (first ++ x :: rest).takeWhile (fun w => !(test w)) = first := by
  have none : first.find? test = none := by simpa using no
  refine ⟨by rw [List.find?_append, none]; simp [yes], ?_⟩
  rw [List.takeWhile_append_of_pos (by simpa using no), List.takeWhile_cons_of_neg (by simp [yes]), List.append_nil]

theorem find_takeWhile_none {α : Type} {test : α → Bool} {l : List α} (no : ∀ w ∈ l, test w = false) :
    l.find? test = none ∧ l.takeWhile (fun w => !(test w)) = l := by
  refine ⟨by simpa using no, List.takeWhile_eq_self_iff.mpr (by simpa using no)⟩

/-- The addresses of the members of some tries. -/
def triedMembers (l : List SwitchTry) : List Nat := l.flatMap (·.members)

/-- A switch fits before the cutoff time (R117). -/
def switchFits (s : State) (b : BayId) (t : SwitchTry) : Bool :=
  (s.bay b).fits s.yardTime (t.members.length * (s.bay b).config.tSwitch)

/-- A pass fits before the cutoff time (R117, R118). -/
def passFits (s : State) (b : BayId) (p : Pass) : Bool :=
  (s.bay b).fits s.yardTime (passNeed (s.bay b) p (s.store.blocksOf p.image))

/-- The passes of a bay that wait. -/
def waitingPasses (y : Bay) : List Pass := y.passes.filter fun q => decide (q.phase = .waiting)

theorem waitingPasses_eq (y : Bay) : y.passes.filter (fun p => p.phase == .waiting) = waitingPasses y :=
  List.filter_congr fun _ _ => beq_eq_decide _ _

theorem admissionRun_runs {s : State} {b : BayId} (may : (s.bay b).mayRun = true) (free : (s.bay b).held = false) :
    s.admissionRun b = match (s.bay b).switchTries.find? (switchFits s b) with
      | some t => s.modBay b fun z => (z.defer (triedMembers
          ((s.bay b).switchTries.takeWhile fun r => !(switchFits s b r)))).startSwitch t
      | none =>
        let refused := triedMembers (s.bay b).switchTries ++
          ((waitingPasses (s.bay b)).takeWhile fun p => !(passFits s b p)).flatMap (·.members)
        match (waitingPasses (s.bay b)).find? (passFits s b) with
        | some p => (s.modBay b fun z => z.defer refused).startPass b (passFits s b) p
        | none => (s.modBay b fun z => z.defer refused).restInDone b := by
  have open' : (!(s.bay b).mayRun || (s.bay b).held) = false := by rw [may, free]; rfl
  rw [← waitingPasses_eq]
  simp only [State.admissionRun, open', Bool.false_eq_true, if_false]
  rfl

/-- The first switch tried that fits starts. -/
theorem admissionRun_switch {s : State} {b : BayId} (may : (s.bay b).mayRun = true) (free : (s.bay b).held = false)
    {first rest : List SwitchTry} {t : SwitchTry} (tries : (s.bay b).switchTries = first ++ t :: rest)
    (yes : switchFits s b t = true) (no : ∀ w ∈ first, switchFits s b w = false) :
    s.admissionRun b = s.modBay b fun z => (z.defer (triedMembers first)).startSwitch t := by
  obtain ⟨found, before⟩ := find_takeWhile (rest := rest) yes no
  rw [admissionRun_runs may free, tries, found, before]

/-- With no switch that fits, the first waiting pass that fits starts. -/
theorem admissionRun_pass {s : State} {b : BayId} (may : (s.bay b).mayRun = true) (free : (s.bay b).held = false)
    (none : ∀ t ∈ (s.bay b).switchTries, switchFits s b t = false) {first rest : List Pass} {p : Pass}
    (waits : waitingPasses (s.bay b) = first ++ p :: rest) (yes : passFits s b p = true)
    (no : ∀ w ∈ first, passFits s b w = false) :
    s.admissionRun b = (s.modBay b fun z =>
      z.defer (triedMembers (s.bay b).switchTries ++ first.flatMap (·.members))).startPass b (passFits s b) p := by
  obtain ⟨found, before⟩ := find_takeWhile (rest := rest) yes no
  rw [admissionRun_runs may free, (find_takeWhile_none none).1, waits, found, before]

/-- With nothing that fits the bay rests in DONE. -/
theorem admissionRun_done {s : State} {b : BayId} (may : (s.bay b).mayRun = true) (free : (s.bay b).held = false)
    (none : ∀ t ∈ (s.bay b).switchTries, switchFits s b t = false)
    (noPass : ∀ p ∈ waitingPasses (s.bay b), passFits s b p = false) :
    s.admissionRun b = (s.modBay b fun z => z.defer (triedMembers (s.bay b).switchTries ++
      (waitingPasses (s.bay b)).flatMap (·.members))).restInDone b := by
  obtain ⟨found, all⟩ := find_takeWhile_none noPass
  rw [admissionRun_runs may free, (find_takeWhile_none none).1, found, all]

/-! ### Switch candidates (R143, R144) -/

theorem countsVerified_iff (y : Bay) (v : JobUnit) : y.countsVerified v = true ↔ v.progress = some .verified ∨
    (v.progress = some .deferredNoTime ∧ ∀ q ∈ y.passes, q.phase = .waiting → v.addr ∉ q.members) := by
  simp [Bay.countsVerified, Bay.inWaitingPass]

theorem inOpenPass_iff (y : Bay) (m : Nat) : y.inOpenPass m = false ↔
    ∀ q ∈ y.passes, m ∈ q.members → q.phase = .ended := by
  simp only [Bay.inOpenPass, List.any_eq_false, Bool.and_eq_true, bne_iff_ne, List.contains_iff_mem, not_and, ne_eq]
  exact ⟨fun h q mem member => not_not.mp fun ne => h q mem ne member, fun h q mem ne member => ne (h q mem member)⟩

theorem groupReady_iff (y : Bay) (r : GroupRecord) : y.groupReady r = true ↔ r.ended = false ∧ r.faulted = false ∧
    ∀ m ∈ r.members, (∃ v : JobUnit, y.unit m = some v ∧ y.countsVerified v = true) ∧ y.inOpenPass m = false := by
  have ready : ∀ m, (match y.unit m with
      | some u => y.countsVerified u
      | none => false) = true ↔ ∃ v : JobUnit, y.unit m = some v ∧ y.countsVerified v = true := fun m => by
    cases y.unit m <;> simp
  simp only [Bay.groupReady, Bool.and_eq_true, Bool.not_eq_true', List.all_eq_true, List.any_eq_false,
    Bool.not_eq_true, and_assoc]
  exact ⟨fun ⟨ended, faulted, units, done⟩ => ⟨ended, faulted, fun m mem => ⟨(ready m).mp (units m mem), done m mem⟩⟩,
    fun ⟨ended, faulted, each⟩ => ⟨ended, faulted, fun m mem => (ready m).mpr (each m mem).1, fun m mem => (each m mem).2⟩⟩

theorem mem_switchTries (y : Bay) (t : SwitchTry) : t ∈ y.switchTries ↔
    (∃ v ∈ y.units, t = { group := 0, members := [v.addr] } ∧ v.decision = some .flash ∧ v.group = 0 ∧
      y.countsVerified v = true ∧ y.inOpenPass v.addr = false) ∨
    ∃ r ∈ y.groups, t = { group := r.group, members := r.members } ∧ y.groupReady r = true := by
  simp only [Bay.switchTries, Bay.soloTries, List.mem_append, List.mem_map, List.mem_filter, Bool.and_eq_true,
    Bool.not_eq_true', beq_iff_eq, isFlash_iff]
  refine or_congr ⟨?_, ?_⟩ ⟨?_, ?_⟩
  · rintro ⟨v, ⟨mem, ⟨⟨flash, group⟩, counts⟩, done⟩, rfl⟩
    exact ⟨v, mem, rfl, flash, group, counts, done⟩
  · rintro ⟨v, mem, rfl, flash, group, counts, done⟩
    exact ⟨v, ⟨mem, ⟨⟨flash, group⟩, counts⟩, done⟩, rfl⟩
  · rintro ⟨r, ⟨mem, ready⟩, rfl⟩
    exact ⟨r, mem, rfl, ready⟩
  · rintro ⟨r, mem, rfl, ready⟩
    exact ⟨r, ⟨mem, ready⟩, rfl⟩

theorem switchTries_pairwise {y : Bay} (units : (y.units.map (·.addr)).Pairwise (· < ·))
    (groups : (y.groups.map (·.group)).Pairwise (· < ·)) (numbered : ∀ r ∈ y.groups, 1 ≤ r.group) :
    y.switchTries.Pairwise fun t w => t.group < w.group ∨
      (t.group = 0 ∧ w.group = 0 ∧ ∃ m n : Nat, t.members = [m] ∧ w.members = [n] ∧ m < n) := by
  rw [List.pairwise_map] at units groups
  refine List.pairwise_append.mpr ⟨?_, ?_, ?_⟩
  · refine List.pairwise_map.mpr ((units.filter _).imp fun {v w} before => ?_)
    exact .inr ⟨rfl, rfl, v.addr, w.addr, rfl, rfl, before⟩
  · exact List.pairwise_map.mpr ((groups.filter _).imp fun before => .inl before)
  · intro t solo w grouped
    obtain ⟨v, -, rfl⟩ := List.mem_map.mp solo
    obtain ⟨r, mem, rfl⟩ := List.mem_map.mp grouped
    exact .inl (numbered r (List.mem_filter.mp mem).1)

/-! ### The work that starts (R120, R121, R125, R145) -/

/-- A switch that starts: its members are SWITCHING, and the first SWITCH is offered (R145). -/
theorem startSwitch_table (y : Bay) (t : SwitchTry) : let z := y.startSwitch t
    z.state = .switching ∧
    z.switching = some { group := t.group, members := t.members, todo := t.members.tail, polls := [], soloSent := [] } ∧
    z.units = y.units.map (fun u => if t.members.contains u.addr then { u with progress := some .switching } else u) ∧
    z.groups = y.groups.map (fun r => if r.group == t.group then { r with sent := [] } else r) ∧ z.passes = y.passes ∧
    z.planning = y.planning ∧ z.replanPending = y.replanPending ∧
    ∀ (m : Nat) (ms : List Nat), t.members = m :: ms → LineFree y → Sends z (.switch m) .switch := by
  unfold Bay.startSwitch
  dsimp only
  split
  case h_1 none => exact ⟨rfl, by rw [none], rfl, rfl, rfl, rfl, rfl, fun m ms list => by rw [none] at list; cases list⟩
  case h_2 a rest list =>
    refine ⟨by rw [Bay.offer_only], by rw [Bay.offer_only, list], ?_, by rw [Bay.offer_only]; rfl,
      by rw [Bay.offer_only]; rfl, by rw [Bay.offer_only]; rfl, by rw [Bay.offer_only]; rfl, fun m ms named free => ?_⟩
    · rw [Bay.offer_only]; rfl
    · rw [list] at named
      cases named
      refine sends_offer ?_ _ _
      exact free

/-- Changing the first of some waiting passes that fits keeps its place. -/
theorem changeFirst_split {test : Pass → Bool} (f : Pass → Pass) {l first rest : List Pass} {p : Pass}
    (waits : l.filter (fun q => decide (q.phase = .waiting)) = first ++ p :: rest) (yes : test p = true)
    (no : ∀ w ∈ first, test w = false) : ∃ before after : List Pass, l = before ++ p :: after ∧
      changeFirst test f l = before ++ f p :: after := by
  induction l generalizing first with
  | nil => simp at waits
  | cons q rest' ih =>
    unfold changeFirst
    by_cases wait : q.phase = .waiting
    · rw [List.filter_cons_of_pos (by simpa using wait)] at waits
      cases first with
      | nil =>
        cases waits
        exact ⟨[], rest', rfl, if_pos (by simp [wait, yes])⟩
      | cons w first =>
        simp only [List.cons_append, List.cons.injEq] at waits
        obtain ⟨rfl, waits⟩ := waits
        obtain ⟨before, after, split, changed⟩ := ih waits fun w mem => no w (List.mem_cons_of_mem _ mem)
        have fails := no q (List.mem_cons_self ..)
        exact ⟨q :: before, after, by rw [split]; rfl, by rw [if_neg (by simp [fails]), changed]; rfl⟩
    · rw [List.filter_cons_of_neg (by simpa using wait)] at waits
      obtain ⟨before, after, split, changed⟩ := ih waits no
      exact ⟨q :: before, after, by rw [split]; rfl, by rw [if_neg (by simp [wait]), changed]; rfl⟩

/-- The pass that starts, in the state in which its OPEN phase begins (R125, R127). -/
theorem startPass_runs {s : State} {b : BayId} {test : Pass → Bool} {first rest : List Pass} {p : Pass}
    (idle : ∀ q ∈ (s.bay b).passes, q.inFlight = false) (waits : waitingPasses (s.bay b) = first ++ p :: rest)
    (yes : test p = true) (no : ∀ w ∈ first, test w = false) :
    ∃ (before after : List Pass) (p' : Pass) (y : Bay), (s.bay b).passes = before ++ p :: after ∧
      p'.members = p.members ∧ p'.image = p.image ∧ p'.join = decide (1 < p.members.length) ∧
      officeOf y = officeOf { s.bay b with state := .transferring } ∧
      y.units = (s.bay b).units.map (fun u => if p.members.contains u.addr then { u with progress := some .pending } else u) ∧
      PassRuns b s y before after p' (s.startPass b test p) := by
  obtain ⟨before, after, split, changed⟩ := changeFirst_split (fun q => { q with
      phase := .opening, phaseComplete := false, nextBlock := 0
      choice := some (streamChoice ((s.bay b).unitsAt q.members)), join := decide (1 < q.members.length) }) waits yes no
  obtain ⟨p', started⟩ : ∃ p' : Pass, p' = { p with
      phase := .opening, phaseComplete := false, nextBlock := 0
      choice := some (streamChoice ((s.bay b).unitsAt p.members)), join := decide (1 < p.members.length) } := ⟨_, rfl⟩
  rw [← started] at changed
  obtain ⟨y, eq⟩ : ∃ y : Bay, y = { (s.bay b).modUnits p.members (fun u => { u with progress := some .pending }) with
      state := .transferring, passes := before ++ p' :: after } := ⟨_, rfl⟩
  have flies : InFlight y before p' after := by
    refine ⟨by rw [eq], by rw [started]; rfl, fun q mem => idle q ?_⟩
    rw [split]
    rcases List.mem_append.mp mem with mem | mem
    · exact List.mem_append_left _ mem
    · exact List.mem_append_right _ (List.mem_cons_of_mem _ mem)
  refine ⟨before, after, p', y, split, by rw [started], by rw [started], by rw [started], by rw [eq]; rfl, by rw [eq]; rfl, ?_⟩
  refine PassRuns.enterOpen ⟨rfl, ?_⟩
  have bay : (s.modBay b fun y =>
      { (y.modUnits p.members fun u => { u with progress := some .pending }) with
        state := .transferring
        passes := changeFirst test (fun q =>
          { q with phase := .opening, phaseComplete := false, nextBlock := 0
                   choice := some (streamChoice (y.unitsAt q.members)), join := decide (1 < q.members.length) })
          y.passes }).bay b = y := by rw [State.bay_modBay_same, changed, eq]
  rw [bay]
  exact ⟨⟨p', flies, rfl, rfl, rfl⟩, rfl, fun v mem _ => mem⟩

/-- A unit of a list of addresses that shows DEFERRED(NO_TIME), and another unit as it is (R120). -/
def deferredUnit (l : List Nat) (v : JobUnit) : JobUnit :=
  if v.addr ∈ l then { v with progress := some .deferredNoTime } else v

/-- The units of the work tried and refused: the switches of some tries and the passes of a list. -/
theorem deferredUnit_refused (tries : List SwitchTry) (l : List Pass) (v : JobUnit) :
    deferredUnit (triedMembers tries ++ l.flatMap (·.members)) v =
      if v.addr ∈ tries.flatMap (·.members) ∨ ∃ w ∈ l, v.addr ∈ w.members
      then { v with progress := some .deferredNoTime } else v := by
  simp only [deferredUnit, triedMembers, List.mem_append, List.mem_flatMap]

theorem deferred_addr (l : List Nat) (v : JobUnit) : (deferredUnit l v).addr = v.addr := by
  unfold deferredUnit
  split <;> rfl

theorem deferred_mem {y : Bay} {l : List Nat} {v : JobUnit} (mem : v ∈ y.units) : deferredUnit l v ∈ (y.defer l).units := by
  refine List.mem_map.mpr ⟨v, mem, ?_⟩
  simp only [deferredUnit, List.contains_iff_mem]

theorem switched_units (y : Bay) (l members : List Nat) :
    (y.defer l).units.map (fun u => if members.contains u.addr then { u with progress := some .switching } else u) =
      y.units.map fun v => if v.addr ∈ members then { v with progress := some .switching }
        else if v.addr ∈ l then { v with progress := some .deferredNoTime } else v := by
  show (y.units.map _).map _ = _
  rw [List.map_map]
  refine List.map_congr_left fun v _ => ?_
  simp only [Function.comp_apply, List.contains_iff_mem]
  by_cases refused : v.addr ∈ l
  · simp only [refused, if_true]
  · simp only [refused, if_false]

/-- A bay with nothing started is in DONE, and posts BAY_DONE when it enters (R121). -/
theorem restInDone_table (t : State) (b : BayId) : let u := t.restInDone b
    (u.bay b).state = .done ∧ ((u.bay b).passes = (t.bay b).passes ∧ (u.bay b).units = (t.bay b).units) ∧
    ((t.bay b).state = .done → u.ports = t.ports) ∧
    ((t.bay b).state ≠ .done → ∀ q, u.port q = (t.post .bayDone (.bay b)).port q) := by
  unfold State.restInDone
  split
  case isTrue done => exact ⟨done, ⟨rfl, rfl⟩, fun _ => rfl, fun other => absurd done other⟩
  case isFalse other =>
    dsimp only
    rw [State.bay_post, State.bay_modBay_same]
    refine ⟨rfl, ⟨rfl, rfl⟩, fun done => absurd done other, fun _ q => ?_⟩
    rw [port_post, port_post]
    rfl

/-- Settles O53: what runs is tried in order, and the first work that fits starts. -/
theorem admissionRunOrder : Obligations.AdmissionRunOrder := by
  unfold Obligations.AdmissionRunOrder
  intro s b y runs counts done fits passFits' refused waiting
  have runs_iff : runs ↔ (s.bay b).mayRun = true ∧ (s.bay b).held = false := by
    rw [mayRun_iff]
    simp only [runs, y, and_assoc]
  refine ⟨fun rests => admissionRun_rests fun may => rests (runs_iff.mpr may), fun t => ?_,
    switchTries_pairwise, fun may => ⟨(OnlyBay.refl b s).admissionRun, ?_, fun none => ⟨?_, ?_⟩⟩⟩
  · rw [mem_switchTries]
    simp only [groupReady_iff, countsVerified_iff, inOpenPass_iff]
    rfl
  all_goals obtain ⟨mayRun, free⟩ := runs_iff.mp may
  · intro first rest t tries yes no
    have start := admissionRun_switch mayRun free tries yes fun w mem => Bool.eq_false_iff.mpr (no w mem)
    obtain ⟨state, switching, units, groups, passes, -, -, offers⟩ :=
      startSwitch_table ((s.bay b).defer (triedMembers first)) t
    rw [start]
    rw [State.bay_modBay_same]
    refine ⟨rfl, state, switching, units.trans (switched_units _ _ _), groups.trans ?_, passes, fun m ms list idle offered => ?_⟩
    · refine List.map_congr_left fun r _ => ?_
      simp only [beq_iff_eq]
    · obtain ⟨sending, tr, transaction, request, activity, -⟩ := offers m ms list ⟨idle, offered⟩
      exact ⟨sending, tr, transaction, request, activity⟩
  · intro first rest p waits yes no
    have noSwitch : ∀ t ∈ (s.bay b).switchTries, switchFits s b t = false := fun t mem => Bool.eq_false_iff.mpr (none t mem)
    have noPass : ∀ w ∈ first, passFits s b w = false := fun w mem => Bool.eq_false_iff.mpr (no w mem)
    have start := admissionRun_pass mayRun free noSwitch waits yes noPass
    obtain ⟨t, deferred⟩ : ∃ t, t = s.modBay b fun z =>
      z.defer (triedMembers (s.bay b).switchTries ++ first.flatMap (·.members)) := ⟨_, rfl⟩
    have bay : t.bay b = (s.bay b).defer (triedMembers (s.bay b).switchTries ++ first.flatMap (·.members)) := by
      rw [deferred, State.bay_modBay_same]
    have ports : t.ports = s.ports := by rw [deferred]; rfl
    rw [← deferred] at start
    obtain ⟨before, after, p', x, split, members, image, join, office, units, started⟩ :=
      startPass_runs (s := t) (b := b) (test := passFits s b) (first := first) (rest := rest) (p := p)
        (by rw [bay]; exact ((mayRun_iff _).mp mayRun).2.1) (by rw [bay]; exact waits) yes noPass
    rw [← start] at started
    obtain ⟨q, flies, members', image', join'⟩ := started.bay.flies
    rw [bay] at split units office
    refine ⟨(congrArg State.ports started.inBays).trans ports, congrArg (·.1) (started.bay.office.trans office), ?_, ?_⟩
    · exact ⟨before, after, q, split, flies.list, flies.flying, members'.trans members, image'.trans image, join'.trans join⟩
    · intro v mem outside
      have tried := deferred_mem (l := triedMembers (s.bay b).switchTries ++ first.flatMap (·.members)) mem
      have kept := started.bay.units (deferredUnit (triedMembers (s.bay b).switchTries ++ first.flatMap (·.members)) v) ?_ ?_
      · rw [deferredUnit_refused] at kept
        exact kept
      · rw [units]
        refine List.mem_map.mpr ⟨_, tried, if_neg ?_⟩
        rw [deferred_addr]
        simpa using outside
      · rw [deferred_addr, members]
        exact outside
  · intro noPass
    have noSwitch : ∀ t ∈ (s.bay b).switchTries, switchFits s b t = false := fun t mem => Bool.eq_false_iff.mpr (none t mem)
    have rests := admissionRun_done mayRun free noSwitch fun p mem => Bool.eq_false_iff.mpr (noPass p mem)
    obtain ⟨t, deferred⟩ : ∃ t, t = s.modBay b fun z => z.defer (triedMembers (s.bay b).switchTries ++
      (waitingPasses (s.bay b)).flatMap (·.members)) := ⟨_, rfl⟩
    have bay : t.bay b = (s.bay b).defer (triedMembers (s.bay b).switchTries ++
        (waitingPasses (s.bay b)).flatMap (·.members)) := by rw [deferred, State.bay_modBay_same]
    have ports : t.ports = s.ports := by rw [deferred]; rfl
    rw [← deferred] at rests
    rw [rests]
    obtain ⟨state, rest, was, enters⟩ := restInDone_table t b
    rw [bay] at rest was enters
    refine ⟨state, rest.1, rest.2.trans ?_, fun done => (was done).trans ports, fun transferring q => ?_⟩
    · refine List.map_congr_left fun v _ => ?_
      simp only [List.contains_iff_mem]
      exact deferredUnit_refused _ _ v
    · rw [enters (show (s.bay b).state ≠ .done by rw [transferring]; exact nofun), port_post, port_post,
        State.port_of_ports ports]

end Sys2Proof

end

/-! ACTIVATION_NOTICE (O37). -/

section

namespace Sys2Proof

open Machine

/-! ### What an admission run changes -/

theorem startPass_frame {s : State} {b : BayId} {test : Pass → Bool} {p : Pass}
    (idle : ∀ q ∈ (s.bay b).passes, q.inFlight = false) (found : (waitingPasses (s.bay b)).find? test = some p) :
    let u := s.startPass b test p
    u = { s with bays := u.bays } ∧ officeOf (u.bay b) = officeOf { s.bay b with state := .transferring } := by
  obtain ⟨yes, first, rest, waits, no⟩ := List.find?_eq_some_iff_append.mp found
  obtain ⟨before, after, p', y, -, -, -, -, office, -, started⟩ :=
    startPass_runs idle waits yes fun w mem => by simpa using no w mem
  exact ⟨started.inBays, started.bay.office.trans office⟩

/-- An admission run writes the bay and may post BAY_DONE; it keeps the planning's fields, and ends where work goes on or
the bay rests (R119 to R121). -/
theorem admissionRun_frame (s : State) (b : BayId) : let u := s.admissionRun b
    u.plans = s.plans ∧ u.fleet = s.fleet ∧ u.store = s.store ∧ (u.bay b).planning = (s.bay b).planning ∧
      (u.bay b).replanPending = (s.bay b).replanPending ∧
      ((s.bay b).state ∈ [BayState.transferring, .switching, .done] →
        (u.bay b).state ∈ [BayState.transferring, .switching, .done]) := by
  by_cases runs : (s.bay b).mayRun = true ∧ (s.bay b).held = false
  case neg =>
    rw [admissionRun_rests runs]
    exact ⟨rfl, rfl, rfl, rfl, rfl, id⟩
  obtain ⟨may, free⟩ := runs
  have idle := ((mayRun_iff _).mp may).2.1
  rw [admissionRun_runs may free]
  split
  case h_1 t found =>
    obtain ⟨state, -, -, -, -, planning, replan, -⟩ := startSwitch_table ((s.bay b).defer (triedMembers
      ((s.bay b).switchTries.takeWhile fun r => !(switchFits s b r)))) t
    dsimp only
    rw [State.bay_modBay_same, state, planning, replan]
    exact ⟨rfl, rfl, rfl, rfl, rfl, fun _ => by simp⟩
  case h_2 =>
    dsimp only
    generalize triedMembers (s.bay b).switchTries ++
      ((waitingPasses (s.bay b)).takeWhile fun p => !(passFits s b p)).flatMap (·.members) = refused
    split
    case h_1 p found =>
      have bay : (s.modBay b fun z => z.defer refused).bay b = (s.bay b).defer refused := State.bay_modBay_same _ _ _
      obtain ⟨inBays, office⟩ := startPass_frame (s := s.modBay b fun z => z.defer refused) (b := b) (test := passFits s b)
        (p := p) (by rw [bay]; exact idle) (by rw [bay]; exact found)
      rw [bay] at office
      have state := congrArg (·.1) office
      have planning := congrArg (fun x => x.2.1) office
      have replan := congrArg (fun x => x.2.2.1) office
      have plans := congrArg State.plans inBays
      have fleet := congrArg State.fleet inBays
      have store := congrArg State.store inBays
      exact ⟨plans, fleet, store, planning, replan,
        fun _ => by rw [show (State.bay _ b).state = .transferring from state]; simp⟩
    case h_2 =>
      unfold State.restInDone
      split
      · rw [State.bay_modBay_same]
        exact ⟨rfl, rfl, rfl, rfl, rfl, id⟩
      · rw [State.bay_post, State.bay_modBay_same, State.bay_modBay_same]
        exact ⟨rfl, rfl, rfl, rfl, rfl, fun _ => by simp⟩

/-! ### The end of a planning -/

/-- With no unit decided FLASH no pass is formed. -/
theorem formPasses_nil {units : List JobUnit} (none : ∀ x ∈ units, x.decision ≠ some .flash) : formPasses units = [] := by
  have empty : ∀ g, (units.filter fun u => u.inPass && u.group == g) = [] := fun g => by
    refine List.filter_eq_nil_iff.mpr fun x mem => ?_
    simp [JobUnit.inPass, JobUnit.isFlash, none x mem]
  refine List.flatMap_eq_nil_iff.mpr fun g _ => ?_
  simp [groupPasses, empty, ascending]

/-- What a completed planning leaves of the bay and of the counters. -/
theorem PlanningCompletes.leaves {b : BayId} {t u : State} {generation : Nat} (h : PlanningCompletes b t u generation) :
    (u.bay b).planning = none ∧ (u.bay b).replanPending = (t.bay b).replanPending ∧
      (u.bay b).state ∈ [BayState.transferring, .switching, .done] ∧
      (∀ i : Fin 64, u.plans.counters[i] = min 65535 (t.plans.counters[i] +
        ((t.bay b).units.filter fun x => decide (x.rule = some i.val)).length)) ∧
      (formPasses (t.bay b).units = [] → (u.bay b).state = .done ∧ (u.bay b).units = (t.bay b).units) := by
  obtain ⟨e, counters, counted, made, ends⟩ := h
  have bay : e.bay b = { t.bay b with
      state := if formPasses (t.bay b).units = [] then .done else .transferring
      passes := formPasses (t.bay b).units, groups := formGroups (t.bay b).units, planning := none } := by
    rw [made, State.bay_modBound, State.bay_modBay_same]
    rfl
  have plans : e.plans.counters = counters := by rw [made]; rfl
  by_cases none : formPasses (t.bay b).units = []
  · rw [if_pos none] at ends bay
    rw [ends, State.bay_post, State.post_plans, plans, bay]
    exact ⟨rfl, rfl, by simp, counted, fun _ => ⟨rfl, rfl⟩⟩
  · rw [if_neg none] at ends bay
    obtain ⟨plans', -, -, planning, replan, state⟩ := admissionRun_frame e b
    rw [ends, plans', plans, planning, replan, bay]
    exact ⟨rfl, rfl, state (by rw [bay]; simp), counted, fun empty => absurd empty none⟩

theorem resumeUnits_nil {t : State} {b : BayId} (none : ∀ x ∈ plannedUnits t b,
    ¬(x.decision = some .flash ∧ x.kind = some .resume)) : resumeUnits t b = [] := by
  refine List.map_eq_nil_iff.mpr (List.filter_eq_nil_iff.mpr fun x mem => ?_)
  simpa using none x mem

theorem resumeUnits_cons {t : State} {b : BayId} {x : JobUnit} (mem : x ∈ plannedUnits t b)
    (resumes : x.decision = some .flash ∧ x.kind = some .resume) : ∃ d, resumeUnits t b = d :: (resumeUnits t b).tail := by
  cases list : resumeUnits t b with
  | cons d rest => exact ⟨d, rfl⟩
  | nil =>
    have here := List.filter_eq_nil_iff.mp (List.map_eq_nil_iff.mp list) x mem
    simp [resumes] at here

/-! ### The notices (R34 to R37) -/

/-- A bay with one notice fewer. -/
def noticed (s : State) (b : BayId) : State := s.modBay b fun y => { y with notices := y.notices - 1 }

theorem bay_noticed (s : State) (b : BayId) : (noticed s b).bay b = { s.bay b with notices := (s.bay b).notices - 1 } :=
  State.bay_modBay_same _ _ _

theorem execActivationNotice_eq {s : State} {b : BayId} (waits : 0 < (s.bay b).notices) :
    exec (.activationNotice b) s = .next ((noticed s b).takeNotice b).arbitrate := by
  rw [exec_activationNotice, execActivationNotice, if_neg (by omega)]
  rfl

theorem takeNotice_idle {t : State} {b : BayId}
    (state : (t.bay b).state ∈ [BayState.disabled, .empty, .enumerating, .anonymous, .duplicate, .cutoff]) :
    t.takeNotice b = t := by
  simp only [List.mem_cons, List.not_mem_nil, or_false] at state
  rcases state with state | state | state | state | state | state <;> simp only [State.takeNotice, state]

theorem takeNotice_marks {t : State} {b : BayId} (state : (t.bay b).state = .switching ∨
    ((t.bay b).state = .transferring ∧ ∃ q ∈ (t.bay b).passes, q.inFlight = true)) :
    t.takeNotice b = t.modBay b Bay.markReplan := by
  rcases state with state | ⟨state, q, mem, flies⟩
  · simp only [State.takeNotice, state]
  · obtain ⟨p, current⟩ : ∃ p, (t.bay b).currentPass = some p := by
      refine Option.ne_none_iff_exists'.mp fun none => ?_
      rw [currentPass_none_iff] at none
      rw [none q mem] at flies
      cases flies
    simp only [State.takeNotice, state, current]

theorem markReplan_again {y : Bay} (pending : y.replanPending = true) : y.markReplan = y := if_pos pending

theorem markReplan_first {y : Bay} (fresh : y.replanPending = false) : y.markReplan = { y with
    replanPending := true
    passes := (y.passes.filter fun q => decide (q.phase ≠ .waiting)).map fun q => { q with refetched := 0 }
    units := y.units.map fun u =>
      if u.addr ∈ (y.passes.filter fun q => decide (q.phase = .waiting)).flatMap (·.members) then
        { u with progress := some .pending, claim := none } else u } := by
  have waits : (y.passes.filter fun p => p.phase == .waiting) = y.passes.filter fun q => decide (q.phase = .waiting) :=
    waitingPasses_eq y
  have others : (y.passes.filter fun p => p.phase != .waiting) = y.passes.filter fun q => decide (q.phase ≠ .waiting) :=
    List.filter_congr fun q _ => by by_cases wait : q.phase = .waiting <;> simp [wait]
  rw [Bay.markReplan, if_neg (by rw [fresh]; exact nofun)]
  simp only [Bay.discardWaiting, Bay.modUnits, waits, others, List.contains_iff_mem]

/-- A bay that plans anew does so with the engine as it is, or with the GAPS of its planning draining (R36). -/
theorem takeNotice_plans {t : State} {b : BayId} (state : (t.bay b).state = .done ∨ (t.bay b).state = .planning ∨
    ((t.bay b).state = .transferring ∧ ∀ q ∈ (t.bay b).passes, q.inFlight = false)) : ∃ g : Engine,
      t.takeNotice b = (t.modBay b fun y => { y with engine := g }).startPlanning b ∧
      ((t.bay b).state ≠ .planning → g = (t.bay b).engine) ∧
      ((t.bay b).state = .planning → Drains (t.bay b).engine g) := by
  have still : (t.modBay b fun y => { y with engine := (t.bay b).engine }) = t :=
    (State.modBay_eq t b rfl).trans (State.modBay_self t b)
  rcases state with state | state | ⟨state, idle⟩
  · refine ⟨(t.bay b).engine, ?_, fun _ => rfl, fun other => by rw [state] at other; cases other⟩
    rw [still]
    simp only [State.takeNotice, state]
  · refine ⟨(t.bay b).drainEngine.engine, ?_, fun other => absurd state other, fun _ => drains_drainEngine _⟩
    have drained : t.modBay b Bay.drainEngine = t.modBay b fun y => { y with engine := (t.bay b).drainEngine.engine } :=
      State.modBay_eq t b (drainEngine_eq _)
    rw [← drained]
    simp only [State.takeNotice, state]
  · refine ⟨(t.bay b).engine, ?_, fun _ => rfl, fun other => by rw [state] at other; cases other⟩
    rw [still]
    simp only [State.takeNotice, state, (currentPass_none_iff _).mpr idle]

/-- Settles O37, by the bay's state. -/
theorem activationNoticeTaken : Obligations.ActivationNoticeTaken := by
  unfold Obligations.ActivationNoticeTaken
  intro s b
  refine ⟨fun none => ?_, fun waits => ?_⟩
  · rw [exec_activationNotice, execActivationNotice, if_pos none]
  intro taken gone planned
  rw [execActivationNotice_eq waits]
  have bay := bay_noticed s b
  have stateOf : ((noticed s b).bay b).state = (s.bay b).state := by rw [bay]
  refine ⟨fun idle => ?_, fun marks => ?_, fun plans => ?_⟩
  · rw [takeNotice_idle (by rw [stateOf]; exact idle)]
    rfl
  · rw [takeNotice_marks (by rw [bay]; exact marks)]
    refine ⟨fun again => ?_, fun fresh => ?_⟩
    · have same : (noticed s b).modBay b Bay.markReplan = noticed s b :=
        (State.modBay_eq _ b (g := fun y => y) (by rw [bay]; exact markReplan_again again)).trans (State.modBay_self _ b)
      rw [same]
      rfl
    · refine congrArg (fun u : State => Host.Outcome.next u.arbitrate) (State.modBay_eq _ b ?_)
      rw [bay]
      exact markReplan_first fresh
  · obtain ⟨g, run, keeps, drains⟩ := takeNotice_plans (t := noticed s b) (b := b) (by rw [bay]; exact plans)
    rw [bay] at keeps drains
    obtain ⟨t, eq⟩ : ∃ t, t = (noticed s b).modBay b fun y => { y with engine := g } := ⟨_, rfl⟩
    rw [← eq] at run
    have units : plannedUnits t b = planned := by
      rw [eq, plannedUnits, State.bay_modBay_same, bay]
      rfl
    have tPlans : t.plans = s.plans := by rw [eq]; rfl
    have starts := planningStarts b t
    have only : OnlyBay b s t := eq ▸ ((OnlyBay.refl b s).modBay _).modBay _
    refine ⟨g, t.startPlanning b, by rw [run], only.startPlanning, ?_, keeps, drains, ?_, ?_, ?_⟩
    · cases list : resumeUnits t b with
      | cons d rest =>
        obtain ⟨-, -, -, -, replan, -⟩ := starts.asks d rest list
        exact replan
      | nil =>
        obtain ⟨-, replan, -⟩ := (starts.completes list).leaves
        rw [replan, State.bay_modBay_same]
    · rw [eq] at starts ⊢
      exact starts
    · rintro ⟨x, mem, resumes⟩
      obtain ⟨d, list⟩ := resumeUnits_cons (t := t) (b := b) (by rw [units]; exact mem) resumes
      obtain ⟨state, units', -, -, -, -, -, plans', planning, -⟩ := starts.asks d _ list
      refine ⟨state, units'.trans units, by rw [plans', tPlans], ?_⟩
      rw [planning, tPlans, resumeUnits, units]
    · intro none
      obtain ⟨planning, -, state, counters, empty⟩ :=
        (starts.completes (resumeUnits_nil (by rw [units]; exact none))).leaves
      rw [State.bay_modBay_same] at counters empty
      dsimp only at counters empty
      rw [units] at counters empty
      rw [State.modBay_plans, tPlans] at counters
      exact ⟨planning, state, counters, fun noFlash => empty (formPasses_nil noFlash)⟩

end Sys2Proof

end

/-! The end of a frame and of an attempt (O38, O40). -/

section

namespace Sys2Proof

open Machine

/-! ### The first character of a frame (R142) -/

theorem mem_insertAsc (n x : Nat) : ∀ l : List Nat, x ∈ insertAsc n l ↔ x = n ∨ x ∈ l
  | [] => by simp [insertAsc]
  | m :: rest => by
    rw [insertAsc]
    split
    case isTrue => simp
    case isFalse =>
      split
      case isTrue same => simp [beq_iff_eq.mp same]
      case isFalse =>
        rw [List.mem_cons, List.mem_cons, mem_insertAsc n x rest]
        exact or_left_comm

/-- The sent list of a switch joins in the switch record, or in the record of its group. -/
theorem addSent_eq (y : Bay) (a : Nat) : ∃ sw gs, y.addSent a = { y with switching := sw, groups := gs } := by
  unfold Bay.addSent
  split
  · exact ⟨_, _, rfl⟩
  · split <;> exact ⟨_, _, rfl⟩

theorem startLine_idle {y : Bay} (state : y.engine.state ≠ .sending) : y.startLine = y := by
  unfold Bay.startLine
  split
  case h_1 tr sending transaction => exact absurd sending state
  case h_2 => rfl

/-- The engine whose frame has its first character on the line. -/
def lineStarted (y : Bay) (tr : Transaction) : Engine := { y.engine with transaction := some { tr with started := true } }

theorem startLine_frame {y : Bay} {tr : Transaction} (sending : y.engine.state = .sending)
    (transaction : y.engine.transaction = some tr) : y.startLine = if tr.started then y
      else match tr.request with
        | .switch a => Bay.addSent { y with engine := lineStarted y tr } a
        | _ => { y with engine := lineStarted y tr } := by
  unfold Bay.startLine
  rw [sending, transaction]
  rfl

theorem startLine_sending {y : Bay} {tr : Transaction} (sending : y.engine.state = .sending)
    (transaction : y.engine.transaction = some tr) : ∃ sw gs,
      y.startLine = { y with engine := lineStarted y tr, switching := sw, groups := gs } ∧
      (tr.started = true ∨ tr.request.command ≠ .switch → sw = y.switching ∧ gs = y.groups) := by
  rw [startLine_frame sending transaction]
  split
  case isTrue started =>
    have same : ({ tr with started := true } : Transaction) = tr := by rw [← started]
    refine ⟨y.switching, y.groups, ?_, fun _ => ⟨rfl, rfl⟩⟩
    rw [lineStarted, same, ← transaction]
  case isFalse fresh =>
    split
    case h_1 a request =>
      obtain ⟨sw, gs, eq⟩ := addSent_eq { y with engine := lineStarted y tr } a
      refine ⟨sw, gs, eq, fun other => ?_⟩
      rw [request] at other
      exact other.elim (fun started => absurd started fresh) fun other => absurd rfl other
    case h_2 => exact ⟨y.switching, y.groups, rfl, fun _ => ⟨rfl, rfl⟩⟩

/-- A SWITCH frame to an address is on the line of `z`, and its member has joined the sent list of `y` (R142). -/
def JoinsSent (y z : Bay) (sw : Switch) (a : Nat) : Prop :=
  (∃ tr : Transaction, z.engine.transaction = some tr ∧ tr.started = true ∧ tr.request = .switch a) ∧
  (sw.group = 0 → z.groups = y.groups ∧ ∃ sw' : Switch, z.switching = some sw' ∧
    ∀ x : Nat, x ∈ sw'.soloSent ↔ x = a ∨ x ∈ sw.soloSent) ∧
  (sw.group ≠ 0 → z.switching = some sw ∧
    List.Forall₂ (fun r r' : GroupRecord => r'.group = r.group ∧ r'.members = r.members ∧
      ∀ x : Nat, x ∈ r'.sent ↔ (r.group = sw.group ∧ x = a) ∨ x ∈ r.sent) y.groups z.groups)

theorem JoinsSent.congr {y y' z z' : Bay} {sw : Switch} {a : Nat} (h : JoinsSent y z sw a) (groups : y.groups = y'.groups)
    (transaction : z'.engine.transaction = z.engine.transaction) (groups' : z'.groups = z.groups)
    (switching' : z'.switching = z.switching) : JoinsSent y' z' sw a := by
  unfold JoinsSent at h ⊢
  rw [transaction, groups', switching', ← groups]
  exact h

theorem addSent_table {y : Bay} {sw : Switch} (a : Nat) (switching : y.switching = some sw) :
    (sw.group = 0 → y.addSent a = { y with switching := some { sw with soloSent := insertAsc a sw.soloSent } }) ∧
    (sw.group ≠ 0 → y.addSent a = y.modGroup sw.group fun r => { r with sent := insertAsc a r.sent }) := by
  simp only [Bay.addSent, switching]
  exact ⟨fun solo => if_pos solo, fun grouped => if_neg grouped⟩

theorem startLine_joins {y : Bay} {tr : Transaction} {sw : Switch} {a : Nat} (sending : y.engine.state = .sending)
    (transaction : y.engine.transaction = some tr) (request : tr.request = .switch a) (fresh : tr.started = false)
    (switching : y.switching = some sw) : JoinsSent y y.startLine sw a := by
  have start : y.startLine = Bay.addSent { y with engine := lineStarted y tr } a := by
    rw [startLine_frame sending transaction, fresh, request]
    rfl
  obtain ⟨solo, grouped⟩ := addSent_table (y := { y with engine := lineStarted y tr }) a switching
  rw [start]
  by_cases zero : sw.group = 0
  · rw [solo zero]
    exact ⟨⟨_, rfl, rfl, request⟩, fun _ => ⟨rfl, _, rfl, fun x => mem_insertAsc a x _⟩, fun other => absurd zero other⟩
  · rw [grouped zero]
    refine ⟨⟨_, rfl, rfl, request⟩, fun none => absurd none zero, fun _ => ⟨switching, ?_⟩⟩
    refine List.forall₂_map_right_iff.mpr (List.forall₂_same.mpr fun r _ => ?_)
    dsimp only
    by_cases mine : r.group = sw.group
    · rw [if_pos (beq_iff_eq.mpr mine)]
      exact ⟨rfl, rfl, fun x => by simp [mine, mem_insertAsc]⟩
    · rw [if_neg (by simpa using mine)]
      exact ⟨rfl, rfl, fun x => by simp [mine]⟩

/-! ### The request that waits (R70, R75, R76) -/

/-- A drained attempt ends with no outcome; a request that waits is taken, unless it is that of a held pass. -/
theorem endDrain_table (y : Bay) : y.endDrain = { y with engine := y.endDrain.engine } ∧
    (y.engine.offered = none → y.endDrain.engine.state = .idle ∧ y.endDrain.engine.transaction = none) ∧
    ∀ (r : LineRequest) (act : Activity), y.engine.offered = some (r, act) →
      (act = .pass ∧ y.held = true → y.endDrain.engine.state = .idle ∧ y.endDrain.engine.offered = some (r, act)) ∧
      (act ≠ .pass ∨ y.held = false → Sends y.endDrain r act ∧ y.endDrain.engine.offered = none) := by
  unfold Bay.endDrain Bay.takeOffered
  split
  case h_1 r act _ offered =>
    have waits : y.engine.offered = some (r, act) := offered
    have held : y.endTransaction.held = y.held := rfl
    rw [held, waits]
    split
    case isTrue paused =>
      have paused : act = .pass ∧ y.held = true := by simpa using paused
      refine ⟨rfl, nofun, fun r' act' same => ?_⟩
      cases same
      refine ⟨fun _ => ⟨rfl, waits⟩, fun free => ?_⟩
      rw [paused.1, paused.2] at free
      exact free.elim (fun other => absurd rfl other) nofun
    case isFalse runs =>
      have runs : ¬(act = .pass ∧ y.held = true) := by simpa using runs
      refine ⟨rfl, nofun, fun r' act' same => ?_⟩
      cases same
      exact ⟨fun paused => absurd paused runs, fun _ => ⟨sends_start _ _ _, rfl⟩⟩
  case h_2 none =>
    have empty : y.engine.offered = .none := by
      cases offered : y.engine.offered with
      | none => rfl
      | some x => exact absurd offered (none x.1 x.2 rfl)
    exact ⟨rfl, fun _ => ⟨rfl, rfl⟩, fun r act some => by rw [empty] at some; cases some⟩

/-! ### FRAME_SENT -/

theorem exec_frameSent_idle {s : State} {b : BayId} (state : (s.bay b).engine.state ≠ .sending) :
    exec (.frameSent b) s = .next s := by
  have same : s.modBay b Bay.startLine = s :=
    (State.modBay_eq s b (g := fun y => y) (startLine_idle state)).trans (State.modBay_self s b)
  rw [exec_frameSent, execFrameSent, same, State.frameSent]
  dsimp only
  split
  case h_1 tr sending _ => exact absurd sending state
  case h_2 => rfl

/-- A bay whose frame is out waits for the reply (R70). -/
def awaitsReply (now : Time) (y : Bay) : Bay :=
  { y with engine := { y.engine with state := .awaiting, timerEnd := now + y.config.replyTimeout } }

section

variable {s : State} {b : BayId} {tr : Transaction} (sending : (s.bay b).engine.state = .sending)
  (transaction : (s.bay b).engine.transaction = some tr)

include sending transaction

theorem exec_frameSent_sending : exec (.frameSent b) s =
    if tr.request.command = .block then
      if tr.drained then .next ((s.modBay b Bay.startLine).modBay b Bay.endDrain).arbitrate
      else .next (((s.modBay b Bay.startLine).modBay b Bay.endTransaction).takeBlockSent b).arbitrate
    else .next ((s.modBay b Bay.startLine).modBay b (awaitsReply s.yardTime)).arbitrate := by
  obtain ⟨sw, gs, start, -⟩ := startLine_sending sending transaction
  have bay : (s.modBay b Bay.startLine).bay b = (s.bay b).startLine := State.bay_modBay_same _ _ _
  have state : ((s.modBay b Bay.startLine).bay b).engine.state = .sending := by
    rw [bay, start]
    exact sending
  have started : ((s.modBay b Bay.startLine).bay b).engine.transaction = some { tr with started := true } := by
    rw [bay, start]
    rfl
  rw [exec_frameSent, execFrameSent, State.frameSent]
  simp only [state, started, finish, State.modBay_yardTime]
  rfl

/-- A frame other than BLOCK is followed by the wait for its reply (R70). -/
theorem exec_frameSent_awaits (other : tr.request.command ≠ .block) : ∃ u : State, exec (.frameSent b) s = .next u.arbitrate ∧
    OnlyBay b s u ∧ u.ports = s.ports ∧ u.fleet = s.fleet ∧ u.bay b = awaitsReply s.yardTime (s.bay b).startLine := by
  rw [exec_frameSent_sending sending transaction, if_neg other]
  refine ⟨_, rfl, ((OnlyBay.refl b s).modBay _).modBay _, rfl, rfl, ?_⟩
  rw [State.bay_modBay_same, State.bay_modBay_same]

theorem exec_frameSent_drained (block : tr.request.command = .block) (drained : tr.drained = true) : ∃ u : State,
    exec (.frameSent b) s = .next u.arbitrate ∧ OnlyBay b s u ∧ u.ports = s.ports ∧ u.fleet = s.fleet ∧
      u.bay b = (s.bay b).startLine.endDrain := by
  rw [exec_frameSent_sending sending transaction, if_pos block, if_pos drained]
  refine ⟨_, rfl, ((OnlyBay.refl b s).modBay _).modBay _, rfl, rfl, ?_⟩
  rw [State.bay_modBay_same, State.bay_modBay_same]

end

theorem bay_arbitrate_only (u : State) (b : BayId) : ∃ r, u.arbitrate.bay b = { u.bay b with reader := r } := by
  rcases bay_arbitrate u b with same | cleared
  · exact ⟨(u.bay b).reader, same⟩
  · exact ⟨_, cleared⟩

/-- Settles O38: by the frame's command, then the sent list in both events that start a character. -/
theorem frameSentEnds : Obligations.FrameSentEnds := by
  unfold Obligations.FrameSentEnds
  refine ⟨fun s b => ⟨exec_frameSent_idle, fun tr sending transaction => ?_⟩,
    fun s present ignition b tr a sw c command sending transaction request fresh switching => ?_⟩
  · obtain ⟨sw, gs, start, kept⟩ := startLine_sending sending transaction
    refine ⟨fun other => ?_, fun block drained => ?_⟩
    · obtain ⟨u, run, only, ports, fleet, bay⟩ := exec_frameSent_awaits sending transaction other
      rw [start] at bay
      refine ⟨u, run, only, ports, fleet, ?_⟩
      rw [bay]
      exact ⟨rfl, rfl, rfl, rfl, rfl, fun same => ⟨(kept same).2, (kept same).1⟩⟩
    · obtain ⟨u, run, only, ports, fleet, bay⟩ := exec_frameSent_drained sending transaction block drained
      obtain ⟨rest, empty, waits⟩ := endDrain_table (s.bay b).startLine
      rw [start] at bay rest empty waits
      refine ⟨u, run, only, ports, fleet, ?_⟩
      rw [bay]
      refine ⟨congrArg (·.state) rest, congrArg (·.units) rest, congrArg (·.passes) rest, empty, fun r act offered => ?_⟩
      obtain ⟨paused, runs⟩ := waits r act offered
      refine ⟨paused, fun free => ?_⟩
      obtain ⟨⟨sends, tr', taken, request, activity, retries, polls, undrained, speed⟩, gone⟩ := runs free
      exact ⟨sends, gone, tr', taken, request, activity, retries, polls, undrained,
        speed.trans (congrArg (·.config.speed) rest)⟩
  · rcases command with rfl | rfl
    · refine ⟨ticked s present ignition, exec_yardTimeTick present ignition s, ?_⟩
      rw [bay_ticked]
      obtain ⟨-, -, -, engine⟩ := countStreaming_rest (s.bay b)
      have counted : (s.bay b).countStreaming.switching = (s.bay b).switching ∧
          (s.bay b).countStreaming.groups = (s.bay b).groups := by
        unfold Bay.countStreaming
        split <;> exact ⟨rfl, rfl⟩
      have joins := startLine_joins (y := (s.bay b).countStreaming) (by rw [engine]; exact sending)
        (by rw [engine]; exact transaction) request fresh (counted.1.trans switching)
      refine joins.congr counted.2 ?_ ?_ ?_ <;> unfold Bay.tick <;> dsimp only <;> split <;> rfl
    · obtain ⟨u, run, -, -, -, bay⟩ := exec_frameSent_awaits sending transaction (by rw [request]; exact nofun)
      obtain ⟨r, arbitrated⟩ := bay_arbitrate_only u b
      refine ⟨u.arbitrate, run, ?_⟩
      rw [arbitrated, bay]
      exact (startLine_joins sending transaction request fresh switching).congr rfl rfl rfl rfl

/-! ### The end of an attempt (R70 to R72, R75) -/

section

variable {s : State} {b : BayId} {tr : Transaction} {c : Instr} {frame : List Byte}

theorem exec_attempt_idle (state : (s.bay b).engine.state ≠ .awaiting)
    (ends : c ∈ [Instr.replyReceived b frame, .replyTimeout b, .replyCharacterTimeout b]) : exec c s = .next s := by
  have absent : s.replyAbsent b = .next s := by
    unfold State.replyAbsent
    split
    case h_1 tr awaiting _ => exact absurd awaiting state
    case h_2 => rfl
  simp only [List.mem_cons, List.not_mem_nil, or_false] at ends
  rcases ends with rfl | rfl | rfl
  · rw [exec_replyReceived]
    unfold execReplyReceived
    dsimp only
    split
    case h_1 tr awaiting _ => exact absurd awaiting state
    case h_2 => rfl
  · exact absent
  · exact absent

theorem replyAbsent_awaiting (state : (s.bay b).engine.state = .awaiting)
    (transaction : (s.bay b).engine.transaction = some tr) :
    s.replyAbsent b = .next (s.noReplyAttempt b tr).arbitrate := by
  simp only [State.replyAbsent, state, transaction, finish]

theorem exec_attempt_drained (state : (s.bay b).engine.state = .awaiting)
    (transaction : (s.bay b).engine.transaction = some tr) (drained : tr.drained = true)
    (ends : c ∈ [Instr.replyReceived b frame, .replyTimeout b, .replyCharacterTimeout b]) :
    exec c s = .next (s.modBay b Bay.endDrain).arbitrate := by
  have absent : s.replyAbsent b = .next (s.modBay b Bay.endDrain).arbitrate := by
    rw [replyAbsent_awaiting state transaction, State.noReplyAttempt, if_pos drained]
  simp only [List.mem_cons, List.not_mem_nil, or_false] at ends
  rcases ends with rfl | rfl | rfl
  · rw [exec_replyReceived]
    simp only [execReplyReceived, state, transaction, drained, finish, if_true]
  · exact absent
  · exact absent

/-- What a reply frame, judged, does to the transaction that awaits it (R70 to R72). -/
def judgedReply (s : State) (b : BayId) (tr : Transaction) : Option Reply → State
  | none => s.noReplyAttempt b tr
  | some .notReady => s.notReady b tr
  | some r => s.handBack b tr (.reply r)

theorem exec_replyReceived_awaits (awaits : Awaits s b tr) : exec (.replyReceived b frame) s = .next
    (judgedReply s b tr (judgeReply tr.request (s.gapsBound b tr.request.addr) frame)).arbitrate := by
  obtain ⟨state, transaction, undrained⟩ := awaits
  rw [exec_replyReceived]
  simp only [execReplyReceived, state, transaction, undrained, finish, Bool.false_eq_true, if_false]
  cases judgeReply tr.request (s.gapsBound b tr.request.addr) frame with
  | none => rfl
  | some r => cases r <;> rfl

theorem exec_silent (awaits : Awaits s b tr) (silent : EndsSilent s b tr c) :
    exec c s = .next (s.noReplyAttempt b tr).arbitrate := by
  rcases silent with rfl | rfl | ⟨frame, rfl, none⟩
  · exact replyAbsent_awaiting awaits.1 awaits.2.1
  · exact replyAbsent_awaiting awaits.1 awaits.2.1
  · rw [exec_replyReceived_awaits awaits, none]
    rfl

theorem exec_notReady (awaits : Awaits s b tr)
    (reply : judgeReply tr.request (s.gapsBound b tr.request.addr) frame = some .notReady) :
    exec (.replyReceived b frame) s = .next (s.notReady b tr).arbitrate := by
  rw [exec_replyReceived_awaits awaits, reply]
  rfl

theorem exec_reply (awaits : Awaits s b tr) {r : Reply} (other : r ≠ .notReady)
    (reply : judgeReply tr.request (s.gapsBound b tr.request.addr) frame = some r) :
    exec (.replyReceived b frame) s = .next (s.handBack b tr (.reply r)).arbitrate := by
  rw [exec_replyReceived_awaits awaits, reply]
  cases r with
  | notReady => exact absurd rfl other
  | _ => rfl

/-- A transaction's outcome goes to the activity that offered the request (R70 to R73). -/
theorem exec_endsWith {out : LineOutcome} (ends : EndsWith s b tr out c) :
    exec c s = .next (s.handBack b tr out).arbitrate := by
  obtain ⟨awaits, how⟩ := ends
  cases out with
  | reply r =>
    obtain ⟨other, frame, rfl, reply⟩ := how
    exact exec_reply awaits other reply
  | noReply =>
    obtain ⟨last, silent⟩ := how
    rw [exec_silent awaits silent, State.noReplyAttempt, if_neg (by rw [awaits.2.2]; exact nofun), if_neg (by omega)]
  | notReadyLimit =>
    obtain ⟨last, frame, rfl, reply⟩ := how
    rw [exec_notReady awaits reply, State.notReady, if_neg (by omega)]

end

/-- Settles O40, by the way in which the attempt ends. -/
theorem attemptsEnd : Obligations.AttemptsEnd := by
  unfold Obligations.AttemptsEnd
  intro s b frame
  refine ⟨fun state c => exec_attempt_idle state, fun tr state transaction drained c ends => ?_,
    fun tr c awaits silent again => ?_, fun tr awaits reply again => ?_⟩
  · obtain ⟨rest, empty, waits⟩ := endDrain_table (s.bay b)
    refine ⟨_, exec_attempt_drained state transaction drained ends, (OnlyBay.refl b s).modBay _, rfl, rfl, ?_⟩
    rw [State.bay_modBay_same]
    refine ⟨state_endDrain _, congrArg (·.units) rest, congrArg (·.passes) rest, congrArg (·.switching) rest, empty,
      fun r act offered other => ?_⟩
    obtain ⟨⟨sends, tr', taken, request, activity, retries, polls, undrained, -⟩, gone⟩ := (waits r act offered).2 (.inl other)
    exact ⟨sends, gone, tr', taken, request, activity, retries, polls, undrained⟩
  · rw [exec_silent awaits silent, State.noReplyAttempt, if_neg (by rw [awaits.2.2]; exact nofun), if_pos again]
    refine congrArg (fun u : State => Host.Outcome.next u.arbitrate) (State.modBay_eq s b ?_)
    simp only [Bay.resend, awaits.2.1, Option.map_some]
  · rw [exec_notReady awaits reply, State.notReady, if_pos again]

end Sys2Proof

end

/-! The polls of a POLL_WAIT and of a confirmation round (O41). -/

section

namespace Sys2Proof

open Machine

/-! ### The member to poll (R147) -/

/-- The poll entry `q` comes before `r`: it is due earlier, or at the same time with the lower address (R147). -/
def PolledBefore (q r : Poll) : Prop := q.due < r.due ∨ (q.due = r.due ∧ q.addr < r.addr)

theorem earlierPoll_eq (p q : Poll) : (PolledBefore q p → earlierPoll p q = q) ∧ (PolledBefore p q → earlierPoll p q = p) := by
  simp only [PolledBefore, earlierPoll, Bool.or_eq_true, Bool.and_eq_true, decide_eq_true_eq, beq_iff_eq]
  refine ⟨fun before => if_pos before, fun before => if_neg fun after => ?_⟩
  rcases before, after with ⟨lt | ⟨same, low⟩, lt' | ⟨same', low'⟩⟩
  · exact Nat.lt_asymm lt lt'
  · exact Nat.lt_irrefl _ (same' ▸ lt)
  · exact Nat.lt_irrefl _ (same ▸ lt')
  · exact Nat.lt_asymm low low'

theorem foldl_earlierPoll (q : Poll) : ∀ (l : List Poll) (p : Poll), q ∈ p :: l →
    (∀ r ∈ p :: l, r ≠ q → PolledBefore q r) → l.foldl earlierPoll p = q
  | [], p, mem, _ => (List.mem_singleton.mp mem).symm
  | x :: l, p, mem, first => by
    have head : earlierPoll p x = p ∨ earlierPoll p x = x := by
      unfold earlierPoll
      split
      · exact .inr rfl
      · exact .inl rfl
    refine foldl_earlierPoll q l _ ?_ fun r rest other => ?_
    · by_cases isP : p = q
      · by_cases isX : x = q
        · rw [isP, isX]
          exact List.mem_cons.mpr (.inl (by rcases (isP ▸ isX ▸ head : earlierPoll q q = q ∨ _) with h | h <;> exact h.symm))
        · rw [(earlierPoll_eq p x).2 (isP ▸ first x (by simp) isX), isP]
          exact List.mem_cons_self
      · by_cases isX : x = q
        · rw [(earlierPoll_eq p x).1 (isX ▸ first p (by simp) isP), isX]
          exact List.mem_cons_self
        · simp only [List.mem_cons] at mem
          rcases mem with same | same | later
          · exact absurd same.symm isP
          · exact absurd same.symm isX
          · exact List.mem_cons_of_mem _ later
    · rcases List.mem_cons.mp rest with same | later
      · rcases head with left | right
        · exact first r (by rw [same, left]; simp) other
        · exact first r (by rw [same, right]; simp) other
      · exact first r (by simp [later]) other

theorem duePoll_none {now : Time} {polls : List Poll} (early : ∀ q ∈ polls, now < q.due) : duePoll now polls = none := by
  have empty : (polls.filter fun p => decide (p.due ≤ now)) = [] :=
    List.filter_eq_nil_iff.mpr fun q mem => by simpa using early q mem
  rw [duePoll, empty]

theorem duePoll_first {now : Time} {polls : List Poll} {q : Poll} (mem : q ∈ polls) (due : q.due ≤ now)
    (first : ∀ r ∈ polls, r ≠ q → PolledBefore q r) : duePoll now polls = some q := by
  have here : q ∈ polls.filter fun p => decide (p.due ≤ now) := List.mem_filter.mpr ⟨mem, by simpa using due⟩
  unfold duePoll
  split
  case h_1 none =>
    rw [none] at here
    cases here
  case h_2 p rest list =>
    rw [list] at here
    refine congrArg some (foldl_earlierPoll q rest p here fun r mem => first r ?_)
    exact List.mem_of_mem_filter (list ▸ mem)

/-! ### Polling (R147) -/

theorem pollDue_only (y : Bay) (now : Time) : y.pollDue now = { y with engine := (y.pollDue now).engine } := by
  unfold Bay.pollDue
  split
  · rfl
  · split
    · split
      · exact Bay.offer_only _ _ _
      · rfl
    · rfl

section

variable {y : Bay} {now : Time} {sw : Switch} (switching : y.switching = some sw)

include switching

theorem pollDue_idle (idle : sw.todo ≠ [] ∨ ¬LineFree y ∨ duePoll now sw.polls = none) : y.pollDue now = y := by
  simp only [Bay.pollDue, switching]
  split
  case isFalse => rfl
  case isTrue runs =>
    simp only [Bool.and_eq_true, List.isEmpty_iff, decide_eq_true_eq, Option.isNone_iff_eq_none] at runs
    obtain ⟨⟨todo, state⟩, offered⟩ := runs
    rcases idle with some | busy | none
    · exact absurd todo some
    · exact absurd ⟨state, offered⟩ busy
    · rw [none]

theorem pollDue_offers (todo : sw.todo = []) (free : LineFree y) {q : Poll} (due : duePoll now sw.polls = some q) :
    y.pollDue now = y.startFrame (.identify q.addr) .confirm := by
  simp only [Bay.pollDue, switching, todo, free.1, free.2, due, Bay.offer, List.isEmpty_nil, Option.isNone_none, decide_true,
    Bool.and_self, if_true]

end

/-! ### A member that fails its switch (R139, R146, R148) -/

theorem post_modBay (s : State) (b : BayId) (f : Bay → Bay) (k : EventKind) (x : Subject) :
    (s.post k x).modBay b f = (s.modBay b f).post k x := rfl

theorem bay_faultUnit (s : State) (b : BayId) (a : Nat) (r : FaultReason) (c : LineCommand) (k : Option Nat) :
    (s.faultUnit b a r c k).bay b = (s.bay b).modUnit a (JobUnit.faultWith r c k) := by
  rw [State.faultUnit, State.bay_post, State.bay_modBay_same]

/-- The poll entries of the members other than one. -/
def pollsWithout (sw : Switch) (a : Nat) : Switch := { sw with polls := sw.polls.filter fun r => decide (r.addr ≠ a) }

theorem failSwitch_eq {s : State} {b : BayId} {sw : Switch} (switching : (s.bay b).switching = some sw) (a : Nat)
    (c : LineCommand) : s.failSwitch b a c =
      (s.modBay b fun y => { y with switching := some (pollsWithout sw a) }).faultUnit b a .switchFailed c none := by
  have others : (sw.polls.filter fun p => p.addr != a) = sw.polls.filter fun r => decide (r.addr ≠ a) :=
    List.filter_congr fun p _ => by by_cases same : p.addr = a <;> simp [same]
  rw [State.failSwitch, State.faultUnit, State.faultUnit, post_modBay, State.modBay_modBay, State.modBay_modBay]
  refine congrArg (fun t : State => t.post .unitFault (.bayUnit b a)) (State.modBay_eq s b ?_)
  have same : (((s.bay b).modUnit a (JobUnit.faultWith .switchFailed c none)).switching.map fun w : Switch =>
      { w with polls := w.polls.filter fun p => p.addr != a }) = some (pollsWithout sw a) := by
    rw [show ((s.bay b).modUnit a _).switching = some sw from switching, Option.map_some, others]
    rfl
  rw [Bay.modPolls, same]
  rfl

/-! ### The commands of the confirmation round -/

theorem exec_pollIntervalEnd_idle {s : State} {b : BayId} (state : (s.bay b).engine.state ≠ .pollWait) :
    exec (.pollIntervalEnd b) s = .next s := by
  rw [exec_pollIntervalEnd]
  unfold execPollIntervalEnd
  dsimp only
  split
  case h_1 tr waits _ => exact absurd waits state
  case h_2 => rfl

theorem exec_pollIntervalEnd_waits {s : State} {b : BayId} {tr : Transaction} (state : (s.bay b).engine.state = .pollWait)
    (transaction : (s.bay b).engine.transaction = some tr) : exec (.pollIntervalEnd b) s =
      if tr.activity = .pass ∧ (s.bay b).held = true ∧ (s.bay b).engine.pollHeld = true then
        .next (s.modBay b fun y => { y with engine := { y.engine with pollEnded := true } }).arbitrate
      else .next (s.modBay b fun y => y.resend id).arbitrate := by
  rw [exec_pollIntervalEnd]
  simp only [execPollIntervalEnd, state, transaction, finish, Bool.and_eq_true, decide_eq_true_eq, and_assoc]

theorem identifyOutstanding_iff {y : Bay} {a : Nat} : y.identifyOutstanding a = true ↔ y.engine.state ≠ .idle ∧
    ∃ tr : Transaction, y.engine.transaction = some tr ∧ tr.activity = .confirm ∧ tr.request = .identify a := by
  unfold Bay.identifyOutstanding
  cases transaction : y.engine.transaction <;> simp

theorem deadlineOf_eq {y : Bay} {sw : Switch} {q : Poll} (switching : y.switching = some sw) (mem : q ∈ sw.polls)
    (only : ∀ r ∈ sw.polls, r.addr = q.addr → r = q) : y.deadlineOf q.addr = some q.deadline := by
  have found : (sw.polls.find? fun p => p.addr == q.addr) = some q := by
    cases find : sw.polls.find? fun p => p.addr == q.addr with
    | none => exact absurd (List.find?_eq_none.mp find q mem) (by simp)
    | some r => rw [only r (List.mem_of_find?_eq_some find) (by simpa using List.find?_some find)]
  simp only [Bay.deadlineOf, switching, Option.bind_some, found, Option.map_some]

theorem exec_confirmationDeadline_eq {s : State} {b : BayId} {a : Nat} {d : Time}
    (deadline : (s.bay b).deadlineOf a = some d) : exec (.confirmationDeadline b a) s =
      if d ≤ s.yardTime ∧ ¬(s.bay b).identifyOutstanding a = true then
        .next ((s.failSwitch b a .identify).settleRound b).arbitrate
      else .next s := by
  rw [exec_confirmationDeadline]
  simp only [execConfirmationDeadline, deadline, finish, Bool.and_eq_true, decide_eq_true_eq, Bool.not_eq_true']
  simp only [Bool.not_eq_true]

/-- The first stage of a switch has ended: no SWITCH is to be offered, waits or is outstanding (R146). -/
theorem inFirstStage_ended {y : Bay} {sw : Switch} (todo : sw.todo = [])
    (transaction : ∀ tr : Transaction, y.engine.transaction = some tr → tr.activity ≠ .switch)
    (offered : ∀ (r : LineRequest) (act : Activity), y.engine.offered = some (r, act) → act ≠ .switch) :
    y.inFirstStage sw = false := by
  have line : (match y.engine.transaction with
      | some tr => tr.activity == .switch && !tr.drained
      | none => false) = false := by
    split
    case h_1 tr outstanding => simp [transaction tr outstanding]
    case h_2 => rfl
  have waits : (match y.engine.offered with
      | some (_, act) => act == .switch
      | none => false) = false := by
    split
    case h_1 r act some => simpa using offered r act some
    case h_2 => rfl
  simp only [Bay.inFirstStage, todo, List.isEmpty_nil, Bool.not_true, Bool.false_or, Bool.or_eq_false_iff]
  exact ⟨line, waits⟩

/-- While members remain in it, the round goes on, and only the engine may take a poll (R147). -/
theorem settleRound_goesOn {s : State} {b : BayId} {sw : Switch} (switching : (s.bay b).switching = some sw)
    (remains : sw.todo ≠ [] ∨ sw.polls ≠ []) : ∃ g : Engine,
      s.settleRound b = s.modBay b fun y => { y with engine := g } := by
  have still : s = s.modBay b fun y => { y with engine := (s.bay b).engine } :=
    ((State.modBay_eq s b rfl).trans (State.modBay_self s b)).symm
  simp only [State.settleRound, switching]
  split
  case isTrue => exact ⟨_, still⟩
  case isFalse ended =>
    have todo : sw.todo = [] := by
      by_contra some
      exact ended (by simp [Bay.inFirstStage, some])
    have polls : sw.polls ≠ [] := remains.resolve_left (not_not.mpr todo)
    rw [if_neg (by simpa using polls)]
    exact ⟨_, State.modBay_eq s b (pollDue_only _ _)⟩

theorem settleRound_ends {s : State} {b : BayId} {sw : Switch} (switching : (s.bay b).switching = some sw)
    (ended : (s.bay b).inFirstStage sw = false) (polls : sw.polls = []) : s.settleRound b = s.endSwitch b sw := by
  simp only [State.settleRound, switching, ended, polls, List.isEmpty_nil, if_true, Bool.false_eq_true, if_false]

/-- Settles O41, command by command. -/
theorem pollsAndConfirmation : Obligations.PollsAndConfirmation := by
  unfold Obligations.PollsAndConfirmation
  intro s b
  have still : s.modBay b (fun y => y) = s := State.modBay_self s b
  refine ⟨exec_pollIntervalEnd_idle, fun tr state transaction => ?_, fun none => ?_, fun sw switching => ⟨fun idle => ?_,
    fun todo state offered q mem due first => ?_⟩, fun addr sw q x switching mem isAddr only unit => ?_⟩
  · rw [exec_pollIntervalEnd_waits state transaction]
    refine ⟨fun paused => if_pos paused, fun runs => ?_⟩
    rw [if_neg fun paused => by
      rcases runs with other | free | early
      · exact other paused.1
      · rw [free] at paused; cases paused.2.1
      · rw [early] at paused; cases paused.2.2]
    refine congrArg (fun u : State => Host.Outcome.next u.arbitrate) (State.modBay_eq s b ?_)
    simp only [Bay.resend, transaction, Option.map_some, id]
  · rw [exec_confirmPollDue, execConfirmPollDue, finish]
    refine congrArg (fun u : State => Host.Outcome.next u.arbitrate) (Eq.trans (State.modBay_eq s b ?_) still)
    simp only [Bay.pollDue, none]
  · rw [exec_confirmPollDue, execConfirmPollDue, finish]
    refine congrArg (fun u : State => Host.Outcome.next u.arbitrate) (Eq.trans (State.modBay_eq s b ?_) still)
    refine pollDue_idle switching ?_
    rcases idle with some | state | offered | early
    · exact .inl some
    · exact .inr (.inl fun free => state free.1)
    · exact .inr (.inl fun free => offered free.2)
    · exact .inr (.inr (duePoll_none early))
  · rw [exec_confirmPollDue, execConfirmPollDue, finish]
    refine congrArg (fun u : State => Host.Outcome.next u.arbitrate) (State.modBay_eq s b ?_)
    exact pollDue_offers switching todo ⟨state, offered⟩ (duePoll_first mem due first)
  · subst isAddr
    have run := exec_confirmationDeadline_eq (deadlineOf_eq switching mem only)
    rw [run]
    refine ⟨fun early => if_neg fun runs => ?_, fun late free => ?_⟩
    · exact early.elim (fun before => Nat.not_lt.mpr runs.1 before) fun out => runs.2 (identifyOutstanding_iff.mpr out)
    rw [if_pos ⟨late, fun out => free (identifyOutstanding_iff.mp out)⟩, failSwitch_eq switching]
    obtain ⟨t, eq⟩ : ∃ t, t = (s.modBay b fun y => { y with switching := some (pollsWithout sw q.addr) }).faultUnit b q.addr
      .switchFailed .identify none := ⟨_, rfl⟩
    have bay : t.bay b = Bay.modUnit { s.bay b with switching := some (pollsWithout sw q.addr) } q.addr
        (JobUnit.faultWith .switchFailed .identify none) := by rw [eq, bay_faultUnit, State.bay_modBay_same]
    have joined : (t.bay b).switching = some (pollsWithout sw q.addr) := by rw [bay]; rfl
    have only : OnlyBay b s t := eq ▸ ((OnlyBay.refl b s).modBay _).faultUnit _ _ _ _
    rw [← eq]
    refine ⟨_, rfl, only.settleRound, fun remains => ?_, fun todo alone transaction offered => ?_⟩
    · obtain ⟨g, goesOn⟩ := settleRound_goesOn joined (by
        refine remains.imp id fun ⟨r, mem, other⟩ none => ?_
        have here : r ∈ (pollsWithout sw q.addr).polls := List.mem_filter.mpr ⟨mem, by simpa using other⟩
        rw [none] at here
        cases here)
      rw [goesOn, State.bay_modBay_same, bay]
      refine ⟨rfl, rfl, rfl, ?_, fun p => ?_⟩
      · refine List.map_congr_left fun v _ => ?_
        simp only [beq_iff_eq, JobUnit.faultWith, Standby.unknown, if_true]
      · rw [State.port_modBay, eq, State.faultUnit]
        rfl
    · have none : pollsWithout sw q.addr = { sw with polls := [] } := by
        have empty : (sw.polls.filter fun r => decide (r.addr ≠ q.addr)) = [] :=
          List.filter_eq_nil_iff.mpr fun r mem => by simpa using alone r mem
        rw [pollsWithout, empty]
      have ended : (t.bay b).inFirstStage (pollsWithout sw q.addr) = false := by
        rw [bay]
        exact inFirstStage_ended todo transaction offered
      rw [settleRound_ends joined ended (by rw [none])]
      rw [none] at eq ⊢
      dsimp only
      rw [← eq]
      exact endsSwitch

end Sys2Proof

end

/-! The blocks of a pass: a read completes (O42). -/

section

namespace Sys2Proof

open Machine

/-! ### Sending a block (R74) -/

/-- A bay whose engine starts the frame of a block that its reader held; the reader asks for the block that follows. -/
def blockStarted (y : Bay) (a n : Nat) (data : List Byte) (following : Option BlockRead) : Bay := { y with
  reader := { waiting := following, buffer := none }
  engine := { y.engine with
    state := .sending, pollEnded := false
    transaction := some { request := .block a n data, activity := .pass, retries := 0, polls := 0, speed := y.config.speed
                          started := true, drained := false } } }

theorem sendBlock_busy {t : State} {b : BayId} (busy : (t.bay b).engine.state ≠ .idle) : t.sendBlock b = t := by
  unfold State.sendBlock
  dsimp only
  split
  case h_1 => rfl
  case h_2 p current =>
    split
    case h_1 a n wants idle => exact absurd idle busy
    case h_2 => rfl

section

variable {t : State} {b : BayId} {before after : List Pass} {p : Pass} {a n : Nat}
  (flies : InFlight (t.bay b) before p after) (idle : (t.bay b).engine.state = .idle)
  (wants : p.wanted (t.store.blocksOf p.image) = some (a, n))

include flies idle wants

theorem sendBlock_buffered {data : List Byte} (buffer : (t.bay b).reader.buffer = some (n, data)) :
    t.sendBlock b = t.modBay b fun y => blockStarted y a n data
      (((t.bay b).following p (t.store.blocksOf p.image)).map fun m => { image := p.image, block := m }) := by
  simp only [State.sendBlock, flies.currentPass, wants, idle, buffer, if_true]
  refine State.modBay_eq t b ?_
  cases (t.bay b).following p (t.store.blocksOf p.image) <;> rfl

/-- With nothing read the engine rests; the reader asks for the wanted block unless a read of the bay is outstanding. -/
theorem sendBlock_unread (buffer : (t.bay b).reader.buffer = none) :
    t.sendBlock b = if t.readOutstanding b then t else t.modBay b fun y => y.askBlock p.image n := by
  simp only [State.sendBlock, flies.currentPass, wants, idle, buffer]

end

/-! ### The block that follows -/

theorem blocksOf_eq {st : ImageStore} {image : Nat} {e : Entry} (found : st.find image = some e) :
    st.blocksOf image = e.blocks := by
  simp only [ImageStore.blocksOf, found]

theorem wanted_streaming {p : Pass} {blocks a : Nat} (phase : p.phase = .streaming) (addr : p.streamAddr = some a)
    (more : p.nextBlock < blocks) : p.wanted blocks = some (a, p.nextBlock) := by
  simp only [Pass.wanted, phase, addr, more, if_true]

theorem wanted_repairing {p : Pass} {blocks a : Nat} {r : Range} {rest : List Range} (phase : p.phase = .repairing)
    (member : p.repairMember = some a) (toSend : p.toSend = r :: rest) : p.wanted blocks = some (a, r.first) := by
  simp only [Pass.wanted, phase, member, toSend]

theorem following_streaming {y : Bay} {p : Pass} {blocks : Nat} (phase : p.phase = .streaming) :
    y.following p blocks = if p.nextBlock + 1 < blocks then some (p.nextBlock + 1) else none := by
  simp only [Bay.following, phase]

theorem following_repairing {y : Bay} {p : Pass} {blocks a : Nat} {r : Range} {rest : List Range}
    (phase : p.phase = .repairing) (member : p.repairMember = some a) (toSend : p.toSend = r :: rest) :
    y.following p blocks = if y.repairSentTo a + 2 ≤ 2 * blocks then
      (if 1 < r.count then some (r.first + 1) else rest.head?.map (·.first)) else none := by
  simp only [Bay.following, phase, member, toSend, dropBlock]
  by_cases more : 1 < r.count
  · rw [if_neg (Nat.not_le.mpr more), if_pos more]
  · rw [if_pos (Nat.not_lt.mp more), if_neg more]
    cases rest <;> simp

/-! ### The bytes of a block (R42) -/

/-- A block holds the image's bytes at its offsets, and 0xFF beyond the image's length. -/
structure HoldsBlock (st : ImageStore) (e : Entry) (k : Nat) (data : List Byte) : Prop where
  size : data.length = 256
  padding : ∀ j : Nat, j < 256 → e.length ≤ 256 * k + j → data[j]? = some 0xFF#8
  bytes : ∀ j a : Nat, j < 256 → 256 * k + j < e.length → e.address st.segmentCount (256 * k + j) = some a →
    data[j]? = some (Memory.read st.mem a)

theorem readBlock_holds {st : ImageStore} (ok : StoreOk st) {e : Entry} (mem : e ∈ st.entries) (k : Nat) :
    ∃ data, st.readBlock e k = some data ∧ HoldsBlock st e k data := by
  have reads : ∃ bytes, st.readBytes e (256 * k) (min 256 (e.length - 256 * k)) = some bytes ∧
      bytes.length = min 256 (e.length - 256 * k) ∧
      ∀ i v, bytes[i]? = some v → ∃ x, e.address st.segmentCount (256 * k + i) = some x ∧ Memory.read st.mem x = v := by
    by_cases within : 256 * k ≤ e.length
    · exact readBytes_spec ok mem _ _ (by omega)
    · rw [show min 256 (e.length - 256 * k) = 0 by omega]
      exact ⟨[], rfl, rfl, by simp⟩
  obtain ⟨bytes, read, size, at_⟩ := reads
  refine ⟨bytes ++ List.replicate (256 - bytes.length) 0xFF#8, by rw [ImageStore.readBlock, read], ?_, ?_, ?_⟩
  · rw [List.length_append, List.length_replicate]
    omega
  · intro j low beyond
    rw [List.getElem?_append_right (by omega), List.getElem?_replicate, if_pos (by omega)]
  · intro j a low inside address
    have short : j < bytes.length := by omega
    rw [List.getElem?_append_left short, List.getElem?_eq_getElem short]
    obtain ⟨x, address', value⟩ := at_ j bytes[j] (List.getElem?_eq_getElem short)
    rw [address] at address'
    cases address'
    rw [value]

/-! ### BLOCK_READ_DONE -/

theorem exec_blockReadDone_idle {s : State} {b : BayId}
    (others : ∀ image k live, s.store.granted ≠ some (.bayRead b image k live)) : exec (.blockReadDone b) s = .next s := by
  rw [exec_blockReadDone]
  unfold execBlockReadDone
  split
  case h_1 c image k live granted =>
    refine if_pos fun same => ?_
    rw [same] at granted
    exact others _ _ _ granted
  case h_2 => rfl

section

variable {s : State} {b : BayId} {image k : Nat} {live : Bool}
  (granted : s.store.granted = some (.bayRead b image k live))

include granted

theorem exec_blockReadDone_discarded (stopped : live = false ∨ (s.bay b).paused = true) :
    exec (.blockReadDone b) s = .next s.endGrant.arbitrate := by
  have discards : (!live || (s.bay b).paused) = true := by simpa using stopped
  rw [exec_blockReadDone]
  simp only [execBlockReadDone, granted, discards, finish, ne_eq, not_true, if_false, if_true]

theorem exec_blockReadDone_live (wanted : live = true) (runs : (s.bay b).paused = false) {e : Entry} {data : List Byte}
    (found : s.store.find image = some e) (read : s.store.readBlock e k = some data) : exec (.blockReadDone b) s =
      .next ((s.endGrant.modBay b fun y =>
        { y with reader := { y.reader with buffer := some (k, data) } }).sendBlock b).arbitrate := by
  rw [exec_blockReadDone]
  simp only [execBlockReadDone, granted, wanted, runs, found, read, finish, ne_eq, not_true, if_false, Bool.not_true,
    Bool.or_self, Bool.false_eq_true]

end

/-- Settles O42, by the granted access and then by what the pass wants. -/
theorem blockReadStartsFrame : Obligations.BlockReadStartsFrame := by
  unfold Obligations.BlockReadStartsFrame
  intro s b
  refine ⟨exec_blockReadDone_idle, fun image k live granted => ⟨exec_blockReadDone_discarded granted,
    fun before after p e wanted runs ok found flies isImage => ?_⟩⟩
  subst isImage
  obtain ⟨data, read, holds⟩ := readBlock_holds ok (find_some found).1 k
  rw [exec_blockReadDone_live granted wanted runs found read]
  obtain ⟨t, eq⟩ : ∃ t, t = s.endGrant.modBay b fun y => { y with reader := { y.reader with buffer := some (k, data) } } :=
    ⟨_, rfl⟩
  have bay : t.bay b = { s.bay b with reader := { (s.bay b).reader with buffer := some (k, data) } } := by
    rw [eq, State.bay_modBay_same]
    rfl
  have blocks : t.store.blocksOf p.image = e.blocks := by
    rw [eq]
    exact blocksOf_eq found
  have flies' : InFlight (t.bay b) before p after := by rw [bay]; exact ⟨flies.list, flies.flying, flies.alone⟩
  rw [← eq]
  refine ⟨data, holds.size, holds.padding, holds.bytes, fun busy => ?_, fun a following idle wants => ?_⟩
  · rw [sendBlock_busy (by rw [bay]; exact busy), eq]
    rfl
  · have idle' : (t.bay b).engine.state = .idle := by rw [bay]; exact idle
    have buffer : (t.bay b).reader.buffer = some (k, data) := by rw [bay]
    have sent : ∀ m, (t.bay b).repairSentTo m = (s.bay b).repairSentTo m := fun m => by rw [bay]; rfl
    have starts : p.wanted (t.store.blocksOf p.image) = some (a, k) ∧
        ((t.bay b).following p (t.store.blocksOf p.image)).map
          (fun m => ({ image := p.image, block := m } : BlockRead)) = following := by
      rw [blocks]
      rcases wants with ⟨phase, addr, rfl, more, rfl⟩ | ⟨phase, member, r, rest, toSend, rfl, rfl⟩
      · refine ⟨wanted_streaming phase addr more, ?_⟩
        rw [following_streaming phase]
        split <;> rfl
      · refine ⟨wanted_repairing phase member toSend, ?_⟩
        rw [following_repairing phase member toSend, sent]
        split <;> rfl
    rw [sendBlock_buffered flies' idle' starts.1 buffer, starts.2, eq, State.modBay_modBay]
    rfl

end Sys2Proof

end

/-! The end of a BLOCK frame (O39). -/

section

namespace Sys2Proof

open Machine

/-! ### Blocks on the line -/

/-- Sending blocks touches the engine and the reader alone. -/
theorem sendBlock_frame (t : State) (b : BayId) : ∃ g r, t.sendBlock b = t.modBay b fun y => { y with engine := g, reader := r } := by
  have still : t = t.modBay b fun y => { y with engine := (t.bay b).engine, reader := (t.bay b).reader } :=
    ((State.modBay_eq t b rfl).trans (State.modBay_self t b)).symm
  unfold State.sendBlock
  dsimp only
  split
  case h_1 => exact ⟨_, _, still⟩
  case h_2 p current =>
    split
    case h_2 => exact ⟨_, _, still⟩
    case h_1 a n wants idle =>
      split
      case h_1 k data buffer =>
        split
        case isFalse => exact ⟨_, _, State.modBay_eq t b rfl⟩
        case isTrue =>
          cases following : (t.bay b).following p (t.store.blocksOf p.image) with
          | none =>
            refine ⟨((t.bay b).startFrame (.block a n data) .pass).engine, { waiting := .none, buffer := .none },
              State.modBay_eq t b ?_⟩
            simp only [following]
            rfl
          | some m =>
            refine ⟨((t.bay b).startFrame (.block a n data) .pass).engine,
              { waiting := some { image := p.image, block := m }, buffer := .none }, State.modBay_eq t b ?_⟩
            simp only [following]
            rfl
      case h_2 =>
        split
        · exact ⟨_, _, still⟩
        · exact ⟨_, _, State.modBay_eq t b rfl⟩

/-- A smoothed value moves a quarter of the way, truncated toward zero (R122, R123). -/
theorem smooth_eq (old sample : Nat) : (smooth old sample : Int) = old + Int.tdiv ((sample : Int) - old) 4 := by
  unfold smooth
  split
  case isTrue up =>
    rw [Int.tdiv_eq_ediv_of_nonneg (by omega)]
    omega
  case isFalse down =>
    rw [show (sample : Int) - old = -((old : Int) - sample) by omega, Int.neg_tdiv, Int.tdiv_eq_ediv_of_nonneg (by omega)]
    omega

theorem rateSample_eq (streamed activeTime : Nat) : rateSample streamed activeTime =
    if activeTime = 0 then 60000 else max 1 (min 60000 (streamed * 256 * 1000 / activeTime)) := rfl

theorem takeRateSample_eq (y : Bay) (p : Pass) : y.takeRateSample p = { y with
    rate := if 64 ≤ p.streamed then smooth y.rate (rateSample p.streamed p.activeTime) else y.rate } := by
  unfold Bay.takeRateSample
  split <;> rfl

/-! ### Entering REPAIR, whatever waits at the engine -/

theorem nextRepairMember_passes {y : Bay} {before after : List Pass} {p : Pass} (flies : InFlight y before p after) :
    ∃ p' : Pass, y.nextRepairMember.passes = before ++ p' :: after ∧ p'.phase = p.phase ∧ p'.image = p.image ∧
      p'.members = p.members ∧ p'.nextBlock = p.nextBlock ∧ p'.streamed = p.streamed ∧ p'.activeTime = p.activeTime ∧
      p'.phaseComplete = p.phaseComplete ∧ y.nextRepairMember.rate = y.rate ∧ y.nextRepairMember.gapRatio = y.gapRatio := by
  unfold Bay.nextRepairMember
  simp only [flies.currentPass]
  split
  case h_1 => exact ⟨p, flies.list, rfl, rfl, rfl, rfl, rfl, rfl, rfl, rfl, rfl⟩
  case h_2 a rest todo =>
    rw [flies.modPass]
    generalize member : Bay.modUnit { y with passes := before ++
      { p with todo := rest, repairMember := some a, toSend := [], firstGaps := true } :: after } a _ = z
    have gaps : z.offerGaps = { z with engine := z.offerGaps.engine } := by
      unfold Bay.offerGaps
      split
      · rfl
      · split
        · exact Bay.offer_only _ _ _
        · rfl
    rw [gaps, ← member]
    exact ⟨_, rfl, rfl, rfl, rfl, rfl, rfl, rfl, rfl, rfl, rfl⟩

theorem enterRepair_passes {y : Bay} {before after : List Pass} {p : Pass} (flies : InFlight y before p after) :
    ∃ p' : Pass, y.enterRepair.passes = before ++ p' :: after ∧ p'.phase = .repairing ∧ p'.image = p.image ∧
      p'.members = p.members ∧ p'.nextBlock = p.nextBlock ∧ p'.streamed = p.streamed ∧ p'.activeTime = p.activeTime ∧
      p'.phaseComplete = false ∧ y.enterRepair.rate = y.rate ∧ y.enterRepair.gapRatio = y.gapRatio := by
  unfold Bay.enterRepair
  rw [flies.modPass]
  exact nextRepairMember_passes (p := { p with
    phase := .repairing, phaseComplete := false, repairMember := none, toSend := [], answered := 0, missingSum := 0
    todo := y.membersWhere p.members JobUnit.streams }) (flies.put rfl rfl)

/-! ### The end of the frame -/

section

variable {s : State} {b : BayId} {tr : Transaction}

theorem exec_frameSent_block (sending : (s.bay b).engine.state = .sending)
    (transaction : (s.bay b).engine.transaction = some tr) (block : tr.request.command = .block)
    (live : tr.drained = false) :
    exec (.frameSent b) s = .next ((s.modBay b Bay.endTransaction).takeBlockSent b).arbitrate := by
  obtain ⟨sw, gs, start, kept⟩ := startLine_sending sending transaction
  obtain ⟨rfl, rfl⟩ := kept (.inr (by rw [block]; exact nofun))
  have ended : (s.modBay b Bay.startLine).modBay b Bay.endTransaction = s.modBay b Bay.endTransaction := by
    rw [State.modBay_modBay]
    refine State.modBay_eq s b ?_
    rw [start]
    rfl
  rw [exec_frameSent_sending sending transaction, if_pos block, if_neg (by rw [live]; exact nofun), ended]

end

section

variable {t : State} {b : BayId} {before after : List Pass} {p : Pass} (flies : InFlight (t.bay b) before p after)

/-- The pass after one more block streamed. -/
def streamedOne (p : Pass) : Pass := { p with nextBlock := p.nextBlock + 1, streamed := p.streamed + 1 }

include flies

theorem takeBlockSent_streaming (phase : p.phase = .streaming) : t.takeBlockSent b =
    let u := t.modBay b fun y => { y with passes := before ++ streamedOne p :: after }
    if p.nextBlock + 1 < t.store.blocksOf p.image then (if (u.bay b).held then u else u.sendBlock b)
    else u.finishStream b (streamedOne p) := by
  have streamed : (t.modBay b fun y => y.modPass fun _ => streamedOne p) =
      t.modBay b fun y => { y with passes := before ++ streamedOne p :: after } := State.modBay_eq t b (flies.modPass _)
  rw [← streamed]
  unfold State.takeBlockSent
  simp only [flies.currentPass]
  split
  case h_1 => rfl
  case h_2 other => exact nomatch phase.symm.trans other
  case h_3 other _ => exact absurd phase other

theorem takeBlockSent_repairing (phase : p.phase = .repairing) {a : Nat} (member : p.repairMember = some a) :
    t.takeBlockSent b = (t.modBay b fun y =>
      { y.modUnit a (fun v => { v with repairSent := v.repairSent + 1 }) with
        passes := before ++ p.repairBlockSent :: after }).repairStep b := by
  simp only [State.takeBlockSent, flies.currentPass, phase, member]
  refine congrArg (fun u : State => u.repairStep b) (State.modBay_eq t b ?_)
  rw [flies.modPass]
  rfl

/-- The end of STREAM: the rate sample is taken, and REPAIR is entered, or waits for the hold set to empty. -/
theorem finishStream_eq : t.finishStream b p =
    let u := t.modBay b fun y => { y.takeRateSample p with passes := before ++ { p with sampleDue := true } :: after }
    if (t.bay b).held then
      t.modBay b fun y => { y.takeRateSample p with
        passes := before ++ { p with sampleDue := true, phaseComplete := true } :: after }
    else u.modBay b Bay.enterRepair := by
  have taken : (t.modBay b fun y => (y.takeRateSample p).modPass fun q => { q with sampleDue := true }) =
      t.modBay b fun y => { y.takeRateSample p with passes := before ++ { p with sampleDue := true } :: after } := by
    refine State.modBay_eq t b ?_
    exact InFlight.modPass (flies.put (by rw [takeRateSample_eq]; exact flies.list) flies.flying) _
  have held : ((t.modBay b fun y => { y.takeRateSample p with
      passes := before ++ { p with sampleDue := true } :: after }).bay b).held = (t.bay b).held := by
    rw [State.bay_modBay_same, takeRateSample_eq]
    rfl
  rw [State.finishStream, taken, State.finishPhase, held]
  dsimp only
  split
  case isFalse => rfl
  case isTrue =>
    rw [State.modBay_modBay]
    refine State.modBay_eq t b ?_
    exact InFlight.modPass (flies.put (z := { (t.bay b).takeRateSample p with
      passes := before ++ { p with sampleDue := true } :: after }) rfl flies.flying) _

end

/-- The bay once the frame's transaction has ended (R70). -/
theorem bay_endTransaction (s : State) (b : BayId) : (s.modBay b Bay.endTransaction).bay b = (s.bay b).endTransaction :=
  State.bay_modBay_same _ _ _

/-- With blocks left to stream the next frame starts when its data has been read, unless the bay is held. -/
theorem streams_on {t : State} {b : BayId} {before after : List Pass} {p : Pass} {e : Entry}
    (flies : InFlight (t.bay b) before p after) (phase : p.phase = .streaming) (idle : (t.bay b).engine.state = .idle)
    (found : t.store.find p.image = some e) (more : p.nextBlock + 1 < e.blocks) : let u := t.takeBlockSent b
    (∃ g r, u = t.modBay b fun y => { y with passes := before ++ streamedOne p :: after, engine := g, reader := r }) ∧
    ((t.bay b).held = true → (u.bay b).engine = (t.bay b).engine ∧ (u.bay b).reader = (t.bay b).reader) ∧
    ((t.bay b).held = false → ∀ (a : Nat) (data : List Byte), p.streamAddr = some a →
      ((t.bay b).reader.buffer = some (p.nextBlock + 1, data) → u.bay b = blockStarted
        { t.bay b with passes := before ++ streamedOne p :: after } a (p.nextBlock + 1) data
        (if p.nextBlock + 2 < e.blocks then some { image := p.image, block := p.nextBlock + 2 } else none)) ∧
      ((t.bay b).reader.buffer = none → (u.bay b).engine = (t.bay b).engine)) := by
  have blocks : t.store.blocksOf p.image = e.blocks := blocksOf_eq found
  have bay : (t.modBay b fun y => { y with passes := before ++ streamedOne p :: after }).bay b =
      { t.bay b with passes := before ++ streamedOne p :: after } := State.bay_modBay_same _ _ _
  have held : ({ t.bay b with passes := before ++ streamedOne p :: after } : Bay).held = (t.bay b).held := rfl
  have still : (t.modBay b fun y => { y with passes := before ++ streamedOne p :: after }) = t.modBay b fun y =>
      { y with passes := before ++ streamedOne p :: after, engine := (t.bay b).engine, reader := (t.bay b).reader } :=
    State.modBay_eq t b rfl
  rw [takeBlockSent_streaming flies phase, blocks, if_pos more, bay, held]
  dsimp only
  by_cases holds : (t.bay b).held = true
  · rw [if_pos holds]
    exact ⟨⟨_, _, still⟩, fun _ => by rw [bay]; exact ⟨rfl, rfl⟩, fun free => by rw [holds] at free; cases free⟩
  rw [if_neg holds]
  refine ⟨?_, fun held => absurd held holds, fun _ a data addr => ?_⟩
  · obtain ⟨g, r, sends⟩ := sendBlock_frame (t.modBay b fun y => { y with passes := before ++ streamedOne p :: after }) b
    exact ⟨g, r, sends.trans (State.modBay_modBay _ _ _ _)⟩
  have flies' : InFlight ((t.modBay b fun y => { y with passes := before ++ streamedOne p :: after }).bay b) before
      (streamedOne p) after := by
    rw [bay]
    exact flies.put rfl flies.flying
  have idle' : ((t.modBay b fun y => { y with passes := before ++ streamedOne p :: after }).bay b).engine.state = .idle := by
    rw [bay]
    exact idle
  have wants : (streamedOne p).wanted ((t.modBay b fun y =>
      { y with passes := before ++ streamedOne p :: after }).store.blocksOf (streamedOne p).image) =
      some (a, p.nextBlock + 1) := by
    rw [State.modBay_store]
    exact (congrArg (streamedOne p).wanted blocks).trans (wanted_streaming (p := streamedOne p) phase addr more)
  refine ⟨fun buffer => ?_, fun buffer => ?_⟩
  · rw [sendBlock_buffered flies' idle' wants (data := data) (by rw [bay]; exact buffer), State.bay_modBay_same, bay,
      State.modBay_store, show t.store.blocksOf (streamedOne p).image = e.blocks from blocks,
      following_streaming (p := streamedOne p) phase]
    refine congrArg (blockStarted _ a (p.nextBlock + 1) data) ?_
    show Option.map _ (if p.nextBlock + 2 < e.blocks then some (p.nextBlock + 2) else none) = _
    split <;> rfl
  · rw [sendBlock_unread flies' idle' wants (by rw [bay]; exact buffer)]
    split
    · rw [bay]
    · rw [State.bay_modBay_same, bay]
      rfl

/-- With the last block streamed the rate sample is taken; REPAIR is entered, unless the bay is held. -/
theorem streams_last {t : State} {b : BayId} {before after : List Pass} {p : Pass} {e : Entry}
    (flies : InFlight (t.bay b) before p after) (phase : p.phase = .streaming)
    (found : t.store.find p.image = some e) (last : p.nextBlock + 1 = e.blocks) : let u := t.takeBlockSent b
    (∃ f : Bay → Bay, u = t.modBay b f) ∧ (u.bay b).state = (t.bay b).state ∧ (u.bay b).gapRatio = (t.bay b).gapRatio ∧
    (u.bay b).rate = ((t.bay b).takeRateSample (streamedOne p)).rate ∧
    ((t.bay b).held = true → (u.bay b).units = (t.bay b).units ∧ (u.bay b).engine = (t.bay b).engine ∧
      (u.bay b).passes = before ++ { streamedOne p with phaseComplete := true, sampleDue := true } :: after) ∧
    ((t.bay b).held = false → ∃ p' : Pass, (u.bay b).passes = before ++ p' :: after ∧ p'.phase = .repairing ∧
      p'.image = p.image ∧ p'.members = p.members ∧ p'.nextBlock = p.nextBlock + 1 ∧ p'.streamed = p.streamed + 1 ∧
      p'.activeTime = p.activeTime ∧ p'.phaseComplete = false) := by
  have flies' : InFlight { t.bay b with passes := before ++ streamedOne p :: after } before (streamedOne p) after :=
    flies.put rfl flies.flying
  rw [takeBlockSent_streaming flies phase, if_neg (by rw [blocksOf_eq found]; omega),
    finishStream_eq (t := t.modBay b fun y => { y with passes := before ++ streamedOne p :: after })
      (by rw [State.bay_modBay_same]; exact flies'), State.bay_modBay_same,
    show ({ t.bay b with passes := before ++ streamedOne p :: after } : Bay).held = (t.bay b).held from rfl]
  dsimp only
  by_cases holds : (t.bay b).held = true
  · rw [if_pos holds, State.modBay_modBay, State.bay_modBay_same, takeRateSample_eq, takeRateSample_eq]
    exact ⟨⟨_, rfl⟩, rfl, rfl, rfl, fun _ => ⟨rfl, rfl, rfl⟩, fun free => by rw [holds] at free; cases free⟩
  · rw [if_neg holds, State.modBay_modBay, State.modBay_modBay, State.bay_modBay_same, takeRateSample_eq, takeRateSample_eq]
    obtain ⟨p', passes, phase', image, members, nextBlock, streamed, active, complete, rate, ratio⟩ :=
      enterRepair_passes (flies'.put (z := { t.bay b with
        rate := if 64 ≤ (streamedOne p).streamed then
          smooth (t.bay b).rate (rateSample (streamedOne p).streamed (streamedOne p).activeTime) else (t.bay b).rate
        passes := before ++ { streamedOne p with sampleDue := true } :: after }) rfl flies.flying)
    exact ⟨⟨_, rfl⟩, state_enterRepair _, ratio, rate, fun held => absurd held holds, fun _ =>
      ⟨p', passes, phase', image, members, nextBlock, streamed, active, complete⟩⟩

theorem rate_taken (rate : Nat) {streamed activeTime sample : Nat} (isSample : sample = rateSample streamed activeTime) :
    let taken := if 64 ≤ streamed then smooth rate (rateSample streamed activeTime) else rate
    (streamed < 64 → taken = rate) ∧ (64 ≤ streamed → (taken : Int) = rate + Int.tdiv ((sample : Int) - rate) 4) := by
  subst isSample
  refine ⟨fun few => if_neg (Nat.not_le.mpr few), fun many => ?_⟩
  rw [if_pos many]
  exact smooth_eq _ _

/-- Settles O39, by the phase of the pass. -/
theorem blockSentAdvances : Obligations.BlockSentAdvances := by
  unfold Obligations.BlockSentAdvances
  refine ⟨fun s b tr before after p e sending transaction block live flies phase found within => ?_,
    fun s b tr before after p a r rest x sending transaction block live offered flies phase member toSend unit => ?_⟩
  · have bay := bay_endTransaction s b
    have flies' : InFlight ((s.modBay b Bay.endTransaction).bay b) before p after := by
      rw [bay]
      exact flies.put flies.list flies.flying
    have only : OnlyBay b s (s.modBay b Bay.endTransaction) := (OnlyBay.refl b s).modBay _
    refine ⟨_, exec_frameSent_block sending transaction block live, only.takeBlockSent, ?_⟩
    by_cases more : p.nextBlock + 1 < e.blocks
    · obtain ⟨⟨g, r, eq⟩, holds, runs⟩ := streams_on flies' phase (by rw [bay]; rfl) found more
      rw [bay] at holds runs
      have after' : ((s.modBay b Bay.endTransaction).takeBlockSent b).bay b = { (s.bay b).endTransaction with
          passes := before ++ streamedOne p :: after, engine := g, reader := r } := by
        rw [eq, State.bay_modBay_same, bay]
      refine ⟨by rw [eq]; rfl, by rw [after']; rfl, by rw [after']; rfl, fun _ => ⟨by rw [after']; rfl, by rw [after']; rfl,
        by rw [after']; rfl, fun held => ?_, fun free a data addr => ?_⟩, fun last => absurd last (by omega)⟩
      · obtain ⟨engine, reader⟩ := holds held
        rw [engine, reader]
        exact ⟨rfl, rfl, rfl⟩
      · obtain ⟨buffered, unread⟩ := runs free a data addr
        refine ⟨fun buffer => ?_, fun buffer => ?_⟩
        · rw [buffered buffer]
          exact ⟨rfl, ⟨_, rfl, rfl, rfl, rfl, rfl⟩, rfl, rfl⟩
        · rw [unread buffer]
          exact ⟨rfl, rfl⟩
    · have last : p.nextBlock + 1 = e.blocks := by omega
      obtain ⟨⟨f, eq⟩, state, ratio, rate, holds, runs⟩ := streams_last flies' phase found last
      rw [bay] at state ratio rate holds runs
      rw [takeRateSample_eq] at rate
      refine ⟨by rw [eq]; rfl, state, ratio, fun more' => absurd more' more, fun _ => ⟨?_, fun held => ?_, fun free => ?_⟩⟩
      · rw [rate]
        exact rate_taken (s.bay b).rate (rateSample_eq (p.streamed + 1) p.activeTime).symm
      · obtain ⟨units, engine, passes⟩ := holds held
        exact ⟨units, by rw [engine]; rfl, passes⟩
      · exact runs free
  · have bay := bay_endTransaction s b
    have flies' : InFlight ((s.modBay b Bay.endTransaction).bay b) before p after := by
      rw [bay]
      exact flies.put flies.list flies.flying
    refine ⟨_, _, exec_frameSent_block sending transaction block live, ((OnlyBay.refl b s).modBay _).takeBlockSent, rfl, ?_,
      ?_⟩
    · rw [State.bay_modBay_same]
      exact Bay.unit_modUnit (f := fun v => { v with repairSent := v.repairSent + 1 }) unit fun _ => rfl
    · have sent : p.repairBlockSent = { p with
          nextBlock := r.first + 1
          toSend := if r.count ≤ 1 then rest else { first := r.first + 1, count := r.count - 1 } :: rest } := by
        simp only [Pass.repairBlockSent, toSend, dropBlock]
      rw [takeBlockSent_repairing flies' phase member, sent, State.modBay_modBay]
      refine goesOnRepairing (p := { p with
          nextBlock := r.first + 1
          toSend := if r.count ≤ 1 then rest else { first := r.first + 1, count := r.count - 1 } :: rest }) ?_ ?_ phase member
      · rw [State.bay_modBay_same]
        exact flies.put rfl flies.flying
      · rw [State.bay_modBay_same]
        exact ⟨rfl, offered⟩

end Sys2Proof

end

/-! A member's fault, and the outcomes of an OPEN (O44, O45). -/

section

namespace Sys2Proof

open Machine

/-! ### Job units after an update -/

theorem Bay.unit_of_units {y z : Bay} {f : JobUnit → JobUnit} (units : z.units = y.units.map f)
    (addr : ∀ u, (f u).addr = u.addr) (a : Nat) : z.unit a = (y.unit a).map f := by
  have same : ((fun u : JobUnit => u.addr == a) ∘ f) = fun u => u.addr == a := funext fun u => by simp [addr]
  rw [Bay.unit, units, List.find?_map, same]
  rfl

theorem addr_of_unit {y : Bay} {a : Nat} {x : JobUnit} (unit : y.unit a = some x) : x.addr = a := by
  simpa using List.find?_some unit

theorem Bay.unit_modUnit_other {y : Bay} {a m : Nat} {f : JobUnit → JobUnit} (other : m ≠ a)
    (addr : ∀ u, (f u).addr = u.addr) : (y.modUnit a f).unit m = y.unit m := by
  rw [Bay.unit_of_units (z := y.modUnit a f) (f := fun u => if u.addr == a then f u else u) rfl
    (fun u => by split <;> simp [addr]) m]
  cases unit : y.unit m with
  | none => rfl
  | some x =>
    have notA : ¬(x.addr == a) = true := by simpa [addr_of_unit unit] using other
    rw [Option.map_some, if_neg notA]

/-! ### A member's fault (R139, R140) -/

/-- The address belongs to a member of the group. -/
def inGroupOf (y : Bay) (g a : Nat) : Bool := (y.groupRecord g).any fun r => r.members.contains a

theorem inGroupOf_iff {y : Bay} {g a : Nat} :
    inGroupOf y g a = true ↔ ∃ r : GroupRecord, y.groupRecord g = some r ∧ a ∈ r.members := by
  simp [inGroupOf, Option.any_eq_true]

theorem flagGroupOf_eq {y : Bay} {a : Nat} {x : JobUnit} (unit : y.unit a = some x) : y.flagGroupOf a = { y with
    groups := y.groups.map fun r => if r.group = x.group then { r with faulted := true } else r
    units := y.units.map fun u => if inGroupOf y x.group u.addr then u.deferForFault else u } := by
  unfold Bay.flagGroupOf
  rw [unit]
  dsimp only
  cases record : y.groupRecord x.group with
  | none =>
    have unmarked : (y.groups.map fun r => if r.group = x.group then { r with faulted := true } else r) = y.groups := by
      rw [List.map_congr_left fun r mem => if_neg (by simpa using List.find?_eq_none.mp record r mem)]
      exact List.map_id _
    have undeferred : (y.units.map fun u => if inGroupOf y x.group u.addr then u.deferForFault else u) = y.units := by
      rw [List.map_congr_left fun u _ => if_neg (by rw [inGroupOf, record]; exact nofun)]
      exact List.map_id _
    dsimp only
    rw [unmarked, undeferred]
  | some r =>
    have marked : (y.groups.map fun q => if q.group == x.group then { q with faulted := true } else q) =
        y.groups.map fun r => if r.group = x.group then { r with faulted := true } else r :=
      List.map_congr_left fun q _ => by simp only [beq_iff_eq]
    have deferred : (y.units.map fun u => if r.members.contains u.addr then u.deferForFault else u) =
        y.units.map fun u => if inGroupOf y x.group u.addr then u.deferForFault else u :=
      List.map_congr_left fun u _ => by rw [inGroupOf, record, Option.any_some]
    rw [← marked, ← deferred]
    rfl

/-- What a member's fault makes of a unit of its bay. -/
def afterFault (y : Bay) (x : JobUnit) (a : Nat) (reason : FaultReason) (command : LineCommand) (block : Option Nat)
    (v : JobUnit) : JobUnit :=
  if v.addr = a then v.faultWith reason command block
  else if inGroupOf y x.group v.addr then v.deferForFault else v

section

variable {s : State} {b : BayId} {a : Nat} {x : JobUnit} (unit : (s.bay b).unit a = some x) (reason : FaultReason)
  (command : LineCommand) (block : Option Nat)

include unit

theorem bay_faultMember : (s.faultMember b a reason command block).bay b = { s.bay b with
    groups := (s.bay b).groups.map fun r => if r.group = x.group then { r with faulted := true } else r
    units := (s.bay b).units.map (afterFault (s.bay b) x a reason command block) } := by
  have unit' : ((s.bay b).modUnit a (JobUnit.faultWith reason command block)).unit a =
      some (x.faultWith reason command block) := Bay.unit_modUnit unit fun _ => rfl
  rw [State.faultMember, State.bay_modBay_same, bay_faultUnit, flagGroupOf_eq unit']
  have units : ((s.bay b).modUnit a (JobUnit.faultWith reason command block)).units.map (fun u =>
      if inGroupOf ((s.bay b).modUnit a (JobUnit.faultWith reason command block)) (x.faultWith reason command block).group
        u.addr then u.deferForFault else u) =
      (s.bay b).units.map (afterFault (s.bay b) x a reason command block) := by
    refine (List.map_map).trans (List.map_congr_left fun v _ => ?_)
    have same : ∀ m, inGroupOf ((s.bay b).modUnit a (JobUnit.faultWith reason command block))
        (x.faultWith reason command block).group m = inGroupOf (s.bay b) x.group m := fun _ => rfl
    simp only [Function.comp, same, afterFault, beq_iff_eq]
    by_cases mine : v.addr = a
    · rw [if_pos mine, if_pos mine]
      exact ite_eq_right_iff.mpr fun _ => if_neg (by simp [JobUnit.faultWith])
    · rw [if_neg mine, if_neg mine]
  rw [units]
  rfl

theorem unit_faultMember : ((s.faultMember b a reason command block).bay b).unit a =
    some (x.faultWith reason command block) := by
  have addr : ∀ v, (afterFault (s.bay b) x a reason command block v).addr = v.addr := fun v => by
    unfold afterFault JobUnit.deferForFault
    split
    · rfl
    · split
      · split <;> rfl
      · rfl
  rw [Bay.unit_of_units (y := s.bay b) (f := afterFault (s.bay b) x a reason command block)
    (by rw [bay_faultMember unit]) addr, unit, Option.map_some, afterFault, if_pos (addr_of_unit unit)]

end

theorem port_faultMember (s : State) (b : BayId) (a : Nat) (reason : FaultReason) (command : LineCommand)
    (block : Option Nat) (p : PortId) :
    (s.faultMember b a reason command block).port p = (s.post .unitFault (.bayUnit b a)).port p := rfl

theorem faultWith_eq (x : JobUnit) (reason : FaultReason) (command : LineCommand) (block : Option Nat) :
    x.faultWith reason command block = { x with
      progress := some (.faulted reason), claim := none
      fault := some { reason := reason, command := command, block := block }
      knownStandby := if reason = .switchFailed then { image := 0, version := Version.zero, state := .blank }
        else x.knownStandby } := rfl

theorem faultWith_other (x : JobUnit) {reason : FaultReason} (command : LineCommand) (block : Option Nat)
    (other : reason ≠ .switchFailed) : x.faultWith reason command block = { x with
      progress := some (.faulted reason), claim := none
      fault := some { reason := reason, command := command, block := block } } := by
  rw [faultWith_eq, if_neg other]

/-- Settles O44, from what a fault makes of each unit. -/
theorem memberFaults : Obligations.MemberFaults := by
  unfold Obligations.MemberFaults
  intro s b a reason command block x unit
  dsimp only
  refine ⟨(OnlyBay.refl b s).faultMember a reason command block, rfl, port_faultMember s b a reason command block, ?_⟩
  rw [bay_faultMember unit]
  refine ⟨rfl, rfl, rfl, rfl, List.forall₂_map_right_iff.mpr (List.forall₂_same.mpr fun v _ =>
    ⟨fun mine => ?_, fun other grouped verified => ?_, fun other alone => ?_⟩)⟩
  · rw [afterFault, if_pos mine, faultWith_eq]
  · rw [afterFault, if_neg other, if_pos (inGroupOf_iff.mpr grouped), JobUnit.deferForFault, if_pos verified]
  · rw [afterFault, if_neg other]
    refine ite_eq_right_iff.mpr fun grouped => if_neg fun verified => alone ⟨inGroupOf_iff.mp grouped, verified⟩

/-! ### The outcomes of an OPEN (R127 to R131) -/

/-- The bay whose transaction has ended has its line free when no request waits. -/
theorem lineFree_ended {s : State} {b : BayId} (offered : (s.bay b).engine.offered = none) :
    LineFree ((s.modBay b Bay.endTransaction).bay b) := by
  rw [bay_endTransaction]
  exact ⟨rfl, offered⟩

theorem inFlight_ended {s : State} {b : BayId} {before after : List Pass} {p : Pass}
    (flies : InFlight (s.bay b) before p after) : InFlight ((s.modBay b Bay.endTransaction).bay b) before p after := by
  rw [bay_endTransaction]
  exact flies.put flies.list flies.flying

theorem unit_ended {s : State} {b : BayId} {a : Nat} {x : JobUnit} (unit : (s.bay b).unit a = some x) :
    ((s.modBay b Bay.endTransaction).bay b).unit a = some x := by
  rw [bay_endTransaction]
  exact unit

section

variable {s : State} {b : BayId} {tr : Transaction} {out : LineOutcome}

theorem handBack_open {a image length blocks : Nat} {version : Version} {join resume : Bool} (pass : tr.activity = .pass)
    (request : tr.request = .openBank a image version length blocks join resume) :
    s.handBack b tr out = (s.modBay b Bay.endTransaction).takeOpen b a resume out := by
  simp only [State.handBack, pass, request]

/-- After an outcome the next OPEN is offered, unless the bay is held; after the last one the phase is finished. -/
theorem continueOpen_goesOn {t : State} {before after : List Pass} {p : Pass} (flies : InFlight (t.bay b) before p after)
    (free : LineFree (t.bay b)) : let u := t.continueOpen b
    (p.todo ≠ [] → ((t.bay b).held = true → u = t) ∧ ((t.bay b).held = false → OffersOpen t u b before p after)) ∧
    (p.todo = [] → FinishesPhase t u b before p after (FollowsOpen t u b before p after)) := by
  have eq : t.continueOpen b = if p.todo = [] then t.finishOpen b p
      else if (t.bay b).held then t else t.offerOpen b := by
    simp only [State.continueOpen, flies.currentPass]
    cases p.todo <;> rfl
  rw [eq]
  refine ⟨fun some => ?_, fun none => ?_⟩
  · rw [if_neg some]
    exact ⟨fun held => if_pos held, fun runs => by
      rw [if_neg (by rw [runs]; exact nofun)]
      exact offersOpen flies free⟩
  · rw [if_pos none]
    exact finishesOpen flies free

theorem opens_on {c : Instr} {t : State} {before after : List Pass} {p : Pass}
    (run : exec c s = .next (t.continueOpen b).arbitrate) (only : OnlyBay b s t) (flies : InFlight (t.bay b) before p after)
    (free : LineFree (t.bay b)) (holds : (t.bay b).holds = (s.bay b).holds) : ∃ u : State, exec c s = .next u.arbitrate ∧
      OnlyBay b s u ∧
      (p.todo ≠ [] → ((s.bay b).held = true → u = t) ∧ ((s.bay b).held = false → OffersOpen t u b before p after)) ∧
      (p.todo = [] → FinishesPhase t u b before p after (FollowsOpen t u b before p after)) := by
  have held : (t.bay b).held = (s.bay b).held := by rw [Bay.held, holds]; rfl
  rw [← held]
  exact ⟨_, run, only.continueOpen, continueOpen_goesOn flies free⟩

/-- The outcomes of an OPEN that fault its member, each with the fault's reason (R128). -/
theorem takeOpen_faults {t : State} {a : Nat} {resume : Bool} {reason : FaultReason}
    (faults : (∃ r : RejectReason, out = .reply (.reject r) ∧ (r = .mismatch → resume = false) ∧ reason = .rejected r) ∨
      (out = .noReply ∧ reason = .noReply) ∨ (out = .notReadyLimit ∧ reason = .notReadyLimit)) :
    t.takeOpen b a resume out = (t.faultMember b a reason .openBank none).continueOpen b := by
  rcases faults with ⟨r, rfl, fresh, rfl⟩ | ⟨rfl, rfl⟩ | ⟨rfl, rfl⟩
  · by_cases mismatch : r = .mismatch
    · subst mismatch
      rw [fresh rfl]
      rfl
    · cases r with
      | mismatch => exact absurd rfl mismatch
      | _ => rfl
  · rfl
  · rfl

end

/-- Settles O45, by the outcome. -/
theorem openOutcomes : Obligations.OpenOutcomes := by
  unfold Obligations.OpenOutcomes
  intro s b tr out c a image length blocks version join resume before after p x ends pass request flies phase unit offered
  dsimp only
  have run := exec_endsWith ends
  rw [handBack_open pass request] at run
  have free := lineFree_ended offered
  have flies' := inFlight_ended flies
  have unit' := unit_ended unit
  have only : OnlyBay b s (s.modBay b Bay.endTransaction) := (OnlyBay.refl b s).modBay _
  have holds : ((s.modBay b Bay.endTransaction).bay b).holds = (s.bay b).holds := by rw [bay_endTransaction]; rfl
  have ports : (s.modBay b Bay.endTransaction).ports = s.ports := rfl
  generalize s.modBay b Bay.endTransaction = t at run ports free flies' unit' only holds ⊢
  refine ⟨fun ok => ?_, fun mismatch resumes => ?_, fun reason faults => ?_⟩
  · subst ok
    have bay : (t.modBay b fun y => y.modUnit a (JobUnit.opened resume)).bay b = (t.bay b).modUnit a (JobUnit.opened resume) :=
      State.bay_modBay_same _ _ _
    exact opens_on (t := t.modBay b fun y => y.modUnit a (JobUnit.opened resume)) run (only.modBay _)
      (by rw [bay]; exact flies'.put flies'.list flies'.flying) (by rw [bay]; exact free) (by rw [bay]; exact holds)
  · subst mismatch resumes
    have again : (t.modBay b fun y => (y.modUnit a fun u => { u with kind := some .fresh, missing := none }).modPass fun p =>
          { p with todo := a :: p.todo }) = t.modBay b fun y =>
        { y.modUnit a (fun v => { v with kind := some .fresh, missing := none }) with
          passes := before ++ { p with todo := a :: p.todo } :: after } := by
      refine State.modBay_eq t b (InFlight.modPass (before := before) (p := p) (after := after) ?_ _)
      exact flies'.put flies'.list flies'.flying
    have bay := State.bay_modBay_same t b fun y => { y.modUnit a (fun v => { v with kind := some .fresh, missing := none }) with
      passes := before ++ { p with todo := a :: p.todo } :: after }
    refine opens_on (p := { p with todo := a :: p.todo }) ?_ (only.modBay _) ?_ ?_ ?_
    · rw [run, ← again]
      rfl
    · rw [bay]
      exact flies'.put rfl flies'.flying
    · rw [bay]
      exact free
    · rw [bay]
      exact holds
  · have bay := bay_faultMember unit' reason .openBank none
    have other : reason ≠ .switchFailed := by
      rcases faults with ⟨r, -, -, rfl⟩ | ⟨-, rfl⟩ | ⟨-, rfl⟩ <;> nofun
    rw [takeOpen_faults faults] at run
    refine ⟨opens_on run (only.faultMember _ _ _ _) ?_ ?_ ?_, ?_, fun q => ?_⟩
    · rw [bay]
      exact flies'.put flies'.list flies'.flying
    · rw [bay]
      exact free
    · rw [bay]
      exact holds
    · rw [unit_faultMember unit', faultWith_other x .openBank none other]
    · rw [port_faultMember]
      exact State.port_of_ports (post_ports ports _ _) q

end Sys2Proof

end

/-! The outcomes of a CHECK (O47). -/

section

namespace Sys2Proof

open Machine

/-! ### Going on with CHECK (R136, R138) -/

section

variable {s : State} {b : BayId} {tr : Transaction} {out : LineOutcome}

theorem handBack_check {a : Nat} (pass : tr.activity = .pass) (request : tr.request = .check a) :
    s.handBack b tr out = (s.modBay b Bay.endTransaction).takeCheck b a out := by
  simp only [State.handBack, pass, request]

theorem takeCheck_eq {t : State} {a : Nat} {before after : List Pass} {p : Pass} (flies : InFlight (t.bay b) before p after) :
    t.takeCheck b a out = (t.checkMember b a p.image out).continueCheck b := by
  simp only [State.takeCheck, flies.currentPass]

theorem continueCheck_goesOn {t : State} {before after : List Pass} {p : Pass} (flies : InFlight (t.bay b) before p after)
    (free : LineFree (t.bay b)) : let u := t.continueCheck b
    (p.todo ≠ [] → ((t.bay b).held = true → u = t) ∧ ((t.bay b).held = false → OffersCheck t u b before p after)) ∧
    (p.todo = [] → EndsPass t u b before p after) := by
  have eq : t.continueCheck b = if p.todo = [] then t.endPass b
      else if (t.bay b).held then t else t.modBay b Bay.offerCheck := by
    simp only [State.continueCheck, flies.currentPass]
    cases p.todo <;> rfl
  rw [eq]
  refine ⟨fun some => ?_, fun none => ?_⟩
  · rw [if_neg some]
    exact ⟨fun held => if_pos held, fun runs => by
      rw [if_neg (by rw [runs]; exact nofun)]
      exact offersCheck flies free⟩
  · rw [if_pos none]
    exact endsPass flies

theorem checks_on {c : Instr} {t : State} {before after : List Pass} {p : Pass}
    (run : exec c s = .next (t.continueCheck b).arbitrate) (only : OnlyBay b s t) (flies : InFlight (t.bay b) before p after)
    (free : LineFree (t.bay b)) (holds : (t.bay b).holds = (s.bay b).holds) : ∃ u : State, exec c s = .next u.arbitrate ∧
      OnlyBay b s u ∧
      (p.todo ≠ [] → ((s.bay b).held = true → u = t) ∧ ((s.bay b).held = false → OffersCheck t u b before p after)) ∧
      (p.todo = [] → EndsPass t u b before p after) := by
  have held : (t.bay b).held = (s.bay b).held := by rw [Bay.held, holds]; rfl
  rw [← held]
  exact ⟨_, run, only.continueCheck, continueCheck_goesOn flies free⟩

end

/-! ### A matching digest (R136, R140) -/

/-- The standby bank of a unit at its planned image, in a state. -/
def plannedStandby (v : JobUnit) (state : StandbyState) : Standby := match v.planned with
  | some pl => { image := pl.image, version := pl.version, state := state }
  | none => v.knownStandby

/-- The group has a faulted member. -/
def markedGroup (y : Bay) (g : Nat) : Bool := (y.groupRecord g).any (·.faulted)

theorem markedGroup_iff {y : Bay} {g : Nat} :
    markedGroup y g = true ↔ ∃ r : GroupRecord, y.groupRecord g = some r ∧ r.faulted = true := by
  simp [markedGroup, Option.any_eq_true]

/-- A member whose digest matches, in a group that is marked or not. -/
def verifiedUnit (marked : Bool) (v : JobUnit) : JobUnit :=
  if marked then { v with progress := some .deferredFault, knownStandby := plannedStandby v .verified, claim := none }
  else { v with progress := some .verified, knownStandby := plannedStandby v .verified }

theorem verifyMember_eq {y : Bay} {a : Nat} {x : JobUnit} (unit : y.unit a = some x) :
    y.verifyMember a = y.modUnit a (verifiedUnit (markedGroup y x.group)) := by
  simp only [Bay.verifyMember, unit, markedGroup]
  cases y.groupRecord x.group with
  | none => rfl
  | some r => rfl

/-! ### A member moved into a refetch pass (R137) -/

theorem insertBehind_eq (n : Nat) (q : Pass) {p : Pass} (flying : p.inFlight = true) (after : List Pass) :
    ∀ before : List Pass, (∀ r ∈ before, r.inFlight = false) →
      insertBehind n q (before ++ p :: after) = before ++ p :: (after.take n ++ q :: after.drop n)
  | [], _ => by
    show (if p.inFlight then _ else _) = _
    rw [if_pos flying]
    rfl
  | r :: before, idle => by
    show (if r.inFlight then _ else _) = _
    rw [if_neg (by rw [idle r (by simp)]; exact nofun)]
    exact congrArg (r :: ·) (insertBehind_eq n q flying after before fun r mem => idle r (List.mem_cons_of_mem _ mem))

/-- A member whose image is to be fetched again (R137). -/
def refetched (v : JobUnit) : JobUnit := { v with
  refetchUsed := true, kind := some .fresh, missing := none, gaps := [], more := false, repairSent := 0
  progress := some .pending }

/-- A pass that a member has left for a refetch pass (R137). -/
def leftByMember (p : Pass) (a : Nat) : Pass :=
  { p with members := p.members.filter (fun m => decide (m ≠ a)), refetched := p.refetched + 1 }

/-- The refetch pass of a member (R137). -/
def refetchPass (p : Pass) (x : JobUnit) (a : Nat) : Pass := Pass.form p.image p.group (match x.rule with
  | some n => n
  | none => p.lowestRule) [a]

/-- The passes behind the pass in flight, with the refetch pass of a member (R137 step 4). -/
def withRefetch (p : Pass) (x : JobUnit) (a : Nat) (after : List Pass) : List Pass :=
  after.take p.refetched ++ refetchPass p x a :: after.drop p.refetched

section

variable {y : Bay} {before after : List Pass} {p : Pass} {a : Nat} {x : JobUnit} (flies : InFlight y before p after)

include flies

theorem inFlight_refetch {z : Bay} (passes : z.passes = before ++ leftByMember p a :: withRefetch p x a after) :
    InFlight z before (leftByMember p a) (withRefetch p x a after) := by
  refine ⟨passes, flies.flying, fun q mem => ?_⟩
  simp only [withRefetch, List.mem_append, List.mem_cons] at mem
  have others := flies.alone q
  rw [List.mem_append] at others
  rcases mem with first | near | new | far
  · exact others (.inl first)
  · exact others (.inr (List.mem_of_mem_take near))
  · rw [new]
    rfl
  · exact others (.inr (List.mem_of_mem_drop far))

theorem refetch_eq (unit : y.unit a = some x) : y.refetch a = { y.modUnit a refetched with
    passes := before ++ leftByMember p a :: withRefetch p x a after } := by
  have inserted : insertBehind p.refetched (refetchPass p x a) y.passes = before ++ p :: withRefetch p x a after := by
    rw [flies.list]
    exact insertBehind_eq _ _ flies.flying after before fun r mem => flies.alone r (List.mem_append_left _ mem)
  have members : (p.members.filter fun m => m != a) = p.members.filter fun m => decide (m ≠ a) :=
    List.filter_congr fun m _ => by by_cases same : m = a <;> simp [same]
  have current : ({ y.modUnit a refetched with
      passes := insertBehind p.refetched (refetchPass p x a) y.passes } : Bay).modPass (fun q =>
        { q with members := q.members.filter fun m => m != a, refetched := q.refetched + 1 }) =
      { y.modUnit a refetched with passes := before ++ leftByMember p a :: withRefetch p x a after } := by
    have flies' : InFlight ({ y.modUnit a refetched with
        passes := insertBehind p.refetched (refetchPass p x a) y.passes } : Bay) before p (withRefetch p x a after) :=
      ⟨inserted, flies.flying, (inFlight_refetch (a := a) (x := x) flies (z := { y with
        passes := before ++ leftByMember p a :: withRefetch p x a after }) rfl).alone⟩
    rw [flies'.modPass, members]
    rfl
  rw [← current]
  simp only [Bay.refetch, unit, flies.currentPass]
  rfl

end

/-- The member is refetched once, and faults the second time (R136, R137). -/
theorem refetchOrFault_eq {t : State} {b : BayId} {a : Nat} {x : JobUnit} (unit : (t.bay b).unit a = some x)
    (reason : FaultReason) : t.refetchOrFault b a reason =
      if x.refetchUsed then t.faultMember b a reason .check none else t.modBay b fun y => y.refetch a := by
  simp only [State.refetchOrFault, Bay.refetchUsed, unit]

/-! ### The outcomes (R136) -/

section

variable {t : State} {b : BayId} {a image : Nat} {e : Entry} (found : t.store.find image = some e)

include found

theorem checkMember_digest (crc : BitVec 32) : t.checkMember b a image (.reply (.digest crc)) =
    if crc = e.crc then t.modBay b fun y => y.verifyMember a
    else (t.modBay b fun y => y.modUnit a fun u => { u with knownStandby := Standby.unknown }).refetchOrFault b a .digest := by
  have expected : t.store.expected image = e.crc := by simp only [ImageStore.expected, found]
  unfold State.checkMember
  rw [expected]

/-- A digest that differs, and NOT_COMPLETE, write what the standby bank holds, and then refetch the member or fault it. -/
theorem checkMember_refetches {out : LineOutcome} {bank : JobUnit → Standby} {reason : FaultReason}
    (why : (∃ crc : BitVec 32, out = .reply (.digest crc) ∧ crc ≠ e.crc ∧
        bank = (fun _ => { image := 0, version := Version.zero, state := .blank }) ∧ reason = .digest) ∨
      (out = .reply (.reject .notComplete) ∧ bank = (fun v => plannedStandby v .partlyReceived) ∧
        reason = .rejected .notComplete)) :
    t.checkMember b a image out =
      (t.modBay b fun y => y.modUnit a fun v => { v with knownStandby := bank v }).refetchOrFault b a reason := by
  rcases why with ⟨crc, rfl, differs, rfl, rfl⟩ | ⟨rfl, rfl, rfl⟩
  · rw [checkMember_digest found, if_neg differs]
    rfl
  · unfold State.checkMember
    dsimp only
    rfl

end

theorem checkMember_faults {t : State} {b : BayId} {a image : Nat} {out : LineOutcome} {reason : FaultReason}
    (why : (∃ r : RejectReason, r ≠ .notComplete ∧ out = .reply (.reject r) ∧ reason = .rejected r) ∨
      (out = .noReply ∧ reason = .noReply) ∨ (out = .notReadyLimit ∧ reason = .notReadyLimit)) :
    t.checkMember b a image out = t.faultMember b a reason .check none := by
  rcases why with ⟨r, other, rfl, rfl⟩ | ⟨rfl, rfl⟩ | ⟨rfl, rfl⟩
  · cases r with
    | notComplete => exact absurd rfl other
    | _ => unfold State.checkMember; dsimp only; rfl
  · unfold State.checkMember
    dsimp only
    rfl
  · unfold State.checkMember
    dsimp only
    rfl

/-- Settles O47, by the outcome: verified, refetched or faulted, and then the next CHECK or the end of the pass. -/
theorem checkOutcomes : Obligations.CheckOutcomes := by
  unfold Obligations.CheckOutcomes
  intro s b tr out c a before after p x e ends pass request flies phase unit found offered
  dsimp only
  have run := exec_endsWith ends
  rw [handBack_check pass request, takeCheck_eq (inFlight_ended flies)] at run
  have free := lineFree_ended offered
  have flies' := inFlight_ended flies
  have unit' := unit_ended unit
  have only : OnlyBay b s (s.modBay b Bay.endTransaction) := (OnlyBay.refl b s).modBay _
  have bay := bay_endTransaction s b
  have holds : ((s.modBay b Bay.endTransaction).bay b).holds = (s.bay b).holds := by rw [bay]; rfl
  have replan : ((s.modBay b Bay.endTransaction).bay b).replanPending = (s.bay b).replanPending := by rw [bay]; rfl
  have state : ((s.modBay b Bay.endTransaction).bay b).state = (s.bay b).state := by rw [bay]; rfl
  have marks : markedGroup ((s.modBay b Bay.endTransaction).bay b) x.group = markedGroup (s.bay b) x.group := by
    rw [bay]; rfl
  have ports : (s.modBay b Bay.endTransaction).ports = s.ports := rfl
  have found' : (s.modBay b Bay.endTransaction).store.find p.image = some e := found
  generalize s.modBay b Bay.endTransaction = t at run ports free flies' unit' only holds replan state marks found' ⊢
  clear bay
  have faulted : ∀ {w : State} {v : JobUnit} {reason : FaultReason}, (w.bay b).unit a = some v → w.ports = s.ports →
      reason ≠ .switchFailed → ((w.faultMember b a reason .check none).bay b).unit a = some { v with
        progress := some (.faulted reason), claim := none
        fault := some { reason := reason, command := .check, block := none } } ∧
      ∀ q : PortId, (w.faultMember b a reason .check none).port q = (s.post .unitFault (.bayUnit b a)).port q :=
    fun unit same other => ⟨by rw [unit_faultMember unit, faultWith_other _ .check none other], fun q =>
      State.port_of_ports (post_ports same _ _) q⟩
  have verifies : out = .reply (.digest e.crc) → t.checkMember b a p.image out =
      t.modBay b fun y => y.modUnit a (verifiedUnit (markedGroup (s.bay b) x.group)) := fun ok => by
    rw [ok, checkMember_digest found', if_pos rfl]
    refine State.modBay_eq t b ?_
    rw [verifyMember_eq unit', marks]
  have verifiedBay : ∀ f, (t.modBay b fun y => y.modUnit a f).bay b = (t.bay b).modUnit a f := fun f =>
    State.bay_modBay_same _ _ _
  refine ⟨fun ok => ?_, fun bank reason why => ?_, fun reason why => ?_, fun last ok held calm => ?_⟩
  · rw [verifies ok] at run
    refine ⟨fun unmarked => ?_, fun marked => ?_⟩
    · rw [(Bool.not_eq_true _).mp (mt markedGroup_iff.mp unmarked)] at run
      exact checks_on run (only.modBay _) (by rw [verifiedBay]; exact flies'.put flies'.list flies'.flying)
        (by rw [verifiedBay]; exact free) (by rw [verifiedBay]; exact holds)
    · rw [markedGroup_iff.mpr marked] at run
      exact checks_on run (only.modBay _) (by rw [verifiedBay]; exact flies'.put flies'.list flies'.flying)
        (by rw [verifiedBay]; exact free) (by rw [verifiedBay]; exact holds)
  · rw [checkMember_refetches found' why] at run
    have other : reason ≠ .switchFailed := by
      rcases why with ⟨-, -, -, -, rfl⟩ | ⟨-, -, rfl⟩ <;> nofun
    have known := verifiedBay fun v => { v with knownStandby := bank v }
    have unit'' : ((t.modBay b fun y => y.modUnit a fun v => { v with knownStandby := bank v }).bay b).unit a =
        some { x with knownStandby := bank x } := by
      rw [known]
      exact Bay.unit_modUnit (f := fun v => { v with knownStandby := bank v }) unit' fun _ => rfl
    have only' := only.modBay fun y => y.modUnit a fun v => { v with knownStandby := bank v }
    have ports' : (t.modBay b fun y => y.modUnit a fun v => { v with knownStandby := bank v }).ports = s.ports := ports
    have flies'' : InFlight ((t.modBay b fun y => y.modUnit a fun v => { v with knownStandby := bank v }).bay b) before p
        after := by
      rw [known]
      exact flies'.put flies'.list flies'.flying
    have free' : LineFree ((t.modBay b fun y => y.modUnit a fun v => { v with knownStandby := bank v }).bay b) := by
      rw [known]
      exact free
    have holds' : ((t.modBay b fun y => y.modUnit a fun v => { v with knownStandby := bank v }).bay b).holds =
        (s.bay b).holds := by
      rw [known]
      exact holds
    rw [refetchOrFault_eq unit''] at run
    generalize (t.modBay b fun y => y.modUnit a fun v => { v with knownStandby := bank v }) = w at *
    refine ⟨fun once => ?_, fun twice => ?_⟩
    · have moved : (w.modBay b fun y => y.refetch a) = w.modBay b fun y => { y.modUnit a refetched with
          passes := before ++ leftByMember p a :: withRefetch p x a after } :=
        State.modBay_eq w b (refetch_eq (x := { x with knownStandby := bank x }) flies'' unit'')
      rw [show ({ x with knownStandby := bank x } : JobUnit).refetchUsed = x.refetchUsed from rfl, once,
        if_neg nofun, moved] at run
      have after' := State.bay_modBay_same w b fun y => { y.modUnit a refetched with
        passes := before ++ leftByMember p a :: withRefetch p x a after }
      exact checks_on run (only'.modBay _) (by rw [after']; exact inFlight_refetch flies'' rfl) (by rw [after']; exact free')
        (by rw [after']; exact holds')
    · rw [show ({ x with knownStandby := bank x } : JobUnit).refetchUsed = x.refetchUsed from rfl, twice, if_pos rfl] at run
      have after' := bay_faultMember unit'' reason .check none
      exact ⟨checks_on run (only'.faultMember _ _ _ _) (by rw [after']; exact flies''.put flies''.list flies''.flying)
        (by rw [after']; exact free') (by rw [after']; exact holds'), faulted unit'' ports' other⟩
  · rw [checkMember_faults why] at run
    have other : reason ≠ .switchFailed := by
      rcases why with ⟨r, -, -, rfl⟩ | ⟨-, rfl⟩ | ⟨-, rfl⟩ <;> nofun
    have after' := bay_faultMember unit' reason .check none
    exact ⟨checks_on run (only.faultMember _ _ _ _) (by rw [after']; exact flies'.put flies'.list flies'.flying)
      (by rw [after']; exact free) (by rw [after']; exact holds), faulted unit' ports other⟩
  · have rests := verifiedBay (verifiedUnit (markedGroup (s.bay b) x.group))
    have flies'' : InFlight ((t.modBay b fun y => y.modUnit a (verifiedUnit (markedGroup (s.bay b) x.group))).bay b) before p
        after := by
      rw [rests]
      exact flies'.put flies'.list flies'.flying
    have goesOn := (continueCheck_goesOn flies'' (by rw [rests]; exact free)).2 last
    have ended := goesOn.2 (by rw [rests]; exact replan.trans calm)
    rw [admissionRun_rests fun ⟨_, runs⟩ => by
      rw [State.bay_modBay_same, rests] at runs
      have still : (s.bay b).held = false := by rw [Bay.held, ← holds]; exact runs
      rw [held] at still
      cases still] at ended
    rw [verifies ok, ended] at run
    have bay := State.bay_modBay_same (t.modBay b fun y => y.modUnit a (verifiedUnit (markedGroup (s.bay b) x.group))) b
      fun y => { y with passes := before ++ { p with
        phase := .ended, phaseComplete := false, streamAddr := none, repairMember := none, todo := [], toSend := [] } :: after }
    rw [rests] at bay
    refine ⟨_, run, (only.modBay _).modBay _, ports, ?_⟩
    rw [bay]
    exact ⟨state, free.1, _, rfl, rfl, rfl, rfl, rfl, rfl⟩

end Sys2Proof

end

/-! The outcomes of a GAPS in REPAIR (O46). -/

section

namespace Sys2Proof

open Machine

/-! ### Leaving the repair member at a held bay (R132, R131) -/

/-- A pass that has left its repair member. -/
def memberLeft (p : Pass) : Pass := { p with repairMember := none, toSend := [] }

/-- The state of a bay with one pass of its list written. -/
def withPass (t : State) (b : BayId) (before : List Pass) (p : Pass) (after : List Pass) : State :=
  t.modBay b fun y => { y with passes := before ++ p :: after }

theorem bay_withPass (t : State) (b : BayId) (before : List Pass) (p : Pass) (after : List Pass) :
    (withPass t b before p after).bay b = { t.bay b with passes := before ++ p :: after } := State.bay_modBay_same _ _ _

section

variable {t : State} {b : BayId} {before after : List Pass} {p : Pass} (flies : InFlight (t.bay b) before p after)

include flies

theorem inFlight_withPass {q : Pass} (flying : q.inFlight = true) :
    InFlight ((withPass t b before q after).bay b) before q after := by
  rw [bay_withPass]
  exact flies.put rfl flying

theorem modPass_withPass (f : Pass → Pass) : (t.modBay b fun y => y.modPass f) = withPass t b before (f p) after :=
  State.modBay_eq t b (flies.modPass f)

theorem leaveRepairMember_eq : t.leaveRepairMember b =
    if p.todo = [] then (withPass t b before (memberLeft p) after).finishRepair b (memberLeft p)
    else if (t.bay b).held then withPass t b before (memberLeft p) after
    else (withPass t b before (memberLeft p) after).modBay b Bay.nextRepairMember := by
  have flies' : InFlight ((withPass t b before (memberLeft p) after).bay b) before (memberLeft p) after :=
    inFlight_withPass flies flies.flying
  have held : ((withPass t b before (memberLeft p) after).bay b).held = (t.bay b).held := by rw [bay_withPass]; rfl
  unfold State.leaveRepairMember
  dsimp only
  rw [modPass_withPass flies]
  rw [show ({ p with repairMember := none, toSend := [] } : Pass) = memberLeft p from rfl]
  simp only [flies'.currentPass, held]
  show (match p.todo with
    | [] => _
    | _ :: _ => _) = _
  cases p.todo <;> rfl

variable (held : (t.bay b).held = true)

include held

theorem leaveRepairMember_held (some : p.todo ≠ []) :
    t.leaveRepairMember b = withPass t b before (memberLeft p) after := by
  rw [leaveRepairMember_eq flies, if_neg some, if_pos held]

theorem leaveRepairMember_last (last : p.todo = []) (live : ∃ v ∈ (t.bay b).units, v.addr ∈ p.members ∧ v.isFaulted = false) :
    t.leaveRepairMember b = withPass t b before { memberLeft p with phaseComplete := true } after := by
  have flies' : InFlight ((withPass t b before (memberLeft p) after).bay b) before (memberLeft p) after :=
    inFlight_withPass flies flies.flying
  have held' : ((withPass t b before (memberLeft p) after).bay b).held = true := by rw [bay_withPass]; exact held
  have runs : ¬((withPass t b before (memberLeft p) after).bay b).allFaulted (memberLeft p) = true := by
    rw [bay_withPass, allFaulted_iff]
    obtain ⟨v, mem, member, alive⟩ := live
    intro lost
    rw [lost v mem member] at alive
    cases alive
  rw [leaveRepairMember_eq flies, if_pos last, State.finishRepair, if_neg runs, State.finishPhase, if_pos held',
    modPass_withPass flies']
  exact State.modBay_modBay _ _ _ _

end

/-! ### The first outcomes (R123) -/

theorem gapsCounted_rest (p : Pass) (out : LineOutcome) : ∃ (first due : Bool) (answered missing : Nat),
    gapsCounted p out = { p with firstGaps := first, sampleDue := due, answered := answered, missingSum := missing } := by
  unfold gapsCounted
  split
  · exact ⟨_, _, _, _, rfl⟩
  · split <;> exact ⟨_, _, _, _, rfl⟩

theorem gapsCounted_first {p : Pass} (first : p.firstGaps = true) (ranges : List Range) (more : Bool) :
    (gapsCounted p (.reply (.gaps ranges more))).answered = p.answered + 1 ∧
    (gapsCounted p (.reply (.gaps ranges more))).missingSum = p.missingSum + (ranges.map (·.count)).sum := by
  unfold gapsCounted
  rw [if_neg (by rw [first]; exact nofun)]
  exact ⟨rfl, rfl⟩

/-- The gap ratio after an outcome: with the last member concerned it takes the sample (R123). -/
def ratioCounted (ratio blocks : Nat) (p : Pass) (out : LineOutcome) : Nat :=
  if p.firstGaps = true ∧ p.sampleDue = true ∧ p.todo = [] ∧ (gapsCounted p out).answered ≠ 0 then
    smooth ratio (gapSample (gapsCounted p out).missingSum blocks (gapsCounted p out).answered)
  else ratio

/-- The state in which an outcome's bookkeeping is done and its transaction has ended. -/
def counted (s : State) (b : BayId) (before : List Pass) (p : Pass) (after : List Pass) (out : LineOutcome) : State :=
  s.modBay b fun y => { y with
    engine := { y.engine with state := .idle, transaction := none, pollEnded := false }
    passes := before ++ gapsCounted p out :: after
    gapRatio := ratioCounted (s.bay b).gapRatio (s.store.blocksOf p.image) p out }

theorem bay_counted (s : State) (b : BayId) (before : List Pass) (p : Pass) (after : List Pass) (out : LineOutcome) :
    (counted s b before p after out).bay b = { s.bay b with
      engine := { (s.bay b).engine with state := .idle, transaction := none, pollEnded := false }
      passes := before ++ gapsCounted p out :: after
      gapRatio := ratioCounted (s.bay b).gapRatio (s.store.blocksOf p.image) p out } := State.bay_modBay_same _ _ _

/-- The state in which the ranges of a GAPS list have been written and are to be sent. -/
def listTaken (t : State) (b : BayId) (before : List Pass) (q : Pass) (after : List Pass) (a : Nat) (ranges : List Range)
    (more : Bool) : State :=
  t.modBay b fun y => { y.modUnit a (fun v => { v with gaps := ranges, more := more }) with
    passes := before ++ { q with toSend := ranges } :: after }

section

variable {t : State} {b : BayId} {before after : List Pass} {q : Pass} {a : Nat} {ranges : List Range} {more : Bool}

theorem bay_listTaken : (listTaken t b before q after a ranges more).bay b =
    { (t.bay b).modUnit a (fun v => { v with gaps := ranges, more := more }) with
      passes := before ++ { q with toSend := ranges } :: after } := State.bay_modBay_same _ _ _

theorem inFlight_listTaken (flies : InFlight (t.bay b) before q after) :
    InFlight ((listTaken t b before q after a ranges more).bay b) before { q with toSend := ranges } after := by
  rw [bay_listTaken]
  exact flies.put rfl flies.flying

theorem unit_listTaken {x : JobUnit} (unit : (t.bay b).unit a = some x) :
    ((listTaken t b before q after a ranges more).bay b).unit a = some { x with gaps := ranges, more := more } := by
  rw [bay_listTaken]
  exact Bay.unit_modUnit (f := fun v => { v with gaps := ranges, more := more }) unit fun _ => rfl

end

/-- The state in which an empty GAPS list has been written. -/
def emptyTaken (t : State) (b : BayId) (a : Nat) (more : Bool) : State :=
  t.modBay b fun y => y.modUnit a fun v => { v with gaps := [], more := more }

theorem bay_emptyTaken (t : State) (b : BayId) (a : Nat) (more : Bool) : (emptyTaken t b a more).bay b =
    (t.bay b).modUnit a fun v => { v with gaps := [], more := more } := State.bay_modBay_same _ _ _

theorem inFlight_emptyTaken {t : State} {b : BayId} {before after : List Pass} {q : Pass}
    (flies : InFlight (t.bay b) before q after) (a : Nat) (more : Bool) :
    InFlight ((emptyTaken t b a more).bay b) before q after := by
  rw [bay_emptyTaken]
  exact flies.put flies.list flies.flying

theorem unit_emptyTaken {t : State} {b : BayId} {a : Nat} {x : JobUnit} (unit : (t.bay b).unit a = some x) (more : Bool) :
    ((emptyTaken t b a more).bay b).unit a = some { x with gaps := [], more := more } := by
  rw [bay_emptyTaken]
  exact Bay.unit_modUnit (f := fun v => { v with gaps := [], more := more }) unit fun _ => rfl

theorem handBack_gaps {s : State} {b : BayId} {tr : Transaction} {out : LineOutcome} {a : Nat} (pass : tr.activity = .pass)
    (request : tr.request = .gaps a) :
    s.handBack b tr out = (s.modBay b Bay.endTransaction).takeRepairGaps b a out := by
  simp only [State.handBack, pass, request]

section

variable {s : State} {b : BayId} {tr : Transaction} {out : LineOutcome} {a : Nat} {before after : List Pass} {p : Pass}
  (pass : tr.activity = .pass) (request : tr.request = .gaps a) (flies : InFlight (s.bay b) before p after)

include flies

theorem inFlight_counted (out : LineOutcome) :
    InFlight ((counted s b before p after out).bay b) before (gapsCounted p out) after := by
  obtain ⟨_, _, _, _, rest⟩ := gapsCounted_rest p out
  rw [bay_counted]
  refine flies.put rfl ?_
  rw [rest]
  exact flies.flying

theorem countFirstGaps_ended (out : LineOutcome) :
    (s.modBay b Bay.endTransaction).countFirstGaps b p out = counted s b before p after out := by
  rw [countFirstGaps_eq out (inFlight_ended flies), State.modBay_modBay]
  exact State.modBay_eq s b rfl

include pass request

theorem handBack_noGaps {more : Bool} (list : out = .reply (.gaps [] more)) : s.handBack b tr out =
    (emptyTaken (counted s b before p after out) b a more).leaveRepairMember b := by
  rw [handBack_gaps pass request]
  unfold State.takeRepairGaps
  simp only [(inFlight_ended flies).currentPass, countFirstGaps_ended flies, list, emptyTaken]

theorem handBack_someGaps {r : Range} {rest : List Range} {more : Bool} (list : out = .reply (.gaps (r :: rest) more)) :
    s.handBack b tr out = (listTaken (counted s b before p after out) b before (gapsCounted p out) after a (r :: rest) more
      ).repairStep b := by
  have written : ((counted s b before p after out).modBay b fun y =>
      (y.modUnit a fun u => { u with gaps := r :: rest, more := more }).modPass fun q => { q with toSend := r :: rest }) =
      listTaken (counted s b before p after out) b before (gapsCounted p out) after a (r :: rest) more := by
    refine State.modBay_eq _ b (InFlight.modPass (before := before) (p := gapsCounted p out) (after := after) ?_ _)
    exact (inFlight_counted flies out).put (inFlight_counted flies out).list (inFlight_counted flies out).flying
  rw [← written, handBack_gaps pass request]
  unfold State.takeRepairGaps
  simp only [(inFlight_ended flies).currentPass, countFirstGaps_ended flies, list]

theorem handBack_gapsFault {reason : FaultReason} (why : (∃ r : RejectReason, out = .reply (.reject r) ∧
    reason = .rejected r) ∨ (out = .noReply ∧ reason = .noReply)) : s.handBack b tr out =
      ((counted s b before p after out).faultMember b a reason .gaps none).leaveRepairMember b := by
  rw [handBack_gaps pass request]
  unfold State.takeRepairGaps
  rcases why with ⟨r, rfl, rfl⟩ | ⟨rfl, rfl⟩ <;>
    simp only [(inFlight_ended flies).currentPass, countFirstGaps_ended flies, LineOutcome.fault]

end

/-! ### The first block of the ranges -/

theorem repairSentTo_eq {y : Bay} {a : Nat} {x : JobUnit} (unit : y.unit a = some x) : y.repairSentTo a = x.repairSent := by
  simp only [Bay.repairSentTo, unit]

/-- Within the limit the first listed block is sent, unless the bay is held (R132, R134, R131). -/
theorem repairStep_sends {w : State} {b : BayId} {before after : List Pass} {p : Pass} {a : Nat} {x : JobUnit} {r : Range}
    {rest : List Range} (flies : InFlight (w.bay b) before p after) (idle : (w.bay b).engine.state = .idle)
    (phase : p.phase = .repairing) (member : p.repairMember = some a) (toSend : p.toSend = r :: rest)
    (unit : (w.bay b).unit a = some x) (within : x.repairSent + 1 ≤ 2 * w.store.blocksOf p.image) :
    let u := w.repairStep b
    (∃ g rd, u = w.modBay b fun y => { y with
      passes := before ++ { p with nextBlock := r.first } :: after, engine := g, reader := rd }) ∧
    ((w.bay b).held = true → (u.bay b).engine = (w.bay b).engine ∧ (u.bay b).reader = (w.bay b).reader) ∧
    ((w.bay b).held = false → (w.bay b).reader.buffer = none → w.readOutstanding b = false →
      (u.bay b).reader.waiting = some { image := p.image, block := r.first }) := by
  rw [repairStep_cons flies member toSend, if_neg (by rw [repairSentTo_eq unit]; omega)]
  dsimp only
  have bay := bay_withPass w b before { p with nextBlock := r.first } after
  unfold withPass at bay
  by_cases held : (w.bay b).held = true
  · rw [if_pos held, bay]
    exact ⟨⟨_, _, State.modBay_eq w b rfl⟩, fun _ => ⟨rfl, rfl⟩, fun free => by rw [held] at free; cases free⟩
  · rw [if_neg held]
    refine ⟨?_, fun holds => absurd holds held, fun _ buffer fresh => ?_⟩
    · obtain ⟨g, rd, sends⟩ := sendBlock_frame
        (w.modBay b fun y => { y with passes := before ++ { p with nextBlock := r.first } :: after }) b
      exact ⟨g, rd, sends.trans (State.modBay_modBay _ _ _ _)⟩
    · have fresh' : (w.modBay b fun y =>
          { y with passes := before ++ { p with nextBlock := r.first } :: after }).readOutstanding b = false := by
        unfold State.readOutstanding at fresh ⊢
        rw [bay]
        exact fresh
      have flies' : InFlight ((w.modBay b fun y =>
          { y with passes := before ++ { p with nextBlock := r.first } :: after }).bay b) before
          { p with nextBlock := r.first } after := inFlight_withPass flies flies.flying
      rw [sendBlock_unread (a := a) (n := r.first) flies' (by rw [bay]; exact idle) (wanted_repairing phase member toSend)
        (by rw [bay]; exact buffer), if_neg (by rw [fresh']; exact nofun), State.bay_modBay_same]
      rfl

theorem gapSample_eq (ratio missing blocks answered : Nat) :
    (smooth ratio (gapSample missing blocks answered) : Int) = ratio + Int.tdiv
      (((min 255 (missing * 256 / (blocks * answered)) : Nat) : Int) - ratio) 4 := smooth_eq _ _

theorem ratioCounted_kept {ratio blocks : Nat} {p : Pass} {out : LineOutcome}
    (other : p.firstGaps = false ∨ p.sampleDue = false ∨ p.todo ≠ []) : ratioCounted ratio blocks p out = ratio := by
  refine if_neg fun ⟨first, due, last, _⟩ => ?_
  rcases other with seen | early | some
  · rw [first] at seen
    cases seen
  · rw [due] at early
    cases early
  · exact some last

theorem ratioCounted_list {ratio blocks : Nat} {p : Pass} {ranges : List Range} {more : Bool} (first : p.firstGaps = true)
    (due : p.sampleDue = true) (last : p.todo = []) :
    (ratioCounted ratio blocks p (.reply (.gaps ranges more)) : Int) = ratio + Int.tdiv
      (((min 255 ((p.missingSum + (ranges.map (·.count)).sum) * 256 / (blocks * (p.answered + 1))) : Nat) : Int) - ratio)
      4 := by
  obtain ⟨answered, missing⟩ := gapsCounted_first first ranges more
  rw [ratioCounted, if_pos ⟨first, due, last, by rw [answered]; omega⟩, answered, missing]
  exact gapSample_eq _ _ _ _

/-- The limit of the repair blocks faults the member; at a held bay with members left nothing else starts (R134, R131). -/
theorem repairStep_limit {w : State} {b : BayId} {before after : List Pass} {p : Pass} {a : Nat} {x : JobUnit} {r : Range}
    {rest : List Range} (flies : InFlight (w.bay b) before p after) (member : p.repairMember = some a)
    (toSend : p.toSend = r :: rest) (unit : (w.bay b).unit a = some x)
    (beyond : 2 * w.store.blocksOf p.image < x.repairSent + 1) :
    w.repairStep b = (w.faultMember b a .gapsLimit .block (some r.first)).leaveRepairMember b := by
  rw [repairStep_cons flies member toSend, if_pos (by rw [repairSentTo_eq unit]; omega)]

/-- A member that faults at a held bay leaves its pass there while other members are concerned (R135, R131). -/
theorem faultMember_leaves {w : State} {b : BayId} {before after : List Pass} {p : Pass} {a : Nat} {x : JobUnit}
    (flies : InFlight (w.bay b) before p after) (unit : (w.bay b).unit a = some x) (held : (w.bay b).held = true)
    (some : p.todo ≠ []) (reason : FaultReason) (command : LineCommand) (block : Option Nat) :
    let u := (w.faultMember b a reason command block).leaveRepairMember b
    u.ports = (w.post .unitFault (.bayUnit b a)).ports ∧
    (u.bay b).unit a = .some (x.faultWith reason command block) ∧ (u.bay b).passes = before ++ memberLeft p :: after := by
  have bay := bay_faultMember unit reason command block
  have flies' : InFlight ((w.faultMember b a reason command block).bay b) before p after := by
    rw [bay]
    exact flies.put flies.list flies.flying
  have held' : ((w.faultMember b a reason command block).bay b).held = true := by
    rw [bay]
    exact held
  have left := leaveRepairMember_held flies' held' some
  dsimp only
  rw [left, bay_withPass]
  exact ⟨rfl, unit_faultMember unit reason command block, rfl⟩

theorem counted_keeps (p : Pass) (out : LineOutcome) : (gapsCounted p out).image = p.image ∧
    (gapsCounted p out).phase = p.phase ∧ (gapsCounted p out).repairMember = p.repairMember ∧
    (gapsCounted p out).todo = p.todo ∧ (gapsCounted p out).members = p.members ∧
    (gapsCounted p out).phaseComplete = p.phaseComplete := by
  obtain ⟨_, _, _, _, rest⟩ := gapsCounted_rest p out
  rw [rest]
  exact ⟨rfl, rfl, rfl, rfl, rfl, rfl⟩

/-- Settles O46, by the outcome; the last clause is that of a free line. -/
theorem repairGapsOutcomes : Obligations.RepairGapsOutcomes := by
  unfold Obligations.RepairGapsOutcomes
  intro s b tr out c a before after p x ends pass request flies phase member unit
  dsimp only
  have run := exec_endsWith ends
  obtain ⟨image, phase', member', todo, members, complete⟩ := counted_keeps p out
  have flies' := inFlight_counted flies out
  have only : OnlyBay b s (counted s b before p after out) := (OnlyBay.refl b s).modBay _
  have bay := bay_counted s b before p after out
  have unit' : ((counted s b before p after out).bay b).unit a = some x := by rw [bay]; exact unit
  have held' : ((counted s b before p after out).bay b).held = (s.bay b).held := by rw [bay]; rfl
  refine ⟨fun r rest more list within => ?_, fun r rest more list beyond held some => ?_, fun more list held => ?_,
    fun reason why held some => ?_, fun offered => ?_⟩
  · rw [handBack_someGaps pass request flies list] at run
    obtain ⟨⟨g, rd, eq⟩, holds, runs⟩ := repairStep_sends (inFlight_listTaken (ranges := r :: rest) (more := more) flies')
      (by rw [bay_listTaken, bay]; rfl) (phase'.trans phase) (member'.trans member) rfl (unit_listTaken unit')
      (image ▸ within)
    have after' := congrArg (fun u : State => u.bay b) eq
    dsimp only at after'
    rw [State.bay_modBay_same, bay_listTaken] at after'
    rw [bay_listTaken, bay] at holds runs
    refine ⟨_, run, (only.modBay _).repairStep, by rw [eq]; rfl, ?_, ?_, fun held => ?_, fun free buffer fresh => ?_,
      fun other => ?_, fun first due last => ?_⟩
    · rw [after']
      exact Bay.unit_modUnit (f := fun v => { v with gaps := r :: rest, more := more }) unit' fun _ => rfl
    · rw [after']
      exact ⟨_, rfl, phase'.trans phase, member'.trans member, rfl, rfl, todo, members⟩
    · obtain ⟨engine, reader⟩ := holds held
      rw [engine, reader]
      exact ⟨rfl, rfl⟩
    · rw [runs free buffer ?_]
      · exact congrArg (fun i => some { image := i, block := r.first : BlockRead }) image
      · unfold State.readOutstanding at fresh ⊢
        rw [bay_listTaken, bay]
        exact fresh
    · rw [after', bay]
      exact ratioCounted_kept other
    · rw [after', bay, list]
      exact ratioCounted_list first due last
  · rw [handBack_someGaps pass request flies list, repairStep_limit
      (inFlight_listTaken (ranges := r :: rest) (more := more) flies') (member'.trans member) rfl (unit_listTaken unit')
      (image ▸ beyond)] at run
    obtain ⟨ports, unitAfter, passes⟩ := faultMember_leaves (inFlight_listTaken (ranges := r :: rest) (more := more) flies')
      (unit_listTaken unit') (by rw [bay_listTaken]; exact held'.trans held) (by exact todo ▸ some) .gapsLimit .block
      (.some r.first)
    refine ⟨_, run, ((only.modBay _).faultMember _ _ _ _).leaveRepairMember, fun q => State.port_of_ports ports q, ?_, _,
      passes, rfl, todo⟩
    rw [unitAfter, faultWith_other _ _ _ (reason := .gapsLimit) nofun]
  · rw [handBack_noGaps pass request flies list] at run
    have heldNow : ((emptyTaken (counted s b before p after out) b a more).bay b).held = true := by
      rw [bay_emptyTaken]
      exact held'.trans held
    refine ⟨_, run, (only.modBay _).leaveRepairMember, fun some => ?_, fun last alive mem => ?_⟩
    · rw [leaveRepairMember_held (inFlight_emptyTaken flies' a more) heldNow (by rw [todo]; exact some), bay_withPass]
      exact ⟨rfl, unit_emptyTaken unit' more, _, rfl, phase'.trans phase, rfl, todo, complete⟩
    · have live : ∃ v ∈ ((emptyTaken (counted s b before p after out) b a more).bay b).units,
          v.addr ∈ (gapsCounted p out).members ∧ v.isFaulted = false := by
        refine ⟨_, List.mem_of_find?_eq_some (unit_emptyTaken unit' more), ?_, alive⟩
        rw [members, addr_of_unit (unit_emptyTaken unit' more)]
        exact mem
      rw [leaveRepairMember_last (inFlight_emptyTaken flies' a more) heldNow (todo.trans last) live, bay_withPass]
      exact ⟨rfl, _, rfl, phase'.trans phase, rfl, rfl⟩
  · rw [handBack_gapsFault pass request flies why] at run
    obtain ⟨ports, unitAfter, passes⟩ := faultMember_leaves flies' unit' (held'.trans held) (by rw [todo]; exact some) reason
      .gaps none
    exact ⟨_, run, (only.faultMember _ _ _ _).leaveRepairMember, fun q => State.port_of_ports ports q, unitAfter, _, passes,
      rfl, todo⟩
  · have free : LineFree ((counted s b before p after out).bay b) := by
      rw [bay]
      exact ⟨rfl, offered⟩
    refine ⟨_, _, ratioCounted (s.bay b).gapRatio (s.store.blocksOf p.image) p out, run, (OnlyBay.refl b s).handBack tr out,
      rfl, fun not => if_neg not, fun sampled => ?_, fun more list => ?_, fun r rest more list => ?_, fun reason why => ?_⟩
    · rw [ratioCounted, if_pos sampled]
      exact gapSample_eq _ _ _ _
    · rw [handBack_noGaps pass request flies list]
      exact leavesMember (t := emptyTaken (counted s b before p after out) b a more)
        (inFlight_emptyTaken flies' a more) (by rw [bay_emptyTaken]; exact free)
    · rw [handBack_someGaps pass request flies list]
      exact goesOnRepairing
        (t := listTaken (counted s b before p after out) b before (gapsCounted p out) after a (r :: rest) more)
        (inFlight_listTaken flies') (by rw [bay_listTaken]; exact free) (phase'.trans phase) (member'.trans member)
    · rw [handBack_gapsFault pass request flies why]
      have faulted := bay_faultMember unit' reason .gaps none
      exact leavesMember (t := (counted s b before p after out).faultMember b a reason .gaps none)
        (by rw [faulted]; exact flies'.put flies'.list flies'.flying) (by rw [faulted]; exact free)

end Sys2Proof

end

/-! The outcomes of a planning's GAPS (O48). -/

section

namespace Sys2Proof

open Machine

/-! ### The record bound to a bay -/

theorem bound_modBound_self (s : State) (b : BayId) {f : BusRecord → BusRecord} (keeps : ∀ r, (f r).atBay = r.atBay) :
    (s.modBound b f).bound b = (s.bound b).map f := by
  have same : ((fun r : BusRecord => r.atBay == some b) ∘ fun r => if r.atBay == some b then f r else r) =
      fun r => r.atBay == some b := funext fun r => by
    simp only [Function.comp]
    split <;> simp [keeps]
  rw [State.bound, State.bound, State.modBound, List.find?_map, same]
  cases found : s.fleet.find? fun r => r.atBay == some b with
  | none => rfl
  | some r => rw [Option.map_some, Option.map_some, if_pos (by simpa using List.find?_some found)]

theorem bound_of_fleet {s t : State} (fleet : t.fleet = s.fleet) (b : BayId) : t.bound b = s.bound b := by
  rw [State.bound, fleet, State.bound]

/-! ### What a completed planning leaves (R107) -/

/-- What a completed planning writes to the bound record (R14, R28, R107). -/
theorem PlanningCompletes.bound {b : BayId} {t u : State} {generation : Nat} (h : PlanningCompletes b t u generation)
    {before : BusRecord} (bound : t.bound b = some before) : ∃ after : BusRecord, u.bound b = some after ∧
      after.fleet = before.fleet ∧ after.lastVisit = before.lastVisit ∧ after.splits = before.splits ∧
      after.evaluated = (if generation = 0 then before.evaluated else some generation) ∧
      after.stale = ((t.bay b).units.filter fun v => decide (v.decision = some .flash)).length := by
  obtain ⟨e, counters, -, made, ends⟩ := h
  have fleet : u.fleet = e.fleet := by
    rw [ends]
    split
    · rfl
    · exact (admissionRun_frame e b).2.1
  have base : ({ t with plans := { t.plans with counters := counters } } : State).bound b = some before := bound
  rw [bound_of_fleet fleet, made, bound_modBound_self, bound_modBay, base]
  · exact ⟨_, rfl, rfl, rfl, rfl, rfl, rfl⟩
  · exact fun _ => rfl

/-- At a held bay a completed planning starts nothing (R107, R119). -/
theorem PlanningCompletes.rests {b : BayId} {t u : State} {generation : Nat} (h : PlanningCompletes b t u generation)
    (held : (t.bay b).held = true) : (u.bay b).passes = formPasses (u.bay b).units ∧
      (u.bay b).groups = formGroups (u.bay b).units ∧
      (u.bay b).state = if (u.bay b).passes = [] then .done else .transferring := by
  obtain ⟨e, counters, -, made, ends⟩ := h
  have bay : e.bay b = { t.bay b with
      state := if formPasses (t.bay b).units = [] then .done else .transferring
      passes := formPasses (t.bay b).units, groups := formGroups (t.bay b).units, planning := none } := by
    rw [made, State.bay_modBound, State.bay_modBay_same]
    rfl
  have holds : (e.bay b).held = true := by
    rw [bay]
    exact held
  have same : u.bay b = e.bay b := by
    rw [ends]
    split
    · rfl
    · rw [admissionRun_rests fun ⟨_, free⟩ => by rw [holds] at free; cases free]
  rw [same, bay]
  exact ⟨rfl, rfl, rfl⟩

/-! ### The outcome of a GAPS (R102, R103) -/

/-- What the outcome of a planning's GAPS makes of its unit. -/
def outcomeTaken (t : State) (b : BayId) (a : Nat) : LineOutcome → State
  | .reply (.gaps ranges more) => t.modBay b fun y => y.modUnit a fun u =>
      { u with gaps := ranges, more := more, missing := missingTotal ranges more }
  | .reply (.reject .mismatch) => t.modBay b fun y => y.modUnit a fun u =>
      { u with kind := some .fresh, missing := none, gaps := [], more := false }
  | out => t.faultUnit b a out.fault .gaps none

section

variable {t : State} {b : BayId} {a : Nat} {out : LineOutcome}

theorem outcomeTaken_fault {reason : FaultReason}
    (why : (∃ r : RejectReason, r ≠ .mismatch ∧ out = .reply (.reject r) ∧ reason = .rejected r) ∨
      (out = .noReply ∧ reason = .noReply)) : outcomeTaken t b a out = t.faultUnit b a reason .gaps none := by
  rcases why with ⟨r, other, rfl, rfl⟩ | ⟨rfl, rfl⟩
  · cases r with
    | mismatch => exact absurd rfl other
    | _ => rfl
  · rfl

/-- An outcome writes its unit alone, and neither its decision nor the rule that decided it. -/
theorem outcomeTaken_frame (t : State) (b : BayId) (a : Nat) (out : LineOutcome) : ∃ f : JobUnit → JobUnit,
    (∀ v, (f v).addr = v.addr ∧ (f v).rule = v.rule ∧ (f v).decision = v.decision) ∧
    (outcomeTaken t b a out).bay b = (t.bay b).modUnit a f ∧ (outcomeTaken t b a out).fleet = t.fleet ∧
    (outcomeTaken t b a out).plans = t.plans ∧ OnlyBay b t (outcomeTaken t b a out) := by
  unfold outcomeTaken
  split
  · refine ⟨_, ?_, State.bay_modBay_same _ _ _, rfl, rfl, (OnlyBay.refl b t).modBay _⟩
    exact fun v => ⟨rfl, rfl, rfl⟩
  · refine ⟨_, ?_, State.bay_modBay_same _ _ _, rfl, rfl, (OnlyBay.refl b t).modBay _⟩
    exact fun v => ⟨rfl, rfl, rfl⟩
  · refine ⟨_, ?_, bay_faultUnit _ _ _ _ _ _, rfl, rfl, (OnlyBay.refl b t).faultUnit _ _ _ _⟩
    exact fun v => ⟨rfl, rfl, rfl⟩

variable {pl : Planning} (planning : (t.bay b).planning = some pl)

include planning

theorem planningOf_outcomeTaken (out : LineOutcome) : ((outcomeTaken t b a out).bay b).planning = some pl := by
  obtain ⟨f, -, bay, -⟩ := outcomeTaken_frame t b a out
  rw [bay]
  exact planning

theorem goOnPlanning_next {d : Nat} {rest : List Nat} (list : pl.gapsList = d :: rest) : t.goOnPlanning b a out =
    (outcomeTaken t b a out).modBay b fun y =>
      Bay.offer { y with planning := some { pl with gapsList := rest } } (.gaps d) .planning := by
  have go : t.goOnPlanning b a out = match ((outcomeTaken t b a out).bay b).planning with
      | none => outcomeTaken t b a out
      | some pl => match pl.gapsList with
        | [] => (outcomeTaken t b a out).completePlanning b pl.generation
        | c :: rest => (outcomeTaken t b a out).modBay b fun y =>
            Bay.offer { y with planning := some { pl with gapsList := rest } } (.gaps c) .planning := rfl
  rw [go, planningOf_outcomeTaken planning out]
  simp only [list]

theorem goOnPlanning_last (list : pl.gapsList = []) : t.goOnPlanning b a out =
    (outcomeTaken t b a out).completePlanning b pl.generation := by
  have go : t.goOnPlanning b a out = match ((outcomeTaken t b a out).bay b).planning with
      | none => outcomeTaken t b a out
      | some pl => match pl.gapsList with
        | [] => (outcomeTaken t b a out).completePlanning b pl.generation
        | c :: rest => (outcomeTaken t b a out).modBay b fun y =>
            Bay.offer { y with planning := some { pl with gapsList := rest } } (.gaps c) .planning := rfl
  rw [go, planningOf_outcomeTaken planning out]
  simp only [list]

end

section

variable {s : State} {b : BayId} {tr : Transaction} {out : LineOutcome} {a : Nat} {pl : Planning}
  (activity : tr.activity = .planning) (request : tr.request = .gaps a) (planning : (s.bay b).planning = some pl)

include activity request planning

theorem handBack_planning : s.handBack b tr out = if pl.generation = s.plans.generation then
    (s.modBay b Bay.endTransaction).goOnPlanning b a out else (s.modBay b Bay.endTransaction).restartPlanning b := by
  have stale : (s.modBay b Bay.endTransaction).planningStale b = (pl.generation != s.plans.generation) := by
    have planning' : ((s.modBay b Bay.endTransaction).bay b).planning = some pl := by
      rw [bay_endTransaction]
      exact planning
    rw [State.planningStale, planning', Option.any_some]
    rfl
  simp only [State.handBack, activity, request, State.takePlanningGaps, stale]
  by_cases current : pl.generation = s.plans.generation <;> simp [current]

end

/-- Writes that keep a unit's rule and decision count for neither the match counters nor the stale count. -/
theorem filter_length_map {f : JobUnit → JobUnit} {test : JobUnit → Bool} (units : List JobUnit)
    (keeps : ∀ v, test (f v) = test v) : ((units.map f).filter test).length = (units.filter test).length := by
  have same : test ∘ f = test := funext keeps
  rw [List.filter_map, List.length_map, same]

/-- Settles O48: the next GAPS, the planning's completion, or its restart. -/
theorem planningGapsTaken : Obligations.PlanningGapsTaken := by
  unfold Obligations.PlanningGapsTaken
  intro s b tr out c a x pl ends activity request unit planning
  dsimp only
  have run := exec_endsWith ends
  rw [handBack_planning activity request planning] at run
  have unit' := unit_ended unit
  have planning' : ((s.modBay b Bay.endTransaction).bay b).planning = some pl := by
    rw [bay_endTransaction]
    exact planning
  have only : OnlyBay b s (s.modBay b Bay.endTransaction) := (OnlyBay.refl b s).modBay _
  have bay := bay_endTransaction s b
  obtain ⟨f, keeps, taken, fleet, plans, alone⟩ := outcomeTaken_frame (s.modBay b Bay.endTransaction) b a out
  have written : ∀ v : JobUnit, (if v.addr == a then f v else v).rule = v.rule ∧
      (if v.addr == a then f v else v).decision = v.decision := fun v => by
    split
    · exact (keeps v).2
    · exact ⟨rfl, rfl⟩
  refine ⟨fun d rest current list offered => ?_, fun current list => ?_, fun stale => ?_⟩
  · rw [if_pos current, goOnPlanning_next planning' list] at run
    have free : LineFree { (outcomeTaken (s.modBay b Bay.endTransaction) b a out).bay b with
        planning := some { pl with gapsList := rest } } := by
      rw [taken, bay]
      exact ⟨rfl, offered⟩
    obtain ⟨sending, tr', transaction, request', activity', retries, polls, undrained, -⟩ :=
      sends_offer free (.gaps d) .planning
    have after' := State.bay_modBay_same (outcomeTaken (s.modBay b Bay.endTransaction) b a out) b fun y =>
      Bay.offer { y with planning := some { pl with gapsList := rest } } (.gaps d) .planning
    rw [Bay.offer_only] at after'
    refine ⟨_, run, (only.trans alone).modBay _, fleet, ?_⟩
    rw [after']
    refine ⟨by rw [taken, bay]; rfl, rfl, fun m other => ?_, sending, ⟨tr', transaction, request', activity', retries, polls,
      undrained⟩, fun ranges more isList => ?_, fun mismatch => ?_, fun reason why => ?_⟩
    · show ((outcomeTaken (s.modBay b Bay.endTransaction) b a out).bay b).unit m = _
      rw [taken, Bay.unit_modUnit_other other fun v => (keeps v).1, bay]
      rfl
    · subst isList
      refine ⟨rfl, ?_⟩
      show (((s.modBay b Bay.endTransaction).modBay b fun y => y.modUnit a fun u =>
        { u with gaps := ranges, more := more, missing := missingTotal ranges more }).bay b).unit a = _
      rw [State.bay_modBay_same]
      exact Bay.unit_modUnit (f := fun u => { u with gaps := ranges, more := more, missing := missingTotal ranges more })
        unit' fun _ => rfl
    · subst mismatch
      refine ⟨rfl, ?_⟩
      show (((s.modBay b Bay.endTransaction).modBay b fun y => y.modUnit a fun u =>
        { u with kind := some .fresh, missing := none, gaps := [], more := false }).bay b).unit a = _
      rw [State.bay_modBay_same]
      exact Bay.unit_modUnit (f := fun u => { u with kind := some .fresh, missing := none, gaps := [], more := false })
        unit' fun _ => rfl
    · have other : reason ≠ .switchFailed := by
        rcases why with ⟨r, -, -, rfl⟩ | ⟨-, rfl⟩ <;> nofun
      refine ⟨fun p => by rw [State.port_modBay, outcomeTaken_fault why]; rfl, ?_⟩
      show ((outcomeTaken (s.modBay b Bay.endTransaction) b a out).bay b).unit a = _
      rw [outcomeTaken_fault why, bay_faultUnit, Bay.unit_modUnit (f := JobUnit.faultWith reason .gaps none) unit' fun _ => rfl,
        faultWith_other x .gaps none other]
  · rw [if_pos current, goOnPlanning_last planning' list] at run
    have completes := completesPlanning b (outcomeTaken (s.modBay b Bay.endTransaction) b a out) pl.generation
    obtain ⟨done, -, state, counters, -⟩ := completes.leaves
    have units : ((outcomeTaken (s.modBay b Bay.endTransaction) b a out).bay b).units =
        (s.bay b).units.map fun v => if v.addr == a then f v else v := by
      rw [taken, bay]
      rfl
    refine ⟨_, run, (only.trans alone).completePlanning _, done, state, fun i => ?_, fun held => ?_, fun before bound => ?_, ?_⟩
    · rw [counters i, plans, units, filter_length_map _ fun v => by rw [(written v).1]]
      rfl
    · exact completes.rests (by rw [taken, bay]; exact held)
    · obtain ⟨after, isBound, number, visit, splits, evaluated, stale⟩ :=
        completes.bound (before := before) (by rw [bound_of_fleet (s := s) (fleet.trans rfl)]; exact bound)
      rw [units, filter_length_map _ fun v => by rw [(written v).2]] at stale
      exact ⟨after, isBound, number, visit, splits, evaluated, stale⟩
    · refine ⟨fun ranges more isList => ?_, fun mismatch => ?_, fun reason why => ?_⟩
      · subst isList
        exact completes
      · subst mismatch
        exact completes
      · rw [outcomeTaken_fault why] at completes ⊢
        exact completes
  · rw [if_neg stale] at run
    refine ⟨_, run, ?_⟩
    rw [State.restartPlanning, State.modBay_modBay]
    exact planningStarts b _

end Sys2Proof

end

/-! The outcomes of a SWITCH (O49). -/

section

namespace Sys2Proof

open Machine

/-! ### Going on with a switch (R146, R147, R149) -/

section

variable {w : State} {b : BayId} {sw : Switch} (switching : (w.bay b).switching = some sw)

include switching

theorem continueSwitch_next {d : Nat} {rest : List Nat} (todo : sw.todo = d :: rest) : w.continueSwitch b =
    w.modBay b fun y => Bay.offer { y with switching := some { sw with todo := rest } } (.switch d) .switch := by
  simp only [State.continueSwitch, switching, todo]

theorem continueSwitch_polls (todo : sw.todo = []) (polls : sw.polls ≠ []) :
    w.continueSwitch b = w.modBay b fun y => y.pollDue w.yardTime := by
  have some : sw.polls.isEmpty = false := by simpa using polls
  simp only [State.continueSwitch, switching, todo, some, Bool.false_eq_true, if_false]

theorem continueSwitch_ends (todo : sw.todo = []) (polls : sw.polls = []) : w.continueSwitch b = w.endSwitch b sw := by
  simp only [State.continueSwitch, switching, todo, polls, List.isEmpty_nil, if_true]

/-- A switch that goes on offers its next SWITCH on a free line, or the IDENTIFY of a poll that is due. -/
theorem continueSwitch_goesOn (free : LineFree (w.bay b)) (remains : sw.todo ≠ [] ∨ sw.polls ≠ []) :
    ∃ (sw' : Switch) (g : Engine),
      w.continueSwitch b = w.modBay b (fun y => { y with switching := some sw', engine := g }) ∧
      (∀ (d : Nat) (rest : List Nat), sw.todo = d :: rest → sw' = { sw with todo := rest } ∧
        Sends { w.bay b with engine := g } (.switch d) .switch) ∧
      (sw.todo = [] → sw' = sw ∧ ((∀ q ∈ sw.polls, w.yardTime < q.due) → g = (w.bay b).engine)) := by
  cases todo : sw.todo with
  | cons d rest =>
    have free' : LineFree { w.bay b with switching := some { sw with todo := rest } } := free
    refine ⟨{ sw with todo := rest }, _, (continueSwitch_next switching todo).trans (State.modBay_eq w b
      (Bay.offer_only _ _ _)), fun d' rest' same => ?_, nofun⟩
    cases same
    have sends := sends_offer free' (.switch d) .switch
    rw [Bay.offer_only] at sends
    exact ⟨rfl, sends⟩
  | nil =>
    have polls : sw.polls ≠ [] := remains.resolve_left (not_not.mpr todo)
    have kept : ((w.bay b).pollDue w.yardTime) =
        { w.bay b with switching := some sw, engine := ((w.bay b).pollDue w.yardTime).engine } := by
      rw [← switching]
      exact pollDue_only _ _
    refine ⟨sw, _, (continueSwitch_polls switching todo polls).trans (State.modBay_eq w b kept), nofun, fun _ =>
      ⟨rfl, fun early => ?_⟩⟩
    rw [pollDue_idle switching (.inr (.inr (duePoll_none early)))]

end

/-! ### The outcome of a SWITCH (R146) -/

theorem handBack_switch {s : State} {b : BayId} {tr : Transaction} {out : LineOutcome} {a : Nat}
    (activity : tr.activity = .switch) (request : tr.request = .switch a) :
    s.handBack b tr out = (s.modBay b Bay.endTransaction).takeSwitch b a out := by
  simp only [State.handBack, activity, request]

/-- The poll entry of a member whose SWITCH was answered OK (R146). -/
def firstPoll (s : State) (b : BayId) (a : Nat) : Poll := { addr := a, deadline := s.yardTime + (s.bay b).config.tSwitch
                                                            due := s.yardTime + (s.bay b).config.pollInterval }

section

variable {t : State} {b : BayId} {sw : Switch} (switching : (t.bay b).switching = some sw) (a : Nat)

/-- The state in which a member confirms its switch. -/
def confirming (t : State) (b : BayId) (sw : Switch) (a : Nat) : State := t.modBay b fun y =>
  { y.modUnit a (fun u => { u with progress := some .confirming }) with
    switching := some { sw with polls := sw.polls ++ [firstPoll t b a] } }

theorem bay_confirming (t : State) (b : BayId) (sw : Switch) (a : Nat) : (confirming t b sw a).bay b =
    { (t.bay b).modUnit a (fun u => { u with progress := some .confirming }) with
      switching := some { sw with polls := sw.polls ++ [firstPoll t b a] } } := State.bay_modBay_same _ _ _

/-- The state in which a member has failed its switch. -/
def switchFailed (t : State) (b : BayId) (sw : Switch) (a : Nat) (command : LineCommand) : State :=
  (t.modBay b fun y => { y with switching := some (pollsWithout sw a) }).faultUnit b a .switchFailed command none

theorem bay_switchFailed (t : State) (b : BayId) (sw : Switch) (a : Nat) (command : LineCommand) :
    (switchFailed t b sw a command).bay b = Bay.modUnit { t.bay b with switching := some (pollsWithout sw a) } a
      (JobUnit.faultWith .switchFailed command none) := by
  rw [switchFailed, bay_faultUnit, State.bay_modBay_same]

theorem port_switchFailed (s : State) (b : BayId) (sw : Switch) (a : Nat) (command : LineCommand) (p : PortId) :
    (switchFailed (s.modBay b Bay.endTransaction) b sw a command).port p = (s.post .unitFault (.bayUnit b a)).port p :=
  State.port_of_ports (post_ports rfl _ _) p

include switching

theorem takeSwitch_ok : t.takeSwitch b a (.reply .ok) = (confirming t b sw a).continueSwitch b := by
  refine congrArg (fun u : State => u.continueSwitch b) (State.modBay_eq t b ?_)
  have same : (((t.bay b).modUnit a fun u => { u with progress := some .confirming }).switching.map fun w : Switch =>
      { w with polls := w.polls ++ [Poll.mk a (t.yardTime + (t.bay b).config.tSwitch)
        (t.yardTime + (t.bay b).config.pollInterval)] }) = some { sw with polls := sw.polls ++ [firstPoll t b a] } := by
    rw [show ((t.bay b).modUnit a _).switching = some sw from switching]
    rfl
  rw [Bay.modPolls, same]

theorem takeSwitch_fails {out : LineOutcome} (other : out ≠ .reply .ok) :
    t.takeSwitch b a out = (switchFailed t b sw a .switch).continueSwitch b := by
  rw [switchFailed, ← failSwitch_eq switching]
  unfold State.takeSwitch
  dsimp only
  split
  case h_1 => exact absurd rfl other
  case h_2 => rfl

end

/-- A unit that has failed its switch (R139, R98). -/
theorem unit_switchFailed {t : State} {b : BayId} {a : Nat} {x : JobUnit} (unit : (t.bay b).unit a = some x) (sw : Switch)
    (command : LineCommand) : ((switchFailed t b sw a command).bay b).unit a = some { x with
      progress := some (.faulted .switchFailed), claim := none
      fault := some { reason := .switchFailed, command := command, block := none }
      knownStandby := { image := 0, version := Version.zero, state := .blank } } := by
  rw [bay_switchFailed]
  exact Bay.unit_modUnit (y := { t.bay b with switching := some (pollsWithout sw a) })
    (f := JobUnit.faultWith .switchFailed command none) unit fun _ => rfl

/-- What the outcome of a SWITCH or of a confirmation leaves of a bay: one unit is written, and the switch has `sw` to go
on with. -/
def outcomeBay (y : Bay) (a : Nat) (f : JobUnit → JobUnit) (sw : Switch) : Bay :=
  { y.endTransaction.modUnit a f with switching := some sw }

theorem unit_outcomeBay_other {y : Bay} {a d : Nat} {f : JobUnit → JobUnit} {sw : Switch} (other : d ≠ a)
    (addr : ∀ v, (f v).addr = v.addr) : (outcomeBay y a f sw).unit d = y.unit d := by
  show (y.endTransaction.modUnit a f).unit d = _
  rw [Bay.unit_modUnit_other other addr]
  rfl

/-- A switch that goes on after an outcome leaves the rest of its bay as it is. -/
theorem outcome_goesOn {s w : State} {b : BayId} {a : Nat} {f : JobUnit → JobUnit} {sw : Switch}
    (bay : w.bay b = outcomeBay (s.bay b) a f sw) (offered : (s.bay b).engine.offered = none)
    (remains : sw.todo ≠ [] ∨ sw.polls ≠ []) : let u := w.continueSwitch b
    u.ports = w.ports ∧ u.fleet = w.fleet ∧ ∃ (sw' : Switch) (g : Engine),
      u.bay b = { outcomeBay (s.bay b) a f sw with switching := some sw', engine := g } ∧
      (∀ (d : Nat) (rest : List Nat), sw.todo = d :: rest → sw' = { sw with todo := rest } ∧
        Sends { outcomeBay (s.bay b) a f sw with engine := g } (.switch d) .switch) ∧
      (sw.todo = [] → sw' = sw ∧ ((∀ q ∈ sw.polls, w.yardTime < q.due) → g.state = .idle ∧ g.transaction = none)) := by
  obtain ⟨sw', g, eq, next, last⟩ := continueSwitch_goesOn (w := w) (b := b) (sw := sw) (by rw [bay]; rfl)
    (by rw [bay]; exact ⟨rfl, offered⟩) remains
  rw [eq]
  refine ⟨rfl, rfl, sw', g, ?_, fun d rest todo => ?_, fun todo => ?_⟩
  · rw [State.bay_modBay_same, bay]
  · rw [← bay]
    exact next d rest todo
  · obtain ⟨same, rests⟩ := last todo
    refine ⟨same, fun early => ?_⟩
    rw [rests early, bay]
    exact ⟨rfl, rfl⟩

/-- Settles O49: the member confirms or fails, and the switch goes on or ends. -/
theorem switchOutcomes : Obligations.SwitchOutcomes := by
  unfold Obligations.SwitchOutcomes
  intro s b tr out c a sw x ends activity request switching unit offered
  dsimp only
  have run := exec_endsWith ends
  rw [handBack_switch activity request] at run
  have bay := bay_endTransaction s b
  have unit' := unit_ended unit
  have switching' : ((s.modBay b Bay.endTransaction).bay b).switching = some sw := by
    rw [bay]
    exact switching
  have only : OnlyBay b s (s.modBay b Bay.endTransaction) := (OnlyBay.refl b s).modBay _
  have failed : (switchFailed (s.modBay b Bay.endTransaction) b sw a .switch).bay b =
      outcomeBay (s.bay b) a (JobUnit.faultWith .switchFailed .switch none) (pollsWithout sw a) := by
    rw [bay_switchFailed, bay]
    rfl
  refine ⟨fun goesOn => ?_, fun fails todo alone => ?_⟩
  · by_cases ok : out = .reply .ok
    · subst ok
      rw [takeSwitch_ok switching'] at run
      have confirms : (confirming (s.modBay b Bay.endTransaction) b sw a).bay b = outcomeBay (s.bay b) a
          (fun u => { u with progress := some .confirming }) { sw with polls := sw.polls ++ [firstPoll s b a] } := by
        rw [bay_confirming, firstPoll, bay]
        rfl
      obtain ⟨ports, fleet, sw', g, after', next, last⟩ := outcome_goesOn confirms offered (.inr (by simp))
      refine ⟨_, run, (only.modBay _).continueSwitch, fleet, ?_⟩
      rw [after', if_pos rfl]
      refine ⟨rfl, rfl, rfl, rfl, fun d other => unit_outcomeBay_other (sw := sw) other fun _ => rfl, fun _ => ⟨ports, ?_⟩,
        fun bad => absurd rfl bad, fun d rest todo => ?_, fun todo => ?_⟩
      · exact Bay.unit_modUnit (f := fun u => { u with progress := some .confirming }) unit fun _ => rfl
      · obtain ⟨same, sending, tr', transaction, request', activity', retries, -, undrained, -⟩ := next d rest todo
        exact ⟨congrArg some same, sending, tr', transaction, request', activity', retries, undrained⟩
      · obtain ⟨same, rests⟩ := last todo
        exact ⟨congrArg some same, rests⟩
    · rw [takeSwitch_fails switching' a ok] at run
      have remains : (pollsWithout sw a).todo ≠ [] ∨ (pollsWithout sw a).polls ≠ [] := by
        rcases goesOn with good | some | ⟨q, mem, other⟩
        · exact absurd good ok
        · exact .inl some
        · exact .inr (List.ne_nil_of_mem (List.mem_filter.mpr ⟨mem, by simpa using other⟩))
      obtain ⟨ports, fleet, sw', g, after', next, last⟩ := outcome_goesOn failed offered remains
      refine ⟨_, run, ((only.modBay _).faultUnit _ _ _ _).continueSwitch, fleet, ?_⟩
      rw [after', if_neg ok]
      refine ⟨rfl, rfl, rfl, rfl, fun d other => unit_outcomeBay_other (sw := sw) other fun _ => rfl, fun good => absurd good ok,
        fun _ => ⟨fun p => (State.port_of_ports ports p).trans (port_switchFailed s b sw a .switch p), ?_⟩,
        fun d rest todo => ?_, fun todo => ?_⟩
      · exact Bay.unit_modUnit (f := JobUnit.faultWith .switchFailed .switch none) unit fun _ => rfl
      · obtain ⟨same, sending, tr', transaction, request', activity', retries, -, undrained, -⟩ := next d rest todo
        exact ⟨congrArg some same, sending, tr', transaction, request', activity', retries, undrained⟩
      · obtain ⟨same, rests⟩ := last todo
        exact ⟨congrArg some same, rests⟩
  · rw [takeSwitch_fails switching' a fails] at run
    have none : pollsWithout sw a = { sw with polls := [] } := by
      have empty : (sw.polls.filter fun r => decide (r.addr ≠ a)) = [] :=
        List.filter_eq_nil_iff.mpr fun r mem => by simpa using alone r mem
      rw [pollsWithout, empty]
    have joined : ((switchFailed (s.modBay b Bay.endTransaction) b sw a .switch).bay b).switching =
        some { sw with polls := [] } := by
      rw [failed, none]
      rfl
    rw [continueSwitch_ends joined todo rfl] at run
    refine ⟨_, switchFailed (s.modBay b Bay.endTransaction) b sw a .switch, run,
      ((only.modBay _).faultUnit _ _ _ _).endSwitch _, ?_, unit_switchFailed unit' sw .switch, fun d other => ?_,
      port_switchFailed s b sw a .switch, endsSwitch⟩
    · rw [switchFailed, State.modBay_modBay, none]
      rfl
    · rw [failed]
      exact unit_outcomeBay_other other fun _ => rfl

end Sys2Proof

end

/-! The outcomes of a confirmation IDENTIFY, and the end of a switch (O50). -/

section

namespace Sys2Proof

open Machine

/-! ### The record of a switch that ends (R149) -/

theorem allSwitched_iff {y : Bay} {members : List Nat} : y.allSwitched members = true ↔
    ∀ m ∈ members, ∃ v : JobUnit, y.unit m = some v ∧ v.progress = some .switched := by
  rw [Bay.allSwitched, List.all_eq_true]
  refine forall₂_congr fun m _ => ?_
  cases unit : y.unit m with
  | none => simp
  | some u => simp

theorem recordSwitch_solo {w : State} {b : BayId} {sw : Switch} (solo : sw.group = 0) : w.recordSwitch b sw =
    if (w.bay b).allSwitched sw.members then w.post .groupSwitched (.bayGroup b 0) else w := if_pos solo

theorem recordSwitch_group {w : State} {b : BayId} {sw : Switch} (grouped : sw.group ≠ 0) : w.recordSwitch b sw =
    let t := w.modBay b fun y => y.modGroup sw.group fun r => { r with ended := true }
    if (w.bay b).allSwitched sw.members then
      (t.modBound b fun q => { q with splits := dropFromSplit sw.group sw.members q.splits }).post .groupSwitched
        (.bayGroup b sw.group)
    else t.splitGroup b sw.group := if_neg grouped

theorem recordSwitch_switched {w : State} {b : BayId} {sw : Switch} (all : (w.bay b).allSwitched sw.members = true) :
    (w.recordSwitch b sw).ports = (w.post .groupSwitched (.bayGroup b sw.group)).ports := by
  by_cases solo : sw.group = 0
  · rw [recordSwitch_solo solo, if_pos all, solo]
  · rw [recordSwitch_group solo]
    dsimp only
    rw [if_pos all]
    exact post_ports rfl _ _

/-! ### The end of a switch (R149, R152, R160, R165) -/

/-- A SWITCHED member of the switch carries the hold-after flag (R152). -/
def CarriesHold (y : Bay) (members : List Nat) : Prop :=
  ∃ m ∈ members, ∃ v ∈ y.units, v.addr = m ∧ v.progress = some .switched ∧ v.holdAfter = true

section

variable {s w u : State} {b : BayId} {sw : Switch} (ends : EndsSwitch w u b sw)

include ends

/-- A cutoff that waits cuts the bay off as its switch ends. -/
theorem EndsSwitch.cutoff {cause : CutoffCause} (pending : (w.bay b).pendingCutoff = some cause)
    (clear : (w.bay b).cutoff = none) : (u.bay b).state = .cutoff ∧ (u.bay b).cutoff = some cause ∧ Quiet (u.bay b) ∧
      (∀ v ∈ (u.bay b).units, v.claim = none) ∧
      (CarriesHold (w.bay b) sw.members → (u.bay b).holds = { (w.bay b).holds with rule := true }) ∧
      (¬CarriesHold (w.bay b) sw.members → (u.bay b).holds = (w.bay b).holds) := by
  obtain ⟨e, holds, carries, free, made, cuts, -⟩ := ends
  have off := cuts cause clear (.inl pending)
  have held : (u.bay b).holds = holds := by
    rw [off.bay, made, State.bay_modBay_same]
  refine ⟨by rw [off.bay], by rw [off.bay], off.quiet, fun v mem => ?_, fun some => held.trans (carries some),
    fun none => held.trans (free none)⟩
  rw [off.bay] at mem
  obtain ⟨x, -, rfl⟩ := List.mem_map.mp mem
  rfl

/-- A held bay rests in TRANSFERRING when its switch ends. -/
theorem EndsSwitch.rests (pending : (w.bay b).pendingCutoff = none) (calm : (w.bay b).replanPending = false)
    (early : (w.bay b).config.mode = .warn ∨ (w.bay b).deadlineCondition w.yardTime = false)
    (held : CarriesHold (w.bay b) sw.members ∨ (w.bay b).held = true) :
    u.ports = (w.recordSwitch b sw).ports ∧ ∃ (holds : HoldSet) (groups : List GroupRecord),
      (CarriesHold (w.bay b) sw.members → holds = { (w.bay b).holds with rule := true }) ∧
      (¬CarriesHold (w.bay b) sw.members → holds = (w.bay b).holds) ∧
      u.bay b = { w.bay b with groups := groups, holds := holds, switching := none, state := .transferring } := by
  obtain ⟨e, holds, carries, free, made, -, goesOn⟩ := ends
  obtain ⟨groups, recorded⟩ := recordSwitch_bay w b sw
  have notDue : ¬((w.bay b).config.mode = .stop ∧ (w.bay b).deadlineCondition w.yardTime = true) := by
    rintro ⟨stop, due⟩
    rcases early with warn | early
    · exact nomatch stop.symm.trans warn
    · exact nomatch due.symm.trans early
  have run := (goesOn pending notDue).2 calm
  have bay : e.bay b = { w.bay b with groups := groups, holds := holds, switching := none, state := .transferring } := by
    rw [made, State.bay_modBay_same, recorded]
  have holdsOn : (e.bay b).held = true := by
    rw [bay]
    show (!holds.isEmpty) = true
    by_cases some : CarriesHold (w.bay b) sw.members
    · rw [carries some]
      simp [HoldSet.isEmpty]
    · rw [free some]
      exact held.resolve_left some
  rw [admissionRun_rests fun ⟨_, no⟩ => nomatch holdsOn.symm.trans no] at run
  rw [run, bay]
  exact ⟨by rw [made]; rfl, holds, groups, carries, free, rfl⟩

end

/-- Only its own unit changes whether a switch's member carries the hold-after flag. -/
theorem carriesHold_outcome {y : Bay} {a : Nat} {x : JobUnit} {f : JobUnit → JobUnit} {sw : Switch} {members : List Nat}
    (addresses : (y.units.map (·.addr)).Nodup) (unit : y.unit a = some x) (addr : ∀ v, (f v).addr = v.addr) :
    CarriesHold (outcomeBay y a f sw) members ↔
      (∃ m ∈ members, m ≠ a ∧ ∃ v ∈ y.units, v.addr = m ∧ v.progress = some .switched ∧ v.holdAfter = true) ∨
      (a ∈ members ∧ (f x).progress = some .switched ∧ (f x).holdAfter = true) := by
  have units : (outcomeBay y a f sw).units = y.units.map fun v => if v.addr == a then f v else v := rfl
  have isX : ∀ v ∈ y.units, v.addr = a → v = x := fun v mem same => by
    have found := unit_of_mem addresses mem
    rw [same, unit] at found
    exact (Option.some.inj found).symm
  unfold CarriesHold
  rw [units]
  refine ⟨?_, ?_⟩
  · rintro ⟨m, mem, v, inUnits, rfl, switched, flag⟩
    obtain ⟨v0, mem0, rfl⟩ := List.mem_map.mp inUnits
    by_cases mine : v0.addr = a
    · have here := isX v0 mem0 mine
      rw [if_pos (beq_iff_eq.mpr mine)] at mem switched flag
      rw [addr, mine] at mem
      rw [here] at switched flag
      exact .inr ⟨mem, switched, flag⟩
    · rw [if_neg (by simpa using mine)] at mem switched flag
      exact .inl ⟨v0.addr, mem, mine, v0, mem0, rfl, switched, flag⟩
  · rintro (⟨m, mem, other, v, inUnits, rfl, switched, flag⟩ | ⟨mem, switched, flag⟩)
    · exact ⟨v.addr, mem, v, List.mem_map.mpr ⟨v, inUnits, if_neg (by simpa using other)⟩, rfl, switched, flag⟩
    · exact ⟨a, mem, f x, List.mem_map.mpr ⟨x, List.mem_of_find?_eq_some unit, if_pos (by simpa using addr_of_unit unit)⟩,
        (addr x).trans (addr_of_unit unit), switched, flag⟩

/-! ### The outcome of a confirmation (R148) -/

theorem handBack_confirm {s : State} {b : BayId} {tr : Transaction} {out : LineOutcome} {a : Nat}
    (activity : tr.activity = .confirm) (request : tr.request = .identify a) :
    s.handBack b tr out = (s.modBay b Bay.endTransaction).takeConfirm b a out := by
  simp only [State.handBack, activity, request]

/-- A unit seen at its planned version (R148, R98). -/
def confirmedUnit (version : Version) (v : JobUnit) : JobUnit := { v with
  progress := some .switched, claim := none, knownActive := version
  knownStandby := { image := 0, version := Version.zero, state := .blank } }

/-- The state in which a member has been seen at its planned version. -/
def memberConfirmed (t : State) (b : BayId) (sw : Switch) (a : Nat) (version : Version) : State :=
  (t.modBay b fun y => { y.modUnit a (confirmedUnit version) with switching := some (pollsWithout sw a) }).modBound b
    (BusRecord.confirmed a version)

theorem bay_memberConfirmed (t : State) (b : BayId) (sw : Switch) (a : Nat) (version : Version) :
    (memberConfirmed t b sw a version).bay b =
      { (t.bay b).modUnit a (confirmedUnit version) with switching := some (pollsWithout sw a) } := by
  rw [memberConfirmed, State.bay_modBound, State.bay_modBay_same]

/-- The state in which a member's next poll is set. -/
def polledAgain (t : State) (b : BayId) (sw : Switch) (a : Nat) : State := t.modBay b fun y => { y with
  switching := some { sw with polls := sw.polls.map fun r =>
    if r.addr = a then { r with due := t.yardTime + (t.bay b).config.pollInterval } else r } }

section

variable {t : State} {b : BayId} {a : Nat} {sw : Switch} {x : JobUnit} {pl : Planned} {q : Poll}
  (switching : (t.bay b).switching = some sw) (unit : (t.bay b).unit a = some x) (planned : x.planned = some pl)
  (deadline : (t.bay b).deadlineOf a = some q.deadline)

include switching

theorem confirmMember_eq (version : Version) : t.confirmMember b a version = memberConfirmed t b sw a version := by
  have others : (sw.polls.filter fun p => p.addr != a) = sw.polls.filter fun r => decide (r.addr ≠ a) :=
    List.filter_congr fun p _ => by by_cases same : p.addr = a <;> simp [same]
  refine congrArg (fun u : State => u.modBound b (BusRecord.confirmed a version)) (State.modBay_eq t b ?_)
  have same : (((t.bay b).modUnit a (confirmedUnit version)).switching.map fun w : Switch =>
      { w with polls := w.polls.filter fun p => p.addr != a }) = some (pollsWithout sw a) := by
    rw [show ((t.bay b).modUnit a _).switching = some sw from switching, Option.map_some, others]
    rfl
  rw [← same]
  rfl

include unit deadline

theorem takeConfirm_waits (early : t.yardTime < q.deadline) :
    t.takeConfirm b a .noReply = (polledAgain t b sw a).continueSwitch b := by
  have again : (t.modBay b fun z => z.modPolls fun ps => ps.map fun p : Poll =>
      if p.addr == a then { p with due := t.yardTime + z.config.pollInterval } else p) = polledAgain t b sw a := by
    refine State.modBay_eq t b ?_
    simp only [Bay.modPolls, switching, Option.map_some, beq_iff_eq]
  unfold State.takeConfirm
  simp only [unit, deadline, if_neg (Nat.not_le.mpr early), again]

theorem takeConfirm_late (late : q.deadline ≤ t.yardTime) :
    t.takeConfirm b a .noReply = (switchFailed t b sw a .identify).continueSwitch b := by
  rw [switchFailed, ← failSwitch_eq switching]
  unfold State.takeConfirm
  simp only [unit, deadline, if_pos late]

include planned

theorem takeConfirm_identity (i : Identity) : t.takeConfirm b a (.reply (.identity i)) =
    if i.serial = x.identity.serial ∧ i.active = pl.version then (memberConfirmed t b sw a pl.version).continueSwitch b
    else (switchFailed t b sw a .identify).continueSwitch b := by
  rw [switchFailed, ← failSwitch_eq switching, ← confirmMember_eq switching]
  unfold State.takeConfirm
  simp only [unit, deadline, planned, Bool.and_eq_true, decide_eq_true_eq]
  split <;> rfl

end

theorem fleet_memberConfirmed (t : State) (b : BayId) (sw : Switch) (a : Nat) (version : Version) :
    (memberConfirmed t b sw a version).fleet = t.fleet.map fun r => if r.atBay = some b then
      { r with slots := r.slots.map fun sl => if sl.addr = a then { sl with active := version } else sl } else r := by
  refine List.map_congr_left fun r _ => ?_
  simp only [BusRecord.confirmed, beq_iff_eq]

/-- The outcome shows the member at its planned version (R148). -/
def Seen (out : LineOutcome) (x : JobUnit) (pl : Planned) : Prop :=
  ∃ i : Identity, out = .reply (.identity i) ∧ i.serial = x.identity.serial ∧ i.active = pl.version

/-- The outcome fails the member: another identity, or silence at or past its deadline (R148). -/
def FailsConfirm (s : State) (out : LineOutcome) (x : JobUnit) (pl : Planned) (q : Poll) : Prop :=
  (∃ i : Identity, out = .reply (.identity i) ∧ (i.serial ≠ x.identity.serial ∨ i.active ≠ pl.version)) ∨
    (out = .noReply ∧ q.deadline ≤ s.yardTime)

theorem not_seen_of_fails {s : State} {out : LineOutcome} {x : JobUnit} {pl : Planned} {q : Poll}
    (fails : FailsConfirm s out x pl q) : ¬Seen out x pl := by
  rintro ⟨i, rfl, serial, active⟩
  rcases fails with ⟨j, same, other⟩ | ⟨none, -⟩
  · cases same
    exact other.elim (fun h => h serial) fun h => h active
  · cases none

/-- What a confirmation that was seen, or that failed, leaves: the state in which the switch has `sw` to go on with. -/
structure ConfirmTaken (s w : State) (b : BayId) (a : Nat) (f : JobUnit → JobUnit) (sw : Switch) : Prop where
  only : OnlyBay b s w
  bay : w.bay b = outcomeBay (s.bay b) a f sw
  addr : ∀ v, (f v).addr = v.addr

section

variable {s w : State} {b : BayId} {a : Nat} {f : JobUnit → JobUnit} {sw : Switch} {x : JobUnit}
  (taken : ConfirmTaken s w b a f sw) (unit : (s.bay b).unit a = some x)

include taken unit

theorem ConfirmTaken.unitAfter : (w.bay b).unit a = some (f x) := by
  rw [taken.bay]
  exact Bay.unit_modUnit (y := (s.bay b).endTransaction) (f := f) unit taken.addr

/-- With no member left the switch ends: a cutoff that waits acts, and a held bay rests. -/
theorem ConfirmTaken.ends {c : Instr} {carries : Prop} (rule : carries ↔ CarriesHold (w.bay b) sw.members)
    (todo : sw.todo = []) (polls : sw.polls = []) (run : exec c s = .next (w.continueSwitch b).arbitrate) :
    (∀ cause : CutoffCause, (s.bay b).pendingCutoff = some cause → (s.bay b).cutoff = none →
      ∃ u : State, exec c s = .next u.arbitrate ∧ OnlyBay b s u ∧ (u.bay b).state = .cutoff ∧
        (u.bay b).cutoff = some cause ∧ Quiet (u.bay b) ∧ (∀ v ∈ (u.bay b).units, v.claim = none) ∧
        (carries → (u.bay b).holds = { (s.bay b).holds with rule := true }) ∧
        (¬carries → (u.bay b).holds = (s.bay b).holds)) ∧
    ((s.bay b).pendingCutoff = none → (s.bay b).replanPending = false →
      ((s.bay b).config.mode = .warn ∨ (s.bay b).deadlineCondition s.yardTime = false) →
      (carries ∨ (s.bay b).held = true) →
      ∃ u : State, exec c s = .next u.arbitrate ∧ OnlyBay b s u ∧ (u.bay b).state = .transferring ∧
        (u.bay b).switching = none ∧ (u.bay b).passes = (s.bay b).passes ∧
        (u.bay b).engine.state = .idle ∧ (u.bay b).engine.transaction = none ∧
        (carries → (u.bay b).holds = { (s.bay b).holds with rule := true }) ∧
        (¬carries → (u.bay b).holds = (s.bay b).holds) ∧
        (u.bay b).unit a = some (f x) ∧ u.ports = (w.recordSwitch b sw).ports) := by
  rw [continueSwitch_ends (by rw [taken.bay]; rfl) todo polls] at run
  have last : EndsSwitch w (w.endSwitch b sw) b sw := endsSwitch
  have unitAfter := taken.unitAfter unit
  have bay := taken.bay
  have holds : (w.bay b).holds = (s.bay b).holds := by rw [bay]; rfl
  refine ⟨fun cause pending clear => ?_, fun pending calm early held => ?_⟩
  · have facts := last.cutoff (cause := cause) (by rw [bay]; exact pending) (by rw [bay]; exact clear)
    rw [holds, ← rule] at facts
    exact ⟨_, run, taken.only.endSwitch _, facts⟩
  · obtain ⟨ports, holds', groups, adds, free, after'⟩ := last.rests (by rw [bay]; exact pending)
      (by rw [bay]; exact calm) (by rw [taken.only.yardTime, bay]; exact early)
      (by rw [Bay.held, holds, ← rule]; exact held)
    rw [holds, ← rule] at adds free
    refine ⟨_, run, taken.only.endSwitch _, ?_⟩
    rw [after']
    exact ⟨rfl, rfl, by rw [bay]; rfl, by rw [bay]; rfl, by rw [bay]; rfl, adds, free, unitAfter, ports⟩

/-- With the member SWITCHED as the last one, the end of the switch posts GROUP_SWITCHED. -/
theorem ConfirmTaken.records (switched : (f x).progress = some .switched) (sw' : Switch)
    (all : ∀ m ∈ sw'.members, m = a ∨ ∃ v : JobUnit, (s.bay b).unit m = some v ∧ v.progress = some .switched) :
    (w.recordSwitch b sw').ports = (w.post .groupSwitched (.bayGroup b sw'.group)).ports := by
  refine recordSwitch_switched (allSwitched_iff.mpr fun m mem => ?_)
  by_cases mine : m = a
  · subst mine
    exact ⟨_, taken.unitAfter unit, switched⟩
  · obtain ⟨v, isUnit, done⟩ := (all m mem).resolve_left mine
    refine ⟨v, ?_, done⟩
    rw [taken.bay, unit_outcomeBay_other mine taken.addr]
    exact isUnit

/-- A switch of one unit that failed records nothing. -/
theorem ConfirmTaken.records_nothing (other : (f x).progress ≠ some .switched) {sw' : Switch} (solo : sw'.group = 0)
    (mem : a ∈ sw'.members) : w.recordSwitch b sw' = w := by
  rw [recordSwitch_solo solo, if_neg fun all => ?_]
  obtain ⟨v, isUnit, switched⟩ := allSwitched_iff.mp all a mem
  rw [taken.unitAfter unit] at isUnit
  exact other (by rw [Option.some.inj isUnit, switched])

variable (addresses : ((s.bay b).units.map (·.addr)).Nodup)

include addresses

theorem ConfirmTaken.carries (members : List Nat) : CarriesHold (w.bay b) members ↔
    (∃ m ∈ members, m ≠ a ∧ ∃ v ∈ (s.bay b).units, v.addr = m ∧ v.progress = some .switched ∧ v.holdAfter = true) ∨
    (a ∈ members ∧ (f x).progress = some .switched ∧ (f x).holdAfter = true) := by
  rw [taken.bay]
  exact carriesHold_outcome addresses unit taken.addr

end

/-! ### The outcome taken -/

section

variable {s : State} {b : BayId} {tr : Transaction} {out : LineOutcome} {c : Instr} {a : Nat} {sw : Switch} {x : JobUnit}
  {pl : Planned} {q : Poll}

/-- What a member's confirmation leaves. -/
theorem confirmTaken_confirmed : ConfirmTaken s (memberConfirmed (s.modBay b Bay.endTransaction) b sw a pl.version) b a
    (confirmedUnit pl.version) (pollsWithout sw a) where
  only := (((OnlyBay.refl b s).modBay _).modBay _).modBound fun _ => ⟨rfl, .inl rfl⟩
  bay := by
    rw [bay_memberConfirmed, bay_endTransaction]
    rfl
  addr _ := rfl

/-- What a member's failure leaves. -/
theorem confirmTaken_failed : ConfirmTaken s (switchFailed (s.modBay b Bay.endTransaction) b sw a .identify) b a
    (JobUnit.faultWith .switchFailed .identify none) (pollsWithout sw a) where
  only := (((OnlyBay.refl b s).modBay _).modBay _).faultUnit _ _ _ _
  bay := by
    rw [bay_switchFailed, bay_endTransaction]
    rfl
  addr _ := rfl

theorem fleet_failed : (switchFailed (s.modBay b Bay.endTransaction) b sw a .identify).fleet = s.fleet := rfl

theorem ports_confirmed : (memberConfirmed (s.modBay b Bay.endTransaction) b sw a pl.version).ports = s.ports := rfl

/-- With no other poll left the switch is in its last stage. -/
theorem pollsWithout_last (none : sw.polls.filter (fun r => decide (r.addr ≠ a)) = []) :
    pollsWithout sw a = { sw with polls := [] } := by
  rw [pollsWithout, none]

/-- A member seen leaves the hold-after flag to the others and to itself. -/
theorem carries_seen (unit : (s.bay b).unit a = some x) (addresses : ((s.bay b).units.map (·.addr)).Nodup)
    (seen : Seen out x pl) (members : List Nat) :
    (∃ m ∈ members, m ≠ a ∧ ∃ v ∈ (s.bay b).units, v.addr = m ∧ v.progress = some .switched ∧ v.holdAfter = true) ∨
        (Seen out x pl ∧ a ∈ members ∧ x.holdAfter = true) ↔
      CarriesHold ((memberConfirmed (s.modBay b Bay.endTransaction) b sw a pl.version).bay b) members := by
  rw [confirmTaken_confirmed.carries unit addresses]
  exact or_congr_right ⟨fun ⟨_, mem, flag⟩ => ⟨mem, rfl, flag⟩, fun ⟨mem, _, flag⟩ => ⟨seen, mem, flag⟩⟩

/-- A member that failed leaves the hold-after flag to the others. -/
theorem carries_failed (unit : (s.bay b).unit a = some x) (addresses : ((s.bay b).units.map (·.addr)).Nodup)
    (notSeen : ¬Seen out x pl) (members : List Nat) :
    (∃ m ∈ members, m ≠ a ∧ ∃ v ∈ (s.bay b).units, v.addr = m ∧ v.progress = some .switched ∧ v.holdAfter = true) ∨
        (Seen out x pl ∧ a ∈ members ∧ x.holdAfter = true) ↔
      CarriesHold ((switchFailed (s.modBay b Bay.endTransaction) b sw a .identify).bay b) members := by
  rw [confirmTaken_failed.carries unit addresses]
  exact or_congr_right ⟨fun ⟨seen, _⟩ => absurd seen notSeen, fun ⟨_, switched, _⟩ => nomatch switched⟩

variable (ends : EndsWith s b tr out c) (activity : tr.activity = .confirm) (request : tr.request = .identify a)
  (switching : (s.bay b).switching = some sw) (unit : (s.bay b).unit a = some x)
  (deadline : (s.bay b).deadlineOf a = some q.deadline)

include ends activity request switching unit deadline

/-- Silence before the deadline sets the next poll. -/
theorem exec_confirm_waits (silent : out = .noReply) (early : s.yardTime < q.deadline) :
    exec c s = .next ((polledAgain (s.modBay b Bay.endTransaction) b sw a).continueSwitch b).arbitrate := by
  subst silent
  have run := exec_endsWith ends
  rwa [handBack_confirm activity request, takeConfirm_waits (q := q) (sw := sw) (x := x) (by
    rw [bay_endTransaction]; exact switching) (unit_ended unit) (by rw [bay_endTransaction]; exact deadline) early] at run

variable (planned : x.planned = some pl)

include planned

theorem exec_confirm_seen (seen : Seen out x pl) : exec c s = .next
    ((memberConfirmed (s.modBay b Bay.endTransaction) b sw a pl.version).continueSwitch b).arbitrate := by
  obtain ⟨i, rfl, serial, active⟩ := seen
  have run := exec_endsWith ends
  rwa [handBack_confirm activity request, takeConfirm_identity (q := q) (sw := sw) (by
    rw [bay_endTransaction]; exact switching) (unit_ended unit) planned (by rw [bay_endTransaction]; exact deadline),
    if_pos ⟨serial, active⟩] at run

theorem exec_confirm_fails (fails : FailsConfirm s out x pl q) : exec c s = .next
    ((switchFailed (s.modBay b Bay.endTransaction) b sw a .identify).continueSwitch b).arbitrate := by
  have run := exec_endsWith ends
  have switching' : ((s.modBay b Bay.endTransaction).bay b).switching = some sw := by
    rw [bay_endTransaction]
    exact switching
  have deadline' : ((s.modBay b Bay.endTransaction).bay b).deadlineOf a = some q.deadline := by
    rw [bay_endTransaction]
    exact deadline
  rw [handBack_confirm activity request] at run
  rcases fails with ⟨i, rfl, other⟩ | ⟨rfl, late⟩
  · rwa [takeConfirm_identity switching' (unit_ended unit) planned deadline',
      if_neg fun ⟨serial, active⟩ => other.elim (fun h => h serial) fun h => h active] at run
  · rwa [takeConfirm_late switching' (unit_ended unit) deadline' late] at run

end

theorem bay_polledAgain (s : State) (b : BayId) (sw : Switch) (a : Nat) :
    (polledAgain (s.modBay b Bay.endTransaction) b sw a).bay b = { (s.bay b).endTransaction with
      switching := some { sw with polls := sw.polls.map fun r =>
        if r.addr = a then { r with due := s.yardTime + (s.bay b).config.pollInterval } else r } } := by
  rw [polledAgain, State.bay_modBay_same, bay_endTransaction]
  rfl

/-- A member confirmed as the last one, as O50 writes the state. -/
theorem memberConfirmed_last {s : State} {b : BayId} {sw : Switch} {a : Nat} {version : Version}
    (none : sw.polls.filter (fun r => decide (r.addr ≠ a)) = []) :
    memberConfirmed (s.modBay b Bay.endTransaction) b sw a version =
      { ((s.modBay b fun y => { y with
          engine := { y.engine with state := .idle, transaction := Option.none, pollEnded := false }
          switching := some { sw with polls := [] } }).modBay b fun y => y.modUnit a (confirmedUnit version)) with
        fleet := s.fleet.map fun r => if r.atBay = some b then
          { r with slots := r.slots.map fun sl => if sl.addr = a then { sl with active := version } else sl } else r } := by
  have written : ((s.modBay b Bay.endTransaction).modBay b fun y =>
        { y.modUnit a (confirmedUnit version) with switching := some (pollsWithout sw a) }) =
      (s.modBay b fun y => { y with
        engine := { y.engine with state := .idle, transaction := Option.none, pollEnded := false }
        switching := some { sw with polls := [] } }).modBay b fun y => y.modUnit a (confirmedUnit version) := by
    rw [State.modBay_modBay, State.modBay_modBay, pollsWithout_last none]
    rfl
  have fleet := fleet_memberConfirmed (s.modBay b Bay.endTransaction) b sw a version
  unfold memberConfirmed at fleet ⊢
  rw [written] at fleet ⊢
  rw [State.modBay_fleet] at fleet
  rw [← fleet]
  rfl

/-- Settles O50: the next poll, the member's confirmation or failure, and the end of the switch. -/
theorem confirmationOutcomes : Obligations.ConfirmationOutcomes := by
  unfold Obligations.ConfirmationOutcomes
  intro s b tr out c a sw x pl q ends activity request switching todo unit planned mem isAddr only offered
  dsimp only
  have deadline : (s.bay b).deadlineOf a = some q.deadline := by
    subst isAddr
    exact deadlineOf_eq switching mem only
  have confirmed := confirmTaken_confirmed (s := s) (b := b) (sw := sw) (a := a) (pl := pl)
  have failed := confirmTaken_failed (s := s) (b := b) (sw := sw) (a := a)
  have seenRun := exec_confirm_seen ends activity request switching unit deadline planned
  have failsRun := exec_confirm_fails ends activity request switching unit deadline planned
  refine ⟨fun silent early => ?_, fun others => ⟨fun seen => ?_, fun fails => ?_⟩, fun none either addresses => ?_,
    fun none => ⟨fun seen => ?_, fun fails => ?_⟩⟩
  · have again := bay_polledAgain s b sw a
    obtain ⟨sw', g, eq, -, last⟩ := continueSwitch_goesOn (by rw [again]) (by rw [again]; exact ⟨rfl, offered⟩)
      (.inr (by
        simp only [ne_eq, List.map_eq_nil_iff]
        exact List.ne_nil_of_mem mem))
    obtain ⟨same, rests⟩ := last todo
    have run := exec_confirm_waits ends activity request switching unit deadline silent early
    rw [eq] at run
    refine ⟨_, run, (((OnlyBay.refl b s).modBay _).modBay _).modBay _, rfl, rfl, ?_⟩
    rw [State.bay_modBay_same, again, same]
    refine ⟨rfl, rfl, rfl, fun calm => ?_⟩
    rw [rests calm, again]
    exact ⟨rfl, rfl⟩
  · obtain ⟨ports, fleet, sw', g, after', -, last⟩ := outcome_goesOn confirmed.bay offered (.inr others)
    obtain ⟨same, rests⟩ := last todo
    rw [confirmed.only.yardTime] at rests
    refine ⟨_, seenRun seen, confirmed.only.continueSwitch, ports.trans ports_confirmed,
      fleet.trans (fleet_memberConfirmed _ b sw a _), ?_⟩
    rw [after', same]
    exact ⟨rfl, Bay.unit_modUnit (f := confirmedUnit pl.version) unit fun _ => rfl, rfl, fun early => rests early⟩
  · obtain ⟨ports, fleet, sw', g, after', -, last⟩ := outcome_goesOn failed.bay offered (.inr others)
    obtain ⟨same, rests⟩ := last todo
    rw [failed.only.yardTime] at rests
    refine ⟨_, failsRun fails, failed.only.continueSwitch, fleet.trans fleet_failed,
      fun p => (State.port_of_ports ports p).trans (port_switchFailed s b sw a .identify p), ?_⟩
    rw [after', same]
    exact ⟨rfl, rfl, Bay.unit_modUnit (f := JobUnit.faultWith .switchFailed .identify Option.none) unit fun _ => rfl, rfl,
      fun early => rests early⟩
  · rw [pollsWithout_last none] at confirmed failed
    rcases either with seen | fails
    · obtain ⟨cuts, rests⟩ := confirmed.ends unit (carries_seen unit addresses seen sw.members) todo rfl (seenRun seen)
      refine ⟨cuts, fun pending calm early held => ?_⟩
      obtain ⟨u, run, only, state, off, passes, idle, ended, rule, free, unitAfter, ports⟩ := rests pending calm early held
      refine ⟨u, run, only, state, off, passes, idle, ended, rule, free, fun _ => unitAfter,
        fun fails => absurd seen (not_seen_of_fails fails), fun _ all p => ?_, fun fails => absurd seen
          (not_seen_of_fails fails)⟩
      exact State.port_of_ports (ports.trans ((confirmed.records unit rfl _ all).trans (post_ports ports_confirmed _ _))) p
    · have notSeen := not_seen_of_fails fails
      obtain ⟨cuts, rests⟩ := failed.ends unit (carries_failed unit addresses notSeen sw.members) todo rfl (failsRun fails)
      refine ⟨cuts, fun pending calm early held => ?_⟩
      obtain ⟨u, run, only, state, off, passes, idle, ended, rule, free, unitAfter, ports⟩ := rests pending calm early held
      refine ⟨u, run, only, state, off, passes, idle, ended, rule, free, fun seen => absurd seen notSeen,
        fun _ => unitAfter, fun seen => absurd seen notSeen, fun _ solo inSwitch p => ?_⟩
      rw [failed.records_nothing (sw' := { sw with polls := [] }) unit nofun solo inSwitch] at ports
      exact (State.port_of_ports ports p).trans (port_switchFailed s b sw a .identify p)
  · refine ⟨_, memberConfirmed (s.modBay b Bay.endTransaction) b sw a pl.version, seenRun seen,
      confirmed.only.continueSwitch, memberConfirmed_last none, confirmed.unitAfter unit, ?_⟩
    rw [continueSwitch_ends (sw := pollsWithout sw a) (by rw [confirmed.bay]; rfl) todo none, pollsWithout_last none]
    exact endsSwitch
  · refine ⟨_, switchFailed (s.modBay b Bay.endTransaction) b sw a .identify, failsRun fails,
      failed.only.continueSwitch, ?_, failed.unitAfter unit, port_switchFailed s b sw a .identify, ?_⟩
    · rw [switchFailed, State.modBay_modBay, pollsWithout_last none]
      rfl
    · rw [continueSwitch_ends (sw := pollsWithout sw a) (by rw [failed.bay]; rfl) todo none, pollsWithout_last none]
      exact endsSwitch

end Sys2Proof

end

/-! The split entry at the end of a switch, and of one broken off (O51). -/

section

namespace Sys2Proof

open Machine

/-! ### Split lists (R8, R150) -/

/-- An entry of the kept list has the members of a former entry that the test keeps, and it has some. -/
theorem mem_keepMembers {test : Split → Unconfirmed → Bool} {e : Split} {splits : List Split} :
    e ∈ keepMembers test splits ↔
      ∃ e0 ∈ splits, e = { e0 with members := e0.members.filter (test e0) } ∧ e.members ≠ [] := by
  rw [keepMembers, List.mem_filter, List.mem_map]
  exact ⟨fun ⟨⟨e0, mem, eq⟩, nonempty⟩ => ⟨e0, mem, eq.symm, by simpa using nonempty⟩,
    fun ⟨e0, mem, eq, nonempty⟩ => ⟨⟨e0, mem, eq.symm⟩, by simpa using nonempty⟩⟩

/-- Only the entry of the group loses addresses; what it keeps it had before. -/
theorem dropFromSplit_facts (g : Nat) (addrs : List Nat) (splits : List Split) :
    (∀ e ∈ splits, e.group ≠ g → e.members ≠ [] → e ∈ dropFromSplit g addrs splits) ∧
    (∀ e ∈ dropFromSplit g addrs splits, e.group ≠ g → e ∈ splits) ∧
    (∀ (e : Split) (m : Unconfirmed), e ∈ dropFromSplit g addrs splits → e.group = g → m ∈ e.members →
      m.addr ∉ addrs ∧ ∃ e0 ∈ splits, e0.group = g ∧ m ∈ e0.members) := by
  have keepsOther : ∀ e : Split, e.group ≠ g →
      { e with members := e.members.filter fun m => !(e.group == g && addrs.contains m.addr) } = e := fun e other => by
    have all : (e.members.filter fun m => !(e.group == g && addrs.contains m.addr)) = e.members :=
      List.filter_eq_self.mpr fun m _ => by simp [other]
    rw [all]
  refine ⟨fun e mem other some => mem_keepMembers.mpr ⟨e, mem, (keepsOther e other).symm, some⟩, ?_, ?_⟩
  · intro e mem other
    obtain ⟨e0, mem0, rfl, -⟩ := mem_keepMembers.mp mem
    rwa [keepsOther e0 other]
  · intro e m mem same inEntry
    obtain ⟨e0, mem0, rfl, -⟩ := mem_keepMembers.mp mem
    obtain ⟨was, keeps⟩ := List.mem_filter.mp inEntry
    have group : e0.group = g := same
    simp only [group, beq_self_eq_true, Bool.true_and, Bool.not_eq_true', List.contains_iff_mem,
      Bool.eq_false_iff, ne_eq] at keeps
    exact ⟨keeps, e0, mem0, group, was⟩

theorem mem_insertMember (m x : Unconfirmed) : ∀ l : List Unconfirmed, x ∈ insertMember m l ↔ x = m ∨ x ∈ l
  | [] => by simp [insertMember]
  | q :: rest => by
    rw [insertMember]
    split
    case isTrue => rw [List.mem_cons]
    case isFalse =>
      rw [List.mem_cons, List.mem_cons, mem_insertMember m x rest]
      exact or_left_comm

theorem mem_foldr_insertMember (x : Unconfirmed) (l : List Unconfirmed) : ∀ kept : List Unconfirmed,
    x ∈ kept.foldr insertMember l ↔ x ∈ kept ∨ x ∈ l
  | [] => by simp
  | m :: rest => by
    rw [List.foldr_cons, mem_insertMember, mem_foldr_insertMember x l rest, List.mem_cons, or_assoc]

theorem mem_insertSplit (e x : Split) : ∀ l : List Split, x ∈ insertSplit e l ↔ x = e ∨ x ∈ l
  | [] => by simp [insertSplit]
  | q :: rest => by
    rw [insertSplit]
    split
    case isTrue => rw [List.mem_cons]
    case isFalse =>
      rw [List.mem_cons, List.mem_cons, mem_insertSplit e x rest]
      exact or_left_comm

/-- A written entry is the only one of its group: its own members and those of the former entry that the switch did
not have; the entries of the other groups stay. -/
theorem mem_writeSplit (e : Split) (members : List Nat) (splits : List Split) : ∃ all : List Unconfirmed,
    (∀ m, m ∈ all ↔ m ∈ e.members ∨ ∃ e0 ∈ splits, e0.group = e.group ∧ m ∈ e0.members ∧ m.addr ∉ members) ∧
    ∀ x, x ∈ writeSplit e members splits ↔ x = { e with members := all } ∨ (x ∈ splits ∧ x.group ≠ e.group) := by
  refine ⟨((splits.filter fun q => q.group == e.group).flatMap fun q =>
    q.members.filter fun m => !(members.contains m.addr)).foldr insertMember e.members, fun m => ?_, fun x => ?_⟩
  · rw [mem_foldr_insertMember, or_comm, List.mem_flatMap]
    refine or_congr_right ⟨?_, ?_⟩
    · rintro ⟨e0, mem, kept⟩
      obtain ⟨mem, same⟩ := List.mem_filter.mp mem
      obtain ⟨was, out⟩ := List.mem_filter.mp kept
      exact ⟨e0, mem, beq_iff_eq.mp same, was, by simpa using out⟩
    · rintro ⟨e0, mem, same, was, out⟩
      exact ⟨e0, List.mem_filter.mpr ⟨mem, beq_iff_eq.mpr same⟩, List.mem_filter.mpr ⟨was, by simpa using out⟩⟩
  · rw [writeSplit, mem_insertSplit, List.mem_filter, bne_iff_ne]

/-- The unconfirmed members of a switch (R150). -/
theorem mem_unconfirmedOf {units : List JobUnit} {sent : List Nat} {m : Unconfirmed} :
    m ∈ unconfirmedOf units sent ↔ m.addr ∈ sent ∧ ∃ (v : JobUnit) (pl : Planned),
      (units.find? fun u => u.addr == m.addr) = some v ∧ v.progress ≠ some .switched ∧ v.planned = some pl ∧
        m.version = pl.version := by
  rw [unconfirmedOf, List.mem_filterMap]
  constructor
  · rintro ⟨n, mem, eq⟩
    cases found : units.find? fun u => u.addr == n with
    | none => simp [found] at eq
    | some v =>
      simp only [found] at eq
      split at eq
      · exact nomatch eq
      · next other =>
        obtain ⟨pl, planned, rfl⟩ := Option.map_eq_some_iff.mp eq
        exact ⟨mem, v, pl, found, other, planned, rfl⟩
  · rintro ⟨mem, v, pl, found, other, planned, version⟩
    refine ⟨m.addr, mem, ?_⟩
    simp only [found, if_neg other, planned, Option.map_some, ← version]

/-! ### The record of a switch (R149 to R151) -/

section

variable {s : State} {b : BayId} {sw : Switch}

/-- A switch broken off writes what the end of a switch with a member not SWITCHED writes (R151). -/
theorem breakOffSwitch_eq (switching : (s.bay b).switching = some sw) : s.breakOffSwitch b =
    if sw.group = 0 then s else (s.modBay b fun y => y.modGroup sw.group fun r => { r with ended := true }).splitGroup b
      sw.group := by
  simp only [State.breakOffSwitch, switching]

/-- The ended flag leaves the members, the images and the sent list of the group's record. -/
theorem groupRecord_ended {y : Bay} {n : Nat} {g : GroupRecord} (found : y.groupRecord n = some g) :
    (y.modGroup n fun r => { r with ended := true }).groupRecord n = some { g with ended := true } := by
  have keeps : ((fun r : GroupRecord => r.group == n) ∘ fun r : GroupRecord =>
      if r.group == n then { r with ended := true } else r) = fun r : GroupRecord => r.group == n := funext fun r => by
    simp only [Function.comp]
    split <;> rfl
  have isGroup : (g.group == n) = true := List.find?_some (p := fun r : GroupRecord => r.group == n) found
  rw [Bay.groupRecord] at found ⊢
  rw [Bay.modGroup, List.find?_map, keeps, found, Option.map_some, if_pos isGroup]

/-- With no unconfirmed member the confirmed addresses leave the entry, and nothing is posted. -/
theorem splitGroup_confirmed {w : State} {n : Nat} {g : GroupRecord} (found : (w.bay b).groupRecord n = some g)
    (confirmed : unconfirmedOf (w.bay b).units g.sent = []) : w.splitGroup b n =
      w.modBound b fun q => { q with splits := dropFromSplit n (switchedOf (w.bay b).units g.members) q.splits } := by
  simp only [State.splitGroup, found, confirmed]

/-- The entry of the members of a group's switch that are not confirmed (R150). -/
def missedEntry (y : Bay) (n : Nat) (g : GroupRecord) : Split :=
  { group := n, images := g.images, members := unconfirmedOf y.units g.sent }

/-- The unconfirmed members are written as the group's entry. -/
theorem splitGroup_written {w : State} {n : Nat} {g : GroupRecord} (found : (w.bay b).groupRecord n = some g)
    (missed : unconfirmedOf (w.bay b).units g.sent ≠ []) : w.splitGroup b n =
      (w.modBound b fun q => { q with splits := writeSplit (missedEntry (w.bay b) n g) g.members q.splits }).post
        .groupSplit (.bayGroup b n) := by
  unfold missedEntry
  cases list : unconfirmedOf (w.bay b).units g.sent with
  | nil => exact absurd list missed
  | cons m rest => simp only [State.splitGroup, found, list]

theorem splitGroup_leaves (w : State) (b : BayId) (n : Nat) :
    (w.splitGroup b n).store = w.store ∧ (w.splitGroup b n).plans = w.plans := by
  unfold State.splitGroup
  dsimp only
  split
  · exact ⟨rfl, rfl⟩
  · split <;> exact ⟨rfl, rfl⟩

/-- Of the bay the end of a switch writes the ended flag of its group; the catalogue and the plans stay. -/
theorem recordSwitch_leaves (grouped : sw.group ≠ 0) :
    (s.recordSwitch b sw).store = s.store ∧ (s.recordSwitch b sw).plans = s.plans ∧
      (s.recordSwitch b sw).bay b = (s.bay b).modGroup sw.group fun r => { r with ended := true } := by
  rw [recordSwitch_group grouped]
  dsimp only
  split
  · exact ⟨rfl, rfl, by rw [State.bay_post, State.bay_modBound, State.bay_modBay_same]⟩
  · obtain ⟨store, plans⟩ := splitGroup_leaves (s.modBay b fun y => y.modGroup sw.group fun r => { r with ended := true }) b
      sw.group
    exact ⟨store, plans, by rw [bay_splitGroup, State.bay_modBay_same]⟩

/-- What a change of the bound record's split list leaves in that record. -/
theorem bound_splits {w t : State} {before : BusRecord} (f : List Split → List Split) (bound : w.bound b = some before)
    (fleet : t.fleet = (w.modBound b fun q => { q with splits := f q.splits }).fleet) :
    t.bound b = some { before with splits := f before.splits } := by
  rw [bound_of_fleet fleet, bound_modBound_self (f := fun q => { q with splits := f q.splits }) _ _ fun _ => rfl, bound,
    Option.map_some]

end

/-- Settles O51, by the three ways in which a switch of a group ends. -/
theorem splitEntryWritten : Obligations.SplitEntryWritten := by
  unfold Obligations.SplitEntryWritten
  intro s b sw
  dsimp only
  refine ⟨fun solo => ⟨fun all => ?_, fun some => ?_⟩, fun switching => ⟨fun solo => ?_, fun grouped some => ?_⟩,
    fun grouped ok g before found bound => ?_⟩
  · rw [recordSwitch_solo solo, if_pos (allSwitched_iff.mpr all)]
  · rw [recordSwitch_solo solo, if_neg fun all => some (allSwitched_iff.mp all)]
  · rw [breakOffSwitch_eq switching, if_pos solo]
  · rw [breakOffSwitch_eq switching, if_neg grouped, recordSwitch_group grouped]
    exact (if_neg fun all => some (allSwitched_iff.mp all)).symm
  · obtain ⟨store, plans, bay⟩ := recordSwitch_leaves (s := s) (b := b) grouped
    refine ⟨(OnlyBay.refl b s).recordSwitch sw, store, plans, by rw [bay]; rfl, ?_, ?_⟩
    · rw [bay]
      simp only [Bay.modGroup, beq_iff_eq]
    · by_cases all : (s.bay b).allSwitched sw.members = true
      · have every := allSwitched_iff.mp all
        obtain ⟨others, stay, gone⟩ := dropFromSplit_facts sw.group sw.members before.splits
        refine ⟨_, bound_splits (dropFromSplit sw.group sw.members) bound ?_, rfl, others, stay,
          fun _ => ⟨fun p => State.port_of_ports (recordSwitch_switched all) p, gone⟩,
          fun some => absurd every some, fun some => absurd every some⟩
        rw [recordSwitch_group grouped]
        dsimp only
        rw [if_pos all]
        rfl
      · have notAll : ¬∀ m ∈ sw.members, ∃ v : JobUnit, (s.bay b).unit m = some v ∧ v.progress = some .switched :=
          fun every => all (allSwitched_iff.mpr every)
        have split : s.recordSwitch b sw = _ := (recordSwitch_group grouped).trans (if_neg all)
        have record : ((s.modBay b fun y => y.modGroup sw.group fun r => { r with ended := true }).bay b).groupRecord
            sw.group = some { g with ended := true } := by
          rw [State.bay_modBay_same]
          exact groupRecord_ended found
        have units : ((s.modBay b fun y => y.modGroup sw.group fun r => { r with ended := true }).bay b).units =
            (s.bay b).units := by
          rw [State.bay_modBay_same]
          rfl
        have entry : missedEntry ((s.modBay b fun y => y.modGroup sw.group fun r => { r with ended := true }).bay b)
            sw.group { g with ended := true } = missedEntry (s.bay b) sw.group g := by
          rw [missedEntry, units, missedEntry]
        by_cases missed : unconfirmedOf (s.bay b).units g.sent = []
        · rw [splitGroup_confirmed record (by rw [units]; exact missed), units] at split
          obtain ⟨others, stay, gone⟩ := dropFromSplit_facts sw.group (switchedOf (s.bay b).units g.members) before.splits
          refine ⟨_, bound_splits (dropFromSplit sw.group (switchedOf (s.bay b).units g.members)) bound ?_, rfl, others,
            stay, fun every => absurd every notAll, fun _ ⟨m, isMissed⟩ => ?_, fun _ _ => ⟨?_, fun e m mem same inEntry =>
              (gone e m mem same inEntry).2⟩⟩
          · rw [split]
            rfl
          · have mem := mem_unconfirmedOf.mpr isMissed
            rw [missed] at mem
            exact nomatch mem
          · rw [split]
            rfl
        · rw [splitGroup_written record (by rw [units]; exact missed), entry] at split
          obtain ⟨members, isMember, written⟩ := mem_writeSplit (missedEntry (s.bay b) sw.group g) g.members before.splits
          refine ⟨_, bound_splits (writeSplit (missedEntry (s.bay b) sw.group g) g.members) bound ?_, rfl,
            fun e mem other _ => (written e).mpr (.inr ⟨mem, other⟩), fun e mem other => ?_,
            fun every => absurd every notAll, fun _ _ => ⟨fun p => ?_, _, (written _).mpr (.inl rfl), rfl, rfl, ?_, ?_⟩,
            fun _ nobody => ?_⟩
          · rw [split]
            rfl
          · rcases (written e).mp mem with rfl | ⟨was, -⟩
            · exact absurd rfl other
            · exact was
          · rw [split]
            exact State.port_of_ports (post_ports rfl _ _) p
          · intro e mem same
            exact ((written e).mp mem).resolve_right fun ⟨_, other⟩ => other same
          · intro m
            rw [isMember, missedEntry, mem_unconfirmedOf]
            rfl
          · obtain ⟨m, mem⟩ := List.exists_mem_of_ne_nil _ missed
            exact absurd (mem_unconfirmedOf.mp mem) (nobody m)

end Sys2Proof

end

/-! The arithmetic of admission: the pass estimate, the need, the fit test, and the ranges of R and L (O52). -/

section

namespace Sys2Proof

open Machine

/-! ### The stream choice of a pass (R116) -/

/-- With a missing total at every RESUME member their sum is known. -/
theorem missingSum_known : ∀ units : List JobUnit, (∀ u ∈ units, u.kind = some .resume → u.missing ≠ none) →
    missingSum units = some ((units.filter fun u => decide (u.kind = some .resume)).map fun u => u.missing.getD 0).sum
  | [], _ => rfl
  | u :: rest, known => by
    have tail := missingSum_known rest fun v mem => known v (List.mem_cons_of_mem _ mem)
    have head := known u List.mem_cons_self
    rw [missingSum] at tail ⊢
    rw [List.foldr_cons, tail]
    by_cases resume : u.kind = some .resume
    · obtain ⟨n, missing⟩ := Option.ne_none_iff_exists'.mp (head resume)
      simp [resume, missing]
    · simp [resume]

/-- A sum that is known has a missing total at every RESUME member. -/
theorem missing_of_missingSum {units : List JobUnit} (known : (missingSum units).isSome = true) :
    ∀ u ∈ units, u.kind = some .resume → u.missing ≠ none := by
  induction units with
  | nil => exact fun u mem => absurd mem List.not_mem_nil
  | cons v rest ih =>
    unfold missingSum at known ih
    rw [List.foldr_cons] at known
    by_cases resume : v.kind = some .resume
    · rw [if_pos resume] at known
      split at known
      case h_1 m n missing sum =>
        exact List.forall_mem_cons.mpr ⟨fun _ => by rw [missing]; nofun, ih (by rw [sum]; rfl)⟩
      case h_2 => exact nomatch known
    · rw [if_neg resume] at known
      exact List.forall_mem_cons.mpr ⟨fun is => absurd is resume, ih known⟩

section

variable {units : List JobUnit}

theorem streamChoice_checkOnly (only : ∀ u ∈ units, u.kind = some .checkOnly) : streamChoice units = .checkOnly :=
  if_pos (List.all_eq_true.mpr fun u mem => beq_iff_eq.mpr (only u mem))

variable (some_opens : ¬∀ u ∈ units, u.kind = some .checkOnly)

include some_opens

theorem streamChoice_opens : streamChoice units =
    if (units.all fun u => u.kind == some .checkOnly || u.kind == some .resume) && (missingSum units).isSome then
      .fromMissing else .fromB :=
  if_neg fun all => some_opens fun u mem => beq_iff_eq.mp (List.all_eq_true.mp all u mem)

theorem streamChoice_fromMissing
    (resumes : ∀ u ∈ units, u.kind = some .checkOnly ∨ (u.kind = some .resume ∧ u.missing ≠ none)) :
    streamChoice units = .fromMissing := by
  have kinds : (units.all fun u => u.kind == some .checkOnly || u.kind == some .resume) = true :=
    List.all_eq_true.mpr fun u mem => by
      rcases resumes u mem with only | ⟨resume, -⟩
      · simp [only]
      · simp [resume]
  have known := missingSum_known units fun u mem resume =>
    (resumes u mem).elim (fun only => nomatch resume.symm.trans only) And.right
  rw [streamChoice_opens some_opens, kinds, known]
  rfl

theorem streamChoice_fromB
    (fresh : ¬∀ u ∈ units, u.kind = some .checkOnly ∨ (u.kind = some .resume ∧ u.missing ≠ none)) :
    streamChoice units = .fromB := by
  rw [streamChoice_opens some_opens, if_neg]
  intro both
  obtain ⟨kinds, known⟩ := Bool.and_eq_true_iff.mp both
  refine fresh fun u mem => ?_
  have kind := List.all_eq_true.mp kinds u mem
  rw [Bool.or_eq_true, beq_iff_eq, beq_iff_eq] at kind
  exact kind.imp_right fun resume => ⟨resume, missing_of_missingSum known u mem resume⟩

end

/-- The blocks to stream, by the first row of R116 that holds. -/
theorem blocksToStream_eq {units : List JobUnit} {blocks toStream : Nat}
    (rows : ((∀ u ∈ units, u.kind = some .checkOnly) ∧ toStream = 0) ∨
      ((¬∀ u ∈ units, u.kind = some .checkOnly) ∧
        (∀ u ∈ units, u.kind = some .checkOnly ∨ (u.kind = some .resume ∧ u.missing ≠ none)) ∧
        toStream = ((units.filter fun u => decide (u.kind = some .resume)).map fun u => u.missing.getD 0).sum) ∨
      ((¬∀ u ∈ units, u.kind = some .checkOnly) ∧
        (¬∀ u ∈ units, u.kind = some .checkOnly ∨ (u.kind = some .resume ∧ u.missing ≠ none)) ∧ toStream = blocks)) :
    blocksToStream units blocks = toStream := by
  unfold blocksToStream
  rcases rows with ⟨only, rfl⟩ | ⟨opens, resumes, rfl⟩ | ⟨opens, fresh, rfl⟩
  · rw [streamChoice_checkOnly only]
  · have known := missingSum_known units fun u mem resume =>
      (resumes u mem).elim (fun only => nomatch resume.symm.trans only) And.right
    simp only [streamChoice_fromMissing opens resumes, known]
  · rw [streamChoice_fromB opens fresh]

/-! ### The learned values (R113, R122, R123) -/

/-- A smoothed value stays in a range that holds the old value and the sample. -/
theorem smooth_between {low high old sample : Nat} (oldIn : low ≤ old ∧ old ≤ high)
    (sampleIn : low ≤ sample ∧ sample ≤ high) :
    low ≤ smooth old sample ∧ smooth old sample ≤ high := by
  unfold smooth
  split <;> omega

theorem rateSample_between (streamed activeTime : Nat) :
    1 ≤ rateSample streamed activeTime ∧ rateSample streamed activeTime ≤ 60000 := by
  rw [rateSample_eq]
  split <;> omega

theorem takeRateSample_between {y : Bay} (low : 1 ≤ y.rate) (high : y.rate ≤ 60000) (p : Pass) :
    1 ≤ (y.takeRateSample p).rate ∧ (y.takeRateSample p).rate ≤ 60000 := by
  unfold Bay.takeRateSample
  split
  · exact smooth_between ⟨low, high⟩ (rateSample_between _ _)
  · exact ⟨low, high⟩

theorem takeGapSample_le {y : Bay} (high : y.gapRatio ≤ 255) (p : Pass) (blocks : Nat) :
    (y.takeGapSample p blocks).gapRatio ≤ 255 := by
  unfold Bay.takeGapSample
  split
  · exact high
  · exact (smooth_between ⟨Nat.zero_le _, high⟩ ⟨Nat.zero_le _, Nat.min_le_left _ _⟩).2

/-! ### The estimate and the need (R115, R117) -/

theorem passEstimate_eq (y : Bay) (units : List JobUnit) (m blocks : Nat) : passEstimate y units m blocks =
    let top := 4294967295
    let stream := min top ((blocksToStream units blocks * 256000 + y.rate - 1) / y.rate)
    min top (min top ((units.filter fun u => decide (u.kind = some .fresh)).length * y.config.tOpen) + stream +
      min top ((stream * y.gapRatio + 255) / 256) + min top (m * ((blocks + 255) / 256) * y.config.tCheck)) := by
  have fresh : (units.countP fun u => u.kind == some .fresh) =
      (units.filter fun u => decide (u.kind = some .fresh)).length := by
    rw [List.countP_eq_length_filter]
    exact congrArg List.length (List.filter_congr fun u _ => by rw [beq_eq_decide])
  have round : ∀ n, n + 256 - 1 = n + 255 := fun _ => rfl
  simp only [passEstimate, openTerm, streamTerm, repairTerm, checkTerm, saturate, max32, fresh, ceilDiv, round]

/-- Settles O52. -/
theorem admissionArithmetic : Obligations.AdmissionArithmetic := by
  unfold Obligations.AdmissionArithmetic
  refine ⟨fun y units m blocks toStream => ?_, fun y p blocks => ?_, fun y now need => ?_, ⟨rfl, rfl, rfl, rfl⟩,
    fun y p blocks => ⟨fun low high => takeRateSample_between low high p, fun high => takeGapSample_le high p blocks⟩⟩
  · intro checkOnly resumes top rows stream
    have blocksTo : blocksToStream units blocks = toStream :=
      blocksToStream_eq (rows.imp_right (.imp_left fun ⟨opens, all, sum⟩ => ⟨opens, all, sum.trans
        (congrArg List.sum (List.map_congr_left fun u _ => by cases u.missing <;> rfl))⟩))
    rw [passEstimate_eq, blocksTo]
  · have members : y.unitsAt p.members = y.units.filter fun u => decide (u.addr ∈ p.members) :=
      List.filter_congr fun u _ => List.contains_eq_mem _ _
    rw [passNeed, members]
    rfl
  · unfold Bay.fits
    cases y.cutoffTime with
    | none => simp
    | some c => simp

end Sys2Proof

end

/-! The passes and switch groups that a planning forms (O54). -/

section

namespace Sys2Proof

open Machine

/-! ### Lists in order -/

theorem pairwise_insertAsc (n : Nat) : ∀ {l : List Nat}, l.Pairwise (· < ·) → (insertAsc n l).Pairwise (· < ·)
  | [], _ => List.pairwise_singleton _ _
  | m :: rest, sorted => by
    obtain ⟨above, tail⟩ := List.pairwise_cons.mp sorted
    rw [insertAsc]
    split
    case isTrue below =>
      exact List.pairwise_cons.mpr ⟨fun x mem => (List.mem_cons.mp mem).elim (fun is => is ▸ below)
        fun inRest => below.trans (above x inRest), sorted⟩
    case isFalse notBelow =>
      split
      case isTrue => exact sorted
      case isFalse other =>
        refine List.pairwise_cons.mpr ⟨fun x mem => ?_, pairwise_insertAsc n tail⟩
        have here : n ≠ m := by simpa using other
        rcases (mem_insertAsc n x rest).mp mem with rfl | inRest
        · omega
        · exact above x inRest

theorem pairwise_ascending (ns : List Nat) : (ascending ns).Pairwise (· < ·) := by
  induction ns with
  | nil => exact List.Pairwise.nil
  | cons n rest ih => exact pairwise_insertAsc n ih

theorem mem_ascending {x : Nat} {ns : List Nat} : x ∈ ascending ns ↔ x ∈ ns := by
  induction ns with
  | nil => rfl
  | cons n rest ih =>
    rw [ascending] at ih ⊢
    rw [List.foldr_cons, mem_insertAsc, ih, List.mem_cons]

/-! ### The units of a pass (R105) -/

theorem isFaulted_iff {u : JobUnit} : u.isFaulted = true ↔ ∃ r : FaultReason, u.progress = some (.faulted r) := by
  unfold JobUnit.isFaulted
  cases progress : u.progress with
  | none => simp
  | some p => cases p <;> simp [Progress.isFaulted]

/-- The unit is decided FLASH and not FAULTED (R105). -/
def Served (u : JobUnit) : Prop := u.decision = some .flash ∧ ∀ r : FaultReason, u.progress ≠ some (.faulted r)

theorem inPass_iff {u : JobUnit} : u.inPass = true ↔ Served u := by
  rw [JobUnit.inPass, Bool.and_eq_true, isFlash_iff, Bool.not_eq_true', Bool.eq_false_iff, Ne, isFaulted_iff, Served,
    not_exists]

theorem plannedImage_eq {u : JobUnit} {i : Nat} (known : u.planned ≠ none) :
    u.plannedImage = i ↔ ∃ pl : Planned, u.planned = some pl ∧ pl.image = i := by
  obtain ⟨pl, planned⟩ := Option.ne_none_iff_exists'.mp known
  simp [JobUnit.plannedImage, planned]

theorem mem_passUnits {units : List JobUnit} {g i : Nat} {u : JobUnit} :
    u ∈ passUnits units g i ↔ u ∈ units ∧ Served u ∧ u.group = g ∧ u.plannedImage = i := by
  rw [passUnits, List.mem_filter, Bool.and_eq_true, Bool.and_eq_true, inPass_iff, beq_iff_eq, beq_iff_eq, and_assoc]

/-- No unit's rule is below the lowest. -/
theorem lowestRule_le {us : List JobUnit} {u : JobUnit} {n : Nat} (mem : u ∈ us) (rule : u.rule = some n) :
    lowestRule us ≤ n := by
  have inRules : n ∈ us.filterMap (·.rule) := List.mem_filterMap.mpr ⟨u, mem, rule⟩
  rw [lowestRule]
  generalize us.filterMap (·.rule) = rules at inRules
  induction rules with
  | nil => exact absurd inRules List.not_mem_nil
  | cons m rest ih =>
    rw [List.foldr_cons]
    rcases List.mem_cons.mp inRules with rfl | inRest
    · exact Nat.min_le_left _ _
    · exact (Nat.min_le_right _ _).trans (ih inRest)

/-- The lowest rule is a unit's. -/
theorem lowestRule_mem {us : List JobUnit} {u : JobUnit} {n : Nat} (mem : u ∈ us) (rule : u.rule = some n) (slot : n < 64) :
    ∃ v ∈ us, v.rule = some (lowestRule us) := by
  have attained : ∀ rules : List Nat, rules.foldr min 64 ∈ rules ∨ rules.foldr min 64 = 64 := fun rules => by
    induction rules with
    | nil => exact .inr rfl
    | cons m rest ih =>
      rw [List.foldr_cons]
      rcases Nat.le_total m (rest.foldr min 64) with low | high
      · rw [Nat.min_eq_left low]
        exact .inl List.mem_cons_self
      · rw [Nat.min_eq_right high]
        exact ih.imp_left fun inRest => List.mem_cons_of_mem _ inRest
  have low := lowestRule_le mem rule
  rcases attained (us.filterMap (·.rule)) with inRules | none
  · exact List.mem_filterMap.mp inRules
  · rw [lowestRule] at low
    omega

/-! ### The passes of a group (R105, R106) -/

theorem insertPass_perm (p : Pass) : ∀ l : List Pass, (insertPass p l).Perm (p :: l)
  | [] => .refl _
  | q :: rest => by
    rw [insertPass]
    split
    case isTrue => exact .refl _
    case isFalse => exact ((insertPass_perm p rest).cons q).trans (.swap p q rest)

theorem foldr_insertPass_perm (l : List Pass) : (l.foldr insertPass []).Perm l := by
  induction l with
  | nil => exact .refl _
  | cons p rest ih => exact (insertPass_perm p _).trans (ih.cons p)

theorem insertPass_sorted (p : Pass) : ∀ {l : List Pass}, l.Pairwise (fun a b => a.lowestRule ≤ b.lowestRule) →
    (insertPass p l).Pairwise fun a b => a.lowestRule ≤ b.lowestRule
  | [], _ => List.pairwise_singleton _ _
  | q :: rest, sorted => by
    obtain ⟨above, tail⟩ := List.pairwise_cons.mp sorted
    rw [insertPass]
    split
    case isTrue below =>
      exact List.pairwise_cons.mpr ⟨fun x mem => (List.mem_cons.mp mem).elim (fun is => is ▸ below.le)
        fun inRest => below.le.trans (above x inRest), sorted⟩
    case isFalse notBelow =>
      refine List.pairwise_cons.mpr ⟨fun x mem => ?_, insertPass_sorted p tail⟩
      rcases List.mem_cons.mp ((insertPass_perm p rest).mem_iff.mp mem) with rfl | inRest
      · exact Nat.le_of_not_lt notBelow
      · exact above x inRest

theorem foldr_insertPass_sorted (l : List Pass) :
    (l.foldr insertPass []).Pairwise fun a b => a.lowestRule ≤ b.lowestRule := by
  induction l with
  | nil => exact List.Pairwise.nil
  | cons p rest ih => exact insertPass_sorted p ih

/-- The pass of one group and one planned image. -/
def formedPass (units : List JobUnit) (g i : Nat) : Pass :=
  Pass.form i g (lowestRule (passUnits units g i)) ((passUnits units g i).map (·.addr))

/-- The planned images of a group's units that take part. -/
def groupImages (units : List JobUnit) (g : Nat) : List Nat :=
  ascending ((units.filter fun u => u.inPass && u.group == g).map JobUnit.plannedImage)

theorem groupPasses_eq (units : List JobUnit) (g : Nat) :
    groupPasses units g = ((groupImages units g).map (formedPass units g)).foldr insertPass [] := rfl

theorem mem_groupImages {units : List JobUnit} {g i : Nat} :
    i ∈ groupImages units g ↔ ∃ u ∈ units, Served u ∧ u.group = g ∧ u.plannedImage = i := by
  rw [groupImages, mem_ascending, List.mem_map]
  simp only [List.mem_filter, Bool.and_eq_true, inPass_iff, beq_iff_eq, and_assoc]

theorem mem_groupPasses {units : List JobUnit} {g : Nat} {p : Pass} : p ∈ groupPasses units g ↔
    ∃ i, (∃ u ∈ units, Served u ∧ u.group = g ∧ u.plannedImage = i) ∧ p = formedPass units g i := by
  rw [groupPasses_eq, (foldr_insertPass_perm _).mem_iff, List.mem_map]
  simp only [mem_groupImages, eq_comm]

/-- The passes of one group have different images, and stand in the order of their lowest rule numbers. -/
theorem groupPasses_order (units : List JobUnit) (g : Nat) :
    (groupPasses units g).Pairwise fun p q => p.image ≠ q.image ∧ p.lowestRule ≤ q.lowestRule := by
  refine List.Pairwise.and ?_ (foldr_insertPass_sorted _)
  rw [groupPasses_eq, (foldr_insertPass_perm _).pairwise_iff fun other => other.symm, List.pairwise_map]
  exact (pairwise_ascending _).imp fun below => below.ne

theorem mem_formPasses {units : List JobUnit} {p : Pass} : p ∈ formPasses units ↔
    ∃ g < 8, ∃ i, (∃ u ∈ units, Served u ∧ u.group = g ∧ u.plannedImage = i) ∧ p = formedPass units g i := by
  rw [formPasses, List.mem_flatMap]
  simp only [List.mem_range, mem_groupPasses]

theorem formPasses_order (units : List JobUnit) : (formPasses units).Pairwise fun p q =>
    (p.group, p.image) ≠ (q.group, q.image) ∧
      (p.group < q.group ∨ (p.group = q.group ∧ p.lowestRule ≤ q.lowestRule)) := by
  have inGroup : ∀ {g : Nat} {p : Pass}, p ∈ groupPasses units g → p.group = g := fun mem => by
    obtain ⟨i, -, rfl⟩ := mem_groupPasses.mp mem
    rfl
  refine List.pairwise_flatMap.mpr ⟨fun g _ => ?_, List.pairwise_lt_range.imp fun {g h} below p memP q memQ => ?_⟩
  · refine (groupPasses_order units g).imp_of_mem fun {p q} memP memQ ⟨images, rules⟩ => ?_
    exact ⟨fun same => images (Prod.mk.inj same).2, .inr ⟨(inGroup memP).trans (inGroup memQ).symm, rules⟩⟩
  · have groups : p.group < q.group := by rwa [inGroup memP, inGroup memQ]
    exact ⟨fun same => groups.ne (Prod.mk.inj same).1, .inl groups⟩

/-! ### The switch-group records (R105) -/

/-- The units of a switch group that are decided FLASH. -/
def groupUnits (units : List JobUnit) (g : Nat) : List JobUnit := units.filter fun u => u.isFlash && u.group == g

theorem mem_groupUnits {units : List JobUnit} {g : Nat} {u : JobUnit} :
    u ∈ groupUnits units g ↔ u ∈ units ∧ u.decision = some .flash ∧ u.group = g := by
  rw [groupUnits, List.mem_filter, Bool.and_eq_true, isFlash_iff, beq_iff_eq]

theorem formGroup_eq_some {units : List JobUnit} {g : Nat} {r : GroupRecord} : formGroup units g = some r ↔
    groupUnits units g ≠ [] ∧ r = { group := g, members := (groupUnits units g).map (·.addr)
                                    images := ascending ((groupUnits units g).map JobUnit.plannedImage)
                                    faulted := (groupUnits units g).any JobUnit.isFaulted, ended := false, sent := [] } := by
  show (if (groupUnits units g).isEmpty then none else some _) = some r ↔ _
  split
  case isTrue none => simp [List.isEmpty_iff.mp none]
  case isFalse nonempty =>
    rw [Option.some_inj, eq_comm]
    exact (and_iff_right fun none => nonempty (List.isEmpty_iff.mpr none)).symm

theorem mem_formGroups {units : List JobUnit} {r : GroupRecord} :
    r ∈ formGroups units ↔ ∃ g, (1 ≤ g ∧ g ≤ 7) ∧ formGroup units g = some r := by
  have range : ∀ g, g ∈ (List.range 8).drop 1 ↔ 1 ≤ g ∧ g ≤ 7 := fun g => by
    simp only [List.range_succ, List.range_zero, List.nil_append, List.cons_append, List.drop_succ_cons, List.drop_zero,
      List.mem_cons, List.not_mem_nil, or_false]
    omega
  rw [formGroups, List.mem_filterMap]
  simp only [range]

theorem formGroups_order (units : List JobUnit) : ((formGroups units).map (·.group)).Pairwise (· < ·) := by
  rw [List.pairwise_map, formGroups, List.pairwise_filterMap]
  have range : ((List.range 8).drop 1).Pairwise (· < ·) := by decide
  refine range.imp fun below r isR q isQ => ?_
  obtain ⟨-, rfl⟩ := formGroup_eq_some.mp isR
  obtain ⟨-, rfl⟩ := formGroup_eq_some.mp isQ
  exact below

section

variable {units : List JobUnit} (addresses : (units.map (·.addr)).Pairwise (· < ·))

include addresses

theorem pairwise_filter_addr (test : JobUnit → Bool) : ((units.filter test).map (·.addr)).Pairwise (· < ·) :=
  addresses.sublist (List.filter_sublist.map _)

/-- A unit whose address is a pass's member is one of the pass's units. -/
theorem unit_of_member {g i : Nat} {u : JobUnit} (mem : u ∈ units) (member : u.addr ∈ (formedPass units g i).members) :
    u ∈ passUnits units g i := by
  obtain ⟨v, isUnit, same⟩ := List.mem_map.mp member
  have nodup : (units.map (·.addr)).Nodup := addresses.imp fun below => below.ne
  rwa [← List.inj_on_of_nodup_map nodup (mem_passUnits.mp isUnit).1 mem same]

end

/-- Settles O54. -/
theorem passesFormed : Obligations.PassesFormed := by
  unfold Obligations.PassesFormed
  intro units served addresses groups planned
  have image : ∀ u ∈ units, u.decision = some .flash → ∀ i, u.plannedImage = i ↔
      ∃ pl : Planned, u.planned = some pl ∧ pl.image = i := fun u mem flash i => plannedImage_eq (planned u mem flash).1
  refine ⟨fun p mem => ?_, fun u mem isServed => ?_, formPasses_order units, fun r mem => ?_, fun u mem flash group => ?_,
    formGroups_order units⟩
  · obtain ⟨g, -, i, ⟨u, inUnits, isServed, group, isImage⟩, rfl⟩ := mem_formPasses.mp mem
    have isUnit : u ∈ passUnits units g i := mem_passUnits.mpr ⟨inUnits, isServed, group, isImage⟩
    obtain ⟨n, slot, rule⟩ := (planned u inUnits isServed.1).2
    refine ⟨List.ne_nil_of_mem (List.mem_map.mpr ⟨u, isUnit, rfl⟩), pairwise_filter_addr addresses _, rfl, rfl, rfl, rfl,
      fun a => ?_, ?_, fun v inV m member ruleV => lowestRule_le (unit_of_member addresses inV member) ruleV⟩
    · refine List.mem_map.trans ⟨?_, ?_⟩
      · rintro ⟨v, isV, rfl⟩
        obtain ⟨inV, servedV, groupV, imageV⟩ := mem_passUnits.mp isV
        exact ⟨v, inV, rfl, servedV, groupV, (image v inV servedV.1 i).mp imageV⟩
      · rintro ⟨v, inV, rfl, servedV, groupV, imageV⟩
        exact ⟨v, mem_passUnits.mpr ⟨inV, servedV, groupV, (image v inV servedV.1 i).mpr imageV⟩, rfl⟩
    · obtain ⟨v, isV, ruleV⟩ := lowestRule_mem isUnit rule slot
      exact ⟨v, (mem_passUnits.mp isV).1, List.mem_map.mpr ⟨v, isV, rfl⟩, ruleV⟩
  · exact ⟨_, mem_formPasses.mpr ⟨u.group, Nat.lt_succ_of_le (groups u mem), u.plannedImage, ⟨u, mem, isServed, rfl, rfl⟩,
      rfl⟩, List.mem_map.mpr ⟨u, mem_passUnits.mpr ⟨mem, isServed, rfl, rfl⟩, rfl⟩⟩
  · obtain ⟨g, ⟨low, high⟩, isRecord⟩ := mem_formGroups.mp mem
    obtain ⟨nonempty, rfl⟩ := formGroup_eq_some.mp isRecord
    refine ⟨low, high, fun none => nonempty (List.map_eq_nil_iff.mp none), pairwise_filter_addr addresses _, fun a => ?_,
      pairwise_ascending _, fun i => ?_, ?_, rfl, rfl⟩
    · refine List.mem_map.trans ⟨?_, ?_⟩
      · rintro ⟨v, isV, rfl⟩
        obtain ⟨inV, flash, group⟩ := mem_groupUnits.mp isV
        exact ⟨v, inV, rfl, flash, group⟩
      · rintro ⟨v, inV, rfl, flash, group⟩
        exact ⟨v, mem_groupUnits.mpr ⟨inV, flash, group⟩, rfl⟩
    · refine (mem_ascending.trans List.mem_map).trans ⟨?_, ?_⟩
      · rintro ⟨v, isV, isImage⟩
        obtain ⟨inV, flash, group⟩ := mem_groupUnits.mp isV
        exact ⟨v, inV, flash, group, (image v inV flash i).mp isImage⟩
      · rintro ⟨v, inV, flash, group, isImage⟩
        exact ⟨v, mem_groupUnits.mpr ⟨inV, flash, group⟩, (image v inV flash i).mpr isImage⟩
    · refine List.any_eq_true.trans ⟨?_, ?_⟩
      · rintro ⟨v, isV, faulted⟩
        obtain ⟨inV, flash, group⟩ := mem_groupUnits.mp isV
        exact ⟨v, inV, flash, group, isFaulted_iff.mp faulted⟩
      · rintro ⟨v, inV, flash, group, faulted⟩
        exact ⟨v, mem_groupUnits.mpr ⟨inV, flash, group⟩, isFaulted_iff.mpr faulted⟩
  · exact ⟨_, mem_formGroups.mpr ⟨u.group, ⟨Nat.pos_of_ne_zero group, groups u mem⟩, formGroup_eq_some.mpr
      ⟨List.ne_nil_of_mem (mem_groupUnits.mpr ⟨mem, flash, rfl⟩), rfl⟩⟩, rfl⟩

end Sys2Proof

end

/-! The identities of a bay's units, which planning and admission leave as the sweep found them (O43). -/

section

namespace Sys2Proof

open Machine

/-- The identity records of a bay's job units, in order. -/
def identitiesOf (units : List JobUnit) : List Identity := units.map (·.identity)

theorem identitiesOf_map {units : List JobUnit} {f : JobUnit → JobUnit} (keeps : ∀ u, (f u).identity = u.identity) :
    identitiesOf (units.map f) = identitiesOf units := by
  rw [identitiesOf, identitiesOf, List.map_map]
  exact List.map_congr_left fun u _ => keeps u

theorem identitiesOf_map_if {units : List JobUnit} {test : JobUnit → Bool} {f : JobUnit → JobUnit}
    (keeps : ∀ u, (f u).identity = u.identity) :
    identitiesOf (units.map fun u => if test u then f u else u) = identitiesOf units :=
  identitiesOf_map fun u => by
    split
    · exact keeps u
    · rfl

/-! ### A planning's decisions (R99) -/

theorem identity_decideUnit (plan : List (Option Rule)) (find : Nat → Option Entry) (u : JobUnit) :
    (decideUnit plan find u).identity = u.identity := by
  unfold decideUnit
  dsimp only
  repeat' split
  all_goals rfl

theorem identity_startServing (u : JobUnit) : u.startServing.identity = u.identity := by
  unfold JobUnit.startServing
  split <;> rfl

theorem identitiesOf_decideUnits (plan : List (Option Rule)) (find : Nat → Option Entry) (units : List JobUnit) :
    identitiesOf (decideUnits plan find units) = identitiesOf units := by
  have sweeps : ∀ (fuel : Nat) (l : List JobUnit), identitiesOf (prereqSweeps plan fuel l) = identitiesOf l := by
    intro fuel
    induction fuel with
    | zero => exact fun _ => rfl
    | succ n ih =>
      intro l
      have swept : identitiesOf (prereqSweep plan l) = identitiesOf l := identitiesOf_map_if fun _ => rfl
      rw [prereqSweeps]
      dsimp only
      split
      · split
        · rfl
        · rw [ih, swept]
      · rfl
  rw [decideUnits, sweeps, identitiesOf_map (identity_decideUnit plan find)]

theorem identitiesOf_plannedUnits (t : State) (b : BayId) :
    identitiesOf (plannedUnits t b) = identitiesOf (t.bay b).units := by
  rw [plannedUnits, identitiesOf_map identity_startServing, identitiesOf_decideUnits,
    identitiesOf_map (f := JobUnit.replanReset) fun _ => rfl]

/-! ### The phases of a pass -/

/-- Bay `b` of the state has the identities of `l`. -/
def HasIdentities (l : List Identity) (b : BayId) (t : State) : Prop := identitiesOf (t.bay b).units = l

section

variable {l : List Identity} {b : BayId} {t : State} {y : Bay}

theorem HasIdentities.modBay {f : Bay → Bay} (h : HasIdentities l b t)
    (keeps : identitiesOf (f (t.bay b)).units = identitiesOf (t.bay b).units) : HasIdentities l b (t.modBay b f) := by
  rw [HasIdentities, State.bay_modBay_same, keeps]
  exact h

theorem identities_offerCheck : identitiesOf y.offerCheck.units = identitiesOf y.units := by
  unfold Bay.offerCheck
  split
  · rfl
  · split
    · rfl
    · rw [Bay.offer_only]
      exact identitiesOf_map_if fun _ => rfl

theorem identities_offerGaps : identitiesOf y.offerGaps.units = identitiesOf y.units := by
  unfold Bay.offerGaps
  split
  · rfl
  · split
    · rw [Bay.offer_only]
    · rfl

theorem identities_nextRepairMember : identitiesOf y.nextRepairMember.units = identitiesOf y.units := by
  unfold Bay.nextRepairMember
  split
  · rfl
  · split
    · rfl
    · rw [identities_offerGaps]
      exact identitiesOf_map_if fun _ => rfl

theorem HasIdentities.sendBlock (h : HasIdentities l b t) : HasIdentities l b (t.sendBlock b) := by
  unfold State.sendBlock
  dsimp only
  split
  · exact h
  · split
    · split
      · split
        · refine h.modBay ?_
          split <;> rfl
        · exact h.modBay rfl
      · split
        · exact h
        · exact h.modBay rfl
    · exact h

theorem HasIdentities.offerOpen (h : HasIdentities l b t) : HasIdentities l b (t.offerOpen b) := by
  unfold State.offerOpen
  dsimp only
  split
  · exact h
  · split
    · exact h
    · split
      · refine h.modBay ?_
        rw [Bay.offer_only]
        exact identitiesOf_map_if fun _ => rfl
      · exact h

theorem HasIdentities.afterOpen (h : HasIdentities l b t) : HasIdentities l b (t.afterOpen b) := by
  unfold State.afterOpen
  dsimp only
  split
  · exact h
  · split
    · exact h.modBay identities_offerCheck
    · split
      · exact h.modBay identities_nextRepairMember
      · exact (HasIdentities.modBay (h.modBay rfl) rfl).sendBlock

theorem HasIdentities.enterOpen (h : HasIdentities l b t) : HasIdentities l b (t.enterOpen b) := by
  unfold State.enterOpen
  dsimp only
  split
  · exact h
  · split
    · exact h.afterOpen
    · exact (h.modBay rfl).offerOpen

theorem identities_defer (refused : List Nat) : identitiesOf (y.defer refused).units = identitiesOf y.units :=
  identitiesOf_map_if fun _ => rfl

theorem identities_startSwitch (tried : SwitchTry) : identitiesOf (y.startSwitch tried).units = identitiesOf y.units := by
  unfold Bay.startSwitch
  dsimp only
  split
  · exact identitiesOf_map_if fun _ => rfl
  · rw [Bay.offer_only]
    exact identitiesOf_map_if fun _ => rfl

theorem HasIdentities.startPass (h : HasIdentities l b t) (test : Pass → Bool) (p : Pass) :
    HasIdentities l b (t.startPass b test p) := by
  unfold State.startPass
  refine HasIdentities.enterOpen (h.modBay ?_)
  exact identitiesOf_map_if fun _ => rfl

theorem HasIdentities.restInDone (h : HasIdentities l b t) : HasIdentities l b (t.restInDone b) := by
  unfold State.restInDone
  split
  · exact h
  · rw [HasIdentities, State.bay_post]
    exact h.modBay rfl

/-- An admission run changes no identity. -/
theorem HasIdentities.admissionRun (h : HasIdentities l b t) : HasIdentities l b (t.admissionRun b) := by
  by_cases runs : (t.bay b).mayRun = true ∧ (t.bay b).held = false
  case neg =>
    rw [admissionRun_rests runs]
    exact h
  obtain ⟨may, free⟩ := runs
  rw [admissionRun_runs may free]
  split
  case h_1 tried found =>
    exact h.modBay ((identities_startSwitch _).trans (identities_defer _))
  case h_2 =>
    dsimp only
    split
    case h_1 p found => exact (h.modBay (identities_defer _)).startPass _ _
    case h_2 => exact (h.modBay (identities_defer _)).restInDone

end

/-! ### The start of a planning (R99, R107) -/

/-- A completed planning keeps the identities of its units, and the addresses of the bound record's slots. -/
theorem PlanningCompletes.keeps {b : BayId} {t u : State} {generation : Nat} (h : PlanningCompletes b t u generation) :
    identitiesOf (u.bay b).units = identitiesOf (t.bay b).units ∧ ∀ before : BusRecord, t.bound b = some before →
      ∃ after : BusRecord, u.bound b = some after ∧ after.fleet = before.fleet ∧ after.lastVisit = before.lastVisit ∧
        after.slots.map (·.addr) = before.slots.map (·.addr) := by
  obtain ⟨e, counters, -, made, ends⟩ := h
  have here : HasIdentities (identitiesOf (t.bay b).units) b e := by
    rw [made, HasIdentities, State.bay_modBound, State.bay_modBay_same]
    rfl
  refine ⟨?_, fun before bound => ?_⟩
  · rw [ends]
    split
    · exact here
    · exact here.admissionRun
  · have fleet : u.fleet = e.fleet := by
      rw [ends]
      split
      · rfl
      · exact (admissionRun_frame e b).2.1
    have base : ({ t with plans := { t.plans with counters := counters } } : State).bound b = some before := bound
    rw [bound_of_fleet fleet, made, bound_modBound_self, bound_modBay, base]
    · refine ⟨_, rfl, rfl, rfl, ?_⟩
      rw [List.map_map]
      refine List.map_congr_left fun sl _ => ?_
      dsimp only [Function.comp_apply]
      split <;> rfl
    · exact fun _ => rfl

/-- What the start of a planning leaves, whether it asks for gaps or completes. -/
theorem PlanningStarts.keeps {b : BayId} {t u : State} (h : PlanningStarts b t u) :
    (u.bay b).state ∈ [BayState.planning, .transferring, .switching, .done] ∧
      identitiesOf (u.bay b).units = identitiesOf (t.bay b).units ∧ ∀ before : BusRecord, t.bound b = some before →
        ∃ after : BusRecord, u.bound b = some after ∧ after.fleet = before.fleet ∧ after.lastVisit = before.lastVisit ∧
          after.slots.map (·.addr) = before.slots.map (·.addr) := by
  cases list : resumeUnits t b with
  | cons d rest =>
    obtain ⟨state, units, -, -, -, -, fleet, -⟩ := h.asks d rest list
    rw [state, units, identitiesOf_plannedUnits]
    exact ⟨by simp, rfl, fun before bound => ⟨before, (bound_of_fleet fleet b).trans bound, rfl, rfl, rfl⟩⟩
  | nil =>
    have completes := h.completes list
    obtain ⟨units, record⟩ := completes.keeps
    rw [State.bay_modBay_same] at units
    exact ⟨List.mem_cons_of_mem _ completes.leaves.2.2.1, units.trans (identitiesOf_plannedUnits t b),
      fun before bound => record before (by rw [bound_modBay, bound])⟩

end Sys2Proof

end

/-! The IDENTIFY sweep: its units, the binding and the refresh of the bus record (O43). -/

section

namespace Sys2Proof

open Machine

/-! ### The bay's offer (R9, R10) -/

/-- The bays take no part in an offer. -/
theorem offerFleet_modBay (s : State) (b c : BayId) (f : Bay → Bay) (n : Nat) : (s.modBay c f).offerFleet b n =
    ((s.offerFleet b n).1, (s.offerFleet b n).2.modBay c f) := by
  have evicts : ∀ t : State, (t.modBay c f).evictIfFull = t.evictIfFull.modBay c f := fun t => by
    unfold State.evictIfFull
    rw [State.modBay_fleet]
    repeat' split
    all_goals rfl
  unfold State.offerFleet
  rw [show (s.modBay c f).bus n = s.bus n from rfl, show (s.modBay c f).unbind b = (s.unbind b).modBay c f from rfl, evicts]
  split
  · dsimp only
    split <;> rfl
  · rfl

theorem offerFleet_leaves (s : State) (b : BayId) (n : Nat) : (s.offerFleet b n).2.store = s.store ∧
    (s.offerFleet b n).2.plans = s.plans ∧ (s.offerFleet b n).2.yardTime = s.yardTime := by
  unfold State.offerFleet State.evictIfFull
  repeat' split
  all_goals exact ⟨rfl, rfl, rfl⟩

/-- A number that no other bay holds is bound to the bay that offers it, as visited now. -/
theorem offerFleet_binds {s : State} (h : FleetOk s) {b : BayId} {n : Nat}
    (free : ∀ r ∈ s.fleet, r.fleet = n → r.atBay = none ∨ r.atBay = some b) : (s.offerFleet b n).1 = .bound ∧
      ∃ r : BusRecord, (s.offerFleet b n).2.bound b = some r ∧ r.fleet = n ∧ r.lastVisit = s.yardTime := by
  have sound := h.offerFleet (b := b) n
  by_cases known : ∃ r ∈ s.fleet, r.fleet = n
  · obtain ⟨r, mem, rfl⟩ := known
    have eq := offerFleet_known h mem (free r mem rfl)
    refine ⟨by rw [eq], { r with atBay := some b, lastVisit := s.yardTime }, sound.bound_eq ?_ rfl, rfl, rfl⟩
    rw [eq]
    exact List.mem_map.mpr ⟨r, mem, if_pos rfl⟩
  · have eq := offerFleet_new (b := b) fun r mem number => known ⟨r, mem, number⟩
    refine ⟨by rw [eq], BusRecord.create n b s.yardTime, sound.bound_eq ?_ rfl, rfl, rfl⟩
    rw [eq]
    exact (insertBus_perm _ _).mem_iff.mpr List.mem_cons_self

/-! ### The refresh (R13, R14) -/

/-- Postings write the ports alone. -/
theorem foldPosts_eq (k : EventKind) (f : JobUnit → Subject) (l : List JobUnit) : ∀ t : State,
    l.foldl (fun t u => t.post k (f u)) t = { t with ports := (l.foldl (fun t u => t.post k (f u)) t).ports } := by
  induction l with
  | nil => exact fun _ => rfl
  | cons u rest ih => exact fun t => (ih (t.post k (f u))).trans rfl

theorem ports_foldPosts (k : EventKind) (f : JobUnit → Subject) (l : List JobUnit) : ∀ {t u : State}, t.ports = u.ports →
    (l.foldl (fun t x => t.post k (f x)) t).ports = (l.foldl (fun t x => t.post k (f x)) u).ports := by
  induction l with
  | nil => exact id
  | cons x rest ih => exact fun same => ih (post_ports same _ _)

/-- What the refresh writes and posts. -/
theorem refreshBound_facts {s : State} {b : BayId} {r : BusRecord} (bound : s.bound b = some r) :
    let w := s.refreshBound b
    w.bay b = s.bay b ∧ w.bound b = some (r.refresh (s.bay b).units) ∧
    (∀ u : State, s.ports = u.ports → w.ports = (((s.bay b).units.filter (replacedUnit r.slots)).foldl
      (fun t m => t.post .unitChanged (.fleetUnit r.fleet m.addr)) u).ports) ∧
    w.store = s.store ∧ w.plans = s.plans ∧ w.yardTime = s.yardTime := by
  have eq : s.refreshBound b = ((s.bay b).units.filter (replacedUnit r.slots)).foldl
      (fun t m => t.post .unitChanged (.fleetUnit r.fleet m.addr)) (s.modBound b fun q => q.refresh (s.bay b).units) := by
    simp only [State.refreshBound, bound]
  have written : (s.modBound b fun q => q.refresh (s.bay b).units).bound b = some (r.refresh (s.bay b).units) := by
    rw [bound_modBound_self (f := fun q => q.refresh (s.bay b).units) _ _ fun _ => rfl, bound, Option.map_some]
  rw [eq]
  refine ⟨(bay_foldPosts _ _ _ _ _).trans (State.bay_modBound _ _ _ _), ?_, fun u same => ports_foldPosts _ _ _ same, ?_⟩
  · rw [foldPosts_eq]
    exact written
  · rw [foldPosts_eq]
    exact ⟨rfl, rfl, rfl⟩

/-! ### The outcome of a sweep's IDENTIFY (R94 to R96) -/

theorem handBack_sweep {s : State} {b : BayId} {tr : Transaction} {out : LineOutcome} {a : Nat}
    (activity : tr.activity = .sweep) (request : tr.request = .identify a) :
    s.handBack b tr out = (s.modBay b Bay.endTransaction).takeSweep b a out := by
  simp only [State.handBack, activity, request]

/-- The units after the outcome: one more when the unit answered. -/
def sweptUnits (units : List JobUnit) (a : Nat) : LineOutcome → List JobUnit
  | .reply (.identity i) => units ++ [JobUnit.create a (i.atAddress a)]
  | _ => units

/-- The state in which the outcome has been taken. -/
def swept (s : State) (b : BayId) (a : Nat) (out : LineOutcome) : State :=
  s.modBay b fun y => { y.endTransaction with units := sweptUnits y.units a out }

theorem takeSweep_eq (s : State) (b : BayId) (a : Nat) (out : LineOutcome) :
    (s.modBay b Bay.endTransaction).takeSweep b a out =
      if a < 16 then (swept s b a out).modBay b fun y => y.sweepTo (a + 1) else (swept s b a out).endSweep b := by
  have taken : (s.modBay b Bay.endTransaction).modBay b (fun y => { y with units := sweptUnits y.units a out }) =
      swept s b a out := State.modBay_modBay _ _ _ _
  rw [← taken]
  unfold State.takeSweep
  split
  · rfl
  case h_2 other =>
    have same : sweptUnits ((s.modBay b Bay.endTransaction).bay b).units a out =
        ((s.modBay b Bay.endTransaction).bay b).units := by
      unfold sweptUnits
      split
      · next i => exact absurd rfl (other i)
      · rfl
    have nothing : (s.modBay b Bay.endTransaction).modBay b (fun y => { y with units := sweptUnits y.units a out }) =
        s.modBay b Bay.endTransaction :=
      (State.modBay_eq _ b (g := fun y => y) (by rw [same])).trans (State.modBay_self _ b)
    rw [nothing]

section

variable {t : State} {b : BayId} {n : Nat}

theorem endSweep_anonymous (anonymous : (t.bay b).offeredFleet = none) : t.endSweep b = t.enterAnomaly b .anonymous := by
  unfold State.endSweep
  rw [anonymous]

variable (offers : (t.bay b).offeredFleet = some n)

include offers

theorem endSweep_refused (refused : t.offerFleet b n = (.refused, t)) : t.endSweep b = t.enterAnomaly b .duplicate := by
  unfold State.endSweep
  rw [offers]
  dsimp only
  rw [refused]

theorem endSweep_bound (bound : (t.offerFleet b n).1 = .bound) :
    t.endSweep b = (((t.offerFleet b n).2.modBay b fun y => { y with sweepAt := none }).refreshBound b).startPlanning b := by
  unfold State.endSweep
  rw [offers]
  dsimp only
  generalize t.offerFleet b n = offer at bound ⊢
  obtain ⟨answer, u⟩ := offer
  cases bound
  rfl

end

/-! The fleet number that a bay offers is that of a gateway at address 1 (R9, R96). -/

/-- The unit at address 1. -/
def gatewayOf (units : List JobUnit) : Option JobUnit := units.find? fun x => decide (x.addr = 1)

theorem unit_gateway (y : Bay) : y.unit 1 = gatewayOf y.units := by
  have test : (fun x : JobUnit => x.addr == 1) = fun x => decide (x.addr = 1) := funext fun x => beq_eq_decide _ _
  rw [Bay.unit, test, gatewayOf]

theorem offeredFleet_none {y : Bay} (nobody : ∀ x : JobUnit, gatewayOf y.units = some x → x.identity.cls = 1 →
    x.identity.fleet = 0) : y.offeredFleet = none := by
  unfold Bay.offeredFleet
  rw [unit_gateway]
  cases found : gatewayOf y.units with
  | none => rfl
  | some x => exact if_neg fun both => by simp_all

theorem offeredFleet_some {y : Bay} {x : JobUnit} (gateway : gatewayOf y.units = some x) (cls : x.identity.cls = 1)
    (fleet : x.identity.fleet ≠ 0) : y.offeredFleet = some x.identity.fleet := by
  unfold Bay.offeredFleet
  rw [unit_gateway, gateway]
  exact if_pos (by simp [cls, fleet])

/-- A bay in ANONYMOUS or DUPLICATE has its units, and posts BAY_ANOMALY (R86). -/
theorem enterAnomaly_facts (t : State) (b : BayId) (state : BayState) :
    (t.enterAnomaly b state).bay b = { t.bay b with state := state, sweepAt := none } ∧
    (t.enterAnomaly b state).fleet = t.fleet ∧
    ∀ p : PortId, (t.enterAnomaly b state).port p = (t.post .bayAnomaly (.bay b)).port p :=
  ⟨by rw [State.enterAnomaly, State.bay_post, State.bay_modBay_same], rfl, fun p => State.port_of_ports (post_ports rfl _ _) p⟩

/-! ### The outcome as O43 states it -/

theorem replacedUnit_eq (old : List Slot) : replacedUnit old = fun m : JobUnit =>
    old.any fun o => decide (o.addr = m.addr ∧ o.serial ≠ m.identity.serial) := by
  funext m
  unfold replacedUnit
  congr 1
  funext o
  rw [Bool.decide_and, beq_eq_decide, decide_not, bne, beq_eq_decide]

/-- What of an identity depends on the address where it was read is its fleet number alone (R95). -/
theorem create_atAddress (a : Nat) (i : Identity) : JobUnit.create a (i.atAddress a) =
    { addr := a, identity := if a = 1 then i else { i with fleet := 0 }, knownActive := i.active
      knownStandby := { image := i.standbyImage, version := i.standbyVersion, state := i.standbyState }
      decision := none, rule := none, planned := none, group := 0, holdAfter := false, kind := none
      missing := none, progress := none, gaps := [], more := false, repairSent := 0, refetchUsed := false
      fault := none, claim := none, openedBlocks := none } := by
  unfold Identity.atAddress
  split <;> rfl

theorem slotTest (m : JobUnit) : (fun o : Slot => o.addr == m.addr) = fun o : Slot => decide (o.addr = m.addr) :=
  funext fun _ => beq_eq_decide _ _

theorem memberTest (m : Unconfirmed) : (fun u : JobUnit => u.addr == m.addr) = fun u : JobUnit => decide (u.addr = m.addr) :=
  funext fun _ => beq_eq_decide _ _

theorem keepMembers_eq (test : Split → Unconfirmed → Bool) (splits : List Split) : keepMembers test splits =
    (splits.map fun e => { e with members := e.members.filter (test e) }).filter fun e => decide (e.members ≠ []) :=
  List.filter_congr fun e _ => by rw [Bool.eq_iff_iff]; simp

/-- After the refresh each unit that answered has its slot. -/
theorem refresh_addresses (r : BusRecord) (units : List JobUnit) :
    (r.refresh units).slots.map (·.addr) = units.map (·.addr) := by
  rw [BusRecord.refresh, List.map_map]
  refine List.map_congr_left fun m _ => ?_
  show (refreshSlot r.slots m).addr = m.addr
  unfold refreshSlot
  split
  · split <;> rfl
  · rfl

theorem bay_swept (s : State) (b : BayId) (a : Nat) (out : LineOutcome) : (swept s b a out).bay b =
    { (s.bay b).endTransaction with units := sweptUnits (s.bay b).units a out } := State.bay_modBay_same _ _ _

/-- The bound record after the sweep's offer, and what the refresh makes of it. -/
theorem sweepBinds {s : State} {b : BayId} {a n : Nat} {out : LineOutcome} (ok : FleetOk s)
    (free : ∀ r ∈ s.fleet, r.fleet = n → r.atBay = none ∨ r.atBay = some b) :
    ((swept s b a out).offerFleet b n).1 = .bound ∧ ∃ r : BusRecord, (s.offerFleet b n).2.bound b = some r ∧ r.fleet = n ∧
      r.lastVisit = s.yardTime ∧
      let found := sweptUnits (s.bay b).units a out
      let w := (((swept s b a out).offerFleet b n).2.modBay b fun y => { y with sweepAt := none }).refreshBound b
      w.bay b = { (s.bay b).endTransaction with units := found, sweepAt := none } ∧ w.bound b = some (r.refresh found) ∧
      w.ports = ((found.filter (replacedUnit r.slots)).foldl
        (fun t m => t.post .unitChanged (.fleetUnit r.fleet m.addr)) (s.offerFleet b n).2).ports ∧
      w.store = s.store ∧ w.plans = s.plans ∧ w.yardTime = s.yardTime := by
  obtain ⟨binds, r, bound, number, visit⟩ := offerFleet_binds ok free
  obtain ⟨store, plans, yardTime⟩ := offerFleet_leaves s b n
  have here := bay_offerFleet s b n b
  rw [swept, offerFleet_modBay]
  refine ⟨binds, r, bound, number, visit, ?_⟩
  generalize (s.offerFleet b n).2 = o at *
  dsimp only
  rw [State.modBay_modBay]
  have bay : (o.modBay b fun y => { y.endTransaction with units := sweptUnits y.units a out, sweepAt := none }).bay b =
      { (s.bay b).endTransaction with units := sweptUnits (s.bay b).units a out, sweepAt := none } := by
    rw [State.bay_modBay_same, here]
  obtain ⟨same, refreshed, ports, store', plans', yardTime'⟩ := refreshBound_facts
    (s := o.modBay b fun y => { y.endTransaction with units := sweptUnits y.units a out, sweepAt := none }) (b := b) (r := r)
    bound
  rw [bay] at same refreshed ports
  exact ⟨same, refreshed, ports o rfl, store'.trans store, plans'.trans plans, yardTime'.trans yardTime⟩

/-- Settles O43: the next address, or the end of the sweep with no gateway's number, with one bound elsewhere, and with
one that the bay takes. -/
theorem sweepBuildsUnits : Obligations.SweepBuildsUnits := by
  unfold Obligations.SweepBuildsUnits
  intro s b tr out c a ends activity request found gateway replaced refreshed remaining
  have run := exec_endsWith ends
  rw [handBack_sweep activity request, takeSweep_eq] at run
  have only : OnlyBay b s ((s.modBay b Bay.endTransaction).takeSweep b a out) :=
    ((OnlyBay.refl b s).modBay _).takeSweep a out
  rw [takeSweep_eq] at only
  have units : found = sweptUnits (s.bay b).units a out := by
    unfold sweptUnits
    simp only [create_atAddress]
    rcases out with (_ | _ | _ | _ | _ | _) | _ | _ <;> rfl
  clear_value found
  subst units
  have bay := bay_swept s b a out
  have isGateway : gateway = gatewayOf ((swept s b a out).bay b).units := by rw [bay]; rfl
  refine ⟨fun more => ?_, fun last nobody => ?_, fun last ok x isX cls fleet => ⟨fun ⟨r, mem, number, held, other⟩ => ?_,
    fun free => ?_⟩⟩
  · rw [if_pos more] at run only
    refine ⟨_, run, only, rfl, rfl, ?_⟩
    rw [State.bay_modBay_same, bay, Bay.sweepTo, Bay.offer_only]
    refine ⟨rfl, rfl, rfl, fun offered => ?_⟩
    obtain ⟨sending, tr', transaction, request', activity', retries, -, drained, -⟩ :=
      sends_offer (y := { (s.bay b).endTransaction with
        units := sweptUnits (s.bay b).units a out, sweepAt := some (a + 1) }) ⟨rfl, offered⟩ (.identify (a + 1)) .sweep
    exact ⟨sending, tr', transaction, request', activity', retries, drained⟩
  · rw [if_neg (Nat.not_lt.mpr last), endSweep_anonymous (offeredFleet_none (by rw [← isGateway]; exact nobody))] at run only
    obtain ⟨after', fleet, ports⟩ := enterAnomaly_facts (swept s b a out) b .anonymous
    refine ⟨_, run, only, fleet, ?_⟩
    rw [after', bay]
    exact ⟨rfl, rfl, rfl, fun p => (ports p).trans (State.port_of_ports (post_ports rfl _ _) p)⟩
  · rw [isGateway] at isX
    rw [← number] at fleet
    have sound : FleetOk (swept s b a out) := ok.congr rfl
    have offers := offeredFleet_some isX cls (number ▸ fleet)
    rw [← number] at offers
    rw [if_neg (Nat.not_lt.mpr last), endSweep_refused offers (offerFleet_refused sound mem held other)] at run only
    obtain ⟨after', fleet, ports⟩ := enterAnomaly_facts (swept s b a out) b .duplicate
    refine ⟨_, run, only, fleet, ?_⟩
    rw [after', bay]
    exact ⟨rfl, rfl, rfl, fun p => (ports p).trans (State.port_of_ports (post_ports rfl _ _) p)⟩
  · rw [isGateway] at isX
    have offers := offeredFleet_some isX cls fleet
    obtain ⟨binds, r, bound, number, visit, bay', refreshedRecord, ports, rest⟩ := sweepBinds (a := a) (out := out) ok free
    rw [if_neg (Nat.not_lt.mpr last), endSweep_bound offers binds] at run only
    have starts := planningStarts b ((((swept s b a out).offerFleet b x.identity.fleet).2.modBay b fun y =>
      { y with sweepAt := none }).refreshBound b)
    obtain ⟨state, identities, record⟩ := starts.keeps
    obtain ⟨after', boundAfter, number', visit', slots⟩ := record _ refreshedRecord
    refine ⟨⟨_, _, r, run, bound, number, bay', ?_, fun p => ?_, rest.1, rest.2.1, rest.2.2, starts⟩, _, run, only, state,
      ?_, after', boundAfter, number'.trans number, visit'.trans visit, ?_⟩
    · refine refreshedRecord.trans (congrArg some ?_)
      have slots : (sweptUnits (s.bay b).units a out).map (refreshSlot r.slots) = refreshed r.slots := by
        refine List.map_congr_left fun m _ => ?_
        rw [refreshSlot, slotTest]
        cases r.slots.find? fun o => decide (o.addr = m.addr) <;> rfl
      have splits : keepMembers (fun _ m => memberStays r.slots (sweptUnits (s.bay b).units a out) m) r.splits =
          remaining r.slots r.splits := by
        rw [keepMembers_eq]
        refine congrArg (List.filter _) (List.map_congr_left fun e _ => ?_)
        refine congrArg (fun members => { e with members := members }) (List.filter_congr fun k _ => ?_)
        rw [memberStays, memberTest, replacedUnit_eq]
        cases (sweptUnits (s.bay b).units a out).find? fun m => decide (m.addr = k.addr) with
        | none => rw [Bool.eq_iff_iff]; simp
        | some m => rw [Bool.eq_iff_iff]; simp [replaced]
      rw [BusRecord.refresh, slots, splits]
    · rw [State.port_of_ports ports p, replacedUnit_eq]
    · rw [bay'] at identities
      exact identities
    · exact slots.trans (refresh_addresses r _)

end Sys2Proof

end

/-! Reading and writing the frames of a supervisor port (O55). -/

section

namespace Sys2Proof

open Machine

/-! ### Numbers and their bytes -/

theorem beNat_lt (l : List Byte) : beNat l < 256 ^ l.length := by
  rw [← toBytes_beNat l, beNat_toBytes, length_toBytes]
  exact Nat.mod_lt _ (by positivity)

/-- A field is written back from its number. -/
theorem toBytes_field {l : List Byte} {off len : Nat} (inside : off + len ≤ l.length) :
    toBytes len (field l off len) = (l.drop off).take len := by
  have length : ((l.drop off).take len).length = len := by
    rw [List.length_take, List.length_drop]
    omega
  have back := toBytes_beNat ((l.drop off).take len)
  rwa [length] at back

theorem field_lt (l : List Byte) (off len : Nat) : field l off len < 256 ^ len :=
  (beNat_lt _).trans_le (Nat.pow_le_pow_right (by decide) (List.length_take_le _ _))

/-! ### The command of a request code (section 11.4) -/

theorem code_of_toNat {code : Byte} {n : Nat} (is : code.toNat = n) : code = BitVec.ofNat 8 n := by
  rw [← is, BitVec.ofNat_toNat, BitVec.setWidth_eq]

theorem second_isNotOne {body : List Byte} (off : ¬secondIsOne body = true) : (body[1]? != some 0x01#8) = true := by
  rw [bne, ← secondIsOne, Bool.eq_false_iff.mpr off]
  rfl

/-- The command read by a code carries that code, and is well formed when its body fits a frame. -/
theorem requestOf_facts (p : PortId) (code : Byte) {body : List Byte} (fits : bodyFits body = true) :
    (requestOf p code body).request = some (p, code, body) ∧ (requestOf p code body).wellFormed = true := by
  unfold requestOf
  split
  case h_33 =>
    have unknown : code ∉ requestCodes := fun mem => by
      have isCode : code.toNat ∈ requestCodes.map (·.toNat) := List.mem_map_of_mem mem
      simp only [requestCodes, List.map_cons, List.map_nil, List.mem_cons, List.not_mem_nil, or_false,
        BitVec.toNat_ofNat, Nat.reducePow, Nat.reduceMod] at isCode
      simp_all only [or_self, imp_false]
    exact ⟨rfl, by simp [Instr.wellFormed, fits, unknown]⟩
  case h_23 is =>
    rw [code_of_toNat is]
    split
    case isTrue on => exact ⟨rfl, Bool.and_eq_true_iff.mpr ⟨fits, on⟩⟩
    case isFalse off => exact ⟨rfl, Bool.and_eq_true_iff.mpr ⟨fits, second_isNotOne off⟩⟩
  case h_29 is =>
    rw [code_of_toNat is]
    split
    case isTrue on => exact ⟨rfl, Bool.and_eq_true_iff.mpr ⟨fits, on⟩⟩
    case isFalse off => exact ⟨rfl, Bool.and_eq_true_iff.mpr ⟨fits, second_isNotOne off⟩⟩
  all_goals
    next is => exact ⟨by rw [code_of_toNat is]; rfl, fits⟩

/-- A well-formed request is the command of its code. -/
theorem requestOf_request {i : Instr} {p : PortId} {code : Byte} {body : List Byte}
    (request : i.request = some (p, code, body)) (formed : i.wellFormed = true) :
    requestOf p code body = i ∧ bodyFits body = true := by
  cases i
  case unknownRequest q c l =>
    cases request
    obtain ⟨unknown, fits⟩ := Bool.and_eq_true_iff.mp formed
    refine ⟨?_, fits⟩
    unfold requestOf
    split
    case h_33 => rfl
    all_goals
      next is => exact absurd unknown (by rw [code_of_toNat is]; decide)
  case bayEnableOff q l =>
    cases request
    obtain ⟨fits, off⟩ := Bool.and_eq_true_iff.mp formed
    exact ⟨if_neg (bne_iff_ne.mp off ∘ beq_iff_eq.mp), fits⟩
  case unholdOwn q l =>
    cases request
    obtain ⟨fits, off⟩ := Bool.and_eq_true_iff.mp formed
    exact ⟨if_neg (bne_iff_ne.mp off ∘ beq_iff_eq.mp), fits⟩
  case bayEnableOn q l =>
    cases request
    obtain ⟨fits, on⟩ := Bool.and_eq_true_iff.mp formed
    exact ⟨if_pos on, fits⟩
  case unholdRule q l =>
    cases request
    obtain ⟨fits, on⟩ := Bool.and_eq_true_iff.mp formed
    exact ⟨if_pos on, fits⟩
  all_goals cases request
  all_goals exact ⟨rfl, formed⟩

/-! ### Frames (R173, R174) -/

/-- A whole frame is read by its check: the command of its code, or the error of a wrong CRC. -/
theorem decodeFrame_whole (p : PortId) (code : Byte) {body : List Byte} (fits : bodyFits body = true) (crc : BitVec 16) :
    decodeFrame p ([0xA5#8] ++ frameInner code body ++ toBytes 2 crc.toNat) =
      if crc16 (frameInner code body) = crc then some (requestOf p code body)
      else some (.frameCrcError p code body crc) := by
  have short : body.length ≤ 1100 := of_decide_eq_true fits
  obtain ⟨rest, isRest⟩ : ∃ rest, rest = toBytes 2 body.length ++ (body ++ toBytes 2 crc.toNat) := ⟨_, rfl⟩
  have bytes : [0xA5#8] ++ frameInner code body ++ toBytes 2 crc.toNat = 0xA5#8 :: code :: rest := by
    simp [frameInner, isRest]
  have length : field rest 0 2 = body.length := field_toBytes [] _ rest 0 2 body.length isRest rfl (by omega)
  have size : rest.length = body.length + 4 := by
    rw [isRest, List.length_append, List.length_append, length_toBytes, length_toBytes]
    omega
  have inside : (rest.drop 2).take body.length = body := by
    rw [isRest, List.drop_append_of_le_length (by rw [length_toBytes]), List.drop_of_length_le (by rw [length_toBytes]),
      List.nil_append, List.take_left']
    rfl
  have check : BitVec.ofNat 16 (field rest (body.length + 2) 2) = crc := by
    rw [field_toBytes (toBytes 2 body.length ++ body) [] rest (body.length + 2) 2 crc.toNat (by simp [isRest])
      (by rw [List.length_append, length_toBytes]; omega) crc.isLt, BitVec.ofNat_toNat, BitVec.setWidth_eq]
  rw [bytes, decodeFrame]
  dsimp only
  rw [length, inside, check, if_neg (by simp [size]), if_neg (by omega), if_neg (by simp [size])]

/-- A frame that is taken or has a wrong CRC is written by its code, its body and its CRC. -/
theorem bytes_of_whole {code : Byte} {rest : List Byte} (size : rest.length = field rest 0 2 + 4) :
    0xA5#8 :: code :: rest = [0xA5#8] ++ frameInner code ((rest.drop 2).take (field rest 0 2)) ++
      toBytes 2 (BitVec.ofNat 16 (field rest (field rest 0 2 + 2) 2)).toNat := by
  have head := toBytes_field (l := rest) (off := 0) (len := 2) (by omega)
  have tail := toBytes_field (l := rest) (off := field rest 0 2 + 2) (len := 2) (by omega)
  have crc : field rest (field rest 0 2 + 2) 2 < 2 ^ 16 := field_lt rest _ 2
  generalize field rest 0 2 = n at *
  have length : ((rest.drop 2).take n).length = n := by
    rw [List.length_take, List.length_drop]
    omega
  have last : (rest.drop (n + 2)).take 2 = rest.drop (n + 2) :=
    List.take_of_length_le (by rw [List.length_drop]; omega)
  have whole : rest = rest.take 2 ++ ((rest.drop 2).take n ++ rest.drop (n + 2)) := by
    rw [Nat.add_comm n 2, ← List.drop_drop, List.take_append_drop, List.take_append_drop]
  rw [BitVec.toNat_ofNat, Nat.mod_eq_of_lt crc, tail, last, frameInner, length, head]
  exact congrArg (fun l => 0xA5#8 :: code :: l) (whole.trans (List.append_assoc _ _ _).symm)

/-- What is read is well formed, and a request is what its frame is written from. -/
theorem decodeFrame_sound {p : PortId} {bytes : List Byte} {i : Instr} (read : decodeFrame p bytes = some i) :
    i.wellFormed = true ∧ ∀ (q : PortId) (code : Byte) (body : List Byte), i.request = some (q, code, body) →
      q = p ∧ bytes = encodeFrame code body := by
  unfold decodeFrame at read
  split at read
  case h_2 => exact nomatch read
  case h_1 sync code rest =>
    dsimp only at read
    split at read
    case isTrue => exact nomatch read
    case isFalse starts =>
      split at read
      case isTrue long =>
        split at read
        case isFalse => exact nomatch read
        case isTrue two =>
          cases read
          refine ⟨decide_eq_true ?_, fun q c body request => nomatch request⟩
          have word : field rest 0 2 < 2 ^ 16 := field_lt rest 0 2
          rw [BitVec.toNat_ofNat, Nat.mod_eq_of_lt word]
          exact long
      case isFalse short =>
        split at read
        case isTrue => exact nomatch read
        case isFalse whole =>
          obtain ⟨sized, -⟩ : sync = 0xA5#8 ∧ ¬rest.length < 2 := by simpa using starts
          have bytes := bytes_of_whole (code := code) (not_not.mp whole)
          have fits : bodyFits ((rest.drop 2).take (field rest 0 2)) = true :=
            decide_eq_true ((List.length_take_le _ _).trans (Nat.not_lt.mp short))
          rw [sized, bytes]
          split at read
          case isTrue right =>
            cases read
            obtain ⟨request, formed⟩ := requestOf_facts p code fits
            refine ⟨formed, fun q c body is => ?_⟩
            cases request.symm.trans is
            rw [encodeFrame, right]
            exact ⟨rfl, rfl⟩
          case isFalse wrong =>
            cases read
            exact ⟨Bool.and_eq_true_iff.mpr ⟨fits, bne_iff_ne.mpr wrong⟩, fun q c body request => nomatch request⟩

/-- Settles O55. -/
theorem decodeEncodeAgree : Obligations.DecodeEncodeAgree := by
  unfold Obligations.DecodeEncodeAgree
  refine ⟨fun i p code body request formed => ?_, fun p code body crc formed => ?_, fun p code length formed => ?_,
    fun p bytes i read => decodeFrame_sound read⟩
  · obtain ⟨is, fits⟩ := requestOf_request request formed
    rw [encodeFrame, decodeFrame_whole p code fits, if_pos rfl, is]
  · obtain ⟨fits, wrong⟩ := Bool.and_eq_true_iff.mp formed
    rw [decodeFrame_whole p code fits, if_neg (bne_iff_ne.mp wrong)]
  · have long : 1100 < length.toNat := of_decide_eq_true formed
    have read : field (toBytes 2 length.toNat) 0 2 = length.toNat :=
      field_toBytes [] [] _ 0 2 length.toNat (by simp) rfl length.isLt
    show decodeFrame p (0xA5#8 :: code :: toBytes 2 length.toNat) = _
    rw [decodeFrame]
    dsimp only
    rw [read, if_neg (by simp), if_pos long, if_pos (length_toBytes _ _), BitVec.ofNat_toNat, BitVec.setWidth_eq]

end Sys2Proof

end

/-! The bodies with many fields and the reply frame are read as they are laid out (O56). -/

section

namespace Sys2Proof

open Machine

/-! ### Fields read along a body -/

/-- The field that a body begins with. -/
theorem field_here (len n : Nat) (rest : List Byte) : field (toBytes len n ++ rest) 0 len = n % 256 ^ len := by
  rw [← beNat_toBytes]
  exact field_append [] (toBytes len n) rest 0 len rfl (length_toBytes _ _)

/-- The field that ends a body. -/
theorem field_last (len n : Nat) : field (toBytes len n) 0 len = n % 256 ^ len := by
  rw [← field_here len n [], List.append_nil]

/-- A field behind another one. -/
theorem field_behind {k off : Nat} (len n : Nat) (rest : List Byte) (behind : k ≤ off) :
    field (toBytes k n ++ rest) off len = field rest (off - k) len := by
  rw [field, field, List.drop_append, List.drop_of_length_le (by rw [length_toBytes]; exact behind), length_toBytes,
    List.nil_append]

theorem field_byte_here (x : Byte) (rest : List Byte) : field (x :: rest) 0 1 = x.toNat := by
  simp [field, beNat]

theorem field_byte_behind {off : Nat} (len : Nat) (x : Byte) (rest : List Byte) (behind : 1 ≤ off) :
    field (x :: rest) off len = field rest (off - 1) len := by
  obtain ⟨n, rfl⟩ := Nat.exists_eq_add_of_le' behind
  rfl

/-! ### Codes and what they are read as (R178) -/

theorem flagOf_flagByte (f : Bool) : flagOf (flagByte f).toNat = some f := by
  cases f <;> rfl

theorem actionOf_actionByte (a : RuleAction) : actionOf (actionByte a).toNat = some a := by
  cases a <;> rfl

theorem serialKindOf_serialKindByte (k : SerialKind) : serialKindOf (serialKindByte k).toNat = some k := by
  cases k <;> rfl

theorem flagByte_ne_zero (f : Bool) : ((flagByte f).toNat != 0) = f := by
  cases f <;> rfl

theorem bayOf_val (b : BayId) : bayOf b.val = some b := dif_pos b.isLt

theorem bay_fits (b : BayId) : b.val % 256 = b.val := Nat.mod_eq_of_lt (by omega)

theorem clamp_within {low high n : Nat} (within : low ≤ n ∧ n ≤ high) : clamp low high n = n := by
  rw [clamp, Nat.min_eq_right within.2, Nat.max_eq_right within.1]

/-! ### The bodies -/

theorem parseDepartSet_body (b : BayId) {d : Time} (finite : d < 18446744073709551615) :
    parseDepartSet (departSetBody b d) = some (b, d) := by
  have fits : d % 256 ^ 8 = d := Nat.mod_eq_of_lt (Nat.lt_succ_of_lt finite)
  have bay : field (departSetBody b d) 0 1 = b.val := (field_here 1 b.val _).trans (bay_fits b)
  have time : field (departSetBody b d) 1 8 = d :=
    (field_behind 8 b.val _ (Nat.le_refl 1)).trans ((field_last 8 d).trans fits)
  have length : (departSetBody b d).length = 9 := by simp [departSetBody]
  have other : d ≠ allOnes64 := Nat.ne_of_lt finite
  simp [parseDepartSet, bay, time, length, other, bayOf_val]

theorem parseBegin_body {a : BeginArgs} (id : 1 ≤ a.id ∧ a.id ≤ 65535) (major : a.version.major ≤ 255)
    (minor : a.version.minor ≤ 255) (build : a.version.build ≤ 65535) (cls : 1 ≤ a.cls ∧ a.cls ≤ 31)
    (size : 1 ≤ a.length ∧ a.length ≤ 16777216) : parseBegin a.body = some a := by
  have length : a.body.length = 16 := by simp [BeginArgs.body, versionBytes]
  have idFits : a.id < 65536 := by omega
  have majorFits : a.version.major % 256 = a.version.major := Nat.mod_eq_of_lt (by omega)
  have minorFits : a.version.minor % 256 = a.version.minor := Nat.mod_eq_of_lt (by omega)
  have buildFits : a.version.build % 65536 = a.version.build := Nat.mod_eq_of_lt (by omega)
  have clsFits : a.cls < 256 := by omega
  have sizeFits : a.length < 4294967296 := by omega
  have crcFits : a.crc.toNat < 4294967296 := a.crc.isLt
  obtain ⟨isId, version, isCls, isLength, crc, pinned⟩ : field a.body 0 2 = a.id ∧ versionAt a.body 2 = a.version ∧
      field a.body 6 1 = a.cls ∧ field a.body 7 4 = a.length ∧ field a.body 11 4 = a.crc.toNat ∧
      field a.body 15 1 = (flagByte a.pinned).toNat := by
    simp [BeginArgs.body, versionBytes, versionAt, field_here, field_behind, field_byte_here, idFits, majorFits, minorFits,
      buildFits, clsFits, sizeFits, crcFits]
  simp [parseBegin, length, isId, version, isCls, isLength, crc, pinned, flagOf_flagByte, id, cls, size]

theorem parseConfig_body (b : BayId) {c : BayConfig} (inRange : c.inRange = true) :
    parseConfig (configBody b c) = some (b, c) := by
  obtain ⟨speed, guard, tOpen, check1, check2, switch1, switch2, reply1, reply2, retries, poll1, poll2, ready1, ready2,
    filter1, filter2⟩ := of_decide_eq_true inRange
  have length : (configBody b c).length = 24 := by simp [configBody]
  obtain ⟨bay, isSpeed, isGuard, isOpen, isCheck, isSwitch, isReply, isRetries, isPoll, isReady, isFilter, cutoff, mode⟩ :
      field (configBody b c) 0 1 = b.val ∧ field (configBody b c) 1 1 = c.speed ∧
      field (configBody b c) 2 4 = c.guardTime ∧ field (configBody b c) 6 2 = c.tOpen ∧
      field (configBody b c) 8 2 = c.tCheck ∧ field (configBody b c) 10 4 = c.tSwitch ∧
      field (configBody b c) 14 2 = c.replyTimeout ∧ field (configBody b c) 16 1 = c.retries ∧
      field (configBody b c) 17 2 = c.pollInterval ∧ field (configBody b c) 19 2 = c.notReadyLimit ∧
      field (configBody b c) 21 1 = c.filterLength ∧ field (configBody b c) 22 1 = (flagByte c.ignitionCutoff).toNat ∧
      field (configBody b c) 23 1 = if c.mode = .stop then 0 else 1 := by
    have modeByte : (if c.mode = .stop then 0#8 else 1#8).toNat = if c.mode = .stop then 0 else 1 := by split <;> rfl
    have bFits : b.val < 256 := by omega
    simp [configBody, field_here, field_behind, field_byte_here, field_byte_behind, modeByte, bFits]
    omega
  have guardIn := clamp_within ⟨Nat.zero_le _, guard⟩
  have openIn := clamp_within ⟨Nat.zero_le _, tOpen⟩
  have retriesIn := clamp_within ⟨Nat.zero_le _, retries⟩
  have modeIs : (if c.mode = .stop then DeadlineMode.stop else .warn) = c.mode := by cases c.mode <;> rfl
  simp [parseConfig, length, bay, isSpeed, isGuard, isOpen, isCheck, isSwitch, isReply, isRetries, isPoll, isReady,
    isFilter, cutoff, mode, bayOf_val, speed, guardIn, openIn, clamp_within ⟨check1, check2⟩, clamp_within ⟨switch1, switch2⟩,
    clamp_within ⟨reply1, reply2⟩, retriesIn, clamp_within ⟨poll1, poll2⟩, clamp_within ⟨ready1, ready2⟩,
    clamp_within ⟨filter1, filter2⟩, flagByte_ne_zero, modeIs]

/-! ### PLAN_PUT_RULE -/

/-- The ranges of a well-formed rule's fields (R21). -/
theorem ranges_of_wellFormed {r : Rule} (formed : r.wellFormed = true) :
    (1 ≤ r.cls ∧ r.cls ≤ 31 ∧ r.low ≤ max32 ∧ r.high ≤ max32 ∧ r.group ≤ 7) ∧
    (∀ q : Prereq, r.prereq = some q → 1 ≤ q.cls ∧ q.cls ≤ 31 ∧ q.minimum.major ≤ 255 ∧ q.minimum.minor ≤ 255 ∧
      q.minimum.build ≤ 65535) ∧ ∀ i : Nat, r.image = some i → 1 ≤ i ∧ i ≤ 65535 := by
  unfold Rule.wellFormed at formed
  obtain ⟨both, byAction⟩ := Bool.and_eq_true_iff.mp formed
  obtain ⟨plain, prereq⟩ := Bool.and_eq_true_iff.mp both
  refine ⟨of_decide_eq_true plain, fun q isPrereq => ?_, fun i image => ?_⟩
  · rw [isPrereq] at prereq
    exact of_decide_eq_true prereq
  · rw [image] at byAction
    cases action : r.action with
    | census => simp [action] at byAction
    | flash | flashHold =>
      rw [action] at byAction
      exact of_decide_eq_true byAction

/-- The planned image field of a rule: 0 for none. -/
def imageField (r : Rule) : Nat := match r.image with
  | some i => i
  | none => 0

theorem bytes_eq (r : Rule) : r.bytes = actionByte r.action :: (toBytes 1 r.cls ++ (toBytes 2 r.revision.toNat ++
    (toBytes 2 r.careMask.toNat ++ serialKindByte r.serialKind :: (toBytes 4 r.low ++ (toBytes 4 r.high ++
    (toBytes 2 (imageField r) ++ flagByte r.allowDowngrade :: (toBytes 1 r.group ++ prereqBytes r.prereq))))))) := by
  simp only [Rule.bytes, List.append_assoc, List.cons_append, List.nil_append]
  rfl

theorem length_prereqBytes (q : Option Prereq) : (prereqBytes q).length = 6 := by
  cases q with
  | none => rfl
  | some q => simp [prereqBytes, versionBytes]

/-- The prerequisite fields are read as they are written. -/
theorem prereqOf_bytes {q : Option Prereq} (inRange : ∀ p : Prereq, q = some p → 1 ≤ p.cls ∧ p.cls ≤ 31 ∧
    p.minimum.major ≤ 255 ∧ p.minimum.minor ≤ 255 ∧ p.minimum.build ≤ 65535) :
    prereqOf (field (prereqBytes q) 0 1) (field (prereqBytes q) 1 1) (versionAt (prereqBytes q) 2) = some q := by
  cases q with
  | none => rfl
  | some p =>
    obtain ⟨-, cls, major, minor, build⟩ := inRange p rfl
    have clsFits : p.cls % 256 = p.cls := Nat.mod_eq_of_lt (by omega)
    have majorFits : p.minimum.major % 256 = p.minimum.major := Nat.mod_eq_of_lt (by omega)
    have minorFits : p.minimum.minor % 256 = p.minimum.minor := Nat.mod_eq_of_lt (by omega)
    have buildFits : p.minimum.build % 65536 = p.minimum.build := Nat.mod_eq_of_lt (by omega)
    simp [prereqBytes, versionBytes, versionAt, field_here, field_last, field_behind, field_byte_here, field_byte_behind,
      prereqOf, clsFits, majorFits, minorFits, buildFits]

/-- The image field is read as the rule's image. -/
theorem imageField_eq {r : Rule} (inRange : ∀ i : Nat, r.image = some i → 1 ≤ i ∧ i ≤ 65535) :
    imageField r < 65536 ∧ (if imageField r = 0 then none else some (imageField r)) = r.image := by
  unfold imageField
  cases image : r.image with
  | none => exact ⟨by decide, rfl⟩
  | some i =>
    obtain ⟨low, high⟩ := inRange i image
    exact ⟨Nat.lt_succ_of_le high, if_neg (Nat.ne_of_gt low)⟩

theorem putRuleBody_some (n : Fin 64) (r : Rule) : putRuleBody n (some r) = toBytes 1 n.val ++ 0x01#8 :: r.bytes := by
  simp [putRuleBody]

theorem parseRule_body {n : Fin 64} {r : Rule} (formed : r.wellFormed = true) :
    parseRule (putRuleBody n (some r)) = some r := by
  obtain ⟨⟨-, cls, low, high, group⟩, prereqRange, imageRange⟩ := ranges_of_wellFormed formed
  obtain ⟨imageFits, isImage⟩ := imageField_eq imageRange
  have prereq := prereqOf_bytes prereqRange
  have clsFits : r.cls < 256 := by omega
  have lowFits : r.low < 4294967296 := Nat.lt_succ_of_le low
  have highFits : r.high < 4294967296 := Nat.lt_succ_of_le high
  have groupFits : r.group < 256 := by omega
  have revisionFits : r.revision.toNat < 65536 := r.revision.isLt
  have careFits : r.careMask.toNat < 65536 := r.careMask.isLt
  obtain ⟨body, isBody⟩ : ∃ body, body = putRuleBody n (some r) := ⟨_, rfl⟩
  have layout := isBody.trans ((putRuleBody_some n r).trans (by rw [bytes_eq]))
  obtain ⟨isAction, isCls, isRevision, isCare, isKind, isLow, isHigh, image, downgrade, isGroup⟩ :
      field body 2 1 = (actionByte r.action).toNat ∧ field body 3 1 = r.cls ∧ field body 4 2 = r.revision.toNat ∧
      field body 6 2 = r.careMask.toNat ∧ field body 8 1 = (serialKindByte r.serialKind).toNat ∧
      field body 9 4 = r.low ∧ field body 13 4 = r.high ∧ field body 17 2 = imageField r ∧
      field body 19 1 = (flagByte r.allowDowngrade).toNat ∧ field body 20 1 = r.group := by
    simp [layout, field_here, field_behind, field_byte_here, field_byte_behind, clsFits, lowFits, highFits, groupFits,
      revisionFits, careFits, imageFits]
  obtain ⟨flag, prereqCls, version⟩ : field body 21 1 = field (prereqBytes r.prereq) 0 1 ∧
      field body 22 1 = field (prereqBytes r.prereq) 1 1 ∧ versionAt body 23 = versionAt (prereqBytes r.prereq) 2 := by
    simp [layout, versionAt, field_behind, field_byte_behind]
  rw [← isBody]
  simp [parseRule, isAction, isCls, isRevision, isCare, isKind, isLow, isHigh, image, downgrade, isGroup, flag, prereqCls,
    version, prereq, actionOf_actionByte, serialKindOf_serialKindByte, flagOf_flagByte, isImage, formed]

theorem parsePutRule_body {n : Fin 64} {r : Option Rule} (formed : ∀ q : Rule, r = some q → q.wellFormed = true) :
    parsePutRule (putRuleBody n r) = some (n, r) := by
  have slotFits : n.val < 256 := by omega
  cases r with
  | none =>
    have slot : field (putRuleBody n none) 0 1 = n.val := by simp [putRuleBody, field_here, slotFits]
    have marker : field (putRuleBody n none) 1 1 = 0 := by simp [putRuleBody, field_behind, field_byte_here]
    have length : (putRuleBody n none).length = 2 := by simp [putRuleBody]
    simp [parsePutRule, slot, marker, length]
  | some q =>
    have slot : field (putRuleBody n (some q)) 0 1 = n.val := by simp [putRuleBody_some, field_here, slotFits]
    have marker : field (putRuleBody n (some q)) 1 1 = 1 := by simp [putRuleBody_some, field_behind, field_byte_here]
    have length : (putRuleBody n (some q)).length = 27 := by
      simp [putRuleBody_some, bytes_eq, length_prereqBytes]
    simp [parsePutRule, slot, marker, length, parseRule_body (formed q rfl)]

/-! ### The reply frame (R61, R62) -/

theorem readReply_lineFrame {addr : Nat} (code : Byte) {body : List Byte} (isAddr : addr ≤ 255) (short : body.length ≤ 272) :
    readReply (lineFrame 0x3C#8 addr code body) = some { addr := addr, code := code.toNat, body := body } := by
  obtain ⟨inner, isInner⟩ : ∃ inner, inner = toBytes 1 addr ++ [code] ++ toBytes 2 body.length ++ body := ⟨_, rfl⟩
  obtain ⟨rest, isRest⟩ : ∃ rest, rest = inner ++ toBytes 2 (crc16 inner).toNat := ⟨_, rfl⟩
  have frame : lineFrame 0x3C#8 addr code body = 0x3C#8 :: rest := by
    rw [isRest, isInner]
    rfl
  have addrFits : addr < 256 := by omega
  have lengthFits : body.length < 65536 := by omega
  have size : inner.length = body.length + 4 := by
    rw [isInner]
    simp
    omega
  have isLength : field rest 2 2 = body.length := by
    simp [isRest, isInner, field_here, field_behind, field_byte_behind, lengthFits]
  have first : field rest 0 1 = addr := by simp [isRest, isInner, field_here, addrFits]
  have second : field rest 1 1 = code.toNat := by simp [isRest, isInner, field_behind, field_byte_here]
  have crc : field rest (body.length + 4) 2 = (crc16 inner).toNat :=
    field_toBytes inner [] rest _ 2 _ (by rw [isRest, List.append_nil]) size (crc16 inner).isLt
  have whole : rest.take (body.length + 4) = inner := by rw [isRest, List.take_left' size]
  have inside : (rest.drop 4).take body.length = body := by
    rw [isRest, isInner, List.append_assoc, List.drop_left' (by simp), List.take_left]
  have total : rest.length = body.length + 6 := by rw [isRest, List.length_append, size, length_toBytes]
  rw [frame, readReply]
  rw [isLength, first, second, crc, whole, inside, BitVec.ofNat_toNat, BitVec.setWidth_eq]
  exact if_pos (by simp [short, total])

/-- Settles O56. -/
theorem layoutsRead : Obligations.LayoutsRead := by
  unfold Obligations.LayoutsRead
  refine ⟨fun n r formed => parsePutRule_body formed, fun a id1 id2 major minor build cls1 cls2 size1 size2 => ?_,
    fun b c inRange => parseConfig_body b inRange, fun b d finite => parseDepartSet_body b finite,
    fun addr code body isAddr short => readReply_lineFrame code isAddr short⟩
  exact parseBegin_body ⟨id1, id2⟩ major minor build ⟨cls1, cls2⟩ ⟨size1, size2⟩

end Sys2Proof

end
